-- ==== Sys2Proof/Word.lean ====
section
/-! DEFINITION. The byte of the DB-816: what a lane port and a link carry (00_scope.md, Conventions; R1, R187). -/

namespace Sys2Proof

/-- One byte on air, on a link or in a slot of the record memory (R187). -/
abbrev Byte := BitVec 8

end Sys2Proof
end

