-- ==== Sys2Proof/Syntax.lean ====
section
/-! DEFINITION. The commands of the DB-816: one constructor per row of spec/opcode_table.json, in the table's order.
A request's arguments are no operands of its command: they stand in the payload of the request at the head of its
link's request queue, where the dispatcher reads them (R173). -/

namespace Sys2Proof

/-- The two serial links; link 0 is the trunk link and link 1 the depot link (chapter 10, introduction). -/
inductive Link where
  | trunk
  | depot
deriving DecidableEq, Repr

/-- The level of the TRUNK_RATE strap (00_scope.md, Electrical summary). -/
inductive TrunkRate where
  | baud921600
  | baud3000000
deriving DecidableEq, Repr

/-- One command of the part: a port event, an expiry, a block's step, a line, a link byte, or a request taken. -/
inductive Instr where
  /-- SYNC (R4, R8, R11): a lane takes a SYNC event with its RSSI. -/
  | sync (lane : Fin 8) (rssi : Byte)
  /-- BYTE (R6, R9, R12): a lane takes a BYTE event with its parity-good indication. -/
  | byte (lane : Fin 8) (value : Byte) (parityGood : Bool)
  /-- DROP (R8, R11): a lane takes a DROP event. -/
  | drop (lane : Fin 8)
  /-- GAP_EXPIRY (R13): a lane's byte gap deadline passes. -/
  | gapExpiry (lane : Fin 8)
  /-- DECODER_TAKE (R23): the idle decoder takes the head of the close-order queue. -/
  | decoderTake
  /-- PAIRING_TAKE_FRAME (R41): the pairing unit takes the decoder's offered frame. -/
  | pairingTakeFrame
  /-- PAIR_TIMEOUT (R51): the deadline of the pairing of this meter passes. -/
  | pairTimeout (meterId : Nat)
  /-- MATCHER_TAKE_HEARING (R80): the matcher takes the head hearing. -/
  | matcherTakeHearing
  /-- BUILDER_PASS_RECORD (R141): the builder passes one held record on. -/
  | builderPassRecord
  /-- WRITE_COMPLETION (R143): the write under way completes OK (true) or FAIL. -/
  | writeCompletion (ok : Bool)
  /-- READ_COMPLETION (R146): the read under way completes OK (true) or UNCORRECTABLE. -/
  | readCompletion (ok : Bool)
  /-- SEGMENT_DEADLINE_EXPIRY (R124): a segment's close deadline is reached. -/
  | segmentDeadlineExpiry (segment : Nat)
  /-- CLOSE_WALK_VISIT (R126): the close walk of a segment makes its next visit. -/
  | closeWalkVisit (segment : Nat)
  /-- CLOSE_END (R127): the builder takes the SEGMENT record of a segment. -/
  | closeEnd (segment : Nat)
  /-- ROUTE_END_RECORD (R73): the builder takes the ROUTE record with phase END. -/
  | routeEndRecord
  /-- ROUTE_CLOCK_LIMIT (R76): the route clock has reached its maximum. -/
  | routeClockLimit
  /-- PACING_SLOT_OPEN (R156): the slot interval after the last batch start passes. -/
  | pacingSlotOpen
  /-- DEPOT_TX_FRAME_END (R160): the depot transmitter ends its frame. -/
  | depotTxFrameEnd
  /-- ACK_TIMEOUT (R163): the ack deadline of the batch of this number passes. -/
  | ackTimeout (batch : Nat)
  /-- DOCK_ASSERT (R152). -/
  | dockAssert
  /-- DOCK_DEASSERT (R152). -/
  | dockDeassert
  /-- LINK_BYTE (R171): a link receiver takes one byte. -/
  | linkByte (link : Link) (value : Byte)
  /-- UNKNOWN_REQUEST (R173): a link's dispatcher takes a request of unknown code or wrong length. -/
  | unknownRequest (link : Link)
  /-- IDENTIFY (R175): a link's dispatcher takes this request, as for every row below up to BATCH_NAK. -/
  | identify (link : Link)
  /-- STATUS (R176). -/
  | status (link : Link)
  /-- COUNTERS_READ (R177). -/
  | countersRead (link : Link)
  /-- ENTRY_READ (R178). -/
  | entryRead (link : Link)
  /-- SEGMENT_READ (R179). -/
  | segmentRead (link : Link)
  /-- EVENT_MASK (R181). -/
  | eventMask (link : Link)
  /-- FAULT_CLEAR (R184). -/
  | faultClear (link : Link)
  /-- RESET (R185). -/
  | reset (link : Link)
  /-- LANE_SET (R16, R17). -/
  | laneSet (link : Link)
  /-- FAMILY_SET (R27). -/
  | familySet (link : Link)
  /-- FAMILY_CLEAR (R27). -/
  | familyClear (link : Link)
  /-- SERVICE_SET (R34). -/
  | serviceSet (link : Link)
  /-- BOOK_OPEN (R61, R62). -/
  | bookOpen (link : Link)
  /-- BOOK_ENTRIES (R63, R64). -/
  | bookEntries (link : Link)
  /-- BOOK_CLOSE (R65). -/
  | bookClose (link : Link)
  /-- BOOK_ABORT (R65). -/
  | bookAbort (link : Link)
  /-- ENTRY_MODIFY (R67). -/
  | entryModify (link : Link)
  /-- SEGMENT_MODIFY (R69). -/
  | segmentModify (link : Link)
  /-- ROUTE_START (R71). -/
  | routeStart (link : Link)
  /-- ROUTE_START_EXECUTE (R136): a ROUTE_START held by this link's dispatcher is carried out. -/
  | routeStartExecute (link : Link)
  /-- ROUTE_END (R72). -/
  | routeEnd (link : Link)
  /-- RULES_SET (R113). -/
  | rulesSet (link : Link)
  /-- SEGMENT_SET (R132). -/
  | segmentSet (link : Link)
  /-- SEGMENT_CLOSE (R129). -/
  | segmentClose (link : Link)
  /-- SEGMENT_REOPEN (R130). -/
  | segmentReopen (link : Link)
  /-- CLASS_SET (R140). -/
  | classSet (link : Link)
  /-- ROUTING_SET (R138). -/
  | routingSet (link : Link)
  /-- UPLOAD_OPEN (R155). -/
  | uploadOpen (link : Link)
  /-- UPLOAD_PACE (R165). -/
  | uploadPace (link : Link)
  /-- UPLOAD_STOP (R166). -/
  | uploadStop (link : Link)
  /-- UPLOAD_FINISH (R167). -/
  | uploadFinish (link : Link)
  /-- BATCH_ACK (R161). -/
  | batchAck (link : Link)
  /-- BATCH_NAK (R162). -/
  | batchNak (link : Link)
  /-- TRUNK_TX_FRAME_END (R180): the trunk transmitter ends its frame. -/
  | trunkTxFrameEnd
  /-- RESET_LINE_ASSERT (R185). -/
  | resetLineAssert
  /-- RESET_LINE_RELEASE (R185): the strap is read at that moment. -/
  | resetLineRelease (strap : TrunkRate)
  /-- COLD_RESET (R186): power is applied to the retained domain; the strap is read. -/
  | coldReset (strap : TrunkRate)
deriving DecidableEq, Repr

end Sys2Proof
end

