-- ==== Sys2Proof/Config.lean ====
section
/-! DEFINITION. What the part fixes once (00_scope.md, Capacities; R175) and the choices and values the spec leaves
open, each an opaque constant: three choices applied to a plain counter of State (log entries 15, 16 and 17), and one
encoding applied to the number it encodes (log entry 32). -/

namespace Sys2Proof.Config

/-- Saturation point of every counter, time tag and 32-bit number (00_scope.md, Counters, Time tags). -/
def max32 : Nat := 4294967295

/-- Largest route hour (00_scope.md, Route hours) and largest rate (R101). -/
def max24 : Nat := 16777215

/-- Vendor code of IDENTIFY (R175). -/
def vendorCode : Nat := 0x4954

/-- Part code of IDENTIFY (R175). -/
def partCode : Nat := 0x0816

/-- Silicon revision, 1 for the parts the manual describes (R175). -/
def siliconRevision : Nat := 1

/-- Open pairings of the pairing table (R39). -/
def openPairings : Nat := 16

/-- Places of the foreign cache (R82). -/
def foreignPlaces : Nat := 64

/-- Slots of the record memory (00_scope.md, Capacities; R139). -/
def recordSlots : Nat := 65536

/-- Bytes of one slot of the record memory (00_scope.md, Capacities). -/
def slotBytes : Nat := 64

/-- Places of the append queue (R141). -/
def appendPlaces : Nat := 32

/-- Places of the live queue (R147). -/
def livePlaces : Nat := 128

/-- Places of the event queue (R181). -/
def eventPlaces : Nat := 64

/-- Places of each request queue and of each reply queue (R172, R174). -/
def linkPlaces : Nat := 8

/-- Largest payload of a link frame (R158, R187). -/
def maxPayload : Nat := 1400

/-- FREE VALUE. Where one step both frees the record memory port for an append judging and lets a batch select
records, R145 and R158 let either be taken first: true takes the select first (log entry 15, DESIGN CHOICE). -/
opaque selectBeforeJudging : Nat → Bool

/-- FREE VALUE. Which reset the RESTART event names when power was applied while the RESET line was asserted, a case
R185 and R186 do not state: true names COLD, false WARM_LINE (log entry 16, DESIGN CHOICE). -/
opaque bothResetsNameCold : Nat → Bool

/-- FREE VALUE. A RESET of the depot link takes effect at the moment the link goes DOWN (R185), and so does the end
LINK_LOST of a running upload (R168): true applies the reset first (log entry 17, DESIGN CHOICE). -/
opaque resetBeforeLinkLost : Nat → Bool

/-- FREE VALUE. The 4 bytes a result carries for a number above 4,294,967,295, whose encoding R189 does not state: it gives
4 bytes to every range above 16,777,215 (log entry 32, DESIGN CHOICE). -/
opaque beyondFourBytes : Nat → BitVec 32

end Sys2Proof.Config
end

