-- ==== Sys2Proof/Machine/State.lean ====
section
/-! DEFINITION. The state of the DB-816 as plain data, block by block as 00_scope.md's block overview lists them, and
State.reset. A number the manual only counts or compares is a Nat; the sets it codes as bit sets (R188, R189) are bit
vectors; a field's default here is its value after a cold reset. -/

namespace Sys2Proof.Machine

/-! ## Sets coded as bit sets -/

/-- Canonical meter flags (R26, R188): MAGNET bit 0, TILT 1, COVER 2, METER_REVERSE 3, LEAK 4, LOWBAT 5. -/
abbrev Flags := BitVec 6

/-- Conditions (R112, R188): REVERSE bit 0, EXCESS 1, STAGNANT 2, CLOCK_SKEW 3, DISAGREE 4, MAGNET 5, TILT 6, COVER 7,
METER_REVERSE 8, LEAK 9, LOWBAT 10, HISTORY 11, EXT_REVERSE 12, SERVICE 13. -/
abbrev Conditions := BitVec 14

/-- Marks (R134, R188): LATE bit 0, PAIR_TIMEOUT 1, PAIR_EVICTED 2, PAIR_ABANDONED 3, EXT_PRESENT 4, ROLLOVER 5,
MINOR_REVERSE 6, DAMAGED 7. -/
abbrev Marks := BitVec 8

/-- Options of an entry (R57): WATCH bit 0, HOLD 1, PRIORITY_LIVE 2. -/
abbrev Options := BitVec 3

/-- The event mask (R181), one enable for each maskable kind in the order R181 names them: CAPTURE_FULL bit 0,
SEGMENT_CLOSED 1, ROUTE_STATE 2, CLASS_FULL 3, LIVE_DROP 4, UPLOAD_STATE 5, FAULT 6, EVENT_OVERFLOW 7 (R189; log entry 8,
DEDUCED). -/
abbrev EventMask := BitVec 8

/-- A set of store classes 0..3 (R153). -/
abbrev ClassMask := BitVec 4

/-! ## Lane receivers (R2, section 1.8) -/

/-- Lane state (R2, section 1.3). -/
inductive LaneState where
  | off
  | hunt
  | length
  | body
  | faulted
deriving DecidableEq, Repr

/-- The eight counters of a lane (section 1.8). -/
structure LaneCounters where
  good : Nat := 0
  badCrc : Nat := 0
  short : Nat := 0
  superseded : Nat := 0
  portError : Nat := 0
  lowSignal : Nat := 0
  noDescriptor : Nat := 0
  badLength : Nat := 0
deriving DecidableEq, Repr

/-- The state record of one lane receiver, with its defaults (R2). -/
structure Lane where
  state : LaneState := .off
  enable : Bool := false
  minRssi : Nat := 0
  maxLength : Nat := 60
  gapLimit : Nat := 4
  pendingMinRssi : Option Nat := none
  pendingMaxLength : Option Nat := none
  syncTag : Nat := 0
  syncRssi : Nat := 0
  frameLength : Option Nat := none
  bytesReceived : Nat := 0
  openDescriptor : Option (Fin 128) := none
  gapDeadline : Option Nat := none
  streak : Nat := 0
  counters : LaneCounters := {}
deriving DecidableEq, Repr

/-! ## Capture pool (R19, R21, R22) -/

/-- State of a capture descriptor (R19): FREE, OPEN, CLOSED, DECODING. -/
inductive DescriptorState where
  | free
  | opened
  | closed
  | decoding
deriving DecidableEq, Repr

/-- Outcome of a close (R14). -/
inductive CloseOutcome where
  | good
  | badCrc
  | short
  | superseded
  | portError
  | aborted
deriving DecidableEq, Repr

/-- A capture descriptor; its number is its place in the pool (R19). -/
structure Descriptor where
  state : DescriptorState := .free
  lane : Fin 8 := 0
  syncTag : Nat := 0
  rssi : Nat := 0
  length : Nat := 10
  content : List Byte := []
  crc : List Byte := []
  outcome : Option CloseOutcome := none
  closeTag : Option Nat := none
deriving DecidableEq, Repr

/-- The capture pool: 128 descriptors, the close-order queue and the CAPTURE_FULL armed flag (R19, R21, R22). -/
structure Pool where
  descriptors : Vector Descriptor 128 := .replicate 128 {}
  closeQueue : List (Fin 128) := []
  fullArmed : Bool := true
deriving DecidableEq, Repr

/-! ## Family and service tables (R26, R34) -/

/-- How a register stands in the body (R26). -/
inductive RegisterEncoding where
  | binary3
  | binary4
  | bcd
deriving DecidableEq, Repr

/-- Pairing mode of a family (R26). -/
inductive PairingMode where
  | none
  | extended
deriving DecidableEq, Repr

/-- Bit position of each canonical flag in the flag byte, or absent (R26). -/
structure FlagMap where
  magnet : Option Nat := none
  tilt : Option Nat := none
  cover : Option Nat := none
  meterReverse : Option Nat := none
  leak : Option Nat := none
  lowbat : Option Nat := none
deriving DecidableEq, Repr

/-- A family profile (R26). -/
structure Profile where
  familyCode : Nat
  digits : Nat
  encoding : RegisterEncoding
  registerOffset : Nat
  flagOffset : Option Nat
  flagMap : FlagMap
  serviceOffset : Option Nat
  mode : PairingMode
  window : Nat
  extTamperOffset : Option Nat
  extReverseOffset : Option Nat
  highRate : Nat
  reverseTolerance : Nat
  stagnationHours : Nat
  revisionStep : Nat
deriving DecidableEq, Repr

/-- Action of a service table entry (R34). -/
inductive TableAction where
  | discard
  | note
  | weight
deriving DecidableEq, Repr

/-- An entry of the service table (R34). -/
structure ServiceEntry where
  code : Nat
  action : TableAction
  weight : Nat
  discards : Nat
deriving DecidableEq, Repr

/-! ## Frame decoder (R33, R36) -/

/-- What a service code asks of screening (R35): NOTE, or WEIGHT with the entry's weight. -/
inductive ServiceAction where
  | note
  | weight (w : Nat)
deriving DecidableEq, Repr

/-- A service code with its action (R33). -/
structure ServiceMark where
  code : Nat
  action : ServiceAction
deriving DecidableEq, Repr

/-- Tamper count and reverse volume of an EXTENSION (R32). -/
structure ExtFields where
  tamperCount : Nat
  reverseVolume : Nat
deriving DecidableEq, Repr

/-- The fields every decoded frame holds (R33). -/
structure FrameHead where
  meterId : Nat
  familyIndex : Fin 16
  familyCode : Nat
  mode : PairingMode
  window : Nat
  sequence : Nat
  closeTag : Nat
  rssi : Nat
  lane : Fin 8
deriving DecidableEq, Repr

/-- The fields a READING adds (R33). -/
structure ReadingFields where
  register : Nat
  flags : Flags
  service : Option ServiceMark
deriving DecidableEq, Repr

/-- Kind of a decoded frame with the fields of that kind (R33). -/
inductive FrameBody where
  | reading (fields : ReadingFields)
  | extension (fields : Option ExtFields)
deriving DecidableEq, Repr

/-- A decoded frame (R33). -/
structure DecodedFrame where
  head : FrameHead
  body : FrameBody
deriving DecidableEq, Repr

/-- The decoder counters (R36); the discard counts stand in the service table. -/
structure DecoderCounters where
  rawBadCrc : Nat := 0
  rawShort : Nat := 0
  rawSuperseded : Nat := 0
  rawPortError : Nat := 0
  rawAborted : Nat := 0
  badId : Nat := 0
  unknownFamily : Nat := 0
  frameKind : Nat := 0
  shortBody : Nat := 0
  badRegister : Nat := 0
  decodedReading : Nat := 0
  decodedExtension : Nat := 0
  serviceUnlisted : Nat := 0
deriving DecidableEq, Repr

/-- The frame the decoder offers, with the descriptor it holds in DECODING meanwhile (R24). -/
structure Offer where
  descriptor : Fin 128
  frame : DecodedFrame
deriving DecidableEq, Repr

/-- The frame decoder: idle when it offers nothing (R23, R24). -/
structure Decoder where
  offer : Option Offer := none
  counters : DecoderCounters := {}
deriving DecidableEq, Repr

/-! ## Pairing unit (R39, R41, R42, R52) -/

/-- Pairing mark of a hearing (R42). -/
inductive PairMark where
  | extPresent
  | timeout
  | evicted
  | abandoned
deriving DecidableEq, Repr

/-- An open pairing (R39); meter id, family index and sequence are those of the head. The deadline is a moment of the
timebase (R40). The opening order is the pairing's place in the table, oldest first. -/
structure Pairing where
  head : FrameHead
  reading : ReadingFields
  deadline : Nat
deriving DecidableEq, Repr

/-- A hearing (R42). -/
structure Hearing where
  meterId : Nat
  familyIndex : Fin 16
  familyCode : Nat
  timeTag : Nat
  rssi : Nat
  lane : Fin 8
  register : Nat
  flags : Flags
  service : Option ServiceMark
  ext : Option ExtFields
  mark : Option PairMark
deriving DecidableEq, Repr

/-- The pairing counters (R52). -/
structure PairingCounters where
  passedThrough : Nat := 0
  unexpected : Nat := 0
  opened : Nat := 0
  repeated : Nat := 0
  completed : Nat := 0
  timedOut : Nat := 0
  evicted : Nat := 0
  abandoned : Nat := 0
  orphan : Nat := 0
  mismatch : Nat := 0
deriving DecidableEq, Repr

/-- The pairing unit: pairing table in opening order, hearing queue, counters (R39, R41, R52). -/
structure PairingUnit where
  table : List Pairing := []
  hearings : List Hearing := []
  counters : PairingCounters := {}
deriving DecidableEq, Repr

/-! ## Route book, route state and route clock (R54, R57, R58, R75) -/

/-- Route state (R54). -/
inductive RouteState where
  | empty
  | loading
  | ready
  | running
  | ending
  | ended
deriving DecidableEq, Repr

/-- Foreign policy (R54, R78). -/
inductive ForeignPolicy where
  | ignore
  | first
  | changes
deriving DecidableEq, Repr

/-- The route state record, with its defaults (R54). -/
structure Route where
  state : RouteState := .empty
  id : Nat := 0
  policy : ForeignPolicy := .ignore
  declaredEntries : Nat := 0
  declaredSegments : Nat := 0
  loaded : Nat := 0
  owner : Option Link := none
  startHour : Nat := 0
  heldHearings : Nat := 0
  clockLimitRaised : Bool := false
deriving DecidableEq, Repr

/-- Reference reading and reference hour, present together (R57). -/
structure Reference where
  reading : Nat
  hour : Nat
deriving DecidableEq, Repr

/-- Hearing state of an entry (R58). -/
inductive HearingState where
  | unheard
  | heard
  | missed
  | late
deriving DecidableEq, Repr

/-- Admission of an entry (R59). -/
inductive Admission where
  | collect
  | watch
  | hold
deriving DecidableEq, Repr

/-- The current fields of an entry: those of its latest hearing that was no duplicate (R58). -/
structure CurrentFields where
  register : Nat
  flags : Flags
  ext : Option ExtFields
  timeTag : Nat
deriving DecidableEq, Repr

/-- The reported fields of an entry: those of its latest READING or REVISION record (R58). -/
structure ReportedFields where
  register : Nat
  flags : Flags
  conditions : Conditions
deriving DecidableEq, Repr

/-- An entry of the route book: static fields (R57), then day fields at their load values (R58). Its book index is its
place in the book. -/
structure Entry where
  meterId : Nat
  familyCode : Nat
  familyIndex : Fin 16
  segment : Nat
  options : Options
  reference : Option Reference
  hearing : HearingState := .unheard
  heardCount : Nat := 0
  current : Option CurrentFields := none
  bestRssi : Nat := 0
  reported : Option ReportedFields := none
  recordNumber : Option Nat := none
  revisions : Nat := 0
  dayMaxScore : Nat := 0
  alerted : Conditions := 0
deriving DecidableEq, Repr

/-- The route clock: value and whether it runs (R75). -/
structure Clock where
  value : Nat := 0
  running : Bool := false
deriving DecidableEq, Repr

/-! ## Segment tracker (R119) -/

/-- Segment state (R119, section 7.2). -/
inductive SegmentState where
  | pending
  | active
  | closing
  | closed
deriving DecidableEq, Repr

/-- Close reason (R119, R188). -/
inductive CloseReason where
  | auto
  | complete
  | request
  | routeEnd
deriving DecidableEq, Repr

/-- The MISSED record of a visit that waits for the builder with the fields its visit gave it (R126, log entry 13, DEDUCED). -/
structure WaitingMissed where
  meterId : Nat
  pass : Nat
  timeTag : Nat
deriving DecidableEq, Repr

/-- A segment record (R119). The segment number is its place in the table. -/
structure Segment where
  state : SegmentState := .pending
  pass : Nat := 1
  autoClose : Bool
  quietTime : Nat
  minDwell : Nat
  activation : Option Nat := none
  lastHeard : Option Nat := none
  member : Nat := 0
  unheard : Nat := 0
  heard : Nat := 0
  missed : Nat := 0
  late : Nat := 0
  deadline : Option Nat := none
  deadlineReason : Option CloseReason := none
  closeReason : Option CloseReason := none
  walkPosition : Option Nat := none
  waiting : Option WaitingMissed := none
deriving DecidableEq, Repr

/-! ## Matcher and screening unit (R82, R98, R112, R118) -/

/-- An entry of the foreign cache (R82). -/
structure ForeignEntry where
  meterId : Nat
  register : Nat
  flags : Flags
  alerted : Conditions
deriving DecidableEq, Repr

/-- The matcher: foreign cache in least-recently-used order, oldest first (R82), and counters (R98). -/
structure Matcher where
  cache : List ForeignEntry := []
  noRoute : Nat := 0
  foreignSeen : Nat := 0
  familyMismatch : Nat := 0
  held : Nat := 0
  duplicate : Nat := 0
  absorbed : Nat := 0
  revisionCap : Nat := 0
deriving DecidableEq, Repr

/-- The rule set, with its defaults (R112). -/
structure RuleSet where
  reverse : Nat := 50
  excess : Nat := 40
  stagnant : Nat := 20
  clockSkew : Nat := 0
  disagree : Nat := 35
  magnet : Nat := 40
  tilt : Nat := 25
  cover : Nat := 30
  meterReverse : Nat := 45
  leak : Nat := 0
  lowbat : Nat := 0
  history : Nat := 30
  extReverse : Nat := 45
  service : Nat := 10
  alertThreshold : Nat := 60
  watchThreshold : Nat := 30
deriving DecidableEq, Repr

/-- The screening counters (R118). -/
structure ScreeningCounters where
  screenedBook : Nat := 0
  screenedForeign : Nat := 0
  alertCreated : Nat := 0
  alertRepeated : Nat := 0
  rateSaturated : Nat := 0
deriving DecidableEq, Repr

/-! ## Records (R134, R135) -/

/-- Record kind (R134). -/
inductive RecordKind where
  | reading
  | revision
  | alert
  | foreign
  | missed
  | segment
  | route
deriving DecidableEq, Repr

/-- Body of a READING, and of a REVISION but for its revised number (R135). -/
structure ReadingBody where
  meterId : Nat
  familyCode : Nat
  segment : Nat
  register : Nat
  flags : Flags
  conditions : Conditions
  score : Nat
  bestRssi : Nat
  lane : Fin 8
  advance : Option Nat
  rate : Option Nat
  reverseAmount : Option Nat
  ext : Option ExtFields
  serviceCode : Option Nat
deriving DecidableEq, Repr

/-- Body of a record (R135). -/
inductive RecordBody where
  | reading (fields : ReadingBody)
  | revision (fields : ReadingBody) (revised : Nat)
  | alert (meterId : Nat) (conditions : Conditions) (score threshold : Nat) (reference : Option Nat)
  | foreign (meterId familyCode register : Nat) (flags : Flags) (conditions : Conditions) (score rssi : Nat)
  | missed (meterId segment pass : Nat)
  | segment (segment pass member heard missed late : Nat) (reason : CloseReason) (activation : Option Nat) (closeTime : Nat)
  | routeStart
  | routeEnd (heard missed late heldHearings : Nat)
deriving DecidableEq, Repr

/-- The common head of a record (R134). -/
structure RecordHead where
  number : Nat
  kind : RecordKind
  cls : Fin 4
  routeId : Nat
  timeTag : Nat
  marks : Marks
deriving DecidableEq, Repr

/-- A record (R134, R135). -/
structure Record where
  head : RecordHead
  body : RecordBody
deriving DecidableEq, Repr

/-! ## Record builder and router (R136, R137, R138) -/

/-- A row of the routing table (R138). -/
structure RoutingRow where
  cls : Fin 4
  live : Bool
deriving DecidableEq, Repr

/-- The routing table, one row per kind, with its defaults (R138). -/
structure Routing where
  reading : RoutingRow := ⟨0, false⟩
  revision : RoutingRow := ⟨0, false⟩
  alert : RoutingRow := ⟨1, true⟩
  foreign : RoutingRow := ⟨2, false⟩
  missed : RoutingRow := ⟨1, false⟩
  segment : RoutingRow := ⟨1, true⟩
  route : RoutingRow := ⟨1, true⟩
deriving DecidableEq, Repr

/-- CREATED, one count per record kind (R149). -/
structure CreatedCounts where
  reading : Nat := 0
  revision : Nat := 0
  alert : Nat := 0
  foreign : Nat := 0
  missed : Nat := 0
  segment : Nat := 0
  route : Nat := 0
deriving DecidableEq, Repr

/-- The record builder: next record number, record-number-limit flag (R137), the records it holds in number order
(R136) and its CREATED counts (R149). -/
structure Builder where
  nextNumber : Nat := 1
  limitFlag : Bool := false
  held : List Record := []
  created : CreatedCounts := {}
deriving DecidableEq, Repr

/-! ## Record store (R139 to R146) -/

/-- What a full class does with a new record (R139). -/
inductive Policy where
  | linear
  | ring
deriving DecidableEq, Repr

/-- The settings, flag and counters of a class (R139, R149). Its count, oldest and newest follow from the store index
and the write under way. -/
structure StoreClass where
  quota : Nat
  policy : Policy
  priority : Nat
  fullArmed : Bool := true
  appended : Nat := 0
  refusedFull : Nat := 0
  refusedInFlight : Nat := 0
  overwritten : Nat := 0
deriving DecidableEq, Repr

/-- State of a store record (R145). -/
inductive StoredState where
  | stored
  | inFlight
deriving DecidableEq, Repr

/-- An entry of the store index: a store record's head beside its slot, with the length of its encoding (R134, R158). -/
structure StoreRecord where
  head : RecordHead
  slot : Nat
  length : Nat
  state : StoredState
deriving DecidableEq, Repr

/-- The access the record memory port serves (R141): the write of a record to a slot, or the read of a store record,
with the batch that asked for it, absent once that batch has ended (R159). -/
inductive PortAccess where
  | write (record : Record) (slot : Nat)
  | read (number : Nat) (batch : Option Nat)
deriving DecidableEq, Repr

/-- Store state (R143). -/
inductive StoreState where
  | normal
  | halted
deriving DecidableEq, Repr

/-- The class table's defaults (R139). -/
def defaultClasses : Vector StoreClass 4 :=
  #v[{ quota := 49152, policy := .linear, priority := 1 },
     { quota := 8192, policy := .linear, priority := 3 },
     { quota := 6144, policy := .ring, priority := 0 },
     { quota := 2048, policy := .ring, priority := 0 }]

/-- The record store: class table, store index in record-number order, append queue, port, state, write-failure
streak and counters (R139 to R146, R149). -/
structure Store where
  classes : Vector StoreClass 4 := defaultClasses
  index : List StoreRecord := []
  appendQueue : List Record := []
  port : Option PortAccess := none
  state : StoreState := .normal
  failStreak : Nat := 0
  refusedHalted : Nat := 0
  writeFail : Nat := 0
  readFail : Nat := 0
deriving DecidableEq, Repr

/-! ## Live queue (R147, R148) -/

/-- A live copy, priority or ordinary (R147). -/
structure LiveCopy where
  record : Record
  priority : Bool
deriving DecidableEq, Repr

/-- The live queue, its LIVE_DROP armed flag and its counters (R147, R148, R149). -/
structure LiveQueue where
  queue : List LiveCopy := []
  dropArmed : Bool := true
  sent : Nat := 0
  dropped : Nat := 0
deriving DecidableEq, Repr

/-! ## Depot uploader (R153, R169) -/

/-- Uploader state (R153). -/
inductive UploadState where
  | idle
  | running
  | paused
  | draining
deriving DecidableEq, Repr

/-- Stage of an in-flight batch (R153). -/
inductive BatchStage where
  | reading
  | ready
  | sending
  | waiting
deriving DecidableEq, Repr

/-- How an upload ended (R169). -/
inductive EndReason where
  | stopped
  | finished
  | linkLost
  | depotSilent
  | reset
deriving DecidableEq, Repr

/-- An in-flight batch (R153). `copies` holds the encodings its reads have given, in the order of the records list; the
read position is their number. -/
structure Batch where
  number : Nat
  cls : Fin 4
  records : List Nat
  stage : BatchStage
  copies : List (List Byte)
  ackDeadline : Option Nat
deriving DecidableEq, Repr

/-- The uploader's state record with its progress record (R153, R169). -/
structure Uploader where
  state : UploadState := .idle
  classMask : ClassMask := 0xF
  batchSize : Nat := 16
  window : Nat := 8
  ackTimeout : Nat := 2000
  pacing : Nat := 20
  batches : List Batch := []
  nextNumber : Nat := 0
  lastStart : Option Nat := none
  streak : Nat := 0
  currentClass : Option (Fin 4) := none
  sent : Nat := 0
  released : Nat := 0
  timeouts : Nat := 0
  lastEnd : Option EndReason := none
deriving DecidableEq, Repr

/-! ## Events and faults (R181 to R184) -/

/-- Event kind, in the order of the event table (R181, R189). -/
inductive EventKind where
  | restart
  | fault
  | captureFull
  | segmentClosed
  | routeState
  | classFull
  | liveDrop
  | uploadState
  | eventOverflow
deriving DecidableEq, Repr

/-- An event (R181). -/
structure Event where
  kind : EventKind
  timeTag : Nat
  parameter : Nat
  detail : Nat
deriving DecidableEq, Repr

/-- The event queue, the event mask, the pending lost count and the trunk's event counters (R181, R182). -/
structure EventUnit where
  queue : List Event := []
  mask : EventMask := 0xFF
  pendingLost : Nat := 0
  sent : Nat := 0
  lost : Nat := 0
deriving DecidableEq, Repr

/-- Fault kind, in the order of the fault table (R183, R189). -/
inductive FaultKind where
  | laneFaulted
  | clockLimit
  | recordNumberLimit
  | recordWriteFail
  | storeHalt
  | recordReadFail
  | linkCrc
  | requestDrop
deriving DecidableEq, Repr

/-- Severity of a fault (R183). -/
inductive Severity where
  | attention
  | recoverable
  | halt
deriving DecidableEq, Repr

/-- The block that owns a fault kind (R183). -/
inductive FaultBlock where
  | laneReceivers
  | routeClock
  | recordBuilder
  | recordStore
  | linkInterface
deriving DecidableEq, Repr

/-- The captured fields of the first-fault record (R184). -/
structure CapturedFault where
  kind : FaultKind
  severity : Severity
  block : FaultBlock
  parameter : Nat
  timeTag : Nat
deriving DecidableEq, Repr

/-- The FAULT counts, one per fault kind (R177). -/
structure FaultCounts where
  laneFaulted : Nat := 0
  clockLimit : Nat := 0
  recordNumberLimit : Nat := 0
  recordWriteFail : Nat := 0
  storeHalt : Nat := 0
  recordReadFail : Nat := 0
  linkCrc : Nat := 0
  requestDrop : Nat := 0
deriving DecidableEq, Repr

/-- The first-fault record with its fault count and later-halt flag (R184), and the FAULT counts (R177). -/
structure FaultUnit where
  first : Option CapturedFault := none
  count : Nat := 0
  laterHalt : Bool := false
  counts : FaultCounts := {}
deriving DecidableEq, Repr

/-! ## Link interfaces (R171 to R174, R180) -/

/-- Reply status, in the order of the status table (R174). -/
inductive Status where
  | ok
  | busy
  | wrongState
  | badArgument
  | sequence
  | duplicateId
  | incomplete
  | notFound
  | wrongLink
  | unknownRequest
  | noSuchBatch
deriving DecidableEq, Repr

/-- A request in a request queue: tag and payload (R172). -/
structure RequestFrame where
  tag : Byte
  payload : List Byte
deriving DecidableEq, Repr

/-- A reply: request code, tag, status, and its results encoded as R189 gives (R174). -/
structure Reply where
  code : Byte
  tag : Byte
  status : Status
  results : List Byte
deriving DecidableEq, Repr

/-- A frame in transmission (R160, R180): a reply, an event, a live copy's record, or a batch with its payload. -/
inductive TxFrame where
  | reply (r : Reply)
  | event (e : Event)
  | record (r : Record)
  | batch (number : Nat) (payload : List Byte)
deriving DecidableEq, Repr

/-- What a request dispatcher holds (R173): nothing, a ROUTE_START that waits for the builder (R136), or a RESET that
has been answered (R185). -/
inductive Dispatcher where
  | idle
  | routeStart (tag : Byte) (startHour : Nat)
  | resetting
deriving DecidableEq, Repr

/-- One link interface: bytes its receiver holds, request queue, dispatcher, reply queue, frame in transmission and
link counters (R171 to R174, R177). -/
structure LinkPort where
  rx : List Byte := []
  requests : List RequestFrame := []
  dispatcher : Dispatcher := .idle
  replies : List Reply := []
  tx : Option TxFrame := none
  taken : Nat := 0
  dropped : Nat := 0
  discardKind : Nat := 0
  discardLength : Nat := 0
  discardCrc : Nat := 0
deriving DecidableEq, Repr

/-- Lines and straps (R152, R185, 00_scope.md): the DOCK line, the RESET line, the TRUNK_RATE strap and the rate read
from it at the last reset, and whether power was applied while the RESET line was asserted (log entry 16, DESIGN CHOICE). -/
structure Pins where
  dock : Bool := false
  resetLine : Bool := false
  strap : TrunkRate := .baud921600
  trunkRate : TrunkRate := .baud921600
  coldInReset : Bool := false
deriving DecidableEq, Repr

/-! ## The outcomes a command may have -/

/-- The DB-816 has no fault that stops it: every failure the spec names is a status, a counter, an event or a FAULT
event of State. The type has no constructor. -/
inductive Fault where
deriving DecidableEq, Repr

/-- The one refusal: a command the model gives no meaning. Raised by an arm of exec only; no arm raises it. Safe. -/
inductive Refusal where
  | notModelled (mnemonic : String)
deriving DecidableEq, Repr

/-! ## The machine -/

/-- The whole state of the part; a field's default is its value after a cold reset. -/
structure State where
  /-- The eight lane receivers (R2). -/
  lanes : Vector Lane 8 := .replicate 8 {}
  /-- The capture pool (R19 to R22). -/
  pool : Pool := {}
  /-- The family table (R26). -/
  families : Vector (Option Profile) 16 := .replicate 16 none
  /-- The service table (R34). -/
  services : Vector (Option ServiceEntry) 16 := .replicate 16 none
  /-- The frame decoder (R23, R24, R36). -/
  decoder : Decoder := {}
  /-- The pairing unit (R39 to R42, R52). -/
  pairing : PairingUnit := {}
  /-- The route state record (R54). -/
  route : Route := {}
  /-- The route book in book order (R57, R58). -/
  book : List Entry := []
  /-- The route clock (R75). -/
  clock : Clock := {}
  /-- The segment table (R119). -/
  segments : List Segment := []
  /-- The matcher (R82, R98). -/
  matcher : Matcher := {}
  /-- The rule set (R112). -/
  rules : RuleSet := {}
  /-- The screening counters (R118). -/
  screening : ScreeningCounters := {}
  /-- The routing table (R138). -/
  routing : Routing := {}
  /-- The record builder (R136, R137). -/
  builder : Builder := {}
  /-- The record store (R139 to R146). -/
  store : Store := {}
  /-- The record memory, byte by byte (00_scope.md, R188), in canonical form. -/
  memory : List Host.Cell := []
  /-- The live queue (R147, R148). -/
  live : LiveQueue := {}
  /-- The depot uploader (R153, R169). -/
  uploader : Uploader := {}
  /-- The event queue and its mask (R181, R182). -/
  events : EventUnit := {}
  /-- The first-fault record and FAULT counts (R183, R184). -/
  faults : FaultUnit := {}
  /-- The trunk link interface (R171 to R174, R180). -/
  trunk : LinkPort := {}
  /-- The depot link interface (R171 to R174, R160). -/
  depot : LinkPort := {}
  /-- The depot link state: UP or DOWN (R152). -/
  depotUp : Bool := false
  /-- Lines and straps. -/
  pins : Pins := {}
  /-- The part's millisecond timebase (R13, R40, R75). -/
  timebase : Nat := 0
  /-- The MODEL's own: how many open choices have been drawn (log entries 15 to 17). -/
  freeCounter : Nat := 0
  /-- The MODEL's own: the commands that wait, first in, first out. -/
  pending : List Instr := []
deriving DecidableEq, Repr

/-! ## Named updates, one per field -/

/-- Replace lanes. -/
def State.setLanes (s : State) (x : Vector Lane 8) : State := { s with lanes := x }

/-- Replace pool. -/
def State.setPool (s : State) (x : Pool) : State := { s with pool := x }

/-- Replace families. -/
def State.setFamilies (s : State) (x : Vector (Option Profile) 16) : State := { s with families := x }

/-- Replace services. -/
def State.setServices (s : State) (x : Vector (Option ServiceEntry) 16) : State := { s with services := x }

/-- Replace decoder. -/
def State.setDecoder (s : State) (x : Decoder) : State := { s with decoder := x }

/-- Replace pairing. -/
def State.setPairing (s : State) (x : PairingUnit) : State := { s with pairing := x }

/-- Replace route. -/
def State.setRoute (s : State) (x : Route) : State := { s with route := x }

/-- Replace book. -/
def State.setBook (s : State) (x : List Entry) : State := { s with book := x }

/-- Replace clock. -/
def State.setClock (s : State) (x : Clock) : State := { s with clock := x }

/-- Replace segments. -/
def State.setSegments (s : State) (x : List Segment) : State := { s with segments := x }

/-- Replace matcher. -/
def State.setMatcher (s : State) (x : Matcher) : State := { s with matcher := x }

/-- Replace rules. -/
def State.setRules (s : State) (x : RuleSet) : State := { s with rules := x }

/-- Replace screening. -/
def State.setScreening (s : State) (x : ScreeningCounters) : State := { s with screening := x }

/-- Replace routing. -/
def State.setRouting (s : State) (x : Routing) : State := { s with routing := x }

/-- Replace builder. -/
def State.setBuilder (s : State) (x : Builder) : State := { s with builder := x }

/-- Replace store. -/
def State.setStore (s : State) (x : Store) : State := { s with store := x }

/-- Replace memory. -/
def State.setMemory (s : State) (x : List Host.Cell) : State := { s with memory := x }

/-- Replace live. -/
def State.setLive (s : State) (x : LiveQueue) : State := { s with live := x }

/-- Replace uploader. -/
def State.setUploader (s : State) (x : Uploader) : State := { s with uploader := x }

/-- Replace events. -/
def State.setEvents (s : State) (x : EventUnit) : State := { s with events := x }

/-- Replace faults. -/
def State.setFaults (s : State) (x : FaultUnit) : State := { s with faults := x }

/-- Replace trunk. -/
def State.setTrunk (s : State) (x : LinkPort) : State := { s with trunk := x }

/-- Replace depot. -/
def State.setDepot (s : State) (x : LinkPort) : State := { s with depot := x }

/-- Replace depotUp. -/
def State.setDepotUp (s : State) (x : Bool) : State := { s with depotUp := x }

/-- Replace pins. -/
def State.setPins (s : State) (x : Pins) : State := { s with pins := x }

/-- Replace timebase. -/
def State.setTimebase (s : State) (x : Nat) : State := { s with timebase := x }

/-- Replace freeCounter. -/
def State.setFreeCounter (s : State) (x : Nat) : State := { s with freeCounter := x }

/-- Replace pending. -/
def State.setPending (s : State) (x : List Instr) : State := { s with pending := x }

/-- The RESTART event after a cold reset: time tag 0, next record number 1, reset kind COLD (R186, R189). -/
def coldRestart : Event := { kind := .restart, timeTag := 0, parameter := 1, detail := 0 }

/-- The part right after a cold reset (R18, R25, R37, R53, R54, R79, R112, R119, R138, R139, R151, R153, R170, R184,
R186): every block at its reset value. RESTART, the first event raised, has been taken by the free trunk transmitter
(R180, R186; log entry 3, DESIGN CHOICE). -/
def State.reset : State :=
  { events := { sent := 1 }, trunk := { tx := some (.event coldRestart) } }

end Sys2Proof.Machine
end

