-- ==== Sys2Proof/Machine/Bytes.lean ====
section
/-! DEFINITION. Byte order, the CRC of R10, and the record memory as a canonical list of cells (00_scope.md, R187, R188). -/

namespace Sys2Proof.Machine

/-- A number as `width` bytes, high byte first (R187). -/
def bigEndian : Nat → Nat → List Byte
  | 0, _ => []
  | width + 1, n => BitVec.ofNat 8 (n / 256 ^ width) :: bigEndian width n

/-- The unsigned number that bytes spell, high byte first (R30, R187). -/
def fromBigEndian (bytes : List Byte) : Nat :=
  bytes.foldl (fun acc b => acc * 256 + b.toNat) 0

/-- The `width` bytes from `offset` on; a byte past the end counts as 0. -/
def bytesAt (bytes : List Byte) (offset width : Nat) : List Byte :=
  (List.range width).map (fun k => bytes.getD (offset + k) 0)

/-- The number spelt by the `width` bytes from `offset` on. -/
def numberAt (bytes : List Byte) (offset width : Nat) : Nat :=
  fromBigEndian (bytesAt bytes offset width)

/-- A result of 4 bytes. R189 gives 4 bytes to every range above 16,777,215; how a number above 4,294,967,295 is put into
them it does not state, so those bytes are free (log entry 32, DESIGN CHOICE). -/
def fourBytes (n : Nat) : List Byte :=
  bigEndian 4 (if n ≤ Config.max32 then n else (Config.beyondFourBytes n).toNat)

/-- One bit of the CRC computation: shift, and combine with 0x1021 when the bit and the highest bit differed (R10). -/
def crcBit (reg : BitVec 16) (bit : Bool) : BitVec 16 :=
  if reg.msb != bit then (reg <<< 1) ^^^ 0x1021 else reg <<< 1

/-- One byte of the CRC computation, its highest bit first (R10). -/
def crcByte (reg : BitVec 16) (b : Byte) : BitVec 16 :=
  [7, 6, 5, 4, 3, 2, 1, 0].foldl (fun r k => crcBit r (b.getLsbD k)) reg

/-- The CRC of R10: register 0xFFFF at the start, no final inversion. -/
def crc16 (bytes : List Byte) : BitVec 16 :=
  bytes.foldl crcByte 0xFFFF

/-- The CRC as it is sent: high byte first (R10). -/
def crcBytes (bytes : List Byte) : List Byte :=
  bigEndian 2 (crc16 bytes).toNat

/-! ## The record memory -/

/-- What a byte of the record memory that no record has been written to reads as (log entry 14, DESIGN CHOICE). -/
def blankByte : Byte := 0

/-- The canonical form: addresses strictly rising, none outside the memory, no cell equal to a blank byte. -/
def memoryWf : List Host.Cell → Bool
  | [] => true
  | (a, b) :: rest =>
    decide (b ≠ blankByte) && decide (a < Config.recordSlots * Config.slotBytes)
      && rest.all (fun c => decide (a < c.1)) && memoryWf rest

/-- The byte at an address. -/
def readByte (mem : List Host.Cell) (a : Nat) : Byte :=
  match mem with
  | [] => blankByte
  | (a', b) :: rest => if a' = a then b else readByte rest a

/-- Put a byte in its place, or take the cell out when the byte is blank. -/
def writeByte (mem : List Host.Cell) (a : Nat) (b : Byte) : List Host.Cell :=
  match mem with
  | [] => if b = blankByte then [] else [(a, b)]
  | (a', b') :: rest =>
    if a < a' then (if b = blankByte then mem else (a, b) :: mem)
    else if a = a' then (if b = blankByte then rest else (a, b) :: rest)
    else (a', b') :: writeByte rest a b

/-- Put bytes at consecutive addresses. -/
def writeBytes (mem : List Host.Cell) (a : Nat) : List Byte → List Host.Cell
  | [] => mem
  | b :: rest => writeBytes (writeByte mem a b) (a + 1) rest

/-- Write a slot: an encoding followed by bytes of 0 up to 64 (R188). A slot the memory does not have takes nothing. -/
def writeSlot (mem : List Host.Cell) (slot : Nat) (encoding : List Byte) : List Host.Cell :=
  if slot < Config.recordSlots then
    writeBytes mem (slot * Config.slotBytes)
      ((encoding ++ List.replicate Config.slotBytes 0).take Config.slotBytes)
  else mem

/-- The first `length` bytes of a slot: the encoding the store keeps there (R188). -/
def readSlot (mem : List Host.Cell) (slot length : Nat) : List Byte :=
  (List.range length).map (fun k => readByte mem (slot * Config.slotBytes + k))

end Sys2Proof.Machine
end

