-- ==== Sys2Proof/Machine/Ops.lean ====
section
/-! DEFINITION. Operations the blocks share: saturating counts, codes of named values (R189), events (R181, R182),
faults (R183, R184), accessors of lanes, descriptors and links, the transmitters' choice (R160, R180), and replies
(R174). -/

namespace Sys2Proof.Machine

/-! ## Counts -/

/-- Add 1 to a 32-bit saturating count (00_scope.md, Counters). -/
def bump (n : Nat) : Nat := if n < Config.max32 then n + 1 else Config.max32

/-- Add `k` to a 32-bit saturating count. -/
def bumpBy (n k : Nat) : Nat := min (n + k) Config.max32

/-- Add 1 up to a limit that holds. -/
def bumpTo (limit n : Nat) : Nat := if n < limit then n + 1 else limit

/-! ## Codes of named values (R188, R189) -/

/-- Link number of a parameter (chapter 10, introduction). -/
def linkNumber : Link → Nat
  | .trunk => 0
  | .depot => 1

/-- Event kind code (R189). -/
def eventCode : EventKind → Nat
  | .restart => 0
  | .fault => 1
  | .captureFull => 2
  | .segmentClosed => 3
  | .routeState => 4
  | .classFull => 5
  | .liveDrop => 6
  | .uploadState => 7
  | .eventOverflow => 8

/-- Fault kind code (R189). -/
def faultCode : FaultKind → Nat
  | .laneFaulted => 0
  | .clockLimit => 1
  | .recordNumberLimit => 2
  | .recordWriteFail => 3
  | .storeHalt => 4
  | .recordReadFail => 5
  | .linkCrc => 6
  | .requestDrop => 7

/-- Route state code (R189). -/
def routeStateCode : RouteState → Nat
  | .empty => 0
  | .loading => 1
  | .ready => 2
  | .running => 3
  | .ending => 4
  | .ended => 5

/-- Uploader state code (R189). -/
def uploadStateCode : UploadState → Nat
  | .idle => 0
  | .running => 1
  | .paused => 2
  | .draining => 3

/-- End reason code (R189); RESET, which no event carries, follows in the order of R169. -/
def endReasonCode : EndReason → Nat
  | .stopped => 0
  | .finished => 1
  | .linkLost => 2
  | .depotSilent => 3
  | .reset => 4

/-- Close reason code (R188). -/
def closeReasonCode : CloseReason → Nat
  | .auto => 0
  | .complete => 1
  | .request => 2
  | .routeEnd => 3

/-- Record kind code (R188). -/
def recordKindCode : RecordKind → Nat
  | .reading => 0
  | .revision => 1
  | .alert => 2
  | .foreign => 3
  | .missed => 4
  | .segment => 5
  | .route => 6

/-- Reply status code (R189). -/
def statusCode : Status → Nat
  | .ok => 0
  | .busy => 1
  | .wrongState => 2
  | .badArgument => 3
  | .sequence => 4
  | .duplicateId => 5
  | .incomplete => 6
  | .notFound => 7
  | .wrongLink => 8
  | .unknownRequest => 9
  | .noSuchBatch => 10

/-! ## Lanes, descriptors, segments and links -/

/-- Replace one lane's state record. -/
def State.setLane (s : State) (i : Fin 8) (l : Lane) : State := s.setLanes (s.lanes.set i l)

/-- Replace one capture descriptor. -/
def State.setDescriptor (s : State) (d : Fin 128) (x : Descriptor) : State :=
  s.setPool { s.pool with descriptors := s.pool.descriptors.set d x }

/-- How many descriptors are in a state (R19, R176). -/
def descriptorCount (p : Pool) (st : DescriptorState) : Nat :=
  p.descriptors.toList.countP (fun d => decide (d.state = st))

/-- Replace one segment record, if the table has it. -/
def State.setSegment (s : State) (n : Nat) (g : Segment) : State := s.setSegments (s.segments.set n g)

/-- The interface of a link. -/
def State.link (s : State) : Link → LinkPort
  | .trunk => s.trunk
  | .depot => s.depot

/-- Replace the interface of a link. -/
def State.setLink (s : State) : Link → LinkPort → State
  | .trunk, p => s.setTrunk p
  | .depot, p => s.setDepot p

/-! ## Events (R181, R182) -/

/-- The bit of the event mask that enables a kind, in the order in which R181 names the maskable kinds; RESTART has no
enable (R181, R189; log entry 8, DEDUCED). -/
def maskBit : EventKind → Option Nat
  | .restart => none
  | .captureFull => some 0
  | .segmentClosed => some 1
  | .routeState => some 2
  | .classFull => some 3
  | .liveDrop => some 4
  | .uploadState => some 5
  | .fault => some 6
  | .eventOverflow => some 7

/-- Whether events of this kind are queued: RESTART always, another kind when its enable is set (R181). -/
def eventEnabled (u : EventUnit) (k : EventKind) : Bool := (maskBit k).all (fun n => u.mask.getLsbD n)

/-- Queue an event, lose it in a full queue, or leave a masked one out (R181, R182). -/
def postEvent (u : EventUnit) (e : Event) : EventUnit :=
  if eventEnabled u e.kind then
    if u.queue.length < Config.eventPlaces then { u with queue := u.queue ++ [e] }
    else { u with lost := bump u.lost, pendingLost := bump u.pendingLost }
  else u

/-- A block raises an event, tagged with the route clock value (R181). -/
def raiseEvent (s : State) (kind : EventKind) (parameter detail : Nat) : State :=
  s.setEvents (postEvent s.events { kind := kind, timeTag := s.clock.value, parameter := parameter, detail := detail })

/-- The transmitter takes the head event; emptying the queue over a pending loss raises EVENT_OVERFLOW (R180, R182). -/
def takeEvent (u : EventUnit) (rest : List Event) (clock : Nat) : EventUnit :=
  let v := { u with queue := rest, sent := bump u.sent }
  if rest.isEmpty && decide (0 < u.pendingLost) then
    postEvent { v with pendingLost := 0 }
      { kind := .eventOverflow, timeTag := clock, parameter := u.pendingLost, detail := 0 }
  else v

/-! ## Faults (R183, R184) -/

/-- Severity of each fault kind (R183). -/
def faultSeverity : FaultKind → Severity
  | .laneFaulted => .recoverable
  | .clockLimit => .attention
  | .recordNumberLimit => .halt
  | .recordWriteFail => .recoverable
  | .storeHalt => .halt
  | .recordReadFail => .recoverable
  | .linkCrc => .attention
  | .requestDrop => .attention

/-- Owning block of each fault kind (R183). -/
def faultBlock : FaultKind → FaultBlock
  | .laneFaulted => .laneReceivers
  | .clockLimit => .routeClock
  | .recordNumberLimit => .recordBuilder
  | .recordWriteFail => .recordStore
  | .storeHalt => .recordStore
  | .recordReadFail => .recordStore
  | .linkCrc => .linkInterface
  | .requestDrop => .linkInterface

/-- Add 1 to the FAULT count of a kind (R183). -/
def bumpFault (c : FaultCounts) : FaultKind → FaultCounts
  | .laneFaulted => { c with laneFaulted := bump c.laneFaulted }
  | .clockLimit => { c with clockLimit := bump c.clockLimit }
  | .recordNumberLimit => { c with recordNumberLimit := bump c.recordNumberLimit }
  | .recordWriteFail => { c with recordWriteFail := bump c.recordWriteFail }
  | .storeHalt => { c with storeHalt := bump c.storeHalt }
  | .recordReadFail => { c with recordReadFail := bump c.recordReadFail }
  | .linkCrc => { c with linkCrc := bump c.linkCrc }
  | .requestDrop => { c with requestDrop := bump c.requestDrop }

/-- A RECOVERABLE or HALT fault at the first-fault record: it fills an empty record, else it is counted (R184). -/
def captureFault (u : FaultUnit) (kind : FaultKind) (parameter timeTag : Nat) : FaultUnit :=
  match u.first with
  | none =>
    { u with
      first := some { kind := kind, severity := faultSeverity kind, block := faultBlock kind,
                      parameter := parameter, timeTag := timeTag }
      count := 0
      laterHalt := false }
  | some _ =>
    { u with
      count := bumpTo 65535 u.count
      laterHalt := u.laterHalt || decide (faultSeverity kind = .halt) }

/-- What a fault does to the fault record: its FAULT count, and the first-fault record unless it is ATTENTION (R183). -/
def recordFault (u : FaultUnit) (kind : FaultKind) (parameter timeTag : Nat) : FaultUnit :=
  let v := { u with counts := bumpFault u.counts kind }
  if faultSeverity kind = .attention then v else captureFault v kind parameter timeTag

/-- A block raises a fault: counted, captured unless ATTENTION, and sent as a FAULT event (R183). -/
def raiseFault (s : State) (kind : FaultKind) (parameter : Nat) : State :=
  raiseEvent (s.setFaults (recordFault s.faults kind parameter s.clock.value)) .fault parameter (faultCode kind)

/-! ## The transmitters (R160, R180) -/

/-- The live queue as the transmitter takes its head copy: emptying it arms LIVE_DROP (R147, R148). -/
def takeLive (q : LiveQueue) (rest : List LiveCopy) : LiveQueue :=
  { q with queue := rest, sent := bump q.sent, dropArmed := q.dropArmed || rest.isEmpty }

/-- A free trunk transmitter takes the next reply, else the next event, else the next live copy (R180). -/
def kickTrunk (s : State) : State :=
  match s.trunk.tx with
  | some _ => s
  | none =>
    match s.trunk.replies with
    | r :: rest => s.setTrunk { s.trunk with replies := rest, tx := some (.reply r) }
    | [] =>
      match s.events.queue with
      | e :: rest =>
        (s.setTrunk { s.trunk with tx := some (.event e) }).setEvents (takeEvent s.events rest s.clock.value)
      | [] =>
        match s.live.queue with
        | c :: rest =>
          (s.setTrunk { s.trunk with tx := some (.record c.record) }).setLive (takeLive s.live rest)
        | [] => s

/-- The payload of a batch frame: number, class, record count, then the encodings of its records (R160, R188). -/
def batchPayload (b : Batch) : List Byte :=
  bigEndian 1 b.number ++ bigEndian 1 b.cls.val ++ bigEndian 1 b.copies.length ++ b.copies.flatten

/-- Move the first READY batch to SENDING. -/
def startSending : List Batch → List Batch
  | [] => []
  | b :: rest => if b.stage = .ready then { b with stage := .sending } :: rest else b :: startSending rest

/-- A free depot transmitter of a link that is UP takes the next reply, else the READY batch formed earliest (R160). -/
def kickDepot (s : State) : State :=
  if s.depotUp then
    match s.depot.tx with
    | some _ => s
    | none =>
      match s.depot.replies with
      | r :: rest => s.setDepot { s.depot with replies := rest, tx := some (.reply r) }
      | [] =>
        match s.uploader.batches.find? (fun b => decide (b.stage = .ready)) with
        | some b =>
          (s.setDepot { s.depot with tx := some (.batch b.number (batchPayload b)) }).setUploader
            { s.uploader with batches := startSending s.uploader.batches }
        | none => s
  else s

/-- Both transmitters choose, each if it is free. -/
def kickBoth (s : State) : State := kickTrunk (kickDepot s)

/-! ## Replies (R174) -/

/-- Put a reply at the tail of its link's reply queue (R174). -/
def pushReply (s : State) (k : Link) (r : Reply) : State :=
  s.setLink k { s.link k with replies := (s.link k).replies ++ [r] }

/-! ## Route state (R55) -/

/-- Change the route state record to one with a new route state, and send ROUTE_STATE (R55). -/
def changeRoute (s : State) (r : Route) : State :=
  raiseEvent (s.setRoute r) .routeState r.id (routeStateCode r.state)

/-! ## Outcomes -/

/-- A command's effect, unless the RESET line holds the part in warm reset (R185; log entry 18, DEDUCED). -/
def whenRunning (s : State) (f : State → State) : Host.Outcome State Fault Refusal :=
  .next (if s.pins.resetLine then s else f s)

end Sys2Proof.Machine
end

