-- ==== Sys2Proof/Machine/Records.lean ====
section
/-! DEFINITION. Records: kinds, marks and the encoding of R188 (R134, R135, R188). -/

namespace Sys2Proof.Machine

/-- Kind of a body (R135). -/
def kindOf : RecordBody → RecordKind
  | .reading _ => .reading
  | .revision _ _ => .revision
  | .alert _ _ _ _ _ => .alert
  | .foreign _ _ _ _ _ _ _ => .foreign
  | .missed _ _ _ => .missed
  | .segment _ _ _ _ _ _ _ _ _ => .segment
  | .routeStart => .route
  | .routeEnd _ _ _ _ => .route

/-- LATE (R134). -/
def markLate : Marks := BitVec.twoPow 8 0
/-- ROLLOVER (R134). -/
def markRollover : Marks := BitVec.twoPow 8 5
/-- MINOR_REVERSE (R134). -/
def markMinorReverse : Marks := BitVec.twoPow 8 6
/-- DAMAGED (R134, R146). -/
def markDamaged : Marks := BitVec.twoPow 8 7

/-- A pairing mark as a mark of a record (R42, R134). -/
def markOfPair : Option PairMark → Marks
  | none => 0
  | some .timeout => BitVec.twoPow 8 1
  | some .evicted => BitVec.twoPow 8 2
  | some .abandoned => BitVec.twoPow 8 3
  | some .extPresent => BitVec.twoPow 8 4

/-! ## Encoding (R188) -/

/-- The 13 bytes of a head. -/
def encodeHead (h : RecordHead) : List Byte :=
  bigEndian 4 h.number ++ bigEndian 1 (recordKindCode h.kind) ++ bigEndian 1 h.cls.val ++ bigEndian 2 h.routeId
    ++ bigEndian 4 h.timeTag ++ [h.marks]

/-- An optional field: its bytes when present. -/
def optionalBytes (width : Nat) : Option Nat → List Byte
  | some n => bigEndian width n
  | none => []

/-- A presence byte from its bits, bit 0 first. -/
def presenceByte (bits : List Bool) : Byte :=
  BitVec.ofNat 8 (bits.foldr (fun b acc => b.toNat + 2 * acc) 0)

/-- Tamper count and reverse volume as one optional pair. -/
def encodeExt : Option ExtFields → List Byte
  | some x => bigEndian 1 x.tamperCount ++ bigEndian 2 x.reverseVolume
  | none => []

/-- Body of a READING, and of a REVISION up to its optional fields. -/
def encodeReading (f : ReadingBody) : List Byte :=
  bigEndian 4 f.meterId ++ bigEndian 1 f.familyCode ++ bigEndian 1 f.segment ++ bigEndian 4 f.register
    ++ bigEndian 1 f.flags.toNat ++ bigEndian 2 f.conditions.toNat ++ bigEndian 1 f.score ++ bigEndian 1 f.bestRssi
    ++ bigEndian 1 f.lane.val
    ++ [presenceByte [f.advance.isSome, f.rate.isSome, f.reverseAmount.isSome, f.ext.isSome, f.serviceCode.isSome]]
    ++ optionalBytes 4 f.advance ++ optionalBytes 3 f.rate ++ optionalBytes 4 f.reverseAmount ++ encodeExt f.ext
    ++ optionalBytes 1 f.serviceCode

/-- Body of a record (R188). -/
def encodeBody : RecordBody → List Byte
  | .reading f => encodeReading f
  | .revision f revised => encodeReading f ++ bigEndian 4 revised
  | .alert meter c score threshold reference =>
    bigEndian 4 meter ++ bigEndian 2 c.toNat ++ bigEndian 1 score ++ bigEndian 1 threshold
      ++ [presenceByte [reference.isSome]] ++ optionalBytes 4 reference
  | .foreign meter code register flags c score rssi =>
    bigEndian 4 meter ++ bigEndian 1 code ++ bigEndian 4 register ++ bigEndian 1 flags.toNat ++ bigEndian 2 c.toNat
      ++ bigEndian 1 score ++ bigEndian 1 rssi
  | .missed meter segment pass => bigEndian 4 meter ++ bigEndian 1 segment ++ bigEndian 1 pass
  | .segment segment pass member heard missed late reason activation closeTime =>
    bigEndian 1 segment ++ bigEndian 1 pass ++ bigEndian 2 member ++ bigEndian 2 heard ++ bigEndian 2 missed
      ++ bigEndian 2 late ++ bigEndian 1 (closeReasonCode reason) ++ [presenceByte [activation.isSome]]
      ++ optionalBytes 4 activation ++ bigEndian 4 closeTime
  | .routeStart => bigEndian 1 0
  | .routeEnd heard missed late held =>
    bigEndian 1 1 ++ bigEndian 2 heard ++ bigEndian 2 missed ++ bigEndian 2 late ++ bigEndian 4 held

/-- A record's encoding: length byte, head, body (R188). -/
def encodeRecord (r : Record) : List Byte :=
  let rest := encodeHead r.head ++ encodeBody r.body
  bigEndian 1 (rest.length + 1) ++ rest

/-- The copy of a record whose read was uncorrectable: length byte 14 and the head with DAMAGED (R146, R188). -/
def encodeDamaged (h : RecordHead) : List Byte :=
  bigEndian 1 14 ++ encodeHead { h with marks := h.marks ||| markDamaged }

end Sys2Proof.Machine
end

