-- ==== Sys2Proof/Machine/Store.lean ====
section
/-! DEFINITION. The record store: classes, judging, the record memory port, appends, refusals and the uploader's three
requests (R139 to R146). -/

namespace Sys2Proof.Machine

/-! ## What follows from the store index (R139, R145) -/

/-- 1 when the port writes a record of this class, which counts as held (R139). -/
def underWrite (st : Store) (c : Fin 4) : Nat :=
  match st.port with
  | some (.write r _) => if r.head.cls = c then 1 else 0
  | _ => 0

/-- Class count (R139). -/
def classCount (st : Store) (c : Fin 4) : Nat :=
  st.index.countP (fun r => decide (r.head.cls = c)) + underWrite st c

/-- Store records of a class in one state (R145, R176). -/
def stateCount (st : Store) (c : Fin 4) (x : StoredState) : Nat :=
  st.index.countP (fun r => decide (r.head.cls = c) && decide (r.state = x))

/-- The class's oldest record: the lowest record number among its store records (R142). -/
def oldestOf (st : Store) (c : Fin 4) : Option StoreRecord :=
  st.index.find? (fun r => decide (r.head.cls = c))

/-- The class's newest record (R139). -/
def newestOf (st : Store) (c : Fin 4) : Option StoreRecord :=
  st.index.reverse.find? (fun r => decide (r.head.cls = c))

/-- Slots in use, the one under write among them. -/
def usedSlots (st : Store) : List Nat :=
  (match st.port with
    | some (.write _ k) => [k]
    | _ => []) ++ st.index.map (·.slot)

/-- The lowest number from `k` on that is not in use; `fuel` bounds the search. -/
def lowestUnused (used : List Nat) : Nat → Nat → Nat
  | 0, k => k
  | fuel + 1, k => if k ∈ used then lowestUnused used fuel (k + 1) else k

/-- The lowest-numbered free slot (R142). -/
def lowestFreeSlot (st : Store) : Nat := lowestUnused (usedSlots st) ((usedSlots st).length + 1) 0

/-! ## Class records -/

/-- Replace a class's settings, flag and counters. -/
def State.setClass (s : State) (c : Fin 4) (k : StoreClass) : State :=
  s.setStore { s.store with classes := s.store.classes.set c k }

/-- CLASS_FULL is armed again when the count has fallen below seven eighths of the quota (R144). -/
def rearmClass (s : State) (c : Fin 4) : State :=
  if classCount s.store c * 8 < s.store.classes[c].quota * 7 then
    s.setClass c { s.store.classes[c] with fullArmed := true }
  else s

/-! ## Judging (R142, R144) -/

/-- Why a record is refused by judging, with the code of its CLASS_FULL cause (R142, R189). -/
inductive RefuseCause where
  | full
  | inFlight
deriving DecidableEq, Repr

/-- What judging a record against its class gives (R142). -/
inductive Judging where
  | place
  | overwrite (number : Nat)
  | refuse (cause : RefuseCause)
deriving DecidableEq, Repr

/-- The table of R142. -/
def judgeClass (st : Store) (c : Fin 4) : Judging :=
  if st.classes[c].quota = 0 then .refuse .full
  else if classCount st c < st.classes[c].quota then .place
  else
    match st.classes[c].policy with
    | .linear => .refuse .full
    | .ring =>
      match oldestOf st c with
      | some r =>
        match r.state with
        | .stored => .overwrite r.head.number
        | .inFlight => .refuse .inFlight
      | none => .refuse .full

/-- Cause code (R189). -/
def causeCode : RefuseCause → Nat
  | .full => 0
  | .inFlight => 1

/-- Count a refusal by judging (R142). -/
def countRefusal (k : StoreClass) : RefuseCause → StoreClass
  | .full => { k with refusedFull := bump k.refusedFull }
  | .inFlight => { k with refusedInFlight := bump k.refusedInFlight }

/-- A refusal by judging: counted, and CLASS_FULL sent when its flag is armed (R142, R144). -/
def refuseRecord (s : State) (r : Record) (cause : RefuseCause) : State :=
  let c := r.head.cls
  let k := s.store.classes[c]
  let t := s.setClass c { countRefusal k cause with fullArmed := false }
  if k.fullArmed then raiseEvent t .classFull r.head.number (c.val * 16 + causeCode cause) else t

/-- A placed record takes the lowest free slot and its write begins (R142). -/
def placeRecord (s : State) (r : Record) (rest : List Record) : State :=
  s.setStore { s.store with appendQueue := rest, port := some (.write r (lowestFreeSlot s.store)) }

/-- Ring overwrite discards a store record (R142). -/
def discardRecord (s : State) (c : Fin 4) (number : Nat) : State :=
  let k := s.store.classes[c]
  (s.setStore { s.store with index := s.store.index.filter (fun r => decide (r.head.number ≠ number)) }).setClass c
    { k with overwritten := bump k.overwritten }

/-- The store judges the append queue from the head until a write begins or the queue is empty (R142). -/
def judgeQueue : List Record → State → State
  | [], s => s.setStore { s.store with appendQueue := [] }
  | r :: rest, s =>
    match judgeClass s.store r.head.cls with
    | .place => placeRecord s r rest
    | .overwrite number => placeRecord (discardRecord s r.head.cls number) r rest
    | .refuse cause => judgeQueue rest (refuseRecord s r cause)

/-! ## The record memory port (R141, R159) -/

/-- The read the uploader has waiting: the next record of the batch in stage READING (R159). -/
def waitingRead (u : Uploader) : Option (Nat × Nat) :=
  match u.batches.find? (fun b => decide (b.stage = .reading)) with
  | some b => (b.records[b.copies.length]?).map (fun n => (n, b.number))
  | none => none

/-- The port grants the uploader's waiting read (R141, R159). -/
def grantRead (s : State) : State :=
  match waitingRead s.uploader with
  | some (number, batch) => s.setStore { s.store with port := some (.read number (some batch)) }
  | none => s

/-- A free port grants the next access: an append write before a read, and no append write in HALTED (R141). -/
def grantPort (s : State) : State :=
  match s.store.port with
  | some _ => s
  | none =>
    let t := if s.store.state = .normal then judgeQueue s.store.appendQueue s else s
    match t.store.port with
    | some _ => t
    | none => grantRead t

/-! ## Passing records on (R136, R141, R143) -/

/-- A record passed on in HALTED is refused at once (R143). -/
def refuseHalted (s : State) (n : Nat) : State :=
  s.setStore { s.store with refusedHalted := bumpBy s.store.refusedHalted n }

/-- A record joins the tail of the append queue, and a free port grants (R141). -/
def enqueueRecord (s : State) (r : Record) : State :=
  grantPort (s.setStore { s.store with appendQueue := s.store.appendQueue ++ [r] })

/-- The builder passes a record of the group it has taken on, or holds it (R136, R141, R143). -/
def passRecord (s : State) (r : Record) : State :=
  if s.store.state = .halted then refuseHalted s 1
  else if s.builder.held.isEmpty && decide (s.store.appendQueue.length < Config.appendPlaces) then enqueueRecord s r
  else s.setBuilder { s.builder with held := s.builder.held ++ [r] }

/-- BUILDER_PASS_RECORD: the builder passes its first held record on once the queue has room, or has it refused in
HALTED (R141, R143). -/
def builderPass (s : State) : State :=
  match s.builder.held with
  | [] => s
  | r :: rest =>
    let t := s.setBuilder { s.builder with held := rest }
    if s.store.state = .halted then refuseHalted t 1
    else if s.store.appendQueue.length < Config.appendPlaces then enqueueRecord t r
    else s

/-! ## The uploader's requests (R145) -/

/-- The records of a class that a select takes: STORED, in record-number order, up to `room` of them and up to a
payload of 1,400 bytes, `used` bytes of it taken already (R145, R158). -/
def selectFrom (c : Fin 4) : List StoreRecord → Nat → Nat → List Nat
  | [], _, _ => []
  | _ :: _, 0, _ => []
  | r :: rest, room + 1, used =>
    if r.head.cls = c ∧ r.state = .stored then
      (if used + r.length ≤ Config.maxPayload then r.head.number :: selectFrom c rest room (used + r.length) else [])
    else selectFrom c rest (room + 1) used

/-- Give the named store records a state. -/
def markRecords (index : List StoreRecord) (numbers : List Nat) (x : StoredState) : List StoreRecord :=
  index.map (fun r => if r.head.number ∈ numbers then { r with state := x } else r)

/-- select: the records become IN_FLIGHT (R145). -/
def selectRecords (s : State) (numbers : List Nat) : State :=
  s.setStore { s.store with index := markRecords s.store.index numbers .inFlight }

/-- return: the records become STORED again, in their place (R145). -/
def returnRecords (s : State) (numbers : List Nat) : State :=
  s.setStore { s.store with index := markRecords s.store.index numbers .stored }

/-- release: the records leave the store, and their class's CLASS_FULL may be armed again (R144, R145). -/
def releaseRecords (s : State) (c : Fin 4) (numbers : List Nat) : State :=
  rearmClass
    (s.setStore { s.store with index := s.store.index.filter (fun r => decide (r.head.number ∉ numbers)) }) c

/-- BUILDER_PASS_RECORD. -/
def execBuilderPassRecord (s : State) : Host.Outcome State Fault Refusal :=
  whenRunning s (fun s => kickTrunk (builderPass s))

end Sys2Proof.Machine
end

