-- ==== Sys2Proof/Machine/Upload.lean ====
section
/-! DEFINITION. The depot uploader and the completions of the record memory port: forming, reading and ending batches
(R143, R146, R153 to R170): WRITE_COMPLETION, READ_COMPLETION, PACING_SLOT_OPEN and ACK_TIMEOUT. -/

namespace Sys2Proof.Machine

/-! ## Conditions of a formation (R156, R157) -/

/-- The slot interval in milliseconds: 1,000 divided by the pacing, rounded up (R156). -/
def slotInterval (pacing : Nat) : Nat := (1000 + pacing - 1) / pacing

/-- The pacing slot is open (R156). -/
def slotOpen (u : Uploader) (now : Nat) : Bool :=
  match u.lastStart with
  | none => true
  | some t => decide (t + slotInterval u.pacing ≤ now)

/-- A class of the class mask holds a STORED record (R157). -/
def servable (s : State) (c : Fin 4) : Bool :=
  s.uploader.classMask.getLsbD c.val && decide (0 < stateCount s.store c .stored)

/-- Of two classes, the second where its priority is higher (R157). -/
def betterClass (st : Store) (best : Option (Fin 4)) (c : Fin 4) : Option (Fin 4) :=
  match best with
  | none => some c
  | some b => if st.classes[b].priority < st.classes[c].priority then some c else some b

/-- The class of the next batch: highest upload priority, the lowest number of those that share it (R157). -/
def chooseClass (s : State) : Option (Fin 4) :=
  ((List.finRange 4).filter (servable s)).foldl (betterClass s.store) none

/-- The five conditions of R157, but for the class, which `chooseClass` finds. -/
def mayForm (s : State) : Bool :=
  decide (s.uploader.state = .running) && decide (s.uploader.batches.length < s.uploader.window)
    && s.uploader.batches.all (fun b => decide (b.stage ≠ .reading)) && decide (0 < s.uploader.pacing)
    && slotOpen s.uploader s.timebase

/-- All the conditions of R157 hold. -/
def canForm (s : State) : Bool := mayForm s && (chooseClass s).isSome

/-- Eligible records: STORED records of the classes of the class mask (R169). -/
def eligible (s : State) : Nat :=
  ((List.finRange 4).map (fun c =>
    if s.uploader.classMask.getLsbD c.val then stateCount s.store c .stored else 0)).sum

/-! ## Forming a batch (R157, R158) -/

/-- The uploader with a batch of a class and its records formed now (R157). -/
def addBatch (u : Uploader) (c : Fin 4) (numbers : List Nat) (now : Nat) : Uploader :=
  { u with
    batches := u.batches ++
      [{ number := u.nextNumber, cls := c, records := numbers, stage := .reading, copies := [], ackDeadline := none }]
    nextNumber := (u.nextNumber + 1) % 256
    lastStart := some now
    currentClass := some c }

/-- A batch of a class is formed: the store selects its records, 3 bytes of the payload being the batch head (R157,
R158, R188). -/
def formBatch (s : State) (c : Fin 4) : State :=
  let numbers := selectFrom c s.store.index s.uploader.batchSize 3
  (selectRecords s numbers).setUploader (addBatch s.uploader c numbers s.timebase)

/-- A batch is formed when all the conditions of R157 hold. -/
def tryForm (s : State) : State :=
  if mayForm s then
    match chooseClass s with
    | some c => formBatch s c
    | none => s
  else s

/-- An append judging and a select are due in one step (R145; log entry 15, DESIGN CHOICE). -/
def selectMeetsJudging (s : State) : Bool :=
  s.store.port.isNone && decide (s.store.state = .normal) && !s.store.appendQueue.isEmpty && canForm s

/-- What follows a change of the port, the store or the uploader: the free port grants, a batch is formed where R157
allows it, and the port grants the new batch's read (R141, R157, R159). -/
def settleStore (s : State) : State :=
  if selectMeetsJudging s then
    let t := s.setFreeCounter (s.freeCounter + 1)
    if Config.selectBeforeJudging s.freeCounter then grantPort (tryForm t) else grantPort (tryForm (grantPort t))
  else grantPort (tryForm (grantPort s))

/-! ## Uploader state changes (R164, R167, R169) -/

/-- Detail byte of UPLOAD_STATE: the new state, and the end reason or 15 (R169, R189). -/
def uploadDetail (u : Uploader) : Nat :=
  uploadStateCode u.state * 16
    + (match u.state, u.lastEnd with
        | .idle, some r => endReasonCode r
        | _, _ => 15)

/-- A change of uploader state, with its UPLOAD_STATE event (R169). -/
def changeUpload (s : State) (u : Uploader) : State :=
  raiseEvent (s.setUploader u) .uploadState u.released (uploadDetail u)

/-- A batch frame in transmission is cut; a reply frame is not (R164). -/
def cutBatch : Option TxFrame → Option TxFrame
  | some (.batch _ _) => none
  | f => f

/-- A read under way goes on with no batch to go to (R159, R164). -/
def orphanRead : Option PortAccess → Option PortAccess
  | some (.read number _) => some (.read number none)
  | p => p

/-- All the records of the in-flight batches. -/
def inFlightNumbers (u : Uploader) : List Nat := u.batches.flatMap (·.records)

/-- The frame in transmission is cut, the records of every in-flight batch return, and a read under way has no batch
(R164, steps 1 and 2). -/
def releaseFlight (s : State) : State :=
  let t := returnRecords (s.setDepot { s.depot with tx := cutBatch s.depot.tx }) (inFlightNumbers s.uploader)
  t.setStore { t.store with port := orphanRead t.store.port }

/-- An upload ends early, with the four steps of R164. -/
def endUpload (s : State) (reason : EndReason) : State :=
  changeUpload (releaseFlight s) { s.uploader with batches := [], streak := 0, state := .idle, lastEnd := some reason }

/-- In DRAINING with no batch in flight, the upload ends with FINISHED (R167). -/
def finishIfDrained (s : State) : State :=
  if s.uploader.state = .draining ∧ s.uploader.batches = [] then
    changeUpload s { s.uploader with state := .idle, lastEnd := some .finished }
  else s

/-- A batch of a number in stage WAITING (R161). -/
def waitsUnder (number : Nat) (b : Batch) : Bool := decide (b.number = number) && decide (b.stage = .waiting)

/-- The in-flight batch of a number in stage WAITING (R161). Batch numbers count modulo 256, and where two batches wait
under one number the spec does not say which is meant: the model takes the one formed earliest (log entry 31, DESIGN
CHOICE). -/
def waitingBatch (u : Uploader) (number : Nat) : Option Batch := u.batches.find? (waitsUnder number)

/-- The in-flight list without the batch that `waitingBatch` finds, every other batch kept (R161 to R163). -/
def withoutBatch (u : Uploader) (number : Nat) : Uploader :=
  { u with batches := u.batches.eraseP (waitsUnder number) }

/-! ## ACK_TIMEOUT (R163) -/

/-- Whether a batch's ack deadline has passed (R163; log entry 25, DEDUCED). -/
def ackPassed (b : Batch) (now : Nat) : Bool :=
  match b.ackDeadline with
  | some d => decide (d ≤ now)
  | none => false

/-- The records of a batch that timed out return; timeouts and streak rise (R163). -/
def timeOutBatch (s : State) (b : Batch) : State :=
  let u := withoutBatch s.uploader b.number
  (returnRecords s b.records).setUploader
    { u with timeouts := bump u.timeouts, streak := bumpTo 3 u.streak }

/-- The ack timeout of the batch of a number (R163, R167). -/
def ackTimeout (s : State) (number : Nat) : State :=
  match waitingBatch s.uploader number with
  | none => s
  | some b =>
    if ackPassed b s.timebase then
      let t := timeOutBatch s b
      if 3 ≤ t.uploader.streak then settleStore (endUpload t .depotSilent) else settleStore (finishIfDrained t)
    else s

/-! ## WRITE_COMPLETION (R143) -/

/-- A write completes OK: the record becomes a STORED store record, the newest of its class (R143, R188). -/
def writeDone (s : State) (r : Record) (slot : Nat) : State :=
  let k := s.store.classes[r.head.cls]
  let stored : StoreRecord := { head := r.head, slot := slot, length := (encodeRecord r).length, state := .stored }
  ((s.setStore { s.store with index := s.store.index ++ [stored], port := none, failStreak := 0 }).setMemory
      (writeSlot s.memory slot (encodeRecord r))).setClass r.head.cls { k with appended := bump k.appended }

/-- The store goes HALTED: every record of the append queue is refused at once (R143). -/
def stopStore (s : State) : State :=
  refuseHalted (s.setStore { s.store with state := .halted, appendQueue := [] }) s.store.appendQueue.length

/-- STORE_HALT is raised and the store goes HALTED (R143). -/
def haltStore (s : State) (c : Fin 4) : State := stopStore (raiseFault s .storeHalt c.val)

/-- A write failure adds 1 to the write-failure streak; at 4 the store halts (R143). -/
def strikeWrite (s : State) (c : Fin 4) : State :=
  let t := s.setStore { s.store with failStreak := bumpTo 4 s.store.failStreak }
  if t.store.failStreak = 4 ∧ t.store.state = .normal then haltStore t c else t

/-- A write that failed frees the port and its slot, and its class's count falls (R143, R144). -/
def dropWrite (s : State) (c : Fin 4) : State :=
  rearmClass (s.setStore { s.store with port := none, writeFail := bump s.store.writeFail }) c

/-- A write completes FAIL: the record is lost, RECORD_WRITE_FAIL is raised, and the streak rises (R143). -/
def writeFailed (s : State) (r : Record) : State :=
  strikeWrite (raiseFault (dropWrite s r.head.cls) .recordWriteFail r.head.number) r.head.cls

/-- The write under way ends (R143). -/
def writeCompletion (s : State) (ok : Bool) : State :=
  match s.store.port with
  | some (.write r slot) => settleStore (if ok then writeDone s r slot else writeFailed s r)
  | _ => s

/-! ## READ_COMPLETION (R146, R159) -/

/-- The copy a read gives: the encoding in the slot, or the head with DAMAGED (R146, R188). -/
def copyOf (s : State) (number : Nat) (ok : Bool) : List Byte :=
  match s.store.index.find? (fun r => decide (r.head.number = number)) with
  | some r => if ok then readSlot s.memory r.slot r.length else encodeDamaged r.head
  | none => []

/-- A batch with one more copy; it is READY when all its records have been read (R159). -/
def addCopy (b : Batch) (copy : List Byte) : Batch :=
  { b with
    copies := b.copies ++ [copy]
    stage := if b.copies.length + 1 = b.records.length then .ready else b.stage }

/-- The uploader's batch that asked for the read takes the copy; without one nobody does (R159). -/
def deliverCopy (u : Uploader) (batch : Option Nat) (copy : List Byte) : Uploader :=
  { u with
    batches := u.batches.map (fun b =>
      if some b.number = batch ∧ b.stage = .reading then addCopy b copy else b) }

/-- An uncorrectable read is counted and raises RECORD_READ_FAIL (R146). -/
def countRead (s : State) (number : Nat) (ok : Bool) : State :=
  if ok then s
  else raiseFault (s.setStore { s.store with readFail := bump s.store.readFail }) .recordReadFail number

/-- A read ends: the port is free, a failure is counted, and the copy goes to its batch (R146, R159). -/
def finishRead (s : State) (number : Nat) (batch : Option Nat) (ok : Bool) : State :=
  (countRead (s.setStore { s.store with port := none }) number ok).setUploader
    (deliverCopy s.uploader batch (copyOf s number ok))

/-- The read under way ends (R146, R159). -/
def readCompletion (s : State) (ok : Bool) : State :=
  match s.store.port with
  | some (.read number batch) => settleStore (finishRead s number batch ok)
  | _ => s

/-! ## PACING_SLOT_OPEN (R156) -/

/-- The pacing slot opens, and a batch is formed where R157 allows it. -/
def pacingSlotOpen (s : State) : State := if slotOpen s.uploader s.timebase then settleStore s else s

/-! ## The commands -/

/-- WRITE_COMPLETION. -/
def execWriteCompletion (ok : Bool) (s : State) : Host.Outcome State Fault Refusal :=
  whenRunning s (fun s => kickBoth (writeCompletion s ok))

/-- READ_COMPLETION. -/
def execReadCompletion (ok : Bool) (s : State) : Host.Outcome State Fault Refusal :=
  whenRunning s (fun s => kickBoth (readCompletion s ok))

/-- PACING_SLOT_OPEN. -/
def execPacingSlotOpen (s : State) : Host.Outcome State Fault Refusal :=
  whenRunning s (fun s => kickBoth (pacingSlotOpen s))

/-- ACK_TIMEOUT. -/
def execAckTimeout (batch : Nat) (s : State) : Host.Outcome State Fault Refusal :=
  whenRunning s (fun s => kickBoth (ackTimeout s batch))

end Sys2Proof.Machine
end

