-- ==== Sys2Proof/Machine/Resets.lean ====
section
/-! DEFINITION. The two resets (R18, R25, R37, R53, R79, R99, R150, R151, R170, R185, R186): what each keeps, the start
after it with RESTART, and RESET_LINE_ASSERT, RESET_LINE_RELEASE and COLD_RESET. -/

namespace Sys2Proof.Machine

/-! ## What a warm reset keeps -/

/-- The service table with every discard count at 0 (R37). -/
def clearDiscards (t : Vector (Option ServiceEntry) 16) : Vector (Option ServiceEntry) 16 :=
  t.map (·.map (fun e => { e with discards := 0 }))

/-- A class keeps its settings; its flag is armed and its counters are 0 (R139, R144, R149, R150). -/
def warmClass (k : StoreClass) : StoreClass := { quota := k.quota, policy := k.policy, priority := k.priority }

/-- The store keeps its records, all STORED; the rest is at its reset value (R150). -/
def warmStore (st : Store) : Store :=
  { classes := st.classes.map warmClass, index := st.index.map (fun r => { r with state := .stored }) }

/-- The last end reason after a warm reset (R170). -/
def warmUploader (u : Uploader) : Uploader :=
  { lastEnd := if u.state = .idle then u.lastEnd else some .reset }

/-- The part at a warm reset, before it starts again: the retained domain is kept and all else is at its reset value
(section 10.8, R18, R25, R37, R53, R79, R99, R118, R137, R138, R150, R153, R170, R181, R184, R186). The timebase counts on,
of which the spec says nothing (log entry 33, DESIGN CHOICE). -/
def warmValues (s : State) : State :=
  { families := s.families
    services := clearDiscards s.services
    rules := s.rules
    routing := s.routing
    builder := { nextNumber := s.builder.nextNumber, limitFlag := s.builder.limitFlag }
    store := warmStore s.store
    memory := s.memory
    uploader := warmUploader s.uploader
    events := { mask := s.events.mask }
    faults := { first := s.faults.first, count := s.faults.count, laterHalt := s.faults.laterHalt }
    pins := s.pins
    timebase := s.timebase
    freeCounter := s.freeCounter
    pending := s.pending }

/-- The part at a cold reset, before it starts again (R151, R186, section 10.8). The bytes of the record memory stay as
they stood and are not read again (R151; log entry 14, DESIGN CHOICE), and the timebase counts on, of which the spec says
nothing (log entry 33, DESIGN CHOICE). -/
def coldValues (s : State) : State :=
  { memory := s.memory
    pins := s.pins
    timebase := s.timebase
    freeCounter := s.freeCounter
    pending := s.pending }

/-! ## The start after a reset (R185, R186) -/

/-- Reset kind of the RESTART event (R186, R189). -/
inductive ResetKind where
  | cold
  | warmLine
  | warmRequest
deriving DecidableEq, Repr

/-- Reset kind code (R189). -/
def resetKindCode : ResetKind → Nat
  | .cold => 0
  | .warmLine => 1
  | .warmRequest => 2

/-- The part starts: the strap is read, and RESTART is the first event raised (R185, R186). -/
def startPart (s : State) (kind : ResetKind) : State :=
  let t := s.setPins { s.pins with trunkRate := s.pins.strap, coldInReset := false }
  kickTrunk (raiseEvent t .restart t.builder.nextNumber (resetKindCode kind))

/-- A warm reset by a RESET request: it takes effect and the part starts again (R185). -/
def warmResetRequest (s : State) : State := startPart (warmValues s) .warmRequest

/-! ## The commands -/

/-- RESET_LINE_ASSERT: the warm reset takes effect and the part is held in it (R185). -/
def execResetLineAssert (s : State) : Host.Outcome State Fault Refusal :=
  .next (if s.pins.resetLine then s else (warmValues s).setPins { s.pins with resetLine := true, coldInReset := false })

/-- The reset a start from the RESET line names; with power applied while the line was asserted the spec does not say
which (R185, R186; log entry 16, DESIGN CHOICE). -/
def releaseKind (s : State) : ResetKind :=
  if s.pins.coldInReset && Config.bothResetsNameCold s.freeCounter then .cold else .warmLine

/-- Drawing that choice moves the free counter on. -/
def releaseCounter (s : State) : Nat := if s.pins.coldInReset then s.freeCounter + 1 else s.freeCounter

/-- RESET_LINE_RELEASE: the part starts again and reads the strap (R185). -/
def execResetLineRelease (strap : TrunkRate) (s : State) : Host.Outcome State Fault Refusal :=
  .next
    (if s.pins.resetLine then
      startPart ((s.setPins { s.pins with resetLine := false, strap := strap }).setFreeCounter (releaseCounter s))
        (releaseKind s)
    else s)

/-- COLD_RESET: power is applied to the retained domain (R151, R186). With the RESET line asserted the part is then held
in warm reset until its release (R185). -/
def execColdReset (strap : TrunkRate) (s : State) : Host.Outcome State Fault Refusal :=
  let t := (coldValues s).setPins { s.pins with strap := strap, trunkRate := strap }
  .next (if s.pins.resetLine then t.setPins { t.pins with coldInReset := true } else startPart t .cold)

end Sys2Proof.Machine
end

