-- ==== Sys2Proof/Machine/Links.lean ====
section
/-! DEFINITION. The link interfaces: receivers and request queues, the ends of frames, and the DOCK line (R152, R160,
R166, R168, R171, R172, R180, R185): LINK_BYTE, TRUNK_TX_FRAME_END, DEPOT_TX_FRAME_END, DOCK_ASSERT and DOCK_DEASSERT. -/

namespace Sys2Proof.Machine

/-! ## Receiving (R171, R172) -/

/-- The bytes from the first start mark 0xA5 0x5A on; without one, a last byte 0xA5 is kept (R171). -/
def findMark : List Byte → List Byte
  | [] => []
  | [b] => if b = 0xA5 then [b] else []
  | b :: c :: rest => if b = 0xA5 ∧ c = 0x5A then b :: c :: rest else findMark (c :: rest)

/-- Why a frame is discarded, and at which point (R171). -/
inductive DiscardCause where
  | kind
  | length
  | crc
deriving DecidableEq, Repr

/-- What the bytes after a start mark come to so far (R171). -/
inductive Verdict where
  | wait
  | discard (cause : DiscardCause)
  | accept (frame : RequestFrame) (rest : List Byte)
deriving DecidableEq, Repr

/-- The check at the last CRC byte, over kind, tag, length and payload (R10, R171). -/
def judgeFrame (body : List Byte) (length : Nat) : Verdict :=
  if body.length < length + 6 then .wait
  else if (body.drop (4 + length)).take 2 = crcBytes (body.take (4 + length)) then
    .accept { tag := body.getD 1 0, payload := (body.drop 4).take length } (body.drop (length + 6))
  else .discard .crc

/-- The checks of R171 over the bytes after a start mark, each at its point. -/
def judgeBody (body : List Byte) : Verdict :=
  match body with
  | [] => .wait
  | kind :: _ =>
    if kind ≠ 1 then .discard .kind
    else if body.length < 4 then .wait
    else if Config.maxPayload < numberAt body 2 2 then .discard .length
    else judgeFrame body (numberAt body 2 2)

/-- The link counter of a discard (R177). -/
def countLinkDiscard (p : LinkPort) : DiscardCause → LinkPort
  | .kind => { p with discardKind := bump p.discardKind }
  | .length => { p with discardLength := bump p.discardLength }
  | .crc => { p with discardCrc := bump p.discardCrc }

/-- A discarded frame is counted and raises LINK_CRC; hunting resumes after the start mark (R171). -/
def discardFrame (s : State) (k : Link) (marked : List Byte) (cause : DiscardCause) : State :=
  raiseFault (s.setLink k { countLinkDiscard (s.link k) cause with rx := marked.drop 2 }) .linkCrc (linkNumber k)

/-- An accepted frame makes the depot link UP (R152). -/
def acceptOn (s : State) : Link → State
  | .trunk => s
  | .depot => s.setDepotUp true

/-- An accepted frame joins its request queue, or is dropped with REQUEST_DROP when 8 wait (R172). -/
def queueRequest (s : State) (k : Link) (f : RequestFrame) (rest : List Byte) : State :=
  let p := s.link k
  if p.requests.length < Config.linkPlaces then
    s.setLink k { p with rx := rest, requests := p.requests ++ [f], taken := bump p.taken }
  else raiseFault (s.setLink k { p with rx := rest, dropped := bump p.dropped }) .requestDrop (linkNumber k)

/-- The receiver hunts and judges over the bytes it holds; each turn uses up at least two of them, so `fuel` need be no
more than their number (R171). -/
def receive (k : Link) : Nat → State → State
  | 0, s => s
  | fuel + 1, s =>
    let marked := findMark (s.link k).rx
    if marked.length < 2 then s.setLink k { s.link k with rx := marked }
    else
      match judgeBody (marked.drop 2) with
      | .wait => s.setLink k { s.link k with rx := marked }
      | .discard cause => receive k fuel (discardFrame s k marked cause)
      | .accept f rest => receive k fuel (queueRequest (acceptOn s k) k f rest)

/-- Whether a receiver takes bytes: the depot receiver takes none while the DOCK line is deasserted (R152). -/
def listening (s : State) : Link → Bool
  | .trunk => true
  | .depot => s.pins.dock

/-- A receiver takes one byte (R171). -/
def linkByte (s : State) (k : Link) (b : Byte) : State :=
  if listening s k then
    let rx := (s.link k).rx ++ [b]
    receive k (rx.length + 1) (s.setLink k { s.link k with rx := rx })
  else s

/-! ## Ends of frames (R160, R180, R185) -/

/-- A RESET reply with status OK, whose last byte brings the warm reset (R185). -/
def isResetReply : TxFrame → Bool
  | .reply r => decide (r.code = 8) && decide (r.status = .ok)
  | .event _ | .record _ | .batch _ _ => false

/-- The trunk transmitter ends its frame and chooses again (R180, R185). -/
def trunkFrameEnd (s : State) : State :=
  match s.trunk.tx with
  | none => s
  | some f =>
    let t := s.setTrunk { s.trunk with tx := none }
    if isResetReply f then warmResetRequest t else kickTrunk t

/-- A batch whose frame has been sent whole waits for its answer (R160). -/
def batchSent (u : Uploader) (number now : Nat) : Uploader :=
  { u with
    sent := bump u.sent
    batches := u.batches.map (fun b =>
      if b.number = number ∧ b.stage = .sending then
        { b with stage := .waiting, ackDeadline := some (now + u.ackTimeout) }
      else b) }

/-- What the end of a depot frame does to the uploader (R160). -/
def afterDepotFrame (s : State) : TxFrame → State
  | .batch number _ => s.setUploader (batchSent s.uploader number s.timebase)
  | .reply _ | .event _ | .record _ => s

/-- The depot transmitter ends its frame and chooses again (R160, R185). -/
def depotFrameEnd (s : State) : State :=
  match s.depot.tx with
  | none => s
  | some f =>
    let t := s.setDepot { s.depot with tx := none }
    if isResetReply f then warmResetRequest t else kickBoth (afterDepotFrame t f)

/-! ## The DOCK line (R66, R152, R168, R185) -/

/-- Abandon a load: the book, the segment table and the route state record return to their defaults, and ROUTE_STATE is
sent (R65, R66). -/
def abandonLoad (s : State) : State := changeRoute ((s.setBook []).setSegments []) {}

/-- The upload ends with LINK_LOST unless the uploader is IDLE (R168). -/
def loseUpload (s : State) : State := if s.uploader.state = .idle then s else endUpload s .linkLost

/-- A load owned by the depot link is lost with it (R66). -/
def loseLoad (s : State) : State :=
  if s.route.state = .loading ∧ s.route.owner = some .depot then abandonLoad s else s

/-- The depot link becomes DOWN: the frame in transmission is cut and the change acts on the uploader and the book
(R152). -/
def linkDown (s : State) : State :=
  settleStore (loseLoad (loseUpload ((s.setDepotUp false).setDepot { s.depot with tx := none })))

/-- A RESET that the depot dispatcher has answered takes effect as the link goes DOWN. Whether it comes before the end
LINK_LOST of an upload is open (R168, R185; log entry 17, DESIGN CHOICE). -/
def resetOnDown (s : State) : State :=
  if s.uploader.state = .idle then warmResetRequest (linkDown s)
  else
    let t := s.setFreeCounter (s.freeCounter + 1)
    if Config.resetBeforeLinkLost s.freeCounter then warmResetRequest t else warmResetRequest (linkDown t)

/-- The DOCK line is deasserted: a frame half received is dropped, and a link that was UP becomes DOWN (R152). -/
def dockDeassert (s : State) : State :=
  let t := s.setDepot { s.depot with rx := [] }
  if t.depotUp then (if t.depot.dispatcher = .resetting then resetOnDown t else kickBoth (linkDown t)) else t

/-! ## The commands -/

/-- LINK_BYTE. -/
def execLinkByte (link : Link) (value : Byte) (s : State) : Host.Outcome State Fault Refusal :=
  whenRunning s (fun s => kickBoth (linkByte s link value))

/-- TRUNK_TX_FRAME_END. -/
def execTrunkTxFrameEnd (s : State) : Host.Outcome State Fault Refusal := whenRunning s trunkFrameEnd

/-- DEPOT_TX_FRAME_END. -/
def execDepotTxFrameEnd (s : State) : Host.Outcome State Fault Refusal := whenRunning s depotFrameEnd

/-- DOCK_ASSERT: the DOCK line's level alone; the link stays DOWN until the next accepted frame (R152). -/
def execDockAssert (s : State) : Host.Outcome State Fault Refusal := .next (s.setPins { s.pins with dock := true })

/-- DOCK_DEASSERT: the DOCK line's level, and unless the part is held in warm reset, its effect on the link (R152). -/
def execDockDeassert (s : State) : Host.Outcome State Fault Refusal :=
  .next (let t := s.setPins { s.pins with dock := false }
    if s.pins.resetLine then t else dockDeassert t)

end Sys2Proof.Machine
end

