-- ==== Sys2Proof/Machine/Lanes.lean ====
section
/-! DEFINITION. The lane receivers and the capture pool: SYNC, BYTE, DROP, GAP_EXPIRY (R1 to R15, R19 to R22), and what
LANE_SET does to one lane (R17). -/

namespace Sys2Proof.Machine

/-! ## The capture pool -/

/-- The lowest-numbered FREE descriptor (R20). -/
def lowestFreeDescriptor (p : Pool) : Option (Fin 128) :=
  (List.finRange 128).find? (fun i => decide (p.descriptors[i].state = .free))

/-- A close: OPEN to CLOSED with its outcome and close time tag, its number at the tail of the close-order queue
(R14, R21). -/
def closeDescriptor (p : Pool) (d : Fin 128) (o : CloseOutcome) (tag : Nat) : Pool :=
  { p with
    descriptors :=
      p.descriptors.set d { p.descriptors[d] with state := .closed, outcome := some o, closeTag := some tag }
    closeQueue := p.closeQueue ++ [d] }

/-- The decoder frees a descriptor; CAPTURE_FULL is armed again when that brings the FREE count up to 8 (R22, R23). -/
def freeDescriptor (p : Pool) (d : Fin 128) : Pool :=
  let q := { p with
    descriptors := p.descriptors.set d { p.descriptors[d] with state := .free, outcome := none, closeTag := none } }
  { q with fullArmed := q.fullArmed || decide (descriptorCount q .free = 8) }

/-- The bytes a descriptor holds with one more: content bytes up to its length, then CRC bytes (R21). -/
def storeByte (d : Descriptor) (received frameLength : Nat) (b : Byte) : Descriptor :=
  if received < frameLength then { d with content := d.content ++ [b] } else { d with crc := d.crc ++ [b] }

/-! ## One lane -/

/-- The lane's counter of a close outcome, with 1 added; ABORTED has none (R14, section 1.8). -/
def countClose (c : LaneCounters) : CloseOutcome → LaneCounters
  | .good => { c with good := bump c.good }
  | .badCrc => { c with badCrc := bump c.badCrc }
  | .short => { c with short := bump c.short }
  | .superseded => { c with superseded := bump c.superseded }
  | .portError => { c with portError := bump c.portError }
  | .aborted => c

/-- Pending settings become current at a SYNC (R5). -/
def settleSettings (l : Lane) : Lane :=
  { l with
    minRssi := l.pendingMinRssi.getD l.minRssi
    maxLength := l.pendingMaxLength.getD l.maxLength
    pendingMinRssi := none
    pendingMaxLength := none }

/-- A lane judges a SYNC: it settles its settings, then starts LENGTH or counts LOW_SIGNAL in HUNT (R4, R5, R8, R11). -/
def judgeSync (l : Lane) (rssi tag now : Nat) : Lane :=
  let m := settleSettings l
  if m.minRssi ≤ rssi then
    { m with state := .length, syncTag := tag, syncRssi := rssi, gapDeadline := some (now + m.gapLimit) }
  else
    { m with state := .hunt, gapDeadline := none, counters := { m.counters with lowSignal := bump m.counters.lowSignal } }

/-- A lane gives up a frame in LENGTH, or one whose SOM was refused: HUNT, with no gap deadline. -/
def toHunt (l : Lane) : Lane := { l with state := .hunt, gapDeadline := none }

/-- A lane after a close: HUNT, the outcome counted, no descriptor, no frame length, no gap deadline (R9, R11, R14). -/
def afterClose (l : Lane) (o : CloseOutcome) : Lane :=
  { l with
    state := .hunt
    openDescriptor := none
    frameLength := none
    gapDeadline := none
    counters := countClose l.counters o }

/-- A lane in BODY closes its open descriptor and hands it to the pool (R14). -/
def closeFrame (s : State) (i : Fin 8) (o : CloseOutcome) : State :=
  let l := s.lanes[i]
  match l.openDescriptor with
  | some d => (s.setPool (closeDescriptor s.pool d o s.clock.value)).setLane i (afterClose l o)
  | none => s.setLane i (afterClose l o)

/-- SYNC (R3, R4, R8, R11, R15). -/
def takeSync (s : State) (i : Fin 8) (rssi : Nat) : State :=
  let l := s.lanes[i]
  match l.state with
  | .off | .faulted => s
  | .hunt | .length => s.setLane i (judgeSync l rssi s.clock.value s.timebase)
  | .body =>
    let t := closeFrame s i .superseded
    t.setLane i (judgeSync t.lanes[i] rssi s.clock.value s.timebase)

/-- The gap of a lane expires: a frame in BODY closes SHORT, a lane in LENGTH goes to HUNT (R13). -/
def expireGap (s : State) (i : Fin 8) : State :=
  match s.lanes[i].state with
  | .body => closeFrame s i .short
  | .length => s.setLane i (toHunt s.lanes[i])
  | .off | .hunt | .faulted => s

/-- Whether a gap deadline has passed (R13; log entry 25, DEDUCED). -/
def gapPassed (l : Lane) (now : Nat) : Bool :=
  match l.gapDeadline with
  | some d => decide (d ≤ now)
  | none => false

/-! ## The length byte and the body -/

/-- The pool gives a descriptor at SOM and the lane goes to BODY; giving away the last FREE one with the flag armed
sends CAPTURE_FULL (R7, R20, R22). -/
def giveDescriptor (s : State) (i : Fin 8) (d : Fin 128) (length : Nat) : State :=
  let l := s.lanes[i]
  let x : Descriptor :=
    { state := .opened, lane := i, syncTag := l.syncTag, rssi := l.syncRssi, length := length, content := [],
      crc := [], outcome := none, closeTag := none }
  let t := (s.setDescriptor d x).setLane i
    { l with
      state := .body
      openDescriptor := some d
      frameLength := some length
      bytesReceived := 0
      gapDeadline := some (s.timebase + l.gapLimit) }
  if s.pool.fullArmed && decide (descriptorCount t.pool .free = 0) then
    raiseEvent (t.setPool { t.pool with fullArmed := false }) .captureFull (descriptorCount t.pool .closed) i.val
  else t

/-- SOM: the lane asks the pool for a descriptor (R7, R20). -/
def startMessage (s : State) (i : Fin 8) (length : Nat) : State :=
  match lowestFreeDescriptor s.pool with
  | some d => giveDescriptor s i d length
  | none =>
    let l := s.lanes[i]
    s.setLane i { toHunt l with counters := { l.counters with noDescriptor := bump l.counters.noDescriptor } }

/-- A lane in LENGTH takes the length byte (R6). -/
def takeLengthByte (s : State) (i : Fin 8) (b : Byte) (parityGood : Bool) : State :=
  let l := s.lanes[i]
  if parityGood && decide (10 ≤ b.toNat) && decide (b.toNat ≤ l.maxLength) then startMessage s i b.toNat
  else s.setLane i { toHunt l with counters := { l.counters with badLength := bump l.counters.badLength } }

/-- The CRC comparison at EOM: over the length byte and the content bytes, against the bytes received (R9, R10). -/
def frameCrcGood (d : Descriptor) : Bool :=
  decide (crcBytes (BitVec.ofNat 8 d.length :: d.content) = d.crc)

/-- A GOOD close, which sets the port-error streak back to 0 (R9, R12). -/
def closeGood (s : State) (i : Fin 8) : State :=
  let t := closeFrame s i .good
  t.setLane i { t.lanes[i] with streak := 0 }

/-- A lane in BODY takes a byte with good parity: it is stored, and at EOM the CRC decides the close (R9). -/
def takeBodyByte (s : State) (i : Fin 8) (b : Byte) : State :=
  let l := s.lanes[i]
  let length := l.frameLength.getD 0
  let t := s.setLane i
    { l with bytesReceived := l.bytesReceived + 1, gapDeadline := some (s.timebase + l.gapLimit) }
  match l.openDescriptor with
  | none => t
  | some d =>
    let x := storeByte s.pool.descriptors[d] l.bytesReceived length b
    let u := t.setDescriptor d x
    if l.bytesReceived + 1 = length + 2 then
      (if frameCrcGood x then closeGood u i else closeFrame u i .badCrc)
    else u

/-- A lane in BODY takes a byte with bad parity: it closes PORT_ERROR, and a streak of 32 takes it to FAULTED with the
fault LANE_FAULTED (R12, R15). -/
def takePortError (s : State) (i : Fin 8) : State :=
  let t := closeFrame s i .portError
  let l := t.lanes[i]
  if l.streak + 1 < 32 then t.setLane i { l with streak := l.streak + 1 }
  else raiseFault (t.setLane i { l with streak := 32, state := .faulted }) .laneFaulted i.val

/-- BYTE (R3, R4, R6, R9, R12, R15). -/
def takeByte (s : State) (i : Fin 8) (b : Byte) (parityGood : Bool) : State :=
  match s.lanes[i].state with
  | .off | .hunt | .faulted => s
  | .length => takeLengthByte s i b parityGood
  | .body => if parityGood then takeBodyByte s i b else takePortError s i

/-- DROP (R3, R4, R8, R11, R15). -/
def takeDrop (s : State) (i : Fin 8) : State :=
  match s.lanes[i].state with
  | .off | .hunt | .faulted => s
  | .length => s.setLane i (toHunt s.lanes[i])
  | .body => closeFrame s i .short

/-! ## LANE_SET on one lane (R17) -/

/-- The per-lane results of LANE_SET, in the order of their codes (R189). -/
inductive LaneResult where
  | notSelected
  | unchanged
  | applied
  | appliedNextFrame
  | frameAborted
  | rearmed
deriving DecidableEq, Repr

/-- Result code (R189). -/
def laneResultCode : LaneResult → Nat
  | .notSelected => 0
  | .unchanged => 1
  | .applied => 2
  | .appliedNextFrame => 3
  | .frameAborted => 4
  | .rearmed => 5

/-- The settings a LANE_SET carries (R16). -/
structure LaneSettings where
  enable : Bool
  minRssi : Nat
  maxLength : Nat
  gapLimit : Nat
deriving DecidableEq, Repr

/-- Whether the new settings equal the lane's, a pending value counting in place of the current one (R17). -/
def settingsEqual (l : Lane) (n : LaneSettings) : Bool :=
  decide (n.enable = l.enable) && decide (n.minRssi = l.pendingMinRssi.getD l.minRssi)
    && decide (n.maxLength = l.pendingMaxLength.getD l.maxLength) && decide (n.gapLimit = l.gapLimit)

/-- The new settings made current at once, the pending fields absent (R17). -/
def applySettings (l : Lane) (n : LaneSettings) (st : LaneState) : Lane :=
  { l with
    state := st
    enable := n.enable
    minRssi := n.minRssi
    maxLength := n.maxLength
    gapLimit := n.gapLimit
    pendingMinRssi := none
    pendingMaxLength := none }

/-- Settings for a lane in the middle of a frame: the gap limit at once, with the running deadline moved, and the
others pending (R17). -/
def applyNextFrame (l : Lane) (n : LaneSettings) : Lane :=
  { l with
    gapLimit := n.gapLimit
    gapDeadline := l.gapDeadline.map (fun d => d - l.gapLimit + n.gapLimit)
    pendingMinRssi := some n.minRssi
    pendingMaxLength := some n.maxLength }

/-- A lane in LENGTH or BODY is disabled: any open descriptor closes ABORTED and the lane goes OFF (R17). -/
def abortFrame (s : State) (i : Fin 8) (n : LaneSettings) : State :=
  let t := if s.lanes[i].state = .body then closeFrame s i .aborted else s.setLane i (toHunt s.lanes[i])
  t.setLane i (applySettings t.lanes[i] n .off)

/-- A selected lane acts and reports (R17). -/
def setOneLane (s : State) (i : Fin 8) (n : LaneSettings) : State × LaneResult :=
  let l := s.lanes[i]
  match l.state, n.enable with
  | .off, false => if settingsEqual l n then (s, .unchanged) else (s.setLane i (applySettings l n .off), .applied)
  | .off, true => (s.setLane i (applySettings l n .hunt), .applied)
  | .hunt, true => if settingsEqual l n then (s, .unchanged) else (s.setLane i (applySettings l n .hunt), .applied)
  | .hunt, false => (s.setLane i (applySettings l n .off), .applied)
  | .length, true | .body, true =>
    if settingsEqual l n then (s, .unchanged)
    else
      let t := s.setLane i (applyNextFrame l n)
      (if gapPassed t.lanes[i] t.timebase then expireGap t i else t, .appliedNextFrame)
  | .length, false | .body, false => (abortFrame s i n, .frameAborted)
  | .faulted, true => (s.setLane i { applySettings l n .hunt with streak := 0 }, .rearmed)
  | .faulted, false => (s.setLane i { applySettings l n .off with streak := 0 }, .applied)

/-- LANE_SET over the lanes of a mask. The results stand in lane order (R16). Where the request closes frames on several
lanes, R21 lets either close join the close-order queue first: the model closes them in lane order too (log entry 30,
DESIGN CHOICE). -/
def setLanesByMask (n : LaneSettings) (mask : Nat) : List (Fin 8) → State → State × List LaneResult
  | [], s => (s, [])
  | i :: rest, s =>
    let (t, r) := if mask.testBit i.val then setOneLane s i n else (s, .notSelected)
    let (u, rs) := setLanesByMask n mask rest t
    (u, r :: rs)

/-! ## The commands -/

/-- SYNC. -/
def execSync (lane : Fin 8) (rssi : Byte) (s : State) : Host.Outcome State Fault Refusal :=
  whenRunning s (fun s => takeSync s lane rssi.toNat)

/-- BYTE. -/
def execByte (lane : Fin 8) (value : Byte) (parityGood : Bool) (s : State) : Host.Outcome State Fault Refusal :=
  whenRunning s (fun s => kickTrunk (takeByte s lane value parityGood))

/-- DROP. -/
def execDrop (lane : Fin 8) (s : State) : Host.Outcome State Fault Refusal :=
  whenRunning s (fun s => takeDrop s lane)

/-- GAP_EXPIRY: taken when the lane's gap deadline has passed (R13). -/
def execGapExpiry (lane : Fin 8) (s : State) : Host.Outcome State Fault Refusal :=
  whenRunning s (fun s => if gapPassed s.lanes[lane] s.timebase then expireGap s lane else s)

end Sys2Proof.Machine
end

