-- ==== Sys2Proof/Machine/Decoder.lean ====
section
/-! DEFINITION. The frame decoder: DECODER_TAKE with the decoding checks, the register, flag and extension reading and
the service table lookup (R23, R24, R28 to R35). -/

namespace Sys2Proof.Machine

/-! ## Reading a body -/

/-- M = 10^D of a family (R26). -/
def registerModulus (p : Profile) : Nat := 10 ^ p.digits

/-- Bytes the register takes (R26). -/
def registerWidth (p : Profile) : Nat :=
  match p.encoding with
  | .binary3 => 3
  | .binary4 => 4
  | .bcd => (p.digits + 1) / 2

/-- The decimal digits of BCD bytes, high digit first (R30). -/
def bcdDigits (bytes : List Byte) : List Nat :=
  bytes.flatMap (fun b => [b.toNat / 16, b.toNat % 16])

/-- The number decimal digits spell. -/
def digitsValue (digits : List Nat) : Nat := digits.foldl (fun acc d => acc * 10 + d) 0

/-- The register of a READING, if it is a valid value for the family (R30). -/
def readRegister (p : Profile) (body : List Byte) : Option Nat :=
  let field := bytesAt body p.registerOffset (registerWidth p)
  match p.encoding with
  | .binary3 | .binary4 =>
    let v := fromBigEndian field
    if v < registerModulus p then some v else none
  | .bcd =>
    let digits := bcdDigits field
    let v := digitsValue digits
    if digits.all (fun d => decide (d ≤ 9)) && decide (v < registerModulus p) then some v else none

/-- Whether the map places a flag at a bit that is 1 in the flag byte (R31). -/
def flagPresent (position : Option Nat) (flagByte : Byte) : Bool :=
  match position with
  | some k => flagByte.getLsbD k
  | none => false

/-- A bit vector bit, for building a set. -/
def setBit (w k : Nat) (present : Bool) : BitVec w := if present then BitVec.twoPow w k else 0

/-- The canonical flags of a READING (R31). -/
def readFlags (p : Profile) (body : List Byte) : Flags :=
  match p.flagOffset with
  | none => 0
  | some o =>
    let f := body.getD o 0
    setBit 6 0 (flagPresent p.flagMap.magnet f) ||| setBit 6 1 (flagPresent p.flagMap.tilt f)
      ||| setBit 6 2 (flagPresent p.flagMap.cover f) ||| setBit 6 3 (flagPresent p.flagMap.meterReverse f)
      ||| setBit 6 4 (flagPresent p.flagMap.leak f) ||| setBit 6 5 (flagPresent p.flagMap.lowbat f)

/-- The extension fields of an EXTENSION; absent for a NONE family (R32). -/
def readExtension (p : Profile) (body : List Byte) : Option ExtFields :=
  match p.mode, p.extTamperOffset, p.extReverseOffset with
  | .extended, some t, some r => some { tamperCount := numberAt body t 1, reverseVolume := numberAt body r 2 }
  | _, _, _ => none

/-- One past the last byte of an optional field. -/
def fieldEnd (offset : Option Nat) (width : Nat) : Nat :=
  match offset with
  | some o => o + width
  | none => 0

/-- The body length a READING needs (R29). -/
def readingNeed (p : Profile) : Nat :=
  max (p.registerOffset + registerWidth p) (max (fieldEnd p.flagOffset 1) (fieldEnd p.serviceOffset 1))

/-- The body length an EXTENSION needs: none for a NONE family (R29). -/
def extensionNeed (p : Profile) : Nat :=
  match p.mode with
  | .none => 0
  | .extended => max (fieldEnd p.extTamperOffset 1) (fieldEnd p.extReverseOffset 2)

/-! ## The tables -/

/-- The place of the family table that holds a family code (R29). -/
def familyOf (t : Vector (Option Profile) 16) (code : Nat) : Option (Fin 16) :=
  (List.finRange 16).find? (fun i => decide ((t[i].map (·.familyCode)) = some code))

/-- The place of the service table that holds a code (R35). -/
def serviceOf (t : Vector (Option ServiceEntry) 16) (code : Nat) : Option (Fin 16) :=
  (List.finRange 16).find? (fun i => decide ((t[i].map (·.code)) = some code))

/-! ## Judging a GOOD descriptor -/

/-- The checks of R29, in their order. -/
inductive DecodeFailure where
  | badId
  | unknownFamily
  | frameKind
  | shortBody
  | badRegister
deriving DecidableEq, Repr

/-- What a GOOD descriptor comes to: a failed check, a READING dropped by a DISCARD entry, or an offered frame, with
whether its service code has no entry (R29, R35). -/
inductive Judgement where
  | fails (check : DecodeFailure)
  | discards (place : Fin 16)
  | offers (frame : DecodedFrame) (unlisted : Bool)
deriving DecidableEq, Repr

/-- The service lookup of a READING (R35): the entry to discard by, or the service mark the frame carries. -/
def lookupService (t : Vector (Option ServiceEntry) 16) (code : Nat) : Fin 16 ⊕ (ServiceMark × Bool) :=
  match serviceOf t code with
  | none => .inr ({ code := code, action := .note }, true)
  | some i =>
    match t[i] with
    | none => .inr ({ code := code, action := .note }, true)
    | some e =>
      match e.action with
      | .discard => .inl i
      | .note => .inr ({ code := code, action := .note }, false)
      | .weight => .inr ({ code := code, action := .weight e.weight }, false)

/-- The service code of a READING; a byte of 0 is none (R35). -/
def serviceCodeOf (p : Profile) (body : List Byte) : Option Nat :=
  match p.serviceOffset with
  | none => none
  | some o => if numberAt body o 1 = 0 then none else some (numberAt body o 1)

/-- A READING that passed checks 1 to 4: the register check and the service step (R29, R30, R35). -/
def judgeReading (p : Profile) (services : Vector (Option ServiceEntry) 16) (head : FrameHead) (body : List Byte) :
    Judgement :=
  match readRegister p body with
  | none => .fails .badRegister
  | some register =>
    let fields : ReadingFields := { register := register, flags := readFlags p body, service := none }
    match serviceCodeOf p body with
    | none => .offers { head := head, body := .reading fields } false
    | some code =>
      match lookupService services code with
      | .inl i => .discards i
      | .inr (m, unlisted) => .offers { head := head, body := .reading { fields with service := some m } } unlisted

/-- The decoding checks of R29 over the tables as they stand (R28), and the decoded frame of R33. -/
def judgeDescriptor (families : Vector (Option Profile) 16) (services : Vector (Option ServiceEntry) 16)
    (d : Descriptor) : Judgement :=
  let code := numberAt d.content 0 1
  let meter := numberAt d.content 1 4
  let control := d.content.getD 5 0
  let kind := control.toNat % 4
  let body := d.content.drop 6
  if meter = 0 ∨ meter = 0xFFFFFFFF then .fails .badId
  else
    match familyOf families code with
    | none => .fails .unknownFamily
    | some i =>
      match families[i] with
      | none => .fails .unknownFamily
      | some p =>
        let head : FrameHead :=
          { meterId := meter, familyIndex := i, familyCode := code, mode := p.mode, window := p.window,
            sequence := control.toNat / 16, closeTag := d.closeTag.getD 0, rssi := d.rssi, lane := d.lane }
        match kind with
        | 0 => if body.length < readingNeed p then .fails .shortBody else judgeReading p services head body
        | 1 =>
          if body.length < extensionNeed p then .fails .shortBody
          else .offers { head := head, body := .extension (readExtension p body) } false
        | _ => .fails .frameKind

/-! ## The decoder's step -/

/-- The counter of a failed check (R29, R36). -/
def countFailure (c : DecoderCounters) : DecodeFailure → DecoderCounters
  | .badId => { c with badId := bump c.badId }
  | .unknownFamily => { c with unknownFamily := bump c.unknownFamily }
  | .frameKind => { c with frameKind := bump c.frameKind }
  | .shortBody => { c with shortBody := bump c.shortBody }
  | .badRegister => { c with badRegister := bump c.badRegister }

/-- The counter of a non-GOOD outcome (R23, R36). -/
def countRaw (c : DecoderCounters) : CloseOutcome → DecoderCounters
  | .good => c
  | .badCrc => { c with rawBadCrc := bump c.rawBadCrc }
  | .short => { c with rawShort := bump c.rawShort }
  | .superseded => { c with rawSuperseded := bump c.rawSuperseded }
  | .portError => { c with rawPortError := bump c.rawPortError }
  | .aborted => { c with rawAborted := bump c.rawAborted }

/-- The counters of an offered frame: DECODED_READING or DECODED_EXTENSION, and SERVICE_UNLISTED (R29, R35). -/
def countOffer (c : DecoderCounters) (f : DecodedFrame) (unlisted : Bool) : DecoderCounters :=
  match f.body with
  | .reading _ =>
    { c with
      decodedReading := bump c.decodedReading
      serviceUnlisted := if unlisted then bump c.serviceUnlisted else c.serviceUnlisted }
  | .extension _ => { c with decodedExtension := bump c.decodedExtension }

/-- Add 1 to the discard count of a service place (R35). -/
def countDiscard (t : Vector (Option ServiceEntry) 16) (i : Fin 16) : Vector (Option ServiceEntry) 16 :=
  t.set i (t[i].map (fun e => { e with discards := bump e.discards }))

/-- Set the decoder's counters. -/
def State.setDecoderCounters (s : State) (c : DecoderCounters) : State :=
  s.setDecoder { s.decoder with counters := c }

/-- What the decoder does with the GOOD descriptor it has taken (R23, R24, R29, R35). -/
def decodeGood (s : State) (d : Fin 128) : State :=
  match judgeDescriptor s.families s.services s.pool.descriptors[d] with
  | .fails check => (s.setPool (freeDescriptor s.pool d)).setDecoderCounters (countFailure s.decoder.counters check)
  | .discards i =>
    ((s.setPool (freeDescriptor s.pool d)).setServices (countDiscard s.services i)).setDecoderCounters
      { s.decoder.counters with decodedReading := bump s.decoder.counters.decodedReading }
  | .offers f unlisted =>
    s.setDecoder { offer := some { descriptor := d, frame := f }, counters := countOffer s.decoder.counters f unlisted }

/-- The idle decoder takes the head of the close-order queue (R23). -/
def decoderTake (s : State) : State :=
  match s.decoder.offer, s.pool.closeQueue with
  | none, d :: rest =>
    let x := s.pool.descriptors[d]
    let t := (s.setPool { s.pool with closeQueue := rest }).setDescriptor d { x with state := .decoding }
    match x.outcome with
    | some .good => decodeGood t d
    | some o => (t.setPool (freeDescriptor t.pool d)).setDecoderCounters (countRaw s.decoder.counters o)
    | none => t.setPool (freeDescriptor t.pool d)
  | _, _ => s

/-- The decoder hands its offered frame on, frees the descriptor and becomes idle (R24). -/
def handOffer (s : State) (o : Offer) : State :=
  (s.setPool (freeDescriptor s.pool o.descriptor)).setDecoder { s.decoder with offer := none }

/-- DECODER_TAKE. -/
def execDecoderTake (s : State) : Host.Outcome State Fault Refusal := whenRunning s decoderTake

end Sys2Proof.Machine
end

