-- ==== Sys2Proof/Machine/Flags.lean ====
section
/-! DEFINITION. Tamper screening: the conditions, the score and the alert decision of one hearing (R100 to R117), and the
route hour (R77). -/

namespace Sys2Proof.Machine

/-- The route hour of a time tag (R77). -/
def routeHour (startHour tag : Nat) : Nat := min (startHour + tag / 3600000) Config.max24

/-! ## Conditions -/

/-- REVERSE (R104). -/
def condReverse : Conditions := BitVec.twoPow 14 0
/-- EXCESS (R106). -/
def condExcess : Conditions := BitVec.twoPow 14 1
/-- STAGNANT (R107). -/
def condStagnant : Conditions := BitVec.twoPow 14 2
/-- CLOCK_SKEW (R102). -/
def condClockSkew : Conditions := BitVec.twoPow 14 3
/-- DISAGREE (R108). -/
def condDisagree : Conditions := BitVec.twoPow 14 4
/-- HISTORY (R110). -/
def condHistory : Conditions := BitVec.twoPow 14 11
/-- EXT_REVERSE (R110). -/
def condExtReverse : Conditions := BitVec.twoPow 14 12
/-- SERVICE (R111). -/
def condService : Conditions := BitVec.twoPow 14 13

/-- A condition when its test holds, and the empty set otherwise. -/
def condIf (holds : Bool) (c : Conditions) : Conditions := if holds then c else 0

/-! ## Stages against the reference (R102 to R107) -/

/-- Screening mark (R101). -/
inductive ScreenMark where
  | rollover
  | minorReverse
deriving DecidableEq, Repr

/-- Stage 1: elapsed hours E, absent under CLOCK_SKEW (R102). -/
def elapsedHours (now ref : Nat) : Option Nat := if now < ref then none else some (max 1 (now - ref))

/-- What stage 2 gives: the advance A, the screening mark and, for REVERSE, the amount V (R103, R104). -/
structure Advance where
  amount : Nat
  mark : Option ScreenMark
  reverse : Option Nat
deriving DecidableEq, Repr

/-- Whether a wrap of W units in the elapsed hours is plausible (R104). -/
def rolloverPlausible (p : Profile) (elapsed : Option Nat) (wrapped : Nat) : Bool :=
  match elapsed with
  | some e => decide (wrapped * 16 ≤ e * p.highRate)
  | none => false

/-- Stage 2 (R103, R104). -/
def advanceOf (p : Profile) (elapsed : Option Nat) (new ref : Nat) : Advance :=
  if ref ≤ new then { amount := new - ref, mark := none, reverse := none }
  else if ref - new ≤ p.reverseTolerance then { amount := 0, mark := some .minorReverse, reverse := none }
  else
    let wrapped := new + registerModulus p - ref
    if rolloverPlausible p elapsed wrapped then { amount := wrapped, mark := some .rollover, reverse := none }
    else { amount := 0, mark := none, reverse := some (ref - new) }

/-- The quotient of stage 3 before it is limited (R105). -/
def rateQuotient (elapsed : Option Nat) (advance : Nat) : Option Nat := elapsed.map (fun e => advance * 16 / e)

/-- Stage 3: the rate r (R105). -/
def rateOf (elapsed : Option Nat) (advance : Nat) : Option Nat :=
  (rateQuotient elapsed advance).map (fun q => min q Config.max24)

/-- Whether the quotient of stage 3 was limited (R105). -/
def rateSaturates (elapsed : Option Nat) (advance : Nat) : Bool :=
  match rateQuotient elapsed advance with
  | some q => decide (Config.max24 < q)
  | none => false

/-- Stage 4 (R106). -/
def excessOf (p : Profile) (rate : Option Nat) : Bool :=
  match rate with
  | some r => decide (p.highRate < r)
  | none => false

/-- Stage 5 (R107). -/
def stagnantOf (p : Profile) (elapsed : Option Nat) (a : Advance) : Bool :=
  match elapsed with
  | some e =>
    decide (0 < p.stagnationHours) && decide (a.amount = 0) && a.reverse.isNone && decide (p.stagnationHours ≤ e)
  | none => false

/-- What stages 1 to 5 give when they run. -/
structure ReferenceStages where
  conditions : Conditions
  advance : Advance
  rate : Option Nat
  saturated : Bool
deriving DecidableEq, Repr

/-- Stages 1 to 5 (R102 to R107). -/
def referenceStages (p : Profile) (new hour : Nat) (ref : Reference) : ReferenceStages :=
  let e := elapsedHours hour ref.hour
  let a := advanceOf p e new ref.reading
  let r := rateOf e a.amount
  { conditions :=
      condIf e.isNone condClockSkew ||| condIf a.reverse.isSome condReverse ||| condIf (excessOf p r) condExcess
        ||| condIf (stagnantOf p e a) condStagnant
    advance := a
    rate := r
    saturated := rateSaturates e a.amount }

/-! ## Stage 6 (R108) -/

/-- Stage 6: an implausible drop against the current reading (R108). -/
def disagrees (p : Profile) (new tagNew cur tagCur : Nat) : Bool :=
  if cur ≤ new then false
  else if cur - new ≤ p.reverseTolerance then false
  else decide (max 1 ((tagNew - tagCur) / 3600000) * p.highRate < (new + registerModulus p - cur) * 16)

/-! ## Stages 7 to 9 (R109 to R111) -/

/-- Stage 7: the meter flags as conditions (R109). -/
def flagConditions (f : Flags) : Conditions := (f.setWidth 14) <<< 5

/-- Stage 8: the extension fields as conditions (R110). -/
def extConditions (ext : Option ExtFields) : Conditions :=
  match ext with
  | some x => condIf (decide (0 < x.tamperCount)) condHistory ||| condIf (decide (0 < x.reverseVolume)) condExtReverse
  | none => 0

/-- Stages 7 to 9: the conditions of a hearing that come from its frames (R109 to R111). -/
def frameConditions (h : Hearing) : Conditions :=
  flagConditions h.flags ||| extConditions h.ext ||| condIf h.service.isSome condService

/-! ## Score and alert decision (R114, R116) -/

/-- The weight of SERVICE for a hearing (R111, R114). -/
def serviceWeight (rules : RuleSet) (service : Option ServiceMark) : Nat :=
  match service with
  | some { code := _, action := .weight w } => w
  | _ => rules.service

/-- The weights in the order of the conditions' bits (R112, R188). -/
def weightsOf (rules : RuleSet) (service : Option ServiceMark) : List Nat :=
  [rules.reverse, rules.excess, rules.stagnant, rules.clockSkew, rules.disagree, rules.magnet, rules.tilt, rules.cover,
   rules.meterReverse, rules.leak, rules.lowbat, rules.history, rules.extReverse, serviceWeight rules service]

/-- The sum of the weights of the conditions of a set, from bit `k` on. -/
def weightSum (c : Conditions) : Nat → List Nat → Nat
  | _, [] => 0
  | k, w :: rest => (if c.getLsbD k then w else 0) + weightSum c (k + 1) rest

/-- The score of a condition set (R114). -/
def scoreOf (rules : RuleSet) (service : Option ServiceMark) (c : Conditions) : Nat :=
  min 255 (weightSum c 0 (weightsOf rules service))

/-- Whether a set holds a condition that another does not. -/
def holdsNew (c old : Conditions) : Bool := decide (c &&& ~~~old ≠ 0)

/-- The alert decision (R116). -/
def alertDecision (score threshold : Nat) (c alerted : Conditions) : Bool :=
  decide (threshold ≤ score) && holdsNew c alerted

/-! ## The result of a screening (R101) -/

/-- The result of a screening, less the alert decision (R101). -/
structure Screening where
  conditions : Conditions
  score : Nat
  mark : Option ScreenMark
  advance : Option Nat
  rate : Option Nat
  reverseAmount : Option Nat
  saturated : Bool
deriving DecidableEq, Repr

/-- The screening of one hearing: stages 1 to 5 against a reference, stage 6 against current fields, stages 7 to 9, and
the score (R100 to R114). -/
def screen (rules : RuleSet) (p : Profile) (hour : Nat) (ref : Option Reference) (cur : Option CurrentFields)
    (h : Hearing) : Screening :=
  let early := ref.map (referenceStages p h.register hour)
  let late :=
    match cur with
    | some c => condIf (disagrees p h.register h.timeTag c.register c.timeTag) condDisagree
    | none => 0
  let conditions :=
    (match early with
      | some r => r.conditions
      | none => 0) ||| late ||| frameConditions h
  { conditions := conditions
    score := scoreOf rules h.service conditions
    mark := early.bind (·.advance.mark)
    advance := early.map (·.advance.amount)
    rate := early.bind (·.rate)
    reverseAmount := early.bind (·.advance.reverse)
    saturated :=
      match early with
      | some r => r.saturated
      | none => false }

end Sys2Proof.Machine
end

