-- ==== Sys2Proof/Machine/Pairing.lean ====
section
/-! DEFINITION. The pairing unit: PAIRING_TAKE_FRAME and PAIR_TIMEOUT (R39 to R51). -/

namespace Sys2Proof.Machine

/-- The hearing of a READING, with its extension fields and pairing mark (R42). -/
def hearingOf (h : FrameHead) (r : ReadingFields) (ext : Option ExtFields) (mark : Option PairMark) : Hearing :=
  { meterId := h.meterId, familyIndex := h.familyIndex, familyCode := h.familyCode, timeTag := h.closeTag,
    rssi := h.rssi, lane := h.lane, register := r.register, flags := r.flags, service := r.service,
    ext := ext, mark := mark }

/-- Put a hearing at the tail of the hearing queue (R41). -/
def queueHearing (u : PairingUnit) (h : Hearing) : PairingUnit := { u with hearings := u.hearings ++ [h] }

/-- The open pairing of a meter (R39). -/
def pairingOf (u : PairingUnit) (meter : Nat) : Option Pairing :=
  u.table.find? (fun p => decide (p.head.meterId = meter))

/-- The table without the pairing of a meter. -/
def withoutPairing (u : PairingUnit) (meter : Nat) : PairingUnit :=
  { u with table := u.table.filter (fun p => decide (p.head.meterId ≠ meter)) }

/-- The counter of a completion (R50, R51, R47, R46). -/
def countCompletion (c : PairingCounters) : PairMark → PairingCounters
  | .extPresent => { c with completed := bump c.completed }
  | .timeout => { c with timedOut := bump c.timedOut }
  | .evicted => { c with evicted := bump c.evicted }
  | .abandoned => { c with abandoned := bump c.abandoned }

/-- A pairing completes: one hearing at the tail of the queue, the pairing out of the table, its counter (R39). -/
def completePairing (u : PairingUnit) (p : Pairing) (ext : Option ExtFields) (mark : PairMark) : PairingUnit :=
  let v := withoutPairing (queueHearing u (hearingOf p.head p.reading ext (some mark))) p.head.meterId
  { v with counters := countCompletion v.counters mark }

/-- The deadline of a pairing that opens now (R40). An expiry due at once has its deadline at this moment. -/
def pairingDeadline (clock : Clock) (timebase : Nat) (h : FrameHead) : Nat :=
  if clock.running then
    (if clock.value < h.closeTag + h.window then timebase + (h.closeTag + h.window - clock.value) else timebase)
  else timebase + h.window

/-- Open a pairing as the newest in opening order (R44). -/
def openPairing (u : PairingUnit) (h : FrameHead) (r : ReadingFields) (deadline : Nat) : PairingUnit :=
  { u with
    table := u.table ++ [{ head := h, reading := r, deadline := deadline }]
    counters := { u.counters with opened := bump u.counters.opened } }

/-- The earliest deadline of a table. -/
def earliestDeadline : List Pairing → Option Nat
  | [] => none
  | p :: rest =>
    match earliestDeadline rest with
    | none => some p.deadline
    | some d => some (min p.deadline d)

/-- The pairing to evict: earliest deadline, the oldest of those that share it (R47). -/
def evictionChoice (table : List Pairing) : Option Pairing :=
  table.find? (fun p => decide (some p.deadline = earliestDeadline table))

/-- A full table makes room by eviction (R47). -/
def makeRoom (u : PairingUnit) : PairingUnit :=
  if u.table.length < Config.openPairings then u
  else
    match evictionChoice u.table with
    | some p => completePairing u p none .evicted
    | none => u

/-- A repeat copy: the stronger copy becomes the head, the deadline and the opening order stay (R45). -/
def mergeCopy (u : PairingUnit) (h : FrameHead) (r : ReadingFields) : PairingUnit :=
  { u with
    table := u.table.map (fun p =>
      if p.head.meterId = h.meterId ∧ p.head.rssi < h.rssi then { p with head := h, reading := r } else p)
    counters := { u.counters with repeated := bump u.counters.repeated } }

/-- Whether a pairing has the family index and the sequence of a frame (R45, R46, R49, R50). -/
def samePair (p : Pairing) (h : FrameHead) : Bool :=
  decide (p.head.familyIndex = h.familyIndex) && decide (p.head.sequence = h.sequence)

/-- A pairing whose deadline has passed completes with PAIR_TIMEOUT (R51). -/
def expirePairing (u : PairingUnit) (meter now : Nat) : PairingUnit :=
  match pairingOf u meter with
  | some p => if p.deadline ≤ now then completePairing u p none .timeout else u
  | none => u

/-- Open a pairing; an expiry due at once completes it straight after the opening (R44, R51; log entry 4, DEDUCED). -/
def openAndExpire (u : PairingUnit) (h : FrameHead) (r : ReadingFields) (deadline now : Nat) : PairingUnit :=
  expirePairing (openPairing u h r deadline) h.meterId now

/-- An EXTENDED READING (R44 to R47). -/
def takeReading (u : PairingUnit) (h : FrameHead) (r : ReadingFields) (deadline now : Nat) : PairingUnit :=
  match pairingOf u h.meterId with
  | some p =>
    if samePair p h then mergeCopy u h r
    else openAndExpire (completePairing u p none .abandoned) h r deadline now
  | none => openAndExpire (makeRoom u) h r deadline now

/-- An EXTENDED EXTENSION (R48 to R50). -/
def takeExtension (u : PairingUnit) (h : FrameHead) (ext : Option ExtFields) : PairingUnit :=
  match pairingOf u h.meterId with
  | none => { u with counters := { u.counters with orphan := bump u.counters.orphan } }
  | some p =>
    if samePair p h then completePairing u p ext .extPresent
    else { u with counters := { u.counters with mismatch := bump u.counters.mismatch } }

/-- A frame of a NONE family (R43). -/
def takePlain (u : PairingUnit) (f : DecodedFrame) : PairingUnit :=
  match f.body with
  | .reading r =>
    let v := queueHearing u (hearingOf f.head r none none)
    { v with counters := { v.counters with passedThrough := bump v.counters.passedThrough } }
  | .extension _ => { u with counters := { u.counters with unexpected := bump u.counters.unexpected } }

/-- The unit takes a decoded frame (R43 to R50). -/
def takeFrame (u : PairingUnit) (f : DecodedFrame) (clock : Clock) (now : Nat) : PairingUnit :=
  match f.head.mode, f.body with
  | .none, _ => takePlain u f
  | .extended, .reading r => takeReading u f.head r (pairingDeadline clock now f.head) now
  | .extended, .extension ext => takeExtension u f.head ext

/-- PAIRING_TAKE_FRAME: only while the hearing queue is empty (R41). -/
def pairingTake (s : State) : State :=
  match s.decoder.offer, s.pairing.hearings with
  | some o, [] => (handOffer s o).setPairing (takeFrame s.pairing o.frame s.clock s.timebase)
  | _, _ => s

/-- PAIRING_TAKE_FRAME. -/
def execPairingTakeFrame (s : State) : Host.Outcome State Fault Refusal := whenRunning s pairingTake

/-- PAIR_TIMEOUT. -/
def execPairTimeout (meterId : Nat) (s : State) : Host.Outcome State Fault Refusal :=
  whenRunning s (fun s => s.setPairing (expirePairing s.pairing meterId s.timebase))

/-- Whether a decoded frame, an open pairing or a hearing of a family index lies before the matcher (R27, R52). -/
def familyBusy (s : State) (i : Fin 16) : Bool :=
  (match s.decoder.offer with
    | some o => decide (o.frame.head.familyIndex = i)
    | none => false)
    || s.pairing.table.any (fun p => decide (p.head.familyIndex = i))
    || s.pairing.hearings.any (fun h => decide (h.familyIndex = i))

end Sys2Proof.Machine
end

