-- ==== Sys2Proof/Machine/Builder.lean ====
section
/-! DEFINITION. The record builder and router, and the live queue: taking a group (R136, R137, R138, R147, R148). -/

namespace Sys2Proof.Machine

/-- A record as its source hands it over: no number, class or route id yet (R134, R136). -/
structure Draft where
  body : RecordBody
  timeTag : Nat
  marks : Marks
  liveForced : Bool
deriving DecidableEq, Repr

/-- The builder is ready: it holds no record, and its record-number-limit flag is clear (R136, R137). -/
def builderReady (s : State) : Bool := s.builder.held.isEmpty && !s.builder.limitFlag

/-- The routing row of a kind (R138). -/
def routingRow (t : Routing) : RecordKind → RoutingRow
  | .reading => t.reading
  | .revision => t.revision
  | .alert => t.alert
  | .foreign => t.foreign
  | .missed => t.missed
  | .segment => t.segment
  | .route => t.route

/-- Add 1 to CREATED of a kind (R149). -/
def bumpCreated (c : CreatedCounts) : RecordKind → CreatedCounts
  | .reading => { c with reading := bump c.reading }
  | .revision => { c with revision := bump c.revision }
  | .alert => { c with alert := bump c.alert }
  | .foreign => { c with foreign := bump c.foreign }
  | .missed => { c with missed := bump c.missed }
  | .segment => { c with segment := bump c.segment }
  | .route => { c with route := bump c.route }

/-! ## The live queue (R147, R148) -/

/-- The live queue as a copy arrives, with the number of the lost copy and whether it was dropped on arrival (R147). -/
def arriveLive (queue : List LiveCopy) (c : LiveCopy) : List LiveCopy × Option (Nat × Bool) :=
  if queue.length < Config.livePlaces then (queue ++ [c], none)
  else if c.priority then
    match queue.find? (fun q => !q.priority) with
    | some lost => (queue.eraseP (fun q => !q.priority) ++ [c], some (lost.record.head.number, false))
    | none => (queue, some (c.record.head.number, true))
  else (queue, some (c.record.head.number, true))

/-- A live copy goes to the live queue; a lost copy is counted and, with the flag armed, sends LIVE_DROP (R147, R148). -/
def pushLive (s : State) (c : LiveCopy) : State :=
  match arriveLive s.live.queue c with
  | (queue, none) => s.setLive { s.live with queue := queue }
  | (queue, some (number, onArrival)) =>
    let t := s.setLive { s.live with queue := queue, dropped := bump s.live.dropped, dropArmed := false }
    if s.live.dropArmed then raiseEvent t .liveDrop number onArrival.toNat else t

/-! ## Taking a group (R136) -/

/-- The record a draft becomes when the builder takes it (R134, R136). -/
def recordOf (s : State) (d : Draft) : Record :=
  { head :=
      { number := s.builder.nextNumber, kind := kindOf d.body, cls := (routingRow s.routing (kindOf d.body)).cls,
        routeId := s.route.id, timeTag := d.timeTag, marks := d.marks }
    body := d.body }

/-- The builder gives the next record number, and at 4,294,967,295 stops with RECORD_NUMBER_LIMIT (R136, R137). -/
def giveNumber (s : State) (k : RecordKind) : State :=
  let b := { s.builder with created := bumpCreated s.builder.created k }
  if s.builder.nextNumber < Config.max32 then s.setBuilder { b with nextNumber := s.builder.nextNumber + 1 }
  else raiseFault (s.setBuilder { b with limitFlag := true }) .recordNumberLimit s.route.id

/-- A live copy is made when the kind's row says so or the record was live-forced; an ALERT or a live-forced record
gives a priority copy (R97, R138). -/
def makeLiveCopy (s : State) (r : Record) (forced : Bool) : State :=
  if (routingRow s.routing r.head.kind).live || forced then
    pushLive s { record := r, priority := forced || decide (r.head.kind = .alert) }
  else s

/-- One record of a group: number, head, live copy, and on to the store (R136). Once the last number is given, what is
left of the group gets none (R137; log entry 6, DEDUCED). -/
def takeDraft (s : State) (d : Draft) : State :=
  if s.builder.limitFlag then s
  else
    let r := recordOf s d
    passRecord (makeLiveCopy (giveNumber s r.head.kind) r d.liveForced) r

/-- A ready builder takes a group, record by record in the order its source gives (R136). -/
def takeGroup (s : State) (group : List Draft) : State := group.foldl takeDraft s

end Sys2Proof.Machine
end

