-- ==== Sys2Proof/Machine/Segments.lean ====
section
/-! DEFINITION. The segment tracker: counts, deadline, close walk (R119 to R128), and the end of the route (R73). -/

namespace Sys2Proof.Machine

/-! ## Admission (R59) -/

/-- Option bits (R57, R189). -/
def hasWatch (o : Options) : Bool := o.getLsbD 0
/-- HOLD among the options. -/
def hasHold (o : Options) : Bool := o.getLsbD 1
/-- PRIORITY_LIVE among the options. -/
def hasPriorityLive (o : Options) : Bool := o.getLsbD 2

/-- Admission follows from the options (R59). -/
def admissionOf (o : Options) : Admission :=
  if hasHold o then .hold else if hasWatch o then .watch else .collect

/-- An entry is a member of its segment unless its admission is HOLD (R59). -/
def isMember (e : Entry) : Bool := !hasHold e.options

/-- Replace the entry of a meter id (R57: the book holds each meter id once). -/
def updateEntry (s : State) (meter : Nat) (f : Entry → Entry) : State :=
  s.setBook (s.book.map (fun e => if e.meterId = meter then f e else e))

/-- The entry of a meter id, which the id index finds (R57, R81). -/
def entryOf (s : State) (meter : Nat) : Option Entry := s.book.find? (fun e => decide (e.meterId = meter))

/-- Entries of a segment that are not HOLD and are in a hearing state (R73, R120). -/
def memberCount (book : List Entry) (segment : Nat) (x : HearingState) : Nat :=
  book.countP (fun e => isMember e && decide (e.segment = segment) && decide (e.hearing = x))

/-! ## Deadline (R123) -/

/-- The deadline of an ACTIVE segment with auto-close on, computed from its fields as they stand (R123). -/
def recompute (g : Segment) : Segment :=
  if g.state = .active ∧ g.autoClose = true then
    let dwell := g.activation.getD 0 + g.minDwell * 1000
    if 0 < g.unheard then
      { g with deadline := some (max (g.lastHeard.getD 0 + g.quietTime * 1000) dwell), deadlineReason := some .auto }
    else { g with deadline := some dwell, deadlineReason := some .complete }
  else { g with deadline := none, deadlineReason := none }

/-! ## Notices (R120, R122) -/

/-- The later of the last-heard time and a time tag (R120). -/
def laterHeard (old : Option Nat) (tag : Nat) : Option Nat :=
  match old with
  | some t => some (max t tag)
  | none => some tag

/-- A first hearing: counts, last-heard time, activation of a PENDING segment, deadline (R89, R120, R122, R123). -/
def noteFirst (g : Segment) (tag : Nat) : Segment :=
  let h := { g with unheard := g.unheard - 1, heard := g.heard + 1 }
  if g.state = .pending then
    recompute { h with state := .active, activation := some tag, lastHeard := some tag }
  else recompute { h with lastHeard := laterHeard g.lastHeard tag }

/-- A late hearing: counts and last-heard time (R90, R120). -/
def noteLate (g : Segment) (tag : Nat) : Segment :=
  recompute { g with missed := g.missed - 1, late := g.late + 1, lastHeard := laterHeard g.lastHeard tag }

/-- Add to the member count and to the count of a hearing state (R64, R68, R120). -/
def noteJoin (g : Segment) (x : HearingState) : Segment :=
  recompute
    (match x with
      | .unheard => { g with member := g.member + 1, unheard := g.unheard + 1 }
      | .heard => { g with member := g.member + 1, heard := g.heard + 1 }
      | .missed => { g with member := g.member + 1, missed := g.missed + 1 }
      | .late => { g with member := g.member + 1, late := g.late + 1 })

/-- Take from the member count and from the count of a hearing state (R68, R120). -/
def noteLeave (g : Segment) (x : HearingState) : Segment :=
  recompute
    (match x with
      | .unheard => { g with member := g.member - 1, unheard := g.unheard - 1 }
      | .heard => { g with member := g.member - 1, heard := g.heard - 1 }
      | .missed => { g with member := g.member - 1, missed := g.missed - 1 }
      | .late => { g with member := g.member - 1, late := g.late - 1 })

/-- A MISS that turned a member MISSED (R120, R126). -/
def noteMiss (g : Segment) : Segment := recompute { g with unheard := g.unheard - 1, missed := g.missed + 1 }

/-- Give a segment of the table a notice. -/
def notifySegment (s : State) (n : Nat) (f : Segment → Segment) : State :=
  match s.segments[n]? with
  | some g => s.setSegment n (f g)
  | none => s

/-! ## Close (R124, R125) -/

/-- The book index, from `start` on, of the next entry of a segment; `i` is the index of the list's head. -/
def entryFrom (segment start : Nat) : List Entry → Nat → Option Nat
  | [], _ => none
  | e :: rest, i => if start ≤ i ∧ e.segment = segment then some i else entryFrom segment start rest (i + 1)

/-- The start of a close: CLOSING with its reason, no deadline, the walk at the segment's first entry (R125). -/
def closeStart (book : List Entry) (n : Nat) (reason : CloseReason) (g : Segment) : Segment :=
  { g with
    state := .closing
    closeReason := some reason
    deadline := none
    deadlineReason := none
    walkPosition := entryFrom n 0 book 0
    waiting := none }

/-- Start a close of one segment of the table. -/
def startClose (s : State) (n : Nat) (reason : CloseReason) : State :=
  notifySegment s n (closeStart s.book n reason)

/-- Every PENDING or ACTIVE segment starts a close with reason ROUTE_END (R72, R133). -/
def closeAllOpen (s : State) : State :=
  s.setSegments (s.segments.mapIdx (fun n g =>
    if g.state = .pending ∨ g.state = .active then closeStart s.book n .routeEnd g else g))

/-- SEGMENT_DEADLINE_EXPIRY: the route clock is at or above an ACTIVE segment's deadline (R123, R124). -/
def deadlineExpiry (s : State) (n : Nat) : State :=
  match s.segments[n]? with
  | some g =>
    match g.state, g.deadline with
    | .active, some d => if d ≤ s.clock.value then startClose s n (g.deadlineReason.getD .auto) else s
    | _, _ => s
  | none => s

/-! ## The close walk (R126) -/

/-- The MISSED record of a visit (R126, R135). -/
def missedDraft (n : Nat) (w : WaitingMissed) : Draft :=
  { body := .missed w.meterId n w.pass, timeTag := w.timeTag, marks := 0, liveForced := false }

/-- The walk moves on to the next entry of the segment in book order (R126). -/
def walkOn (book : List Entry) (n p : Nat) (g : Segment) : Segment :=
  { g with walkPosition := entryFrom n (p + 1) book 0, waiting := none }

/-- Whether a visit turns an entry MISSED (R126). -/
def walkMisses (n : Nat) (e : Entry) : Bool :=
  isMember e && decide (e.segment = n) && decide (e.hearing = .unheard)

/-- A ready builder takes the waiting MISSED record, and the walk moves on; otherwise the record waits (R126). -/
def handMissed (s : State) (n p : Nat) (w : WaitingMissed) : State :=
  if builderReady s then takeGroup (notifySegment s n (walkOn s.book n p)) [missedDraft n w] else s

/-- The visit of an UNHEARD member: it becomes MISSED at once, and its record is handed over or waits (R126). -/
def missEntry (s : State) (n p : Nat) (g : Segment) (e : Entry) : State :=
  let w : WaitingMissed := { meterId := e.meterId, pass := g.pass, timeTag := s.clock.value }
  handMissed
    ((s.setBook (s.book.set p { e with hearing := .missed })).setSegment n { noteMiss g with waiting := some w }) n p w

/-- CLOSE_WALK_VISIT (R126). -/
def walkVisit (s : State) (n : Nat) : State :=
  match s.segments[n]? with
  | none => s
  | some g =>
    match g.state, g.walkPosition with
    | .closing, some p =>
      match g.waiting with
      | some w => handMissed s n p w
      | none =>
        match s.book[p]? with
        | some e => if walkMisses n e then missEntry s n p g e else s.setSegment n (walkOn s.book n p g)
        | none => s.setSegment n (walkOn s.book n p g)
    | _, _ => s

/-! ## The end of a close and of the route (R73, R127) -/

/-- The SEGMENT record of a close that ends now (R127, R135). -/
def segmentDraft (n : Nat) (g : Segment) (now : Nat) : Draft :=
  { body := .segment n g.pass g.member g.heard g.missed g.late (g.closeReason.getD .auto) g.activation now
    timeTag := now, marks := 0, liveForced := false }

/-- Parameter and detail byte of SEGMENT_CLOSED (R127, R189). -/
def sendSegmentClosed (s : State) (n : Nat) (g : Segment) : State :=
  raiseEvent s .segmentClosed (n * 65536 + g.missed) (g.pass * 16 + closeReasonCode (g.closeReason.getD .auto))

/-- CLOSE_END: the walk has visited the last entry and the ready builder takes the SEGMENT record (R127). -/
def closeEnd (s : State) (n : Nat) : State :=
  match s.segments[n]? with
  | none => s
  | some g =>
    if g.state = .closing ∧ g.walkPosition = none ∧ builderReady s = true then
      sendSegmentClosed
        (takeGroup (s.setSegment n { g with state := .closed, walkPosition := none })
          [segmentDraft n g s.clock.value]) n g
    else s

/-- Entries that are not HOLD and are in a hearing state (R73). -/
def bookCount (book : List Entry) (x : HearingState) : Nat :=
  book.countP (fun e => isMember e && decide (e.hearing = x))

/-- The ROUTE record with phase END (R73, R135). -/
def routeEndDraft (s : State) : Draft :=
  { body := .routeEnd (bookCount s.book .heard) (bookCount s.book .missed) (bookCount s.book .late) s.route.heldHearings
    timeTag := s.clock.value, marks := 0, liveForced := false }

/-- No segment is PENDING, ACTIVE or CLOSING (R73). -/
def allClosed (s : State) : Bool := s.segments.all (fun g => decide (g.state = .closed))

/-- ROUTE_END_RECORD: in ENDING with every segment CLOSED, the ready builder takes the ROUTE record, the route clock
stops and the route state becomes ENDED (R73, R136). -/
def routeEndRecord (s : State) : State :=
  if s.route.state = .ending ∧ allClosed s = true ∧ builderReady s = true then
    let t := takeGroup s [routeEndDraft s]
    changeRoute (t.setClock { s.clock with running := false }) { t.route with state := .ended }
  else s

/-- ROUTE_CLOCK_LIMIT: the running clock stands at its maximum and the fault was not raised for this route (R76). -/
def routeClockLimit (s : State) : State :=
  if s.clock.running = true ∧ s.clock.value = Config.max32 ∧ s.route.clockLimitRaised = false then
    raiseFault (s.setRoute { s.route with clockLimitRaised := true }) .clockLimit s.route.id
  else s

/-- SEGMENT_DEADLINE_EXPIRY. -/
def execSegmentDeadlineExpiry (segment : Nat) (s : State) : Host.Outcome State Fault Refusal :=
  whenRunning s (fun s => deadlineExpiry s segment)

/-- CLOSE_WALK_VISIT. -/
def execCloseWalkVisit (segment : Nat) (s : State) : Host.Outcome State Fault Refusal :=
  whenRunning s (fun s => kickTrunk (walkVisit s segment))

/-- CLOSE_END. -/
def execCloseEnd (segment : Nat) (s : State) : Host.Outcome State Fault Refusal :=
  whenRunning s (fun s => kickTrunk (closeEnd s segment))

/-- ROUTE_END_RECORD. -/
def execRouteEndRecord (s : State) : Host.Outcome State Fault Refusal :=
  whenRunning s (fun s => kickTrunk (routeEndRecord s))

/-- ROUTE_CLOCK_LIMIT. -/
def execRouteClockLimit (s : State) : Host.Outcome State Fault Refusal :=
  whenRunning s (fun s => kickTrunk (routeClockLimit s))

end Sys2Proof.Machine
end

