-- ==== Sys2Proof/Machine/Matcher.lean ====
section
/-! DEFINITION. The matcher: MATCHER_TAKE_HEARING (R80 to R97, R56), with the screening of chapter 6. -/

namespace Sys2Proof.Machine

/-- What an empty place of the family table reads as; no hearing of the book or the air meets one (R27, R57; log entry
20). -/
def blankProfile : Profile :=
  { familyCode := 0, digits := 4, encoding := .binary3, registerOffset := 0, flagOffset := none, flagMap := {},
    serviceOffset := none, mode := .none, window := 250, extTamperOffset := none, extReverseOffset := none,
    highRate := 1, reverseTolerance := 0, stagnationHours := 0, revisionStep := 1 }

/-- The profile of a family index (R100). -/
def profileOf (s : State) (i : Fin 16) : Profile := s.families[i].getD blankProfile

/-- The threshold of a book entry's alert decision (R116). -/
def thresholdOf (rules : RuleSet) (o : Options) : Nat :=
  if admissionOf o = .watch then rules.watchThreshold else rules.alertThreshold

/-- A screening mark as a mark of a record (R103, R104, R134). -/
def markOfScreen : Option ScreenMark → Marks
  | none => 0
  | some .rollover => markRollover
  | some .minorReverse => markMinorReverse

/-- The marks of a hearing's records, but for LATE (R96). -/
def hearingMarks (h : Hearing) (r : Screening) : Marks := markOfPair h.mark ||| markOfScreen r.mark

/-- READING and REVISION records of a WATCH or PRIORITY_LIVE entry are live-forced (R97). -/
def liveForcedBy (o : Options) : Bool := hasWatch o || hasPriorityLive o

/-! ## Screening counters (R118) -/

/-- The counters of the alert decision and of a saturated rate (R105, R116, R118). -/
def countScreening (c : ScreeningCounters) (r : Screening) (threshold : Nat) (alerted : Conditions) : ScreeningCounters :=
  { c with
    alertCreated := if alertDecision r.score threshold r.conditions alerted then bump c.alertCreated else c.alertCreated
    alertRepeated :=
      if threshold ≤ r.score ∧ holdsNew r.conditions alerted = false then bump c.alertRepeated else c.alertRepeated
    rateSaturated := if r.saturated then bump c.rateSaturated else c.rateSaturated }

/-- The alerted conditions after the decision (R116). -/
def alertedAfter (r : Screening) (threshold : Nat) (alerted : Conditions) : Conditions :=
  if alertDecision r.score threshold r.conditions alerted then alerted ||| r.conditions else alerted

/-- The ALERT of a hearing, when the decision is yes (R96, R116, R117). -/
def alertDrafts (h : Hearing) (r : Screening) (threshold : Nat) (alerted : Conditions) (reference : Option Nat) :
    List Draft :=
  if alertDecision r.score threshold r.conditions alerted then
    [{ body := .alert h.meterId r.conditions r.score threshold reference, timeTag := h.timeTag,
       marks := hearingMarks h r, liveForced := false }]
  else []

/-! ## Book entries -/

/-- The body of a READING or REVISION (R96). -/
def readingBody (e : Entry) (h : Hearing) (r : Screening) : ReadingBody :=
  { meterId := e.meterId, familyCode := e.familyCode, segment := e.segment, register := h.register, flags := h.flags,
    conditions := r.conditions, score := r.score, bestRssi := max e.bestRssi h.rssi, lane := h.lane,
    advance := r.advance, rate := r.rate, reverseAmount := r.reverseAmount, ext := h.ext,
    serviceCode := h.service.map (·.code) }

/-- What every hearing matched to an entry writes: heard count and best RSSI (R87, R88, R92, R93). -/
def touchEntry (e : Entry) (h : Hearing) : Entry :=
  { e with heardCount := bumpTo 255 e.heardCount, bestRssi := max e.bestRssi h.rssi }

/-- What every screened hearing of an entry writes: current fields, day max score, alerted conditions (R88, R93, R115,
R116). -/
def screenEntry (e : Entry) (h : Hearing) (r : Screening) (threshold : Nat) : Entry :=
  { touchEntry e h with
    current := some { register := h.register, flags := h.flags, ext := h.ext, timeTag := h.timeTag }
    dayMaxScore := max e.dayMaxScore r.score
    alerted := alertedAfter r threshold e.alerted }

/-- The screening of a hearing of a book entry, against its reference and, for a later hearing, its current fields
(R88, R93, R100). -/
def screenFor (s : State) (e : Entry) (cur : Option CurrentFields) (h : Hearing) : Screening :=
  screen s.rules (profileOf s h.familyIndex) (routeHour s.route.startHour h.timeTag) e.reference cur h

/-- SCREENED_BOOK and the counters of the decision (R118). -/
def countBook (s : State) (r : Screening) (threshold : Nat) (alerted : Conditions) : State :=
  s.setScreening
    { countScreening s.screening r threshold alerted with screenedBook := bump s.screening.screenedBook }

/-- The first hearing of a member, or a late one (R88, R89, R90). -/
def hearFirst (s : State) (e : Entry) (h : Hearing) (late : Bool) : State :=
  let r := screenFor s e none h
  let threshold := thresholdOf s.rules e.options
  let number := s.builder.nextNumber
  let reading : Draft :=
    { body := .reading (readingBody e h r), timeTag := h.timeTag,
      marks := hearingMarks h r ||| (if late then markLate else 0), liveForced := liveForcedBy e.options }
  let t := updateEntry (countBook s r threshold e.alerted) e.meterId (fun _ =>
    { screenEntry e h r threshold with
      hearing := if late then .late else .heard
      reported := some { register := h.register, flags := h.flags, conditions := r.conditions }
      recordNumber := some number })
  takeGroup
    (notifySegment t e.segment (fun g => if late then noteLate g h.timeTag else noteFirst g h.timeTag))
    (reading :: alertDrafts h r threshold e.alerted (some number))

/-- The forward advance from the reported register (R94). -/
def forwardAdvance (p : Profile) (new rep : Nat) : Nat :=
  if rep ≤ new then new - rep
  else if rep - new ≤ p.reverseTolerance then 0
  else new + registerModulus p - rep

/-- The revision triggers (R94). -/
def revisionTrigger (p : Profile) (h : Hearing) (r : Screening) (rep : ReportedFields) : Bool :=
  decide (p.revisionStep ≤ forwardAdvance p h.register rep.register) || decide (h.flags ≠ rep.flags)
    || holdsNew r.conditions rep.conditions || decide (r.conditions &&& condDisagree ≠ 0)

/-- A later hearing repeats the current fields (R92). -/
def repeatsCurrent (e : Entry) (h : Hearing) : Bool :=
  match e.current with
  | some c => decide (h.register = c.register) && decide (h.flags = c.flags) && decide (h.ext = c.ext)
  | none => false

/-- Whether a later hearing's triggers hold against the entry's reported fields (R94). -/
def triggered (s : State) (e : Entry) (h : Hearing) (r : Screening) : Bool :=
  match e.reported with
  | some rep => revisionTrigger (profileOf s h.familyIndex) h r rep
  | none => true

/-- A later hearing that creates a REVISION (R93, R95). -/
def hearRevision (s : State) (e : Entry) (h : Hearing) (r : Screening) : State :=
  let threshold := thresholdOf s.rules e.options
  let number := s.builder.nextNumber
  let revision : Draft :=
    { body := .revision (readingBody e h r) (e.recordNumber.getD 0), timeTag := h.timeTag, marks := hearingMarks h r,
      liveForced := liveForcedBy e.options }
  takeGroup
    (updateEntry (countBook s r threshold e.alerted) e.meterId (fun _ =>
      { screenEntry e h r threshold with
        revisions := e.revisions + 1
        reported := some { register := h.register, flags := h.flags, conditions := r.conditions } }))
    (revision :: alertDrafts h r threshold e.alerted (some number))

/-- A later hearing that is absorbed; `capped` says that only the cap of 15 stopped a REVISION (R93, R95). -/
def hearAbsorbed (s : State) (e : Entry) (h : Hearing) (r : Screening) (capped : Bool) : State :=
  let threshold := thresholdOf s.rules e.options
  let m := s.matcher
  let t := (countBook s r threshold e.alerted).setMatcher
    { m with absorbed := bump m.absorbed, revisionCap := if capped then bump m.revisionCap else m.revisionCap }
  takeGroup (updateEntry t e.meterId (fun _ => screenEntry e h r threshold))
    (alertDrafts h r threshold e.alerted none)

/-- A hearing of a HEARD or LATE entry (R92 to R95). -/
def hearLater (s : State) (e : Entry) (h : Hearing) : State :=
  if repeatsCurrent e h then
    (updateEntry s e.meterId (fun x => touchEntry x h)).setMatcher
      { s.matcher with duplicate := bump s.matcher.duplicate }
  else
    let r := screenFor s e e.current h
    if triggered s e h r then
      (if e.revisions < 15 then hearRevision s e h r else hearAbsorbed s e h r true)
    else hearAbsorbed s e h r false

/-- A held hearing (R74, R87). -/
def hearHeld (s : State) (e : Entry) (h : Hearing) : State :=
  ((updateEntry s e.meterId (fun x => touchEntry x h)).setMatcher
    { s.matcher with held := bump s.matcher.held }).setRoute
      { s.route with heldHearings := bump s.route.heldHearings }

/-- A hearing of a meter in the book (R81, cases 3 to 8). -/
def hearBook (s : State) (e : Entry) (h : Hearing) : State :=
  if e.familyIndex ≠ h.familyIndex then
    s.setMatcher { s.matcher with familyMismatch := bump s.matcher.familyMismatch }
  else if hasHold e.options then hearHeld s e h
  else
    match e.hearing with
    | .unheard => hearFirst s e h false
    | .missed => hearFirst s e h true
    | .heard | .late => hearLater s e h

/-! ## Foreign meters (R82 to R85) -/

/-- Move or put an entry at the newest place of the cache, the oldest out of a full one first (R82). -/
def cacheNewest (cache : List ForeignEntry) (f : ForeignEntry) : List ForeignEntry :=
  let others := cache.filter (fun c => decide (c.meterId ≠ f.meterId))
  (if others.length < Config.foreignPlaces then others else others.drop 1) ++ [f]

/-- The FOREIGN record of a hearing (R85, R135). -/
def foreignDraft (h : Hearing) (r : Screening) : Draft :=
  { body := .foreign h.meterId h.familyCode h.register h.flags r.conditions r.score h.rssi, timeTag := h.timeTag,
    marks := hearingMarks h r, liveForced := false }

/-- A foreign hearing that is screened: cache, records and counters (R83, R84). -/
def hearForeignScreened (s : State) (h : Hearing) (alerted : Conditions) (creates : Bool) : State :=
  let r := screen s.rules (profileOf s h.familyIndex) 0 none none h
  let threshold := s.rules.alertThreshold
  let cache := cacheNewest s.matcher.cache
    { meterId := h.meterId, register := h.register, flags := h.flags, alerted := alertedAfter r threshold alerted }
  let t := (s.setMatcher { s.matcher with cache := cache }).setScreening
    { countScreening s.screening r threshold alerted with screenedForeign := bump s.screening.screenedForeign }
  takeGroup t
    ((if creates then [foreignDraft h r] else [])
      ++ alertDrafts h r threshold alerted (if creates then some s.builder.nextNumber else none))

/-- A hearing of a meter that is not in the book (R83). -/
def hearForeign (s : State) (h : Hearing) : State :=
  let t := s.setMatcher { s.matcher with foreignSeen := bump s.matcher.foreignSeen }
  match s.route.policy with
  | .ignore => t
  | .first | .changes =>
    match s.matcher.cache.find? (fun c => decide (c.meterId = h.meterId)) with
    | none => hearForeignScreened t h 0 true
    | some c =>
      if c.register = h.register ∧ c.flags = h.flags then
        t.setMatcher { t.matcher with cache := cacheNewest t.matcher.cache c }
      else hearForeignScreened t h c.alerted (decide (s.route.policy = .changes))

/-! ## The step -/

/-- The matcher classifies a hearing it has taken (R56, R81). -/
def hear (s : State) (h : Hearing) : State :=
  if s.route.state = .running ∨ s.route.state = .ending then
    match entryOf s h.meterId with
    | none => hearForeign s h
    | some e => hearBook s e h
  else s.setMatcher { s.matcher with noRoute := bump s.matcher.noRoute }

/-- MATCHER_TAKE_HEARING: with the builder ready, the matcher takes the head hearing (R80). -/
def matcherTake (s : State) : State :=
  match s.pairing.hearings with
  | [] => s
  | h :: rest =>
    if builderReady s then hear (s.setPairing { s.pairing with hearings := rest }) h else s

/-- MATCHER_TAKE_HEARING. -/
def execMatcherTakeHearing (s : State) : Host.Outcome State Fault Refusal :=
  whenRunning s (fun s => kickTrunk (matcherTake s))

end Sys2Proof.Machine
end

