-- ==== Sys2Proof/Machine/Layouts.lean ====
section
/-! DEFINITION. What goes out on the links as bytes: link frames, events, replies (R187, R188, R189), and the results of
the reading requests (R175 to R179, R184; log entry 11, DESIGN CHOICE). -/

namespace Sys2Proof.Machine

/-! ## Frames (R187, R188, R189) -/

/-- A link frame: start mark, kind, tag, length, payload, CRC over kind to payload (R187). -/
def linkFrame (kind : Nat) (tag : Byte) (payload : List Byte) : List Byte :=
  let body := bigEndian 1 kind ++ [tag] ++ bigEndian 2 payload.length ++ payload
  [0xA5, 0x5A] ++ body ++ crcBytes body

/-- Payload of an EVENT frame (R189). -/
def eventPayload (e : Event) : List Byte :=
  bigEndian 1 (eventCode e.kind) ++ bigEndian 4 e.timeTag ++ bigEndian 4 e.parameter ++ bigEndian 1 e.detail

/-- Payload of a REPLY frame (R189). -/
def replyPayload (r : Reply) : List Byte := [r.code] ++ bigEndian 1 (statusCode r.status) ++ r.results

/-- The bytes of a frame in transmission: kinds REPLY 2, EVENT 3, RECORD 4, BATCH 5 (R160, R180, R187, R188). -/
def frameBytes : TxFrame → List Byte
  | .reply r => linkFrame 2 r.tag (replyPayload r)
  | .event e => linkFrame 3 0 (eventPayload e)
  | .record r => linkFrame 4 0 (encodeRecord r)
  | .batch number payload => linkFrame 5 (BitVec.ofNat 8 number) payload

/-! ## Results: building blocks -/

/-- A flag as a byte (log entry 9, DEDUCED). -/
def flagByte (b : Bool) : List Byte := bigEndian 1 b.toNat

/-- A list behind its count byte (R189). -/
def countedList {α : Type} (f : α → List Byte) (xs : List α) : List Byte := bigEndian 1 xs.length ++ xs.flatMap f

/-- Lane state code, in the order of R2. -/
def laneStateCode : LaneState → Nat
  | .off => 0
  | .hunt => 1
  | .length => 2
  | .body => 3
  | .faulted => 4

/-- Action code, in the order of R34. -/
def actionCode : TableAction → Nat
  | .discard => 0
  | .note => 1
  | .weight => 2

/-- Foreign policy code (R189). -/
def foreignPolicyCode : ForeignPolicy → Nat
  | .ignore => 0
  | .first => 1
  | .changes => 2

/-- Class policy code (R189). -/
def policyCode : Policy → Nat
  | .linear => 0
  | .ring => 1

/-- Hearing state code, in the order of R58. -/
def hearingStateCode : HearingState → Nat
  | .unheard => 0
  | .heard => 1
  | .missed => 2
  | .late => 3

/-- Admission code, in the order in which R59 names them: HOLD, WATCH, COLLECT (R189; log entry 9, DEDUCED). -/
def admissionCode : Admission → Nat
  | .hold => 0
  | .watch => 1
  | .collect => 2

/-- Segment state code, in the order of R119. -/
def segmentStateCode : SegmentState → Nat
  | .pending => 0
  | .active => 1
  | .closing => 2
  | .closed => 3

/-- On or off, and yes or no, in that order (R119, R139, R189; log entry 9, DEDUCED). -/
def onOffCode (on : Bool) : Nat := if on then 0 else 1

/-- An optional result of 4 bytes: its bytes when present. -/
def optionalFour : Option Nat → List Byte
  | some n => fourBytes n
  | none => []

/-- Stage code, in the order of R153. -/
def stageCode : BatchStage → Nat
  | .reading => 0
  | .ready => 1
  | .sending => 2
  | .waiting => 3

/-- Severity code, in the order in which the fault table of R183 names them: RECOVERABLE, ATTENTION, HALT. R184 and the
terms of 00_scope.md name them in other orders, and R189 does not say which counts (log entry 34, DESIGN CHOICE). -/
def severityCode : Severity → Nat
  | .recoverable => 0
  | .attention => 1
  | .halt => 2

/-- Block code, in the order of the fault table (R183). -/
def blockCode : FaultBlock → Nat
  | .laneReceivers => 0
  | .routeClock => 1
  | .recordBuilder => 2
  | .recordStore => 3
  | .linkInterface => 4

/-- Code of the trunk rate (R175). -/
def trunkRateCode : TrunkRate → Nat
  | .baud921600 => 0
  | .baud3000000 => 1

/-! ## IDENTIFY (R175) -/

/-- Results of IDENTIFY: codes, revision, trunk rate, link number, capacities (R175). -/
def identifyResults (s : State) (k : Link) : List Byte :=
  bigEndian 2 Config.vendorCode ++ bigEndian 2 Config.partCode ++ bigEndian 1 Config.siliconRevision
    ++ bigEndian 1 (trunkRateCode s.pins.trunkRate) ++ bigEndian 1 (linkNumber k)
    ++ bigEndian 1 8 ++ bigEndian 1 128 ++ bigEndian 1 16 ++ bigEndian 1 16 ++ bigEndian 1 16 ++ bigEndian 2 4096
    ++ bigEndian 1 64 ++ bigEndian 1 64 ++ bigEndian 1 4 ++ bigEndian 3 65536 ++ bigEndian 1 32 ++ bigEndian 1 128
    ++ bigEndian 1 64 ++ bigEndian 1 8

/-! ## First-fault record (R184) -/

/-- The captured fields, absent when the record is empty. -/
def capturedBytes : Option CapturedFault → List Byte
  | some f =>
    bigEndian 1 (faultCode f.kind) ++ bigEndian 1 (severityCode f.severity) ++ bigEndian 1 (blockCode f.block)
      ++ bigEndian 4 f.parameter ++ bigEndian 4 f.timeTag
  | none => []

/-- Results of FAULT_CLEAR: the record as it stood (R184). -/
def faultResults (u : FaultUnit) : List Byte :=
  [presenceByte [u.first.isSome]] ++ capturedBytes u.first ++ bigEndian 2 u.count ++ flagByte u.laterHalt

/-! ## STATUS (R176) -/

/-- The route state record with the route clock (R54, R176). -/
def routeBytes (r : Route) (c : Clock) : List Byte :=
  bigEndian 1 (routeStateCode r.state) ++ bigEndian 2 r.id ++ bigEndian 1 (foreignPolicyCode r.policy)
    ++ bigEndian 2 r.declaredEntries ++ bigEndian 1 r.declaredSegments ++ bigEndian 2 r.loaded
    ++ optionalBytes 1 (r.owner.map linkNumber) ++ bigEndian 3 r.startHour ++ bigEndian 4 r.heldHearings
    ++ flagByte r.clockLimitRaised ++ bigEndian 4 c.value ++ flagByte c.running

/-- Section DEVICE. -/
def statusDevice (s : State) : List Byte :=
  [presenceByte [s.route.owner.isSome]] ++ routeBytes s.route s.clock
    ++ flagByte (decide (s.store.state = .halted)) ++ bigEndian 4 s.builder.nextNumber
    ++ bigEndian 1 (uploadStateCode s.uploader.state) ++ flagByte s.depotUp ++ flagByte s.pins.dock
    ++ bigEndian 1 s.events.mask.toNat ++ bigEndian 1 s.events.queue.length ++ bigEndian 4 s.events.pendingLost
    ++ faultResults s.faults ++ flagByte s.builder.limitFlag

/-- One lane of section LANES (R2). -/
def laneBytes (l : Lane) : List Byte :=
  [presenceByte [l.pendingMinRssi.isSome, l.pendingMaxLength.isSome]] ++ bigEndian 1 (laneStateCode l.state)
    ++ flagByte l.enable ++ bigEndian 1 l.minRssi ++ bigEndian 1 l.maxLength ++ bigEndian 1 l.gapLimit
    ++ optionalBytes 1 l.pendingMinRssi ++ optionalBytes 1 l.pendingMaxLength ++ bigEndian 1 l.streak

/-- Section LANES. -/
def statusLanes (s : State) : List Byte := s.lanes.toList.flatMap laneBytes

/-- One open pairing of section CAPTURE, with the milliseconds left (R52), which R40 bounds by no range (log entry 32,
DESIGN CHOICE). -/
def pairingBytes (now : Nat) (p : Pairing) : List Byte :=
  bigEndian 4 p.head.meterId ++ bigEndian 1 p.head.familyIndex.val ++ bigEndian 1 p.head.sequence
    ++ bigEndian 1 p.head.rssi ++ bigEndian 1 p.head.lane.val ++ fourBytes (p.deadline - now)

/-- Section CAPTURE. The matcher waits on the builder when a hearing waits and the builder is not ready (R80). R52 and
R176 do not say in which order the open pairings stand: the model lists them in the order in which they were opened,
oldest first (log entry 11, DESIGN CHOICE). -/
def statusCapture (s : State) : List Byte :=
  bigEndian 1 (descriptorCount s.pool .free) ++ bigEndian 1 (descriptorCount s.pool .opened)
    ++ bigEndian 1 (descriptorCount s.pool .closed) ++ bigEndian 1 (descriptorCount s.pool .decoding)
    ++ bigEndian 1 s.pool.closeQueue.length ++ flagByte s.pool.fullArmed
    ++ countedList (pairingBytes s.timebase) s.pairing.table ++ bigEndian 1 s.pairing.hearings.length
    ++ flagByte (!s.pairing.hearings.isEmpty && !builderReady s) ++ bigEndian 1 s.matcher.cache.length

/-- One place of section FAMILY. -/
def familyBytes (p : Option Profile) : List Byte :=
  [presenceByte [p.isSome]] ++ optionalBytes 1 (p.map (·.familyCode))

/-- Section FAMILY. -/
def statusFamily (s : State) : List Byte := s.families.toList.flatMap familyBytes

/-- One place of section SERVICE. -/
def serviceBytes (e : Option ServiceEntry) : List Byte :=
  [presenceByte [e.isSome]]
    ++ (match e with
        | some x => bigEndian 1 x.code ++ bigEndian 1 (actionCode x.action) ++ bigEndian 1 x.weight ++ bigEndian 4 x.discards
        | none => [])

/-- Section SERVICE. -/
def statusService (s : State) : List Byte := s.services.toList.flatMap serviceBytes

/-- Section RULES, in the order of R112. -/
def statusRules (s : State) : List Byte :=
  let r := s.rules
  [r.reverse, r.excess, r.stagnant, r.clockSkew, r.disagree, r.magnet, r.tilt, r.cover, r.meterReverse, r.leak, r.lowbat,
   r.history, r.extReverse, r.service, r.alertThreshold, r.watchThreshold].flatMap (bigEndian 1)

/-- How many segments are in a state. -/
def segmentCount (s : State) (x : SegmentState) : Nat := s.segments.countP (fun g => decide (g.state = x))

/-- Section SEGMENTS. -/
def statusSegments (s : State) : List Byte :=
  bigEndian 1 (segmentCount s .pending) ++ bigEndian 1 (segmentCount s .active) ++ bigEndian 1 (segmentCount s .closing)
    ++ bigEndian 1 (segmentCount s .closed)

/-- One row of the routing table. -/
def routingBytes (r : RoutingRow) : List Byte := bigEndian 1 r.cls.val ++ flagByte r.live

/-- One class of section STORE (R139, R145); CLASS_FULL armed is yes or no, coded in that order (log entry 9, DEDUCED). -/
def classBytes (st : Store) (c : Fin 4) : List Byte :=
  let k := st.classes[c]
  let oldest := (oldestOf st c).map (·.head.number)
  let newest := (newestOf st c).map (·.head.number)
  [presenceByte [oldest.isSome, newest.isSome]] ++ bigEndian 3 k.quota ++ bigEndian 1 (policyCode k.policy)
    ++ bigEndian 1 k.priority ++ bigEndian 3 (classCount st c) ++ optionalBytes 4 oldest ++ optionalBytes 4 newest
    ++ bigEndian 1 (onOffCode k.fullArmed) ++ bigEndian 3 (stateCount st c .stored) ++ bigEndian 3 (stateCount st c .inFlight)

/-- Section STORE. The rows of the routing table stand in the order of R138's table: READING, REVISION, ALERT, MISSED,
SEGMENT, ROUTE, FOREIGN (R138, R176; log entry 11, DESIGN CHOICE). -/
def statusStore (s : State) : List Byte :=
  ([s.routing.reading, s.routing.revision, s.routing.alert, s.routing.missed, s.routing.segment, s.routing.route,
    s.routing.foreign].flatMap routingBytes) ++ (List.finRange 4).flatMap (classBytes s.store)
    ++ bigEndian 1 s.store.appendQueue.length ++ bigEndian 1 s.live.queue.length
    ++ bigEndian 1 (s.live.queue.countP (·.priority)) ++ flagByte s.live.dropArmed

/-- One in-flight batch of section UPLOAD (R153, R176). -/
def batchBytes (b : Batch) : List Byte :=
  bigEndian 1 b.number ++ bigEndian 1 b.cls.val ++ bigEndian 1 b.records.length ++ bigEndian 1 (stageCode b.stage)

/-- The progress record (R169). -/
def progressBytes (s : State) : List Byte :=
  bigEndian 1 (uploadStateCode s.uploader.state) ++ optionalBytes 1 (s.uploader.currentClass.map (·.val))
    ++ bigEndian 4 s.uploader.sent ++ bigEndian 4 s.uploader.released ++ bigEndian 4 s.uploader.timeouts
    ++ bigEndian 3 (eligible s) ++ optionalBytes 1 (s.uploader.lastEnd.map endReasonCode)

/-- Section UPLOAD. -/
def statusUpload (s : State) : List Byte :=
  let u := s.uploader
  [presenceByte [u.lastStart.isSome, u.currentClass.isSome, u.lastEnd.isSome]]
    ++ bigEndian 1 (uploadStateCode u.state) ++ bigEndian 1 u.classMask.toNat ++ bigEndian 1 u.batchSize
    ++ bigEndian 1 u.window ++ bigEndian 2 u.ackTimeout ++ bigEndian 1 u.pacing ++ countedList batchBytes u.batches
    ++ bigEndian 1 u.nextNumber ++ optionalFour u.lastStart ++ bigEndian 1 u.streak ++ progressBytes s

/-- The section of a number, in the order of R176; none for a number outside the table. -/
def statusSection (s : State) : Nat → Option (List Byte)
  | 0 => some (statusDevice s)
  | 1 => some (statusLanes s)
  | 2 => some (statusCapture s)
  | 3 => some (statusFamily s)
  | 4 => some (statusService s)
  | 5 => some (statusRules s)
  | 6 => some (statusSegments s)
  | 7 => some (statusStore s)
  | 8 => some (statusUpload s)
  | _ => none

/-! ## COUNTERS_READ (R177) -/

/-- Counter group, in the order of R177. -/
inductive CounterGroup where
  | lanes
  | decoder
  | pairing
  | matcher
  | screening
  | store
  | links
deriving DecidableEq, Repr

/-- The group of a number. -/
def counterGroup : Nat → Option CounterGroup
  | 0 => some .lanes
  | 1 => some .decoder
  | 2 => some .pairing
  | 3 => some .matcher
  | 4 => some .screening
  | 5 => some .store
  | 6 => some .links
  | _ => none

/-- The counters of a lane (section 1.8). -/
def laneCounts (c : LaneCounters) : List Nat :=
  [c.good, c.badCrc, c.short, c.superseded, c.portError, c.lowSignal, c.noDescriptor, c.badLength]

/-- The counters of R36. -/
def decoderCounts (c : DecoderCounters) : List Nat :=
  [c.rawBadCrc, c.rawShort, c.rawSuperseded, c.rawPortError, c.rawAborted, c.badId, c.unknownFamily, c.frameKind,
   c.shortBody, c.badRegister, c.decodedReading, c.decodedExtension, c.serviceUnlisted]

/-- The discard count of a service place; 0 for an empty one (R36). -/
def discardCount (e : Option ServiceEntry) : Nat :=
  match e with
  | some x => x.discards
  | none => 0

/-- The counters of R52. -/
def pairingCounts (c : PairingCounters) : List Nat :=
  [c.passedThrough, c.unexpected, c.opened, c.repeated, c.completed, c.timedOut, c.evicted, c.abandoned, c.orphan,
   c.mismatch]

/-- The counters of R98. -/
def matcherCounts (m : Matcher) : List Nat :=
  [m.noRoute, m.foreignSeen, m.familyMismatch, m.held, m.duplicate, m.absorbed, m.revisionCap]

/-- The counters of R118. -/
def screeningCounts (c : ScreeningCounters) : List Nat :=
  [c.screenedBook, c.screenedForeign, c.alertCreated, c.alertRepeated, c.rateSaturated]

/-- CREATED per kind. R149 does not say in which order the kinds stand: the model takes the order of their codes in R188
(log entry 11, DESIGN CHOICE). -/
def createdCounts (c : CreatedCounts) : List Nat :=
  [c.reading, c.revision, c.alert, c.foreign, c.missed, c.segment, c.route]

/-- The counters of R149. -/
def storeCounts (s : State) : List Nat :=
  let ks := s.store.classes.toList
  createdCounts s.builder.created ++ ks.map (·.appended) ++ ks.map (·.refusedFull) ++ ks.map (·.refusedInFlight)
    ++ ks.map (·.overwritten)
    ++ [s.store.refusedHalted, s.store.writeFail, s.store.readFail, s.live.sent, s.live.dropped]

/-- The counters of one link (R177). -/
def portCounts (p : LinkPort) : List Nat := [p.taken, p.dropped, p.discardKind, p.discardLength, p.discardCrc]

/-- The FAULT counts (R177). -/
def faultCounts (c : FaultCounts) : List Nat :=
  [c.laneFaulted, c.clockLimit, c.recordNumberLimit, c.recordWriteFail, c.storeHalt, c.recordReadFail, c.linkCrc,
   c.requestDrop]

/-- Every counter of a group, in the order of the owning rule's table (R177). -/
def groupCounts (s : State) : CounterGroup → List Nat
  | .lanes => s.lanes.toList.flatMap (fun l => laneCounts l.counters)
  | .decoder => decoderCounts s.decoder.counters ++ s.services.toList.map discardCount
  | .pairing => pairingCounts s.pairing.counters
  | .matcher => matcherCounts s.matcher
  | .screening => screeningCounts s.screening
  | .store => storeCounts s
  | .links =>
    portCounts s.trunk ++ portCounts s.depot ++ [s.events.sent, s.events.lost] ++ faultCounts s.faults.counts

/-- The class's counters at 0 (R149). -/
def clearClassCounts (k : StoreClass) : StoreClass :=
  { k with appended := 0, refusedFull := 0, refusedInFlight := 0, overwritten := 0 }

/-- A link's counters at 0. -/
def clearPortCounts (p : LinkPort) : LinkPort :=
  { p with taken := 0, dropped := 0, discardKind := 0, discardLength := 0, discardCrc := 0 }

/-- Every counter of a group becomes 0, and no other (R177). -/
def clearGroup (s : State) : CounterGroup → State
  | .lanes => s.setLanes (s.lanes.map (fun l => { l with counters := {} }))
  | .decoder => (s.setDecoder { s.decoder with counters := {} }).setServices (clearDiscards s.services)
  | .pairing => s.setPairing { s.pairing with counters := {} }
  | .matcher => s.setMatcher { cache := s.matcher.cache }
  | .screening => s.setScreening {}
  | .store =>
    ((s.setBuilder { s.builder with created := {} }).setStore
      { s.store with
        classes := s.store.classes.map clearClassCounts, refusedHalted := 0, writeFail := 0, readFail := 0 }).setLive
          { s.live with sent := 0, dropped := 0 }
  | .links =>
    (((s.setTrunk (clearPortCounts s.trunk)).setDepot (clearPortCounts s.depot)).setEvents
      { s.events with sent := 0, lost := 0 }).setFaults { s.faults with counts := {} }

/-- Results of COUNTERS_READ: each counter in 4 bytes (R177, R189). -/
def counterBytes (counts : List Nat) : List Byte := counts.flatMap (bigEndian 4)

/-! ## ENTRY_READ and SEGMENT_READ (R178, R179) -/

/-- Static fields and admission of an entry (R57, R59). -/
def staticBytes (index : Nat) (e : Entry) : List Byte :=
  bigEndian 2 index ++ bigEndian 4 e.meterId ++ bigEndian 1 e.familyCode ++ bigEndian 1 e.familyIndex.val
    ++ bigEndian 1 e.segment ++ bigEndian 1 e.options.toNat
    ++ (match e.reference with
        | some r => bigEndian 4 r.reading ++ bigEndian 3 r.hour
        | none => [])
    ++ bigEndian 1 (admissionCode (admissionOf e.options))

/-- Current fields of an entry (R58). -/
def currentBytes : Option CurrentFields → List Byte
  | some c => bigEndian 4 c.register ++ bigEndian 1 c.flags.toNat ++ encodeExt c.ext ++ bigEndian 4 c.timeTag
  | none => []

/-- Reported fields of an entry (R58). -/
def reportedBytes : Option ReportedFields → List Byte
  | some r => bigEndian 4 r.register ++ bigEndian 1 r.flags.toNat ++ bigEndian 2 r.conditions.toNat
  | none => []

/-- Day fields of an entry (R58). -/
def dayBytes (e : Entry) : List Byte :=
  bigEndian 1 (hearingStateCode e.hearing) ++ bigEndian 1 e.heardCount ++ currentBytes e.current
    ++ bigEndian 1 e.bestRssi ++ reportedBytes e.reported ++ optionalBytes 4 e.recordNumber
    ++ bigEndian 1 e.revisions ++ bigEndian 1 e.dayMaxScore ++ bigEndian 2 e.alerted.toNat

/-- State and pass of an entry's segment (R178). -/
def segmentOfEntry (s : State) (e : Entry) : List Byte :=
  match s.segments[e.segment]? with
  | some g => bigEndian 1 (segmentStateCode g.state) ++ bigEndian 1 g.pass
  | none => []

/-- Results of ENTRY_READ (R178). -/
def entryResults (s : State) (index : Nat) (e : Entry) : List Byte :=
  [presenceByte [e.reference.isSome, e.current.isSome, (e.current.bind (·.ext)).isSome, e.reported.isSome,
     e.recordNumber.isSome]] ++ staticBytes index e ++ dayBytes e ++ segmentOfEntry s e

/-- Results of SEGMENT_READ, in the order of R119 (R179). The deadline, a clock value plus a time, may stand above
4,294,967,295 (R123; log entry 32, DESIGN CHOICE). -/
def segmentResults (g : Segment) : List Byte :=
  [presenceByte [g.activation.isSome, g.lastHeard.isSome, g.deadline.isSome, g.deadlineReason.isSome,
     g.closeReason.isSome, g.walkPosition.isSome]] ++ bigEndian 1 (segmentStateCode g.state) ++ bigEndian 1 g.pass
    ++ bigEndian 1 (onOffCode g.autoClose) ++ bigEndian 2 g.quietTime ++ bigEndian 2 g.minDwell
    ++ optionalBytes 4 g.activation ++ optionalBytes 4 g.lastHeard ++ bigEndian 2 g.member ++ bigEndian 2 g.unheard
    ++ bigEndian 2 g.heard ++ bigEndian 2 g.missed ++ bigEndian 2 g.late ++ optionalFour g.deadline
    ++ optionalBytes 1 (g.deadlineReason.map closeReasonCode) ++ optionalBytes 1 (g.closeReason.map closeReasonCode)
    ++ optionalBytes 2 g.walkPosition

end Sys2Proof.Machine
end

