-- ==== Sys2Proof/Machine/Operands.lean ====
section
/-! DEFINITION. The arguments of every request, read from its payload by the codes, widths, presence bytes and counts of
R189, with the length check of R173. Values are taken as sent; the owning rule judges their ranges. Where R189 does not
spell a layout out, log entries 7 to 10 say which one is read. -/

namespace Sys2Proof.Machine

/-- A profile as FAMILY_SET sends it (R26, R27; log entry 7, DESIGN CHOICE). -/
structure RawProfile where
  familyCode : Nat
  digits : Nat
  encoding : Nat
  registerOffset : Nat
  flagOffset : Option Nat
  flagMap : FlagMap
  serviceOffset : Option Nat
  mode : Nat
  window : Nat
  extTamperOffset : Option Nat
  extReverseOffset : Option Nat
  highRate : Nat
  reverseTolerance : Nat
  stagnationHours : Nat
  revisionStep : Nat
deriving DecidableEq, Repr

/-- An entry as BOOK_ENTRIES sends it (R57, R63; log entry 7, DESIGN CHOICE). -/
structure RawEntry where
  meterId : Nat
  familyCode : Nat
  segment : Nat
  options : Nat
  referenceReading : Option Nat
  referenceHour : Option Nat
deriving DecidableEq, Repr

/-- A request of the catalogue with its arguments as sent (section 10.3). -/
inductive Request where
  | identify
  | status (section_ : Nat)
  | countersRead (group clear : Nat)
  | entryById (meterId : Nat)
  | entryByIndex (index : Nat)
  | segmentRead (segment : Nat)
  | eventMask (mask : Nat)
  | faultClear
  | reset
  | laneSet (mask enable minRssi maxLength gapLimit : Nat)
  | familySet (index : Nat) (profile : RawProfile)
  | familyClear (index : Nat)
  | serviceClear (place : Nat)
  | serviceSet (place code action weight : Nat)
  | bookOpen (routeId entries segments autoClose quietTime minDwell policy : Nat)
  | bookEntries (first : Nat) (entries : List RawEntry)
  | bookClose
  | bookAbort
  | entryModify (meterId clear set : Nat)
  | segmentModify (segment clear set : Nat)
  | routeStart (startHour : Nat)
  | routeEnd
  | rulesDefaults
  | rulesSet (weights : List Nat)
  | segmentSet (segment autoClose quietTime minDwell : Nat)
  | segmentClose (segment : Nat)
  | segmentReopen (segment : Nat)
  | classSet (cls quota policy priority : Nat)
  | routingDefaults
  | routingSet (kind cls live : Nat)
  | uploadOpen (mask : Nat) (batchSize window ackTimeout pacing : Option Nat)
  | uploadPace (pacing : Nat)
  | uploadStop
  | uploadFinish
  | batchAck (number : Nat)
  | batchNak (number : Nat)
deriving DecidableEq, Repr

/-! ## Taking bytes -/

/-- Take a number of `width` bytes from the front. -/
def takeNat (width : Nat) (bytes : List Byte) : Option (Nat × List Byte) :=
  if width ≤ bytes.length then some (fromBigEndian (bytes.take width), bytes.drop width) else none

/-- Take an optional number: nothing when its presence bit is clear. -/
def takeOptional (present : Bool) (width : Nat) (bytes : List Byte) : Option (Option Nat × List Byte) :=
  if present then (takeNat width bytes).map (fun x => (some x.1, x.2)) else some (none, bytes)

/-- Take numbers of the given widths, with nothing left over (R173). -/
def takeAll : List Nat → List Byte → Option (List Nat)
  | [], bytes => if bytes.isEmpty then some [] else none
  | w :: ws, bytes =>
    match takeNat w bytes with
    | some (n, rest) => (takeAll ws rest).map (n :: ·)
    | none => none

/-- A value when nothing is left over (R173). -/
def ended {α : Type} (x : α) (rest : List Byte) : Option α := if rest.isEmpty then some x else none

/-! ## Requests with presence bytes -/

/-- The flag map as an argument group with its own presence byte, one bit per flag in the order of R26 (log entry 7, DESIGN CHOICE). -/
def takeFlagMap (bytes : List Byte) : Option (FlagMap × List Byte) := do
  let (p, b) ← takeNat 1 bytes
  let (magnet, b) ← takeOptional (p.testBit 0) 1 b
  let (tilt, b) ← takeOptional (p.testBit 1) 1 b
  let (cover, b) ← takeOptional (p.testBit 2) 1 b
  let (meterReverse, b) ← takeOptional (p.testBit 3) 1 b
  let (leak, b) ← takeOptional (p.testBit 4) 1 b
  let (lowbat, b) ← takeOptional (p.testBit 5) 1 b
  some ({ magnet := magnet, tilt := tilt, cover := cover, meterReverse := meterReverse, leak := leak,
          lowbat := lowbat }, b)

/-- FAMILY_SET: presence byte with bit 0 the flag byte offset, 1 the service byte offset, 2 and 3 the extension
offsets; then the family index and the fields of R26 in order (log entry 7, DESIGN CHOICE). -/
def takeFamilySet (bytes : List Byte) : Option Request := do
  let (p, b) ← takeNat 1 bytes
  let (index, b) ← takeNat 1 b
  let (familyCode, b) ← takeNat 1 b
  let (digits, b) ← takeNat 1 b
  let (encoding, b) ← takeNat 1 b
  let (registerOffset, b) ← takeNat 1 b
  let (flagOffset, b) ← takeOptional (p.testBit 0) 1 b
  let (flagMap, b) ← takeFlagMap b
  let (serviceOffset, b) ← takeOptional (p.testBit 1) 1 b
  let (mode, b) ← takeNat 1 b
  let (window, b) ← takeNat 2 b
  let (extTamperOffset, b) ← takeOptional (p.testBit 2) 1 b
  let (extReverseOffset, b) ← takeOptional (p.testBit 3) 1 b
  let (highRate, b) ← takeNat 3 b
  let (reverseTolerance, b) ← takeNat 2 b
  let (stagnationHours, b) ← takeNat 2 b
  let (revisionStep, b) ← takeNat 2 b
  ended (.familySet index
    { familyCode := familyCode, digits := digits, encoding := encoding, registerOffset := registerOffset,
      flagOffset := flagOffset, flagMap := flagMap, serviceOffset := serviceOffset, mode := mode, window := window,
      extTamperOffset := extTamperOffset, extReverseOffset := extReverseOffset, highRate := highRate,
      reverseTolerance := reverseTolerance, stagnationHours := stagnationHours, revisionStep := revisionStep }) b

/-- SERVICE_SET: presence bit 0 means clear, and the place number follows alone (R189). -/
def takeServiceSet (bytes : List Byte) : Option Request :=
  match takeNat 1 bytes with
  | none => none
  | some (p, b) =>
    if p.testBit 0 then
      match takeAll [1] b with
      | some [place] => some (.serviceClear place)
      | _ => none
    else
      match takeAll [1, 1, 1, 1] b with
      | some [place, code, action, weight] => some (.serviceSet place code action weight)
      | _ => none

/-- One entry of BOOK_ENTRIES: its own presence byte, bit 0 the reference reading, bit 1 the reference hour (log
entry 7). -/
def takeEntry (bytes : List Byte) : Option (RawEntry × List Byte) := do
  let (p, b) ← takeNat 1 bytes
  let (meterId, b) ← takeNat 4 b
  let (familyCode, b) ← takeNat 1 b
  let (segment, b) ← takeNat 1 b
  let (options, b) ← takeNat 1 b
  let (referenceReading, b) ← takeOptional (p.testBit 0) 4 b
  let (referenceHour, b) ← takeOptional (p.testBit 1) 3 b
  some ({ meterId := meterId, familyCode := familyCode, segment := segment, options := options,
          referenceReading := referenceReading, referenceHour := referenceHour }, b)

/-- A list of entries, as many as the count byte says. -/
def takeEntries : Nat → List Byte → Option (List RawEntry × List Byte)
  | 0, bytes => some ([], bytes)
  | n + 1, bytes =>
    match takeEntry bytes with
    | some (e, rest) => (takeEntries n rest).map (fun x => (e :: x.1, x.2))
    | none => none

/-- BOOK_ENTRIES: first index, count byte, entries (R63, R189). -/
def takeBookEntries (bytes : List Byte) : Option Request := do
  let (first, b) ← takeNat 2 bytes
  let (count, b) ← takeNat 1 b
  let (entries, b) ← takeEntries count b
  ended (.bookEntries first entries) b

/-- RULES_SET: presence bit 0 means DEFAULTS; else the 14 weights and both thresholds (R113, R189). -/
def takeRulesSet (bytes : List Byte) : Option Request :=
  match takeNat 1 bytes with
  | none => none
  | some (p, b) =>
    if p.testBit 0 then ended .rulesDefaults b
    else (takeAll (List.replicate 16 1) b).map .rulesSet

/-- ROUTING_SET: presence bit 0 means DEFAULTS; else kind, class and live flag (R138, R189). -/
def takeRoutingSet (bytes : List Byte) : Option Request :=
  match takeNat 1 bytes with
  | none => none
  | some (p, b) =>
    if p.testBit 0 then ended .routingDefaults b
    else
      match takeAll [1, 1, 1] b with
      | some [kind, cls, live] => some (.routingSet kind cls live)
      | _ => none

/-- UPLOAD_OPEN: presence byte, class mask, then batch size, window, ack timeout and pacing where present (R189). -/
def takeUploadOpen (bytes : List Byte) : Option Request := do
  let (p, b) ← takeNat 1 bytes
  let (mask, b) ← takeNat 1 b
  let (batchSize, b) ← takeOptional (p.testBit 0) 1 b
  let (window, b) ← takeOptional (p.testBit 1) 1 b
  let (ackTimeout, b) ← takeOptional (p.testBit 2) 2 b
  let (pacing, b) ← takeOptional (p.testBit 3) 1 b
  ended (.uploadOpen mask batchSize window ackTimeout pacing) b

/-- ENTRY_READ: a selector byte, 0 for a meter id and 1 for a book index (R189). -/
def takeEntryRead (bytes : List Byte) : Option Request :=
  match takeNat 1 bytes with
  | some (0, b) =>
    match takeAll [4] b with
    | some [meterId] => some (.entryById meterId)
    | _ => none
  | some (1, b) =>
    match takeAll [2] b with
    | some [index] => some (.entryByIndex index)
    | _ => none
  | _ => none

/-! ## Requests of fixed length -/

/-- A request without arguments. -/
def bare (r : Request) (bytes : List Byte) : Option Request := ended r bytes

/-- A request with one argument of `width` bytes. -/
def single (width : Nat) (f : Nat → Request) (bytes : List Byte) : Option Request :=
  match takeAll [width] bytes with
  | some [n] => some (f n)
  | _ => none

/-- LANE_SET (R16). -/
def takeLaneSet (bytes : List Byte) : Option Request :=
  match takeAll [1, 1, 1, 1, 1] bytes with
  | some [mask, enable, minRssi, maxLength, gapLimit] => some (.laneSet mask enable minRssi maxLength gapLimit)
  | _ => none

/-- BOOK_OPEN (R61). -/
def takeBookOpen (bytes : List Byte) : Option Request :=
  match takeAll [2, 2, 1, 1, 2, 2, 1] bytes with
  | some [routeId, entries, segments, autoClose, quietTime, minDwell, policy] =>
    some (.bookOpen routeId entries segments autoClose quietTime minDwell policy)
  | _ => none

/-- COUNTERS_READ (R177). -/
def takeCountersRead (bytes : List Byte) : Option Request :=
  match takeAll [1, 1] bytes with
  | some [group, clear] => some (.countersRead group clear)
  | _ => none

/-- ENTRY_MODIFY (R67). -/
def takeEntryModify (bytes : List Byte) : Option Request :=
  match takeAll [4, 1, 1] bytes with
  | some [meterId, clear, set] => some (.entryModify meterId clear set)
  | _ => none

/-- SEGMENT_MODIFY (R69). -/
def takeSegmentModify (bytes : List Byte) : Option Request :=
  match takeAll [1, 1, 1] bytes with
  | some [segment, clear, set] => some (.segmentModify segment clear set)
  | _ => none

/-- SEGMENT_SET (R132). -/
def takeSegmentSet (bytes : List Byte) : Option Request :=
  match takeAll [1, 1, 2, 2] bytes with
  | some [segment, autoClose, quietTime, minDwell] => some (.segmentSet segment autoClose quietTime minDwell)
  | _ => none

/-- CLASS_SET (R140). -/
def takeClassSet (bytes : List Byte) : Option Request :=
  match takeAll [1, 3, 1, 1] bytes with
  | some [cls, quota, policy, priority] => some (.classSet cls quota policy priority)
  | _ => none

/-! ## The catalogue (section 10.3, R189) -/

/-- The arguments of the request of a code; `none` outside for a code not in the catalogue, inside for a wrong length. -/
def takeArguments (code : Nat) (bytes : List Byte) : Option (Option Request) :=
  match code with
  | 1 => some (bare .identify bytes)
  | 2 => some (single 1 .status bytes)
  | 3 => some (takeCountersRead bytes)
  | 4 => some (takeEntryRead bytes)
  | 5 => some (single 1 .segmentRead bytes)
  | 6 => some (single 1 .eventMask bytes)
  | 7 => some (bare .faultClear bytes)
  | 8 => some (bare .reset bytes)
  | 9 => some (takeLaneSet bytes)
  | 10 => some (takeFamilySet bytes)
  | 11 => some (single 1 .familyClear bytes)
  | 12 => some (takeServiceSet bytes)
  | 13 => some (takeBookOpen bytes)
  | 14 => some (takeBookEntries bytes)
  | 15 => some (bare .bookClose bytes)
  | 16 => some (bare .bookAbort bytes)
  | 17 => some (takeEntryModify bytes)
  | 18 => some (takeSegmentModify bytes)
  | 19 => some (single 3 .routeStart bytes)
  | 20 => some (bare .routeEnd bytes)
  | 21 => some (takeRulesSet bytes)
  | 22 => some (takeSegmentSet bytes)
  | 23 => some (single 1 .segmentClose bytes)
  | 24 => some (single 1 .segmentReopen bytes)
  | 25 => some (takeClassSet bytes)
  | 26 => some (takeRoutingSet bytes)
  | 27 => some (takeUploadOpen bytes)
  | 28 => some (single 1 .uploadPace bytes)
  | 29 => some (bare .uploadStop bytes)
  | 30 => some (bare .uploadFinish bytes)
  | 31 => some (single 1 .batchAck bytes)
  | 32 => some (single 1 .batchNak bytes)
  | _ => none

/-- How the dispatcher judges a payload (R173): a request of the catalogue, an unknown code, or a wrong length. -/
inductive Parsed where
  | request (r : Request)
  | unknownCode
  | wrongLength
deriving DecidableEq, Repr

/-- The request code of a payload: its first byte, or 0 for an empty payload (R173). -/
def requestCode (payload : List Byte) : Byte := payload.getD 0 0

/-- The dispatcher reads a payload (R173, R189). -/
def parseRequest (payload : List Byte) : Parsed :=
  match takeArguments (requestCode payload).toNat (payload.drop 1) with
  | some (some r) => .request r
  | some none => .wrongLength
  | none => .unknownCode

end Sys2Proof.Machine
end

