-- ==== Sys2Proof/Machine/Requests.lean ====
section
/-! DEFINITION. The request dispatcher (R173, R174): taking the head request of a link's queue, judging its code and
length, handing it to its owning rule and replying. UNKNOWN_REQUEST. -/

namespace Sys2Proof.Machine

/-! ## Answers -/

/-- What an owning rule gives a request: the state it leaves, the status and the results of the reply (R173, R174). -/
structure Answer where
  state : State
  status : Status
  results : List Byte
deriving DecidableEq, Repr

/-- A request refused: nothing changes and the reply carries no results (R174). -/
def refuse (s : State) (x : Status) : Answer := { state := s, status := x, results := [] }

/-- A request carried out, answered OK without results. -/
def accept (s : State) : Answer := { state := s, status := .ok, results := [] }

/-- A request carried out, answered OK with results. -/
def acceptWith (s : State) (results : List Byte) : Answer := { state := s, status := .ok, results := results }

/-! ## The dispatcher (R173, R174) -/

/-- The request the dispatcher of a link may take: it holds none, and the reply queue has a free place (R173). -/
def takable (s : State) (k : Link) : Option RequestFrame :=
  let p := s.link k
  if p.dispatcher = .idle ∧ p.replies.length < Config.linkPlaces then p.requests.head? else none

/-- The request leaves its queue (R172). -/
def popRequest (s : State) (k : Link) : State :=
  s.setLink k { s.link k with requests := (s.link k).requests.tail }

/-- The reply to a request: its code and tag echoed (R174). -/
def replyTo (f : RequestFrame) (a : Answer) : Reply :=
  { code := requestCode f.payload, tag := f.tag, status := a.status, results := a.results }

/-- An answer's reply joins its link's reply queue (R174). -/
def finishRequest (k : Link) (f : RequestFrame) (a : Answer) : State := pushReply a.state k (replyTo f a)

/-- A link's dispatcher takes the head request where the given rule owns it, and the transmitters choose; a head request
of another row, or none that may be taken, leaves the state as it is (R173; log entry 1, DESIGN CHOICE). -/
def serve (k : Link) (owner : State → Request → Option Answer) (s : State) : State :=
  match takable s k with
  | none => s
  | some f =>
    match parseRequest f.payload with
    | .request r =>
      match owner (popRequest s k) r with
      | some a => kickBoth (finishRequest k f a)
      | none => s
    | .unknownCode | .wrongLength => s

/-! ## UNKNOWN_REQUEST -/

/-- The reply to a request of unknown code or wrong length (R173). -/
def judgeUnknown (s : State) : Parsed → Option Answer
  | .unknownCode => some (refuse s .unknownRequest)
  | .wrongLength => some (refuse s .badArgument)
  | .request _ => none

/-- The dispatcher answers a request that reaches no owning block (R173). -/
def serveUnknown (k : Link) (s : State) : State :=
  match takable s k with
  | none => s
  | some f =>
    match judgeUnknown (popRequest s k) (parseRequest f.payload) with
    | some a => kickBoth (finishRequest k f a)
    | none => s

/-- UNKNOWN_REQUEST. -/
def execUnknownRequest (link : Link) (s : State) : Host.Outcome State Fault Refusal := whenRunning s (serveUnknown link)

end Sys2Proof.Machine
end

