-- ==== Sys2Proof/Machine/Book.lean ====
section
/-! DEFINITION. The requests of the route book, the route and its segments: BOOK_OPEN, BOOK_ENTRIES, BOOK_CLOSE,
BOOK_ABORT, ENTRY_MODIFY, SEGMENT_MODIFY, ROUTE_START, ROUTE_START_EXECUTE, ROUTE_END, SEGMENT_SET, SEGMENT_CLOSE and
SEGMENT_REOPEN (R60 to R72, R129, R130, R132). -/

namespace Sys2Proof.Machine

/-! ## BOOK_OPEN (R61, R62) -/

/-- Foreign policy of a code (R54, R189). -/
def foreignPolicyOf : Nat → Option ForeignPolicy
  | 0 => some .ignore
  | 1 => some .first
  | 2 => some .changes
  | _ => none

/-- The range of quiet time and min dwell, and the two codes of auto-close (R61, R132). -/
def segmentSettingsInRange (autoClose quietTime minDwell : Nat) : Bool :=
  decide (autoClose ≤ 1) && decide (10 ≤ quietTime) && decide (quietTime ≤ 3600) && decide (minDwell ≤ 3600)

/-- Auto-close of its code: on 0, off 1 (R61, R189; log entry 9, DEDUCED). -/
def autoCloseOf (code : Nat) : Bool := decide (code = 0)

/-- A segment record as BOOK_OPEN creates it (R62, R119). -/
def freshSegment (autoClose quietTime minDwell : Nat) : Segment :=
  { autoClose := autoCloseOf autoClose, quietTime := quietTime, minDwell := minDwell }

/-- A BOOK_OPEN that passes (R62). -/
def openBook (s : State) (k : Link) (route : Route) (segment : Segment) : State :=
  let t := ((s.setBook []).setSegments (List.replicate route.declaredSegments segment)).setMatcher
    { s.matcher with cache := [] }
  changeRoute (t.setClock {}) { route with state := .loading, owner := some k }

/-- The route state record of a BOOK_OPEN, when its arguments are in range (R61, R62). -/
def routeFrom (routeId entries segments policy : Nat) : Option Route :=
  match foreignPolicyOf policy with
  | some p =>
    if routeId ≤ 65535 ∧ 1 ≤ entries ∧ entries ≤ 4096 ∧ 1 ≤ segments ∧ segments ≤ 64 then
      some { id := routeId, policy := p, declaredEntries := entries, declaredSegments := segments }
    else none
  | none => none

/-- The link is the load owner (R60). -/
def ownsLoad (s : State) (k : Link) : Bool := decide (s.route.owner = some k)

/-- A BOOK_OPEN with its arguments (R61). -/
def judgeBookOpen (s : State) (k : Link) (routeId entries segments autoClose quietTime minDwell policy : Nat) :
    Answer :=
  match s.route.state with
  | .running | .ending => refuse s .wrongState
  | .loading => if ownsLoad s k then refuse s .wrongState else refuse s .busy
  | .empty | .ready | .ended =>
    match routeFrom routeId entries segments policy with
    | some r =>
      if segmentSettingsInRange autoClose quietTime minDwell then
        accept (openBook s k r (freshSegment autoClose quietTime minDwell))
      else refuse s .badArgument
    | none => refuse s .badArgument

/-- BOOK_OPEN (R61). -/
def ownBookOpen (k : Link) (s : State) : Request → Option Answer
  | .bookOpen routeId entries segments autoClose quietTime minDwell policy =>
    some (judgeBookOpen s k routeId entries segments autoClose quietTime minDwell policy)
  | _ => none

/-! ## BOOK_ENTRIES (R63, R64) -/

/-- Reference reading and hour are both given or both absent (R64, check 5). -/
def referencePaired (e : RawEntry) : Bool := e.referenceReading.isSome == e.referenceHour.isSome

/-- The reference lies in its range for the family (R64, check 6). -/
def referenceInRange (p : Profile) (e : RawEntry) : Bool :=
  e.referenceReading.all (fun r => decide (r < registerModulus p))
    && e.referenceHour.all (fun h => decide (h ≤ Config.max24))

/-- The reference of an entry. -/
def referenceOf (e : RawEntry) : Option Reference :=
  match e.referenceReading, e.referenceHour with
  | some r, some h => some { reading := r, hour := h }
  | _, _ => none

/-- The entry that is taken, its day fields at their load values (R57, R58, R64). -/
def entryFromRaw (e : RawEntry) (i : Fin 16) : Entry :=
  { meterId := e.meterId, familyCode := e.familyCode, familyIndex := i, segment := e.segment,
    options := BitVec.ofNat 3 e.options, reference := referenceOf e }

/-- The checks of R64, in their order: the entry that is taken, or the status of the check that failed. -/
def judgeEntry (s : State) (e : RawEntry) : Except Status Entry :=
  if e.meterId = 0 ∨ 0xFFFFFFFF ≤ e.meterId then .error .badArgument
  else
    match familyOf s.families e.familyCode with
    | none => .error .badArgument
    | some i =>
      if s.route.declaredSegments ≤ e.segment ∨ 8 ≤ e.options ∨ referencePaired e = false
          ∨ referenceInRange (profileOf s i) e = false then .error .badArgument
      else if (entryOf s e.meterId).isSome then .error .duplicateId
      else .ok (entryFromRaw e i)

/-- An entry is taken into the book, and its segment gains a member unless it is HOLD (R64, R120). -/
def takeEntryIntoBook (s : State) (e : Entry) : State :=
  let t := (s.setBook (s.book ++ [e])).setRoute { s.route with loaded := s.route.loaded + 1 }
  if isMember e then notifySegment t e.segment (fun g => noteJoin g .unheard) else t

/-- Taking entries one by one, up to the first that fails a check: the state, the status and the count taken (R64). -/
def takeRawEntries : List RawEntry → State → Nat → State × Status × Nat
  | [], s, taken => (s, .ok, taken)
  | e :: rest, s, taken =>
    match judgeEntry s e with
    | .error x => (s, x, taken)
    | .ok x => takeRawEntries rest (takeEntryIntoBook s x) (taken + 1)

/-- Results of BOOK_ENTRIES: the count taken and the loaded count (R63, R64). -/
def entriesResults (s : State) (taken : Nat) : List Byte := bigEndian 1 taken ++ bigEndian 2 s.route.loaded

/-- A BOOK_ENTRIES refused as a whole: count taken 0 and the loaded count (R63). -/
def refuseEntries (s : State) (x : Status) : Answer := { state := s, status := x, results := entriesResults s 0 }

/-- A BOOK_ENTRIES with its arguments (R63, R64). -/
def judgeBookEntries (s : State) (k : Link) (first : Nat) (entries : List RawEntry) : Answer :=
  if s.route.state ≠ .loading then refuseEntries s .wrongState
  else if ownsLoad s k = false then refuseEntries s .busy
  else if entries.length < 1 ∨ 32 < entries.length then refuseEntries s .badArgument
  else if first ≠ s.route.loaded then refuseEntries s .sequence
  else if s.route.declaredEntries < first + entries.length then refuseEntries s .badArgument
  else
    let (t, x, taken) := takeRawEntries entries s 0
    { state := t, status := x, results := entriesResults t taken }

/-- BOOK_ENTRIES (R63). -/
def ownBookEntries (k : Link) (s : State) : Request → Option Answer
  | .bookEntries first entries => some (judgeBookEntries s k first entries)
  | _ => none

/-! ## BOOK_CLOSE and BOOK_ABORT (R65) -/

/-- The owner in LOADING closes its load (R65). -/
def closeBook (s : State) : Answer :=
  if s.route.loaded < s.route.declaredEntries then
    { state := s, status := .incomplete, results := bigEndian 2 s.route.loaded }
  else accept (changeRoute s { s.route with state := .ready, owner := none })

/-- A request that the load owner alone may make in LOADING (R60, R65). -/
def asOwner (s : State) (k : Link) (f : State → Answer) : Answer :=
  if s.route.state ≠ .loading then refuse s .wrongState
  else if ownsLoad s k = false then refuse s .busy
  else f s

/-- BOOK_CLOSE (R65). -/
def ownBookClose (k : Link) (s : State) : Request → Option Answer
  | .bookClose => some (asOwner s k closeBook)
  | _ => none

/-- BOOK_ABORT (R65). -/
def ownBookAbort (k : Link) (s : State) : Request → Option Answer
  | .bookAbort => some (asOwner s k (fun s => accept (abandonLoad s)))
  | _ => none

/-! ## ENTRY_MODIFY and SEGMENT_MODIFY (R67 to R69) -/

/-- The new options: the old ones less the clear set, plus the set set (R67). -/
def newOptions (old : Options) (clear set : Nat) : Options := (old &&& ~~~(BitVec.ofNat 3 clear)) ||| BitVec.ofNat 3 set

/-- What a change of options tells the segment tracker (R68). -/
def admissionNotice (before after : Options) (x : HearingState) (g : Segment) : Segment :=
  match hasHold before, hasHold after with
  | false, true => noteLeave g x
  | true, false => noteJoin g x
  | _, _ => g

/-- An entry's options are replaced (R67, R68). -/
def changeOptions (clear set : Nat) (s : State) (e : Entry) : State :=
  let o := newOptions e.options clear set
  notifySegment (updateEntry s e.meterId (fun x => { x with options := o })) e.segment (admissionNotice e.options o e.hearing)

/-- Route states in which options may change (R67, R69). -/
def routeUnderWay (s : State) : Bool :=
  decide (s.route.state = .ready) || decide (s.route.state = .running) || decide (s.route.state = .ending)

/-- A segment is CLOSING or CLOSED (R67, R69, R132). -/
def segmentShut (s : State) (n : Nat) : Bool :=
  match s.segments[n]? with
  | some g => decide (g.state = .closing) || decide (g.state = .closed)
  | none => false

/-- Results of ENTRY_MODIFY: options and admission (R67). -/
def optionResults (o : Options) : List Byte := bigEndian 1 o.toNat ++ bigEndian 1 (admissionCode (admissionOf o))

/-- An ENTRY_MODIFY with its arguments (R67). -/
def judgeEntryModify (s : State) (meter clear set : Nat) : Answer :=
  if routeUnderWay s = false then refuse s .wrongState
  else if 8 ≤ clear ∨ 8 ≤ set then refuse s .badArgument
  else
    match entryOf s meter with
    | none => refuse s .notFound
    | some e =>
      if segmentShut s e.segment then refuse s .wrongState
      else acceptWith (changeOptions clear set s e) (optionResults (newOptions e.options clear set))

/-- ENTRY_MODIFY (R67). -/
def ownEntryModify (s : State) : Request → Option Answer
  | .entryModify meter clear set => some (judgeEntryModify s meter clear set)
  | _ => none

/-- Results of SEGMENT_MODIFY: changed, unchanged, refused (R69). -/
def modifyResults (changed unchanged refused : Nat) : List Byte :=
  bigEndian 2 changed ++ bigEndian 2 unchanged ++ bigEndian 2 refused

/-- Entries of a segment, HOLD entries included (R69). -/
def entriesOf (s : State) (n : Nat) : List Entry := s.book.filter (fun e => decide (e.segment = n))

/-- A SEGMENT_MODIFY with its arguments (R69). -/
def judgeSegmentModify (s : State) (n clear set : Nat) : Answer :=
  let es := entriesOf s n
  if routeUnderWay s = false then { state := s, status := .wrongState, results := modifyResults 0 0 0 }
  else if s.route.declaredSegments ≤ n ∨ 8 ≤ clear ∨ 8 ≤ set then
    { state := s, status := .badArgument, results := modifyResults 0 0 0 }
  else if segmentShut s n then { state := s, status := .wrongState, results := modifyResults 0 0 es.length }
  else
    let changed := es.countP (fun e => decide (newOptions e.options clear set ≠ e.options))
    acceptWith (es.foldl (changeOptions clear set) s) (modifyResults changed (es.length - changed) 0)

/-- SEGMENT_MODIFY (R69). -/
def ownSegmentModify (s : State) : Request → Option Answer
  | .segmentModify n clear set => some (judgeSegmentModify s n clear set)
  | _ => none

/-! ## ROUTE_START (R71, R136) -/

/-- A segment at ROUTE_START: PENDING, pass 1, its counts from the book, its settings kept (R71, R119). -/
def startSegment (book : List Entry) (n : Nat) (g : Segment) : Segment :=
  let members := book.countP (fun e => isMember e && decide (e.segment = n))
  { autoClose := g.autoClose, quietTime := g.quietTime, minDwell := g.minDwell, member := members, unheard := members }

/-- The ROUTE record with phase START (R71, R135). -/
def routeStartDraft : Draft := { body := .routeStart, timeTag := 0, marks := 0, liveForced := false }

/-- The six steps of R71. -/
def startRoute (s : State) (hour : Nat) : State :=
  let t := (s.setRoute { s.route with startHour := hour, heldHearings := 0 }).setMatcher { s.matcher with cache := [] }
  let u := (t.setClock { value := 0, running := true }).setSegments (t.segments.mapIdx (startSegment t.book))
  let v := takeGroup u [routeStartDraft]
  changeRoute v { v.route with state := .running }

/-- A ROUTE_START carried out, or refused outside READY (R71). -/
def judgeRouteStart (s : State) (hour : Nat) : Answer :=
  if s.route.state ≠ .ready then refuse s .wrongState
  else if Config.max24 < hour then refuse s .badArgument
  else accept (startRoute s hour)

/-- A ROUTE_START that would pass waits for the builder (R71, R136). -/
def startMustWait (s : State) (hour : Nat) : Bool :=
  decide (s.route.state = .ready) && decide (hour ≤ Config.max24) && !builderReady s

/-- The dispatcher takes a ROUTE_START: it is carried out and answered, or held while the builder is not ready (R71,
R136, R173). -/
def serveRouteStart (k : Link) (s : State) : State :=
  match takable s k with
  | none => s
  | some f =>
    match parseRequest f.payload with
    | .request (.routeStart hour) =>
      let t := popRequest s k
      if startMustWait t hour then t.setLink k { t.link k with dispatcher := .routeStart f.tag hour }
      else kickBoth (finishRequest k f (judgeRouteStart t hour))
    | _ => s

/-- ROUTE_START_EXECUTE: a held ROUTE_START is carried out when the builder is ready, and answered (R136; log entry 5, DEDUCED). -/
def executeRouteStart (k : Link) (s : State) : State :=
  match (s.link k).dispatcher with
  | .routeStart tag hour =>
    if builderReady s then
      let a := judgeRouteStart (s.setLink k { s.link k with dispatcher := .idle }) hour
      kickBoth (pushReply a.state k { code := 19, tag := tag, status := a.status, results := a.results })
    else s
  | .idle | .resetting => s

/-! ## ROUTE_END (R72) -/

/-- ROUTE_END: ENDING, then a close of every open segment with reason ROUTE_END (R72, R133). -/
def endRoute (s : State) : Answer :=
  if s.route.state ≠ .running then refuse s .wrongState
  else accept (closeAllOpen (changeRoute s { s.route with state := .ending }))

/-- ROUTE_END (R72). -/
def ownRouteEnd (s : State) : Request → Option Answer
  | .routeEnd => some (endRoute s)
  | _ => none

/-! ## SEGMENT_SET, SEGMENT_CLOSE, SEGMENT_REOPEN (R129, R130, R132) -/

/-- The settings of a segment are written together, and an ACTIVE segment's deadline is computed again (R123, R132). -/
def writeSegment (s : State) (n autoClose quietTime minDwell : Nat) : State :=
  notifySegment s n (fun g =>
    recompute { g with autoClose := autoCloseOf autoClose, quietTime := quietTime, minDwell := minDwell })

/-- A SEGMENT_SET with its arguments (R132). -/
def judgeSegmentSet (s : State) (k : Link) (n autoClose quietTime minDwell : Nat) : Answer :=
  match s.route.state with
  | .empty | .ending | .ended => refuse s .wrongState
  | .loading | .ready | .running =>
    if s.route.state = .loading ∧ ownsLoad s k = false then refuse s .busy
    else if s.route.declaredSegments ≤ n ∨ segmentSettingsInRange autoClose quietTime minDwell = false then
      refuse s .badArgument
    else if s.route.state = .running ∧ segmentShut s n = true then refuse s .wrongState
    else accept (writeSegment s n autoClose quietTime minDwell)

/-- SEGMENT_SET (R132). -/
def ownSegmentSet (k : Link) (s : State) : Request → Option Answer
  | .segmentSet n autoClose quietTime minDwell => some (judgeSegmentSet s k n autoClose quietTime minDwell)
  | _ => none

/-- A SEGMENT_CLOSE of a segment number (R129). -/
def judgeSegmentClose (s : State) (n : Nat) : Answer :=
  if s.route.state ≠ .running ∧ s.route.state ≠ .ending then refuse s .wrongState
  else if s.route.declaredSegments ≤ n then refuse s .badArgument
  else
    match s.segments[n]? with
    | none => refuse s .badArgument
    | some g =>
      match g.state with
      | .closing => refuse s .busy
      | .closed => refuse s .wrongState
      | .pending | .active => accept (startClose s n .request)

/-- SEGMENT_CLOSE (R129). -/
def ownSegmentClose (s : State) : Request → Option Answer
  | .segmentClose n => some (judgeSegmentClose s n)
  | _ => none

/-- A MISSED member of a segment turns back to UNHEARD (R130). -/
def reopenEntry (n : Nat) (e : Entry) : Entry :=
  if isMember e ∧ e.segment = n ∧ e.hearing = .missed then { e with hearing := .unheard } else e

/-- A segment reopens for its next pass (R130). -/
def reopenSegment (now : Nat) (g : Segment) : Segment :=
  recompute
    { g with
      state := .active
      pass := g.pass + 1
      unheard := g.unheard + g.missed
      missed := 0
      activation := some now
      lastHeard := some now }

/-- A SEGMENT_REOPEN that passes, with its results: the new pass and the unheard count (R130). -/
def reopen (s : State) (n : Nat) (g : Segment) : Answer :=
  let h := reopenSegment s.clock.value g
  acceptWith ((s.setBook (s.book.map (reopenEntry n))).setSegment n h) (bigEndian 1 h.pass ++ bigEndian 2 h.unheard)

/-- A SEGMENT_REOPEN of a segment number (R130). -/
def judgeSegmentReopen (s : State) (n : Nat) : Answer :=
  if s.route.state ≠ .running then refuse s .wrongState
  else if s.route.declaredSegments ≤ n then refuse s .badArgument
  else
    match s.segments[n]? with
    | none => refuse s .badArgument
    | some g =>
      match g.state with
      | .pending | .active => refuse s .wrongState
      | .closing => refuse s .busy
      | .closed => if 3 ≤ g.pass then refuse s .wrongState else reopen s n g

/-- SEGMENT_REOPEN (R130). -/
def ownSegmentReopen (s : State) : Request → Option Answer
  | .segmentReopen n => some (judgeSegmentReopen s n)
  | _ => none

/-! ## The commands -/

/-- BOOK_OPEN. -/
def execBookOpen (link : Link) (s : State) : Host.Outcome State Fault Refusal :=
  whenRunning s (serve link (ownBookOpen link))

/-- BOOK_ENTRIES. -/
def execBookEntries (link : Link) (s : State) : Host.Outcome State Fault Refusal :=
  whenRunning s (serve link (ownBookEntries link))

/-- BOOK_CLOSE. -/
def execBookClose (link : Link) (s : State) : Host.Outcome State Fault Refusal :=
  whenRunning s (serve link (ownBookClose link))

/-- BOOK_ABORT. -/
def execBookAbort (link : Link) (s : State) : Host.Outcome State Fault Refusal :=
  whenRunning s (serve link (ownBookAbort link))

/-- ENTRY_MODIFY. -/
def execEntryModify (link : Link) (s : State) : Host.Outcome State Fault Refusal :=
  whenRunning s (serve link ownEntryModify)

/-- SEGMENT_MODIFY. -/
def execSegmentModify (link : Link) (s : State) : Host.Outcome State Fault Refusal :=
  whenRunning s (serve link ownSegmentModify)

/-- ROUTE_START. -/
def execRouteStart (link : Link) (s : State) : Host.Outcome State Fault Refusal := whenRunning s (serveRouteStart link)

/-- ROUTE_START_EXECUTE. -/
def execRouteStartExecute (link : Link) (s : State) : Host.Outcome State Fault Refusal :=
  whenRunning s (executeRouteStart link)

/-- ROUTE_END. -/
def execRouteEnd (link : Link) (s : State) : Host.Outcome State Fault Refusal := whenRunning s (serve link ownRouteEnd)

/-- SEGMENT_SET. -/
def execSegmentSet (link : Link) (s : State) : Host.Outcome State Fault Refusal :=
  whenRunning s (serve link (ownSegmentSet link))

/-- SEGMENT_CLOSE. -/
def execSegmentClose (link : Link) (s : State) : Host.Outcome State Fault Refusal :=
  whenRunning s (serve link ownSegmentClose)

/-- SEGMENT_REOPEN. -/
def execSegmentReopen (link : Link) (s : State) : Host.Outcome State Fault Refusal :=
  whenRunning s (serve link ownSegmentReopen)

end Sys2Proof.Machine
end

