-- ==== Sys2Proof/Machine/Management.lean ====
section
/-! DEFINITION. The requests that read the part, and EVENT_MASK, FAULT_CLEAR and RESET (R175 to R179, R181, R184,
R185). -/

namespace Sys2Proof.Machine

/-! ## Reading (R175 to R179) -/

/-- IDENTIFY (R175). -/
def ownIdentify (k : Link) (s : State) : Request → Option Answer
  | .identify => some (acceptWith s (identifyResults s k))
  | _ => none

/-- A STATUS of a section number (R176). -/
def readStatus (s : State) (n : Nat) : Answer :=
  match statusSection s n with
  | some results => acceptWith s results
  | none => refuse s .badArgument

/-- STATUS (R176). -/
def ownStatus (s : State) : Request → Option Answer
  | .status n => some (readStatus s n)
  | _ => none

/-- A COUNTERS_READ; clear is yes 0 or no 1 (R177; log entry 9, DEDUCED). -/
def readCounters (s : State) (group clear : Nat) : Answer :=
  match counterGroup group with
  | none => refuse s .badArgument
  | some g =>
    match clear with
    | 0 => acceptWith (clearGroup s g) (counterBytes (groupCounts s g))
    | 1 => acceptWith s (counterBytes (groupCounts s g))
    | _ => refuse s .badArgument

/-- COUNTERS_READ (R177). -/
def ownCountersRead (s : State) : Request → Option Answer
  | .countersRead group clear => some (readCounters s group clear)
  | _ => none

/-- The index and the entry a lookup found, or NOT_FOUND (R178). -/
def readEntryAt (s : State) (index : Option Nat) : Answer :=
  if s.route.state = .empty then refuse s .wrongState
  else
    match index with
    | none => refuse s .notFound
    | some i =>
      match s.book[i]? with
      | none => refuse s .notFound
      | some e => acceptWith s (entryResults s i e)

/-- ENTRY_READ by meter id or by book index (R178). -/
def ownEntryRead (s : State) : Request → Option Answer
  | .entryById meter => some (readEntryAt s (s.book.findIdx? (fun e => decide (e.meterId = meter))))
  | .entryByIndex i => some (readEntryAt s (some i))
  | _ => none

/-- A SEGMENT_READ of a segment number (R179). -/
def readSegment (s : State) (n : Nat) : Answer :=
  if s.route.state = .empty then refuse s .wrongState
  else
    match s.segments[n]? with
    | some g => acceptWith s (segmentResults g)
    | none => refuse s .badArgument

/-- SEGMENT_READ (R179). -/
def ownSegmentRead (s : State) : Request → Option Answer
  | .segmentRead n => some (readSegment s n)
  | _ => none

/-! ## EVENT_MASK, FAULT_CLEAR, RESET -/

/-- A set that names a kind which is no maskable kind of R181. The one byte of the set holds a bit for each of the eight
maskable kinds and none besides, so no set of that length does; a longer one R173 refuses with the same status (R181,
R189; log entry 8, DEDUCED). -/
def badEventSet (mask : Nat) : Bool := decide (256 ≤ mask)

/-- EVENT_MASK: the new mask is written, the reply carries the old one (R181). -/
def writeEventMask (s : State) (mask : Nat) : Answer :=
  if badEventSet mask then refuse s .badArgument
  else acceptWith (s.setEvents { s.events with mask := BitVec.ofNat 8 mask }) (bigEndian 1 s.events.mask.toNat)

/-- EVENT_MASK (R181). -/
def ownEventMask (s : State) : Request → Option Answer
  | .eventMask mask => some (writeEventMask s mask)
  | _ => none

/-- FAULT_CLEAR: the reply carries the record as it stood, and the record becomes empty (R184). -/
def clearFaults (s : State) : Answer :=
  acceptWith (s.setFaults { s.faults with first := none, count := 0, laterHalt := false }) (faultResults s.faults)

/-- FAULT_CLEAR (R184). -/
def ownFaultClear (s : State) : Request → Option Answer
  | .faultClear => some (clearFaults s)
  | _ => none

/-- RESET: answered OK, and the dispatcher takes no further request until the reset takes effect (R185). -/
def ownReset (k : Link) (s : State) : Request → Option Answer
  | .reset => some (accept (s.setLink k { s.link k with dispatcher := .resetting }))
  | _ => none

/-- A RESET that the depot dispatcher takes while the link is DOWN takes effect at once (R185). -/
def ownResetDown (s : State) : Request → Option State
  | .reset => some (warmResetRequest s)
  | _ => none

/-- The depot dispatcher takes a RESET while the link is DOWN; no reply is sent (R185). -/
def serveResetDown (s : State) : State :=
  match takable s .depot with
  | none => s
  | some f =>
    match parseRequest f.payload with
    | .request r => (ownResetDown s r).getD s
    | .unknownCode | .wrongLength => s

/-- RESET on a link (R185). -/
def serveReset (k : Link) (s : State) : State :=
  match k with
  | .trunk => serve .trunk (ownReset .trunk) s
  | .depot => if s.depotUp then serve .depot (ownReset .depot) s else serveResetDown s

/-! ## The commands -/

/-- IDENTIFY. -/
def execIdentify (link : Link) (s : State) : Host.Outcome State Fault Refusal :=
  whenRunning s (serve link (ownIdentify link))

/-- STATUS. -/
def execStatus (link : Link) (s : State) : Host.Outcome State Fault Refusal := whenRunning s (serve link ownStatus)

/-- COUNTERS_READ. -/
def execCountersRead (link : Link) (s : State) : Host.Outcome State Fault Refusal :=
  whenRunning s (serve link ownCountersRead)

/-- ENTRY_READ. -/
def execEntryRead (link : Link) (s : State) : Host.Outcome State Fault Refusal := whenRunning s (serve link ownEntryRead)

/-- SEGMENT_READ. -/
def execSegmentRead (link : Link) (s : State) : Host.Outcome State Fault Refusal :=
  whenRunning s (serve link ownSegmentRead)

/-- EVENT_MASK. -/
def execEventMask (link : Link) (s : State) : Host.Outcome State Fault Refusal := whenRunning s (serve link ownEventMask)

/-- FAULT_CLEAR. -/
def execFaultClear (link : Link) (s : State) : Host.Outcome State Fault Refusal :=
  whenRunning s (serve link ownFaultClear)

/-- RESET. -/
def execReset (link : Link) (s : State) : Host.Outcome State Fault Refusal := whenRunning s (serveReset link)

end Sys2Proof.Machine
end

