-- ==== Sys2Proof/Machine/Tables.lean ====
section
/-! DEFINITION. The requests that write the part's settings and tables: LANE_SET, FAMILY_SET, FAMILY_CLEAR, SERVICE_SET,
RULES_SET, CLASS_SET and ROUTING_SET (R16, R17, R26, R27, R34, R113, R138, R140). -/

namespace Sys2Proof.Machine

/-! ## LANE_SET (R16) -/

/-- A LANE_SET with its arguments (R16, R17). -/
def setLaneSettings (s : State) (mask enable minRssi maxLength gapLimit : Nat) : Answer :=
  if enable ≤ 1 ∧ 10 ≤ maxLength ∧ maxLength ≤ 60 ∧ 1 ≤ gapLimit ∧ gapLimit ≤ 20 then
    let n : LaneSettings :=
      { enable := decide (enable = 1), minRssi := minRssi, maxLength := maxLength, gapLimit := gapLimit }
    let out := setLanesByMask n mask (List.finRange 8) s
    acceptWith out.1 (out.2.flatMap (fun r => bigEndian 1 (laneResultCode r)))
  else refuse s .badArgument

/-- LANE_SET (R16). -/
def ownLaneSet (s : State) : Request → Option Answer
  | .laneSet mask enable minRssi maxLength gapLimit => some (setLaneSettings s mask enable minRssi maxLength gapLimit)
  | _ => none

/-! ## FAMILY_SET and FAMILY_CLEAR (R26, R27) -/

/-- Register encoding of a code (R26, R189). -/
def encodingOf : Nat → Option RegisterEncoding
  | 0 => some .binary3
  | 1 => some .binary4
  | 2 => some .bcd
  | _ => none

/-- Pairing mode of a code (R26, R189). -/
def modeOf : Nat → Option PairingMode
  | 0 => some .none
  | 1 => some .extended
  | _ => none

/-- The profile with its named values, where they are known (R26). -/
def profileFrom (r : RawProfile) : Option Profile :=
  match encodingOf r.encoding, modeOf r.mode with
  | some e, some m =>
    some
      { familyCode := r.familyCode, digits := r.digits, encoding := e, registerOffset := r.registerOffset,
        flagOffset := r.flagOffset, flagMap := r.flagMap, serviceOffset := r.serviceOffset, mode := m,
        window := r.window, extTamperOffset := r.extTamperOffset, extReverseOffset := r.extReverseOffset,
        highRate := r.highRate, reverseTolerance := r.reverseTolerance, stagnationHours := r.stagnationHours,
        revisionStep := r.revisionStep }
  | _, _ => none

/-- The flag map as a list, in the order of R26. -/
def flagPositions (m : FlagMap) : List (Option Nat) := [m.magnet, m.tilt, m.cover, m.meterReverse, m.leak, m.lowbat]

/-- An optional value is at most a limit. -/
def optionAtMost (limit : Nat) (x : Option Nat) : Bool := x.all (fun n => decide (n ≤ limit))

/-- Every field in the range of R26. -/
def profileInRange (p : Profile) : Bool :=
  decide (p.familyCode ≤ 255) && decide (4 ≤ p.digits) && decide (p.digits ≤ 9) && decide (p.registerOffset ≤ 53)
    && optionAtMost 53 p.flagOffset && (flagPositions p.flagMap).all (optionAtMost 7) && optionAtMost 53 p.serviceOffset
    && decide (10 ≤ p.window) && decide (p.window ≤ 2000) && optionAtMost 53 p.extTamperOffset
    && optionAtMost 52 p.extReverseOffset && decide (1 ≤ p.highRate) && decide (p.highRate ≤ Config.max24)
    && decide (p.reverseTolerance ≤ 65535) && decide (p.stagnationHours ≤ 65535) && decide (1 ≤ p.revisionStep)
    && decide (p.revisionStep ≤ 65535)

/-- The bytes of a field: offset and width, or none. -/
def fieldBytes (offset : Option Nat) (width : Nat) : List Nat :=
  match offset with
  | some o => (List.range width).map (o + ·)
  | none => []

/-- The bytes of the reading fields (R26). -/
def readingFieldBytes (p : Profile) : List Nat :=
  fieldBytes (some p.registerOffset) (registerWidth p) ++ fieldBytes p.flagOffset 1 ++ fieldBytes p.serviceOffset 1

/-- The bytes of the extension fields (R26). -/
def extensionFieldBytes (p : Profile) : List Nat :=
  fieldBytes p.extTamperOffset 1 ++ fieldBytes p.extReverseOffset 2

/-- The bit positions that the flag map uses. -/
def usedPositions (m : FlagMap) : List Nat := (flagPositions m).filterMap id

/-- The rules of consistency (R27). -/
def profileConsistent (p : Profile) : Bool :=
  (readingFieldBytes p).all (fun b => decide (b < 54)) && (extensionFieldBytes p).all (fun b => decide (b < 54))
    && decide (readingFieldBytes p).Nodup && decide (extensionFieldBytes p).Nodup
    && decide (usedPositions p.flagMap).Nodup && (p.flagOffset.isSome || (usedPositions p.flagMap).isEmpty)
    && (match p.mode with
        | .extended => p.extTamperOffset.isSome && p.extReverseOffset.isSome
        | .none => p.extTamperOffset.isNone && p.extReverseOffset.isNone)

/-- The profile of a FAMILY_SET, when it passes step 2 of R27. -/
def judgeProfile (r : RawProfile) : Option Profile :=
  match profileFrom r with
  | some p => if profileInRange p && profileConsistent p then some p else none
  | none => none

/-- Another place of the family table holds a family code (R27). -/
def codeElsewhere (t : Vector (Option Profile) 16) (i : Fin 16) (code : Nat) : Bool :=
  (List.finRange 16).any (fun j => decide (j ≠ i) && decide ((t[j].map (·.familyCode)) = some code))

/-- A place of the family table is named by a number (R27). -/
def placeOf (n : Nat) : Option (Fin 16) := if h : n < 16 then some ⟨n, h⟩ else none

/-- Steps 3 and 4 of R27, and the write. -/
def writeFamily (s : State) (i : Fin 16) (p : Profile) : Answer :=
  if codeElsewhere s.families i p.familyCode then refuse s .duplicateId
  else if s.families[i].isSome && familyBusy s i then refuse s .busy
  else accept (s.setFamilies (s.families.set i (some p)))

/-- A FAMILY_SET with its arguments (R27). -/
def setFamily (s : State) (index : Nat) (r : RawProfile) : Answer :=
  if s.route.state = .empty then
    match placeOf index, judgeProfile r with
    | some i, some p => writeFamily s i p
    | _, _ => refuse s .badArgument
  else refuse s .wrongState

/-- FAMILY_SET (R27). -/
def ownFamilySet (s : State) : Request → Option Answer
  | .familySet index profile => some (setFamily s index profile)
  | _ => none

/-- A FAMILY_CLEAR with its argument (R27). -/
def clearFamily (s : State) (index : Nat) : Answer :=
  if s.route.state = .empty then
    match placeOf index with
    | none => refuse s .badArgument
    | some i =>
      if s.families[i].isNone then refuse s .notFound
      else if familyBusy s i then refuse s .busy
      else accept (s.setFamilies (s.families.set i none))
  else refuse s .wrongState

/-- FAMILY_CLEAR (R27). -/
def ownFamilyClear (s : State) : Request → Option Answer
  | .familyClear index => some (clearFamily s index)
  | _ => none

/-! ## SERVICE_SET (R34) -/

/-- Action of a code (R34, R189). -/
def actionOf : Nat → Option TableAction
  | 0 => some .discard
  | 1 => some .note
  | 2 => some .weight
  | _ => none

/-- Another place of the service table holds a code (R34). -/
def serviceElsewhere (t : Vector (Option ServiceEntry) 16) (i : Fin 16) (code : Nat) : Bool :=
  (List.finRange 16).any (fun j => decide (j ≠ i) && decide ((t[j].map (·.code)) = some code))

/-- A SERVICE_SET with an entry (R34). -/
def setService (s : State) (place code action weight : Nat) : Answer :=
  match placeOf place, actionOf action with
  | some i, some a =>
    if code = 0 ∨ 255 < code ∨ 255 < weight then refuse s .badArgument
    else if serviceElsewhere s.services i code then refuse s .duplicateId
    else
      accept (s.setServices (s.services.set i (some { code := code, action := a, weight := weight, discards := 0 })))
  | _, _ => refuse s .badArgument

/-- A SERVICE_SET with clear (R34). -/
def clearService (s : State) (place : Nat) : Answer :=
  match placeOf place with
  | some i => accept (s.setServices (s.services.set i none))
  | none => refuse s .badArgument

/-- SERVICE_SET (R34). -/
def ownServiceSet (s : State) : Request → Option Answer
  | .serviceSet place code action weight => some (setService s place code action weight)
  | .serviceClear place => some (clearService s place)
  | _ => none

/-! ## RULES_SET (R113) -/

/-- The rule set that 16 numbers in the order of R112 spell, when they are in range (R113). -/
def rulesFrom : List Nat → Option RuleSet
  | [reverse, excess, stagnant, clockSkew, disagree, magnet, tilt, cover, meterReverse, leak, lowbat, history,
      extReverse, service, alertThreshold, watchThreshold] =>
    if [reverse, excess, stagnant, clockSkew, disagree, magnet, tilt, cover, meterReverse, leak, lowbat, history,
          extReverse, service, alertThreshold, watchThreshold].all (fun w => decide (w ≤ 255))
        && decide (0 < alertThreshold) && decide (0 < watchThreshold) then
      some
        { reverse := reverse, excess := excess, stagnant := stagnant, clockSkew := clockSkew, disagree := disagree,
          magnet := magnet, tilt := tilt, cover := cover, meterReverse := meterReverse, leak := leak, lowbat := lowbat,
          history := history, extReverse := extReverse, service := service, alertThreshold := alertThreshold,
          watchThreshold := watchThreshold }
    else none
  | _ => none

/-- A RULES_SET with 16 values (R113). -/
def setRuleSet (s : State) (weights : List Nat) : Answer :=
  match rulesFrom weights with
  | some r => accept (s.setRules r)
  | none => refuse s .badArgument

/-- RULES_SET (R113). -/
def ownRulesSet (s : State) : Request → Option Answer
  | .rulesSet weights => some (setRuleSet s weights)
  | .rulesDefaults => some (accept (s.setRules {}))
  | _ => none

/-! ## CLASS_SET (R140) -/

/-- Class policy of a code (R139, R189). -/
def policyOf : Nat → Option Policy
  | 0 => some .linear
  | 1 => some .ring
  | _ => none

/-- A store class named by a number. -/
def classOf (n : Nat) : Option (Fin 4) := if h : n < 4 then some ⟨n, h⟩ else none

/-- The quotas of the other three classes (R140). -/
def otherQuotas (st : Store) (c : Fin 4) : Nat :=
  (((List.finRange 4).filter (fun d => decide (d ≠ c))).map (fun d => st.classes[d].quota)).sum

/-- Steps 2 and 3 of R140, and the write. -/
def writeClass (s : State) (c : Fin 4) (quota : Nat) (policy : Policy) (priority : Nat) : Answer :=
  if 0 < classCount s.store c then refuse s .wrongState
  else if Config.recordSlots < quota + otherQuotas s.store c then refuse s .badArgument
  else
    accept (s.setClass c
      { s.store.classes[c] with quota := quota, policy := policy, priority := priority, fullArmed := true })

/-- A CLASS_SET with its arguments (R140). -/
def setClassSettings (s : State) (cls quota policy priority : Nat) : Answer :=
  match classOf cls, policyOf policy with
  | some c, some p =>
    if quota ≤ Config.recordSlots ∧ priority ≤ 3 then writeClass s c quota p priority else refuse s .badArgument
  | _, _ => refuse s .badArgument

/-- CLASS_SET (R140). -/
def ownClassSet (s : State) : Request → Option Answer
  | .classSet cls quota policy priority => some (setClassSettings s cls quota policy priority)
  | _ => none

/-! ## ROUTING_SET (R138) -/

/-- Record kind of a code (R188; log entry 9, DEDUCED). -/
def kindOfCode : Nat → Option RecordKind
  | 0 => some .reading
  | 1 => some .revision
  | 2 => some .alert
  | 3 => some .foreign
  | 4 => some .missed
  | 5 => some .segment
  | 6 => some .route
  | _ => none

/-- Replace the routing row of a kind (R138). -/
def setRoutingRow (t : Routing) (row : RoutingRow) : RecordKind → Routing
  | .reading => { t with reading := row }
  | .revision => { t with revision := row }
  | .alert => { t with alert := row }
  | .foreign => { t with foreign := row }
  | .missed => { t with missed := row }
  | .segment => { t with segment := row }
  | .route => { t with route := row }

/-- A ROUTING_SET of one row (R138). -/
def setRouteRow (s : State) (kind cls live : Nat) : Answer :=
  match kindOfCode kind, classOf cls with
  | some k, some c =>
    if live ≤ 1 then accept (s.setRouting (setRoutingRow s.routing { cls := c, live := decide (live = 1) } k))
    else refuse s .badArgument
  | _, _ => refuse s .badArgument

/-- ROUTING_SET (R138). -/
def ownRoutingSet (s : State) : Request → Option Answer
  | .routingSet kind cls live => some (setRouteRow s kind cls live)
  | .routingDefaults => some (accept (s.setRouting {}))
  | _ => none

/-! ## The commands -/

/-- LANE_SET. -/
def execLaneSet (link : Link) (s : State) : Host.Outcome State Fault Refusal := whenRunning s (serve link ownLaneSet)

/-- FAMILY_SET. -/
def execFamilySet (link : Link) (s : State) : Host.Outcome State Fault Refusal := whenRunning s (serve link ownFamilySet)

/-- FAMILY_CLEAR. -/
def execFamilyClear (link : Link) (s : State) : Host.Outcome State Fault Refusal :=
  whenRunning s (serve link ownFamilyClear)

/-- SERVICE_SET. -/
def execServiceSet (link : Link) (s : State) : Host.Outcome State Fault Refusal :=
  whenRunning s (serve link ownServiceSet)

/-- RULES_SET. -/
def execRulesSet (link : Link) (s : State) : Host.Outcome State Fault Refusal := whenRunning s (serve link ownRulesSet)

/-- CLASS_SET. -/
def execClassSet (link : Link) (s : State) : Host.Outcome State Fault Refusal := whenRunning s (serve link ownClassSet)

/-- ROUTING_SET. -/
def execRoutingSet (link : Link) (s : State) : Host.Outcome State Fault Refusal :=
  whenRunning s (serve link ownRoutingSet)

end Sys2Proof.Machine
end

