-- ==== Sys2Proof/Machine/UploadRequests.lean ====
section
/-! DEFINITION. The six upload requests: UPLOAD_OPEN, UPLOAD_PACE, UPLOAD_STOP, UPLOAD_FINISH, BATCH_ACK and BATCH_NAK
(R154, R155, R161, R162, R165, R166, R167). -/

namespace Sys2Proof.Machine

/-- An upload request is judged first on its link: from the trunk link it is refused (R154). -/
def onDepot (s : State) (k : Link) (f : State → Answer) : Answer :=
  match k with
  | .trunk => refuse s .wrongLink
  | .depot => f s

/-! ## UPLOAD_OPEN (R155) -/

/-- A setting given lies in its range of R153; an absent one does. -/
def settingInRange (low high : Nat) (x : Option Nat) : Bool := x.all (fun n => decide (low ≤ n) && decide (n ≤ high))

/-- Step 2 of R155. -/
def uploadArgumentsGood (mask : Nat) (batchSize window ackTimeout pacing : Option Nat) : Bool :=
  decide (0 < mask) && decide (mask < 16) && settingInRange 1 32 batchSize && settingInRange 1 8 window
    && settingInRange 100 10000 ackTimeout && settingInRange 0 50 pacing

/-- The uploader as UPLOAD_OPEN writes it: an absent setting takes its default (R153, R155, R169). -/
def openedUploader (u : Uploader) (mask : Nat) (batchSize window ackTimeout pacing : Option Nat) : Uploader :=
  { u with
    classMask := BitVec.ofNat 4 mask
    batchSize := batchSize.getD 16
    window := window.getD 8
    ackTimeout := ackTimeout.getD 2000
    pacing := pacing.getD 20
    streak := 0
    lastStart := none
    currentClass := none
    sent := 0
    released := 0
    timeouts := 0
    state := if pacing.getD 20 = 0 then .paused else .running }

/-- An UPLOAD_OPEN that passes: the event, the reply with the eligible count, and a first batch where R157 allows it. -/
def openUpload (s : State) (u : Uploader) : Answer :=
  let t := changeUpload s u
  acceptWith (settleStore t) (bigEndian 3 (eligible t))

/-- An UPLOAD_OPEN with its arguments, from the depot link (R155). -/
def judgeUploadOpen (mask : Nat) (batchSize window ackTimeout pacing : Option Nat) (s : State) : Answer :=
  if uploadArgumentsGood mask batchSize window ackTimeout pacing = false then refuse s .badArgument
  else if s.uploader.state ≠ .idle then refuse s .wrongState
  else if s.depotUp = false then refuse s .wrongState
  else openUpload s (openedUploader s.uploader mask batchSize window ackTimeout pacing)

/-- UPLOAD_OPEN (R154, R155). -/
def ownUploadOpen (k : Link) (s : State) : Request → Option Answer
  | .uploadOpen mask batchSize window ackTimeout pacing =>
    some (onDepot s k (judgeUploadOpen mask batchSize window ackTimeout pacing))
  | _ => none

/-! ## UPLOAD_PACE (R165) -/

/-- The uploader is IDLE or DRAINING, or the depot link is DOWN (R165, R167). -/
def uploadClosed (s : State) : Bool :=
  decide (s.uploader.state = .idle) || decide (s.uploader.state = .draining) || !s.depotUp

/-- The table of R165. -/
def repace (s : State) (pacing : Nat) : State :=
  let u := { s.uploader with pacing := pacing }
  if s.uploader.state = .running ∧ pacing = 0 then changeUpload s { u with state := .paused }
  else if s.uploader.state = .paused ∧ 0 < pacing then changeUpload s { u with state := .running }
  else s.setUploader u

/-- An UPLOAD_PACE with its argument, from the depot link (R165). -/
def judgeUploadPace (pacing : Nat) (s : State) : Answer :=
  if 50 < pacing then refuse s .badArgument
  else if uploadClosed s then refuse s .wrongState
  else
    let t := repace s pacing
    acceptWith (settleStore t) (bigEndian 1 (uploadStateCode t.uploader.state))

/-- UPLOAD_PACE (R154, R165). -/
def ownUploadPace (k : Link) (s : State) : Request → Option Answer
  | .uploadPace pacing => some (onDepot s k (judgeUploadPace pacing))
  | _ => none

/-! ## UPLOAD_STOP and UPLOAD_FINISH (R166, R167) -/

/-- An UPLOAD_STOP from the depot link (R166). -/
def judgeUploadStop (s : State) : Answer :=
  if s.uploader.state = .idle then refuse s .wrongState
  else acceptWith (settleStore (endUpload s .stopped)) (bigEndian 2 (inFlightNumbers s.uploader).length)

/-- UPLOAD_STOP (R154, R166). -/
def ownUploadStop (k : Link) (s : State) : Request → Option Answer
  | .uploadStop => some (onDepot s k judgeUploadStop)
  | _ => none

/-- An UPLOAD_FINISH from the depot link (R167). -/
def judgeUploadFinish (s : State) : Answer :=
  if uploadClosed s then refuse s .wrongState
  else
    acceptWith (finishIfDrained (changeUpload s { s.uploader with state := .draining }))
      (bigEndian 1 s.uploader.batches.length)

/-- UPLOAD_FINISH (R154, R167). -/
def ownUploadFinish (k : Link) (s : State) : Request → Option Answer
  | .uploadFinish => some (onDepot s k judgeUploadFinish)
  | _ => none

/-! ## BATCH_ACK and BATCH_NAK (R161, R162) -/

/-- A batch is acknowledged: its records are released (R161). -/
def acknowledge (s : State) (b : Batch) : State :=
  let u := withoutBatch s.uploader b.number
  (releaseRecords s b.cls b.records).setUploader
    { u with streak := 0, released := bumpBy u.released b.records.length }

/-- A batch is refused: its records are returned (R162). -/
def refuseBatch (s : State) (b : Batch) : State :=
  (returnRecords s b.records).setUploader (withoutBatch s.uploader b.number)

/-- An answer to a batch of a number in WAITING; a batch's end may end the upload or open a condition of R157. -/
def answerBatch (number : Nat) (f : State → Batch → State) (s : State) : Answer :=
  if 255 < number then refuse s .badArgument
  else
    match waitingBatch s.uploader number with
    | none => refuse s .noSuchBatch
    | some b => acceptWith (settleStore (finishIfDrained (f s b))) (bigEndian 1 b.records.length)

/-- BATCH_ACK (R154, R161). -/
def ownBatchAck (k : Link) (s : State) : Request → Option Answer
  | .batchAck number => some (onDepot s k (answerBatch number acknowledge))
  | _ => none

/-- BATCH_NAK (R154, R162). -/
def ownBatchNak (k : Link) (s : State) : Request → Option Answer
  | .batchNak number => some (onDepot s k (answerBatch number refuseBatch))
  | _ => none

/-! ## The commands -/

/-- UPLOAD_OPEN. -/
def execUploadOpen (link : Link) (s : State) : Host.Outcome State Fault Refusal :=
  whenRunning s (serve link (ownUploadOpen link))

/-- UPLOAD_PACE. -/
def execUploadPace (link : Link) (s : State) : Host.Outcome State Fault Refusal :=
  whenRunning s (serve link (ownUploadPace link))

/-- UPLOAD_STOP. -/
def execUploadStop (link : Link) (s : State) : Host.Outcome State Fault Refusal :=
  whenRunning s (serve link (ownUploadStop link))

/-- UPLOAD_FINISH. -/
def execUploadFinish (link : Link) (s : State) : Host.Outcome State Fault Refusal :=
  whenRunning s (serve link (ownUploadFinish link))

/-- BATCH_ACK. -/
def execBatchAck (link : Link) (s : State) : Host.Outcome State Fault Refusal :=
  whenRunning s (serve link (ownBatchAck link))

/-- BATCH_NAK. -/
def execBatchNak (link : Link) (s : State) : Host.Outcome State Fault Refusal :=
  whenRunning s (serve link (ownBatchNak link))

end Sys2Proof.Machine
end

