-- ==== Sys2Proof/Machine/Dispatch.lean ====
section
/-! DEFINITION. What each command does to everything but the queue of commands: one arm per row of the table. -/

namespace Sys2Proof.Machine

/-- A command's effect. -/
def exec (i : Instr) (s : State) : Host.Outcome State Fault Refusal :=
  match i with
  | .sync lane rssi => Sys2Proof.Machine.execSync lane rssi s
  | .byte lane value parityGood => Sys2Proof.Machine.execByte lane value parityGood s
  | .drop lane => Sys2Proof.Machine.execDrop lane s
  | .gapExpiry lane => Sys2Proof.Machine.execGapExpiry lane s
  | .decoderTake => Sys2Proof.Machine.execDecoderTake s
  | .pairingTakeFrame => Sys2Proof.Machine.execPairingTakeFrame s
  | .pairTimeout meterId => Sys2Proof.Machine.execPairTimeout meterId s
  | .matcherTakeHearing => Sys2Proof.Machine.execMatcherTakeHearing s
  | .builderPassRecord => Sys2Proof.Machine.execBuilderPassRecord s
  | .writeCompletion ok => Sys2Proof.Machine.execWriteCompletion ok s
  | .readCompletion ok => Sys2Proof.Machine.execReadCompletion ok s
  | .segmentDeadlineExpiry segment => Sys2Proof.Machine.execSegmentDeadlineExpiry segment s
  | .closeWalkVisit segment => Sys2Proof.Machine.execCloseWalkVisit segment s
  | .closeEnd segment => Sys2Proof.Machine.execCloseEnd segment s
  | .routeEndRecord => Sys2Proof.Machine.execRouteEndRecord s
  | .routeClockLimit => Sys2Proof.Machine.execRouteClockLimit s
  | .pacingSlotOpen => Sys2Proof.Machine.execPacingSlotOpen s
  | .depotTxFrameEnd => Sys2Proof.Machine.execDepotTxFrameEnd s
  | .ackTimeout batch => Sys2Proof.Machine.execAckTimeout batch s
  | .dockAssert => Sys2Proof.Machine.execDockAssert s
  | .dockDeassert => Sys2Proof.Machine.execDockDeassert s
  | .linkByte link value => Sys2Proof.Machine.execLinkByte link value s
  | .unknownRequest link => Sys2Proof.Machine.execUnknownRequest link s
  | .identify link => Sys2Proof.Machine.execIdentify link s
  | .status link => Sys2Proof.Machine.execStatus link s
  | .countersRead link => Sys2Proof.Machine.execCountersRead link s
  | .entryRead link => Sys2Proof.Machine.execEntryRead link s
  | .segmentRead link => Sys2Proof.Machine.execSegmentRead link s
  | .eventMask link => Sys2Proof.Machine.execEventMask link s
  | .faultClear link => Sys2Proof.Machine.execFaultClear link s
  | .reset link => Sys2Proof.Machine.execReset link s
  | .laneSet link => Sys2Proof.Machine.execLaneSet link s
  | .familySet link => Sys2Proof.Machine.execFamilySet link s
  | .familyClear link => Sys2Proof.Machine.execFamilyClear link s
  | .serviceSet link => Sys2Proof.Machine.execServiceSet link s
  | .bookOpen link => Sys2Proof.Machine.execBookOpen link s
  | .bookEntries link => Sys2Proof.Machine.execBookEntries link s
  | .bookClose link => Sys2Proof.Machine.execBookClose link s
  | .bookAbort link => Sys2Proof.Machine.execBookAbort link s
  | .entryModify link => Sys2Proof.Machine.execEntryModify link s
  | .segmentModify link => Sys2Proof.Machine.execSegmentModify link s
  | .routeStart link => Sys2Proof.Machine.execRouteStart link s
  | .routeStartExecute link => Sys2Proof.Machine.execRouteStartExecute link s
  | .routeEnd link => Sys2Proof.Machine.execRouteEnd link s
  | .rulesSet link => Sys2Proof.Machine.execRulesSet link s
  | .segmentSet link => Sys2Proof.Machine.execSegmentSet link s
  | .segmentClose link => Sys2Proof.Machine.execSegmentClose link s
  | .segmentReopen link => Sys2Proof.Machine.execSegmentReopen link s
  | .classSet link => Sys2Proof.Machine.execClassSet link s
  | .routingSet link => Sys2Proof.Machine.execRoutingSet link s
  | .uploadOpen link => Sys2Proof.Machine.execUploadOpen link s
  | .uploadPace link => Sys2Proof.Machine.execUploadPace link s
  | .uploadStop link => Sys2Proof.Machine.execUploadStop link s
  | .uploadFinish link => Sys2Proof.Machine.execUploadFinish link s
  | .batchAck link => Sys2Proof.Machine.execBatchAck link s
  | .batchNak link => Sys2Proof.Machine.execBatchNak link s
  | .trunkTxFrameEnd => Sys2Proof.Machine.execTrunkTxFrameEnd s
  | .resetLineAssert => Sys2Proof.Machine.execResetLineAssert s
  | .resetLineRelease strap => Sys2Proof.Machine.execResetLineRelease strap s
  | .coldReset strap => Sys2Proof.Machine.execColdReset strap s

end Sys2Proof.Machine
end

