-- ==== Sys2Proof/Machine/Step.lean ====
section
/-! DEFINITION. One step: the command at the front of the queue, or one millisecond of the timebase when none waits. -/

namespace Sys2Proof.Machine

/-- A millisecond passes: the timebase counts, and the running route clock with it, up to its maximum (R75, R76; log
entry 2). -/
def tick (s : State) : State :=
  (s.setTimebase (s.timebase + 1)).setClock
    (if s.clock.running then { s.clock with value := bump s.clock.value } else s.clock)

/-- The step of the part. -/
def step (s : State) : Host.Outcome State Fault Refusal :=
  match s.pending with
  | [] => .next (tick s)
  | c :: rest => exec c (s.setPending rest)

/-- The command a word of the table spells, put at the front of the queue; the table gives no row any bits, so no word
spells one (log entry 28, DEDUCED). -/
def State.withFetchWord (s : State) (nbits w : Nat) : State :=
  match decodeTableWord nbits w with
  | some c => s.setPending (c :: s.pending)
  | none => s

end Sys2Proof.Machine
end

