-- ==== Sys2Proof/Machine/Encoding.lean ====
section
/-! DEFINITION. The payload of every request as a sender writes it: the other direction of Operands.lean, by the codes,
widths, presence bytes and counts of R189 (section 10.3; log entries 7 to 10). -/

namespace Sys2Proof.Machine

/-! ## Writing arguments -/

/-- Numbers of the given widths, one after the other. -/
def writeAll : List (Nat × Nat) → List Byte
  | [] => []
  | (width, n) :: rest => bigEndian width n ++ writeAll rest

/-- The flag map with its own presence byte (R26; log entry 7, DESIGN CHOICE). -/
def writeFlagMap (m : FlagMap) : List Byte :=
  [presenceByte [m.magnet.isSome, m.tilt.isSome, m.cover.isSome, m.meterReverse.isSome, m.leak.isSome, m.lowbat.isSome]]
    ++ optionalBytes 1 m.magnet ++ optionalBytes 1 m.tilt ++ optionalBytes 1 m.cover ++ optionalBytes 1 m.meterReverse
    ++ optionalBytes 1 m.leak ++ optionalBytes 1 m.lowbat

/-- The arguments of FAMILY_SET (R26, R27; log entry 7, DESIGN CHOICE). -/
def writeFamilySet (index : Nat) (r : RawProfile) : List Byte :=
  [presenceByte [r.flagOffset.isSome, r.serviceOffset.isSome, r.extTamperOffset.isSome, r.extReverseOffset.isSome]]
    ++ writeAll [(1, index), (1, r.familyCode), (1, r.digits), (1, r.encoding), (1, r.registerOffset)]
    ++ optionalBytes 1 r.flagOffset ++ writeFlagMap r.flagMap ++ optionalBytes 1 r.serviceOffset
    ++ writeAll [(1, r.mode), (2, r.window)] ++ optionalBytes 1 r.extTamperOffset ++ optionalBytes 1 r.extReverseOffset
    ++ writeAll [(3, r.highRate), (2, r.reverseTolerance), (2, r.stagnationHours), (2, r.revisionStep)]

/-- One entry of BOOK_ENTRIES (R57, R63; log entry 7, DESIGN CHOICE). -/
def writeEntry (e : RawEntry) : List Byte :=
  [presenceByte [e.referenceReading.isSome, e.referenceHour.isSome]]
    ++ writeAll [(4, e.meterId), (1, e.familyCode), (1, e.segment), (1, e.options)]
    ++ optionalBytes 4 e.referenceReading ++ optionalBytes 3 e.referenceHour

/-! ## The payload (section 10.3, R189) -/

/-- The payload of a request: its code, then its arguments. -/
def encodeRequest : Request → List Byte
  | .identify => [1]
  | .status n => 2 :: bigEndian 1 n
  | .countersRead group clear => 3 :: writeAll [(1, group), (1, clear)]
  | .entryById meterId => 4 :: writeAll [(1, 0), (4, meterId)]
  | .entryByIndex index => 4 :: writeAll [(1, 1), (2, index)]
  | .segmentRead n => 5 :: bigEndian 1 n
  | .eventMask mask => 6 :: bigEndian 1 mask
  | .faultClear => [7]
  | .reset => [8]
  | .laneSet mask enable minRssi maxLength gapLimit =>
    9 :: writeAll [(1, mask), (1, enable), (1, minRssi), (1, maxLength), (1, gapLimit)]
  | .familySet index profile => 10 :: writeFamilySet index profile
  | .familyClear index => 11 :: bigEndian 1 index
  | .serviceClear place => 12 :: writeAll [(1, 1), (1, place)]
  | .serviceSet place code action weight => 12 :: writeAll [(1, 0), (1, place), (1, code), (1, action), (1, weight)]
  | .bookOpen routeId entries segments autoClose quietTime minDwell policy =>
    13 :: writeAll
      [(2, routeId), (2, entries), (1, segments), (1, autoClose), (2, quietTime), (2, minDwell), (1, policy)]
  | .bookEntries first entries => 14 :: writeAll [(2, first), (1, entries.length)] ++ entries.flatMap writeEntry
  | .bookClose => [15]
  | .bookAbort => [16]
  | .entryModify meterId clear set => 17 :: writeAll [(4, meterId), (1, clear), (1, set)]
  | .segmentModify n clear set => 18 :: writeAll [(1, n), (1, clear), (1, set)]
  | .routeStart startHour => 19 :: bigEndian 3 startHour
  | .routeEnd => [20]
  | .rulesDefaults => [21, 1]
  | .rulesSet weights => 21 :: writeAll ((1, 0) :: weights.map (fun w => (1, w)))
  | .segmentSet n autoClose quietTime minDwell => 22 :: writeAll [(1, n), (1, autoClose), (2, quietTime), (2, minDwell)]
  | .segmentClose n => 23 :: bigEndian 1 n
  | .segmentReopen n => 24 :: bigEndian 1 n
  | .classSet cls quota policy priority => 25 :: writeAll [(1, cls), (3, quota), (1, policy), (1, priority)]
  | .routingDefaults => [26, 1]
  | .routingSet kind cls live => 26 :: writeAll [(1, 0), (1, kind), (1, cls), (1, live)]
  | .uploadOpen mask batchSize window ackTimeout pacing =>
    27 :: [presenceByte [batchSize.isSome, window.isSome, ackTimeout.isSome, pacing.isSome]] ++ bigEndian 1 mask
      ++ optionalBytes 1 batchSize ++ optionalBytes 1 window ++ optionalBytes 2 ackTimeout ++ optionalBytes 1 pacing
  | .uploadPace pacing => 28 :: bigEndian 1 pacing
  | .uploadStop => [29]
  | .uploadFinish => [30]
  | .batchAck number => 31 :: bigEndian 1 number
  | .batchNak number => 32 :: bigEndian 1 number

/-! ## What the widths of R189 hold -/

/-- A number fits in `width` bytes. -/
def fitsIn (width n : Nat) : Bool := decide (n < 256 ^ width)

/-- An optional number fits in `width` bytes. -/
def optionFits (width : Nat) (x : Option Nat) : Bool := x.all (fitsIn width)

/-- Every number of a list of widths and numbers fits. -/
def allFit (xs : List (Nat × Nat)) : Bool := xs.all (fun x => fitsIn x.1 x.2)

/-- A profile's fields fit their widths. -/
def profileFits (r : RawProfile) : Bool :=
  allFit [(1, r.familyCode), (1, r.digits), (1, r.encoding), (1, r.registerOffset), (1, r.mode), (2, r.window),
      (3, r.highRate), (2, r.reverseTolerance), (2, r.stagnationHours), (2, r.revisionStep)]
    && [r.flagOffset, r.serviceOffset, r.extTamperOffset, r.extReverseOffset, r.flagMap.magnet, r.flagMap.tilt,
        r.flagMap.cover, r.flagMap.meterReverse, r.flagMap.leak, r.flagMap.lowbat].all (optionFits 1)

/-- An entry's fields fit their widths. -/
def entryFits (e : RawEntry) : Bool :=
  allFit [(4, e.meterId), (1, e.familyCode), (1, e.segment), (1, e.options)]
    && optionFits 4 e.referenceReading && optionFits 3 e.referenceHour

/-- Every argument of a request fits the width R189 gives it. -/
def Request.fits : Request → Bool
  | .identify | .faultClear | .reset | .bookClose | .bookAbort | .routeEnd | .rulesDefaults | .routingDefaults
  | .uploadStop | .uploadFinish => true
  | .status n | .segmentRead n | .familyClear n | .serviceClear n | .segmentClose n | .segmentReopen n | .uploadPace n
  | .batchAck n | .batchNak n | .eventMask n => fitsIn 1 n
  | .countersRead group clear => allFit [(1, group), (1, clear)]
  | .entryById meterId => fitsIn 4 meterId
  | .entryByIndex index => fitsIn 2 index
  | .laneSet mask enable minRssi maxLength gapLimit =>
    allFit [(1, mask), (1, enable), (1, minRssi), (1, maxLength), (1, gapLimit)]
  | .familySet index profile => fitsIn 1 index && profileFits profile
  | .serviceSet place code action weight => allFit [(1, place), (1, code), (1, action), (1, weight)]
  | .bookOpen routeId entries segments autoClose quietTime minDwell policy =>
    allFit
      [(2, routeId), (2, entries), (1, segments), (1, autoClose), (2, quietTime), (2, minDwell), (1, policy)]
  | .bookEntries first entries => fitsIn 2 first && fitsIn 1 entries.length && entries.all entryFits
  | .entryModify meterId clear set => allFit [(4, meterId), (1, clear), (1, set)]
  | .segmentModify n clear set => allFit [(1, n), (1, clear), (1, set)]
  | .routeStart startHour => fitsIn 3 startHour
  | .rulesSet weights => decide (weights.length = 16) && weights.all (fitsIn 1)
  | .segmentSet n autoClose quietTime minDwell => allFit [(1, n), (1, autoClose), (2, quietTime), (2, minDwell)]
  | .classSet cls quota policy priority => allFit [(1, cls), (3, quota), (1, policy), (1, priority)]
  | .routingSet kind cls live => allFit [(1, kind), (1, cls), (1, live)]
  | .uploadOpen mask batchSize window ackTimeout pacing =>
    fitsIn 1 mask && optionFits 1 batchSize && optionFits 1 window && optionFits 2 ackTimeout && optionFits 1 pacing

end Sys2Proof.Machine
end

