-- ==== Sys2Proof/Safety.lean ====
section
/-! DEFINITION. The words that claims are stated in: when the part runs, when a dispatcher takes a request and what a
reply leaves, and the invariants of the machine. -/

namespace Sys2Proof.Machine

/-- The part runs: its RESET line is not asserted (R185). -/
def Running (s : State) : Prop := s.pins.resetLine = false

/-! ## Requests (R173, R174) -/

/-- A link's dispatcher takes the head request `f` with the arguments `r`, and `rest` stays in the queue: the part runs,
the dispatcher holds no request, and the reply queue has a free place (R172, R173). -/
structure Takes (s : State) (k : Link) (f : RequestFrame) (rest : List RequestFrame) (r : Request) : Prop where
  running : Running s
  free : (s.link k).dispatcher = .idle
  room : (s.link k).replies.length < 8
  queue : (s.link k).requests = f :: rest
  parsed : parseRequest f.payload = .request r

/-- The state with the request queue of a link replaced (R172). -/
def withRequests (s : State) (k : Link) (rest : List RequestFrame) : State :=
  s.setLink k { s.link k with requests := rest }

/-- A state after the reply to `f` has joined its queue and the transmitters have chosen (R160, R174, R180). -/
def replied (k : Link) (f : RequestFrame) (status : Status) (results : List Byte) (s : State) : State :=
  kickBoth (s.setLink k { s.link k with
    replies := (s.link k).replies ++
      [{ code := f.payload.getD 0 0, tag := f.tag, status := status, results := results }] })

/-! ## Resets (section 10.8) -/

/-- The part as a warm reset leaves it before it starts again: the retained domain, the lines, the timebase and the
model's own fields, and every other field at its reset value (R18, R25, R37, R53, R79, R118, R137, R150, R170, R184,
R186). -/
def retained (s : State) : State :=
  { families := s.families
    services := s.services.map (·.map (fun e => { e with discards := 0 }))
    rules := s.rules
    routing := s.routing
    builder := { nextNumber := s.builder.nextNumber, limitFlag := s.builder.limitFlag }
    store :=
      { classes := s.store.classes.map (fun k => { quota := k.quota, policy := k.policy, priority := k.priority })
        index := s.store.index.map (fun r => { r with state := .stored }) }
    memory := s.memory
    uploader := { lastEnd := if s.uploader.state = .idle then s.uploader.lastEnd else some .reset }
    events := { mask := s.events.mask }
    faults := { first := s.faults.first, count := s.faults.count, laterHalt := s.faults.laterHalt }
    pins := s.pins
    timebase := s.timebase
    freeCounter := s.freeCounter
    pending := s.pending }

/-- A part that starts from reset values: RESTART with its reset kind code is the first event, which the free trunk
transmitter takes, and the trunk rate is the strap's (R180, R185, R186). -/
def started (s : State) (kind : Nat) : State :=
  { s with
    events := { s.events with sent := 1 }
    trunk := { tx := some (.event
      { kind := .restart, timeTag := 0, parameter := s.builder.nextNumber, detail := kind }) }
    pins := { s.pins with trunkRate := s.pins.strap, coldInReset := false } }

/-! ## Invariants -/

/-- No free transmitter has a frame waiting: the trunk's is busy or no reply, event or live copy waits (R180), and that of
a depot link that is UP is busy or no reply and no READY batch waits (R160). -/
def Settled (s : State) : Prop :=
  (s.trunk.tx = none → s.trunk.replies = [] ∧ s.events.queue = [] ∧ s.live.queue = [])
    ∧ (s.depotUp = true → s.depot.tx = none → s.depot.replies = [] ∧ ∀ b ∈ s.uploader.batches, b.stage ≠ .ready)

/-- The record memory is in its canonical form (00_scope.md, R188). -/
def MemoryCanonical (s : State) : Prop := memoryWf s.memory = true

/-- At most 16 pairings are open, one for a meter, and with the hearings that wait they are at most 17 (R39, R41). -/
def PairingBounded (s : State) : Prop :=
  s.pairing.table.length ≤ 16 ∧ s.pairing.table.length + s.pairing.hearings.length ≤ 17
    ∧ (s.pairing.table.map (·.head.meterId)).Nodup

/-- The quotas of the four classes fit the 65,536 slots, and no class holds more records than its quota, the one under
write among them (R139, R140). -/
abbrev QuotasFit (s : State) : Prop :=
  (s.store.classes.toList.map (·.quota)).sum ≤ 65536
    ∧ ∀ c : Fin 4,
      s.store.index.countP (fun r => decide (r.head.cls = c))
        + (match s.store.port with
            | some (.write r _) => if r.head.cls = c then 1 else 0
            | _ => 0) ≤ s.store.classes[c].quota

/-- The event queue holds at most 64 events, the live queue 128 copies and the append queue 32 records, each request queue
at most 8 requests and each reply queue 8 replies, one place of it kept for a ROUTE_START that its dispatcher holds (R141,
R147, R172, R173, R174, R181). -/
abbrev QueuesBounded (s : State) : Prop :=
  s.events.queue.length ≤ 64 ∧ s.live.queue.length ≤ 128 ∧ s.store.appendQueue.length ≤ 32
    ∧ ∀ p ∈ [s.trunk, s.depot], p.requests.length ≤ 8
      ∧ p.replies.length ≤ (match p.dispatcher with
          | .routeStart _ _ => 7
          | .idle | .resetting => 8)

/-- Every descriptor has its holder: the CLOSED ones stand in the close-order queue, each once, an OPEN one is that of
exactly one lane in BODY, and a DECODING one that of the frame the decoder offers (R19, R20, R21, R24). -/
abbrev DescriptorsPlaced (s : State) : Prop :=
  s.pool.closeQueue.Nodup
    ∧ (∀ d : Fin 128, d ∈ s.pool.closeQueue ↔ s.pool.descriptors[d].state = .closed)
    ∧ (∀ d : Fin 128, s.pool.descriptors[d].state = .opened ↔ ∃ i : Fin 8, s.lanes[i].openDescriptor = some d)
    ∧ (∀ i j : Fin 8, s.lanes[i].openDescriptor ≠ none → s.lanes[i].openDescriptor = s.lanes[j].openDescriptor → i = j)
    ∧ (∀ i : Fin 8, s.lanes[i].state = .body ↔ s.lanes[i].openDescriptor ≠ none)
    ∧ (∀ d : Fin 128, s.pool.descriptors[d].state = .decoding ↔ s.decoder.offer.map (·.descriptor) = some d)

/-- The next record number is one of 1..4,294,967,295 (R137). -/
def NumbersInRange (s : State) : Prop := 1 ≤ s.builder.nextNumber ∧ s.builder.nextNumber ≤ 4294967295

/-- The numbers of the records in the store, under write, in the append queue and held by the builder, in this order. -/
def recordNumbers (s : State) : List Nat :=
  s.store.index.map (·.head.number)
    ++ (match s.store.port with
        | some (.write r _) => [r.head.number]
        | _ => [])
    ++ s.store.appendQueue.map (·.head.number) ++ s.builder.held.map (·.head.number)

/-- The record numbers rise along the whole way from the store back to the builder, below the next record number, which
is itself given once the record-number-limit flag is set (R136, R137, R141, R145); and a free port in NORMAL leaves no
record in the append queue (R141). -/
abbrev RecordsOrdered (s : State) : Prop :=
  (recordNumbers s).Pairwise (· < ·)
    ∧ (∀ n ∈ recordNumbers s, if s.builder.limitFlag = true then n ≤ s.builder.nextNumber else n < s.builder.nextNumber)
    ∧ (s.store.port = none → s.store.state = .normal → s.store.appendQueue = [])

/-- The in-flight batches are at most as many as the window, none in IDLE, and the IN_FLIGHT store records are exactly
those of their lists, each in one batch and once (R145, R153, R157). -/
abbrev BatchesAccounted (s : State) : Prop :=
  let numbers := s.uploader.batches.flatMap (·.records)
  s.uploader.batches.length ≤ s.uploader.window ∧ s.uploader.window ≤ 8
    ∧ (s.uploader.state = .idle → s.uploader.batches = []) ∧ numbers.Nodup
    ∧ (∀ r ∈ s.store.index, r.state = .inFlight ↔ r.head.number ∈ numbers)
    ∧ (∀ n ∈ numbers, n ∈ s.store.index.map (·.head.number))

/-- The book holds each meter once, every segment's counts are those of its members in the book, so that the four sum to
the member count, and until the route starts every entry is UNHEARD and every segment PENDING (R57, R58, R64, R119,
R120). -/
abbrev SegmentsCounted (s : State) : Prop :=
  let count (n : Nat) (x : HearingState) : Nat :=
    s.book.countP (fun e => !e.options.getLsbD 1 && decide (e.segment = n) && decide (e.hearing = x))
  (s.book.map (·.meterId)).Nodup
    ∧ (∀ x ∈ s.segments.zipIdx,
      x.1.unheard = count x.2 .unheard ∧ x.1.heard = count x.2 .heard ∧ x.1.missed = count x.2 .missed
        ∧ x.1.late = count x.2 .late ∧ x.1.member = x.1.unheard + x.1.heard + x.1.missed + x.1.late)
    ∧ (s.route.state = .loading ∨ s.route.state = .ready →
      (∀ e ∈ s.book, e.hearing = .unheard) ∧ ∀ g ∈ s.segments, g.state = .pending)

/-- A command that brings a reset, or may end a frame that does (R185, R186). -/
def mayReset : Instr → Bool
  | .coldReset _ | .resetLineAssert | .resetLineRelease _ | .trunkTxFrameEnd | .depotTxFrameEnd | .dockDeassert
  | .reset _ => true
  | _ => false

end Sys2Proof.Machine
end

