-- ==== Sys2Proof/Certificates/Slice0/Obligations.lean ====
section
/-! DEFINITION. The statements for the provers. -/

open Sys2Proof Sys2Proof.Machine

/-! ## The machine -/

/-- With a command at the front of the queue a step is that command's effect on the state with the queue's rest. With no
command waiting it is one millisecond of the timebase, which the route clock follows while it runs, up to its maximum
(section 4.6). That a step on an empty queue is a millisecond is the model's choice (log entry 2, DESIGN CHOICE). -/
def Obligations.StepRunsTheFrontCommandOrTicks : Prop :=
  (∀ (c : Instr) (rest : List Instr) (s : State),
      step { s with pending := c :: rest } = exec c { s with pending := rest })
  ∧ (∀ s : State, s.pending = [] →
      step s = .next { s with
        timebase := s.timebase + 1
        clock := if s.clock.running then { s.clock with value := min (s.clock.value + 1) 4294967295 } else s.clock })

/-- Every command answers a next state, with the queue of commands as it was. It does so in every state, one in which the
command is not due included: there it changes nothing (log entry 1, DESIGN CHOICE), and no command is forced (log entry 29,
DESIGN CHOICE). -/
def Obligations.CommandsAnswerNextAndLeaveQueue : Prop :=
  ∀ (c : Instr) (s : State), ∃ t, exec c s = .next t ∧ t.pending = s.pending

/-- After a cold reset: the lanes with R2's defaults, every descriptor FREE, both tables empty, no route, the rule set,
routing and class tables at their defaults, an empty store, an IDLE uploader, both links hunting, and RESTART taken by the
trunk transmitter (log entry 3). -/
def Obligations.ResetLeavesDefaults : Prop :=
  (∀ i : Fin 8, State.reset.lanes[i] =
      { state := .off, enable := false, minRssi := 0, maxLength := 60, gapLimit := 4, pendingMinRssi := none,
        pendingMaxLength := none, syncTag := 0, syncRssi := 0, frameLength := none, bytesReceived := 0,
        openDescriptor := none, gapDeadline := none, streak := 0,
        counters := ⟨0, 0, 0, 0, 0, 0, 0, 0⟩ })
  ∧ (∀ d : Fin 128, State.reset.pool.descriptors[d].state = .free) ∧ State.reset.pool.closeQueue = []
  ∧ State.reset.pool.fullArmed = true
  ∧ (∀ i : Fin 16, State.reset.families[i] = none ∧ State.reset.services[i] = none)
  ∧ State.reset.decoder.offer = none ∧ State.reset.pairing.table = [] ∧ State.reset.pairing.hearings = []
  ∧ State.reset.route =
      { state := .empty, id := 0, policy := .ignore, declaredEntries := 0, declaredSegments := 0, loaded := 0,
        owner := none, startHour := 0, heldHearings := 0, clockLimitRaised := false }
  ∧ State.reset.book = [] ∧ State.reset.segments = [] ∧ State.reset.matcher.cache = []
  ∧ State.reset.clock = { value := 0, running := false }
  ∧ State.reset.rules = ⟨50, 40, 20, 0, 35, 40, 25, 30, 45, 0, 0, 30, 45, 10, 60, 30⟩
  ∧ State.reset.routing =
      { reading := ⟨0, false⟩, revision := ⟨0, false⟩, alert := ⟨1, true⟩, foreign := ⟨2, false⟩, missed := ⟨1, false⟩,
        segment := ⟨1, true⟩, route := ⟨1, true⟩ }
  ∧ State.reset.builder.nextNumber = 1 ∧ State.reset.builder.limitFlag = false ∧ State.reset.builder.held = []
  ∧ State.reset.store.classes.toList.map (fun k => (k.quota, k.policy, k.priority)) =
      [(49152, .linear, 1), (8192, .linear, 3), (6144, .ring, 0), (2048, .ring, 0)]
  ∧ State.reset.store.index = [] ∧ State.reset.store.appendQueue = [] ∧ State.reset.store.port = none
  ∧ State.reset.store.state = .normal ∧ State.reset.live.queue = [] ∧ State.reset.live.dropArmed = true
  ∧ State.reset.uploader.state = .idle ∧ State.reset.uploader.batches = [] ∧ State.reset.uploader.nextNumber = 0
  ∧ State.reset.uploader.lastEnd = none ∧ State.reset.faults.first = none ∧ State.reset.depotUp = false
  ∧ (∀ k : EventKind, eventEnabled State.reset.events k = true) ∧ State.reset.events.queue = []
  ∧ State.reset.trunk.tx = some (.event { kind := .restart, timeTag := 0, parameter := 1, detail := 0 })
  ∧ State.reset.depot = {} ∧ State.reset.pending = []

/-! ## Lane receivers -/

/-- A lane in OFF or FAULTED ignores SYNC, BYTE and DROP, and one in HUNT ignores BYTE and DROP. DROP, and a gap expiry
once its deadline has passed: a frame in BODY closes SHORT, a lane in LENGTH goes to HUNT and counts nothing. A deadline
equal to the timebase has passed (log entry 25, DEDUCED); without one that has passed the expiry changes nothing (log entry
1, DESIGN CHOICE). -/
def Obligations.OffAndFaultedLanesIgnoreTheirPortAndDropEndsTheFrame : Prop :=
  (∀ (s : State) (i : Fin 8), Running s → Settled s → (s.lanes[i].state = .off ∨ s.lanes[i].state = .faulted) →
      (∀ rssi, exec (.sync i rssi) s = .next s) ∧ (∀ b parity, exec (.byte i b parity) s = .next s)
        ∧ exec (.drop i) s = .next s)
  ∧ (∀ (s : State) (i : Fin 8), Running s → Settled s → s.lanes[i].state = .hunt →
      (∀ b parity, exec (.byte i b parity) s = .next s) ∧ exec (.drop i) s = .next s)
  ∧ (∀ (s : State) (i : Fin 8), Running s → (∀ m, s.lanes[i].gapDeadline = some m → s.timebase < m) →
      exec (.gapExpiry i) s = .next s)
  ∧ (∀ (s : State) (i : Fin 8) (c : Instr), Running s →
      (c = .drop i ∨ c = .gapExpiry i ∧ ∃ m, s.lanes[i].gapDeadline = some m ∧ m ≤ s.timebase) →
      let l := s.lanes[i]
      (l.state = .length → exec c s = .next { s with lanes := s.lanes.set i { l with state := .hunt, gapDeadline := none } })
      ∧ (∀ d, l.state = .body → l.openDescriptor = some d →
        exec c s = .next { s with
          lanes := s.lanes.set i { l with
            state := .hunt, openDescriptor := none, frameLength := none, gapDeadline := none,
            counters := { l.counters with short := bump l.counters.short } }
          pool := { s.pool with
            descriptors := s.pool.descriptors.set d { s.pool.descriptors[d] with
              state := .closed, outcome := some .short, closeTag := some s.clock.value }
            closeQueue := s.pool.closeQueue ++ [d] } }))

/-- A lane that takes a SYNC first makes its pending settings current, then goes to LENGTH with the SYNC's time tag and
RSSI and a new gap deadline, or counts LOW_SIGNAL in HUNT; a lane in BODY first closes its frame SUPERSEDED. -/
def Obligations.SyncIsJudgedUnderSettledSettings : Prop :=
  ∀ (s : State) (i : Fin 8) (rssi : Byte), Running s →
    let l := s.lanes[i]
    let least := l.pendingMinRssi.getD l.minRssi
    let judged (m : Lane) : Lane :=
      let n := { m with
        minRssi := least, maxLength := l.pendingMaxLength.getD l.maxLength, pendingMinRssi := none,
        pendingMaxLength := none }
      if least ≤ rssi.toNat then
        { n with
          state := .length, syncTag := s.clock.value, syncRssi := rssi.toNat,
          gapDeadline := some (s.timebase + l.gapLimit) }
      else { n with state := .hunt, gapDeadline := none,
                    counters := { n.counters with lowSignal := bump n.counters.lowSignal } }
    (l.state = .hunt ∨ l.state = .length →
      exec (.sync i rssi) s = .next { s with lanes := s.lanes.set i (judged l) })
    ∧ (∀ d, l.state = .body → l.openDescriptor = some d →
      exec (.sync i rssi) s = .next { s with
        lanes := s.lanes.set i (judged { l with
          openDescriptor := none, frameLength := none,
          counters := { l.counters with superseded := bump l.counters.superseded } })
        pool := { s.pool with
          descriptors := s.pool.descriptors.set d { s.pool.descriptors[d] with
            state := .closed, outcome := some .superseded, closeTag := some s.clock.value }
          closeQueue := s.pool.closeQueue ++ [d] } })

/-- The length byte: BAD_LENGTH for bad parity or a value outside 10..max length, NO_DESCRIPTOR with no FREE descriptor,
else SOM with the lowest-numbered FREE descriptor. -/
def Obligations.LengthByteStartsMessage : Prop :=
  ∀ (s : State) (i : Fin 8) (b : Byte) (parity : Bool), Running s → Settled s → s.lanes[i].state = .length →
    let l := s.lanes[i]
    (parity = false ∨ b.toNat < 10 ∨ l.maxLength < b.toNat →
      exec (.byte i b parity) s = .next { s with
        lanes := s.lanes.set i { l with
          state := .hunt, gapDeadline := none, counters := { l.counters with badLength := bump l.counters.badLength } } })
    ∧ (parity = true → 10 ≤ b.toNat → b.toNat ≤ l.maxLength →
      ((∀ d : Fin 128, s.pool.descriptors[d].state ≠ .free) →
        exec (.byte i b parity) s = .next { s with
          lanes := s.lanes.set i { l with
            state := .hunt, gapDeadline := none,
            counters := { l.counters with noDescriptor := bump l.counters.noDescriptor } } })
      ∧ (∀ d : Fin 128, s.pool.descriptors[d].state = .free → (∀ e < d, s.pool.descriptors[e].state ≠ .free) →
        let t : State := { s with
          lanes := s.lanes.set i { l with
            state := .body, openDescriptor := some d, frameLength := some b.toNat, bytesReceived := 0,
            gapDeadline := some (s.timebase + l.gapLimit) }
          pool := { s.pool with
            descriptors := s.pool.descriptors.set d
              { state := .opened, lane := i, syncTag := l.syncTag, rssi := l.syncRssi, length := b.toNat, content := [],
                crc := [], outcome := none, closeTag := none } } }
        (s.pool.fullArmed = false ∨ (∃ e, e ≠ d ∧ s.pool.descriptors[e].state = .free) →
          exec (.byte i b parity) s = .next t)
        ∧ (s.pool.fullArmed = true → (∀ e, e ≠ d → s.pool.descriptors[e].state ≠ .free) →
          exec (.byte i b parity) s = .next (kickTrunk { t with
            pool := { t.pool with fullArmed := false }
            events := postEvent s.events
              { kind := .captureFull, timeTag := s.clock.value
                parameter := s.pool.descriptors.toList.countP (fun x => decide (x.state = .closed))
                detail := i.val } }))))

/-- A byte with good parity is stored in the open descriptor, content before CRC; at EOM the descriptor closes GOOD, which
clears the streak, when the CRC over length byte and content is the one received, else BAD_CRC. A byte with bad parity
closes it PORT_ERROR; the streak rises, and at 32 the lane is FAULTED with the fault LANE_FAULTED. The CRC: a register that
starts at 0xFFFF and takes each byte bit by bit, the highest first, shifted left at each bit and combined with 0x1021 where
that bit and its own highest bit differed. -/
def Obligations.BodyBytesAreStoredAndTheFrameJudged : Prop :=
  (∀ (s : State) (i : Fin 8) (b : Byte) (d : Fin 128) (n : Nat), Running s → Settled s → s.lanes[i].state = .body →
      s.lanes[i].openDescriptor = some d → s.lanes[i].frameLength = some n →
      let l := s.lanes[i]
      let x := s.pool.descriptors[d]
      let y : Descriptor :=
        if l.bytesReceived < n then { x with content := x.content ++ [b] } else { x with crc := x.crc ++ [b] }
      let closed (good : Bool) : State := { s with
        lanes := s.lanes.set i { l with
          state := .hunt, openDescriptor := none, frameLength := none, gapDeadline := none,
          bytesReceived := l.bytesReceived + 1,
          streak := if good then 0 else l.streak,
          counters := if good then { l.counters with good := bump l.counters.good }
            else { l.counters with badCrc := bump l.counters.badCrc } }
        pool := { s.pool with
          descriptors := s.pool.descriptors.set d { y with
            state := .closed, outcome := some (if good then .good else .badCrc), closeTag := some s.clock.value }
          closeQueue := s.pool.closeQueue ++ [d] } }
      (l.bytesReceived + 1 ≠ n + 2 →
        exec (.byte i b true) s = .next { s with
          lanes := s.lanes.set i { l with
            bytesReceived := l.bytesReceived + 1, gapDeadline := some (s.timebase + l.gapLimit) }
          pool := { s.pool with descriptors := s.pool.descriptors.set d y } })
      ∧ (l.bytesReceived + 1 = n + 2 →
        exec (.byte i b true) s = .next (closed (decide
          (y.crc = bigEndian 2 (crc16 (BitVec.ofNat 8 x.length :: y.content)).toNat)))))
  ∧ (∀ (s : State) (i : Fin 8) (b : Byte) (d : Fin 128), Running s → Settled s → s.lanes[i].state = .body →
      s.lanes[i].openDescriptor = some d → s.lanes[i].streak < 32 →
      let l := s.lanes[i]
      let closed (x : LaneState) : State := { s with
        lanes := s.lanes.set i { l with
          state := x, openDescriptor := none, frameLength := none, gapDeadline := none, streak := l.streak + 1,
          counters := { l.counters with portError := bump l.counters.portError } }
        pool := { s.pool with
          descriptors := s.pool.descriptors.set d { s.pool.descriptors[d] with
            state := .closed, outcome := some .portError, closeTag := some s.clock.value }
          closeQueue := s.pool.closeQueue ++ [d] } }
      (l.streak < 31 → exec (.byte i b false) s = .next (closed .hunt))
      ∧ (l.streak = 31 →
        exec (.byte i b false) s = .next (kickTrunk (raiseFault (closed .faulted) .laneFaulted i.val))))
  ∧ crc16 [] = 0xFFFF
  ∧ (∀ (bytes : List Byte) (b : Byte), ∃ r : Nat → BitVec 16, r 0 = crc16 bytes ∧ crc16 (bytes ++ [b]) = r 8
      ∧ ∀ k < 8, r (k + 1) =
          if b.getLsbD (7 - k) = (r k).getLsbD 15 then r k <<< 1 else (r k <<< 1) ^^^ 0x1021)

/-- LANE_SET: an argument out of range is refused as a whole; otherwise each lane of the mask acts in lane order (log entry
30, DESIGN CHOICE), the others report NOT_SELECTED, and the reply carries the eight results. What a selected lane does and
reports, state by state: with settings equal nothing, in OFF and HUNT the new settings at once, in a frame the gap limit at
once with the others pending, or the frame aborted, and FAULTED re-armed. A gap deadline that the new limit moves into the
past expires in the same step (log entries 4 and 25, DEDUCED): a frame in BODY closes SHORT, a lane in LENGTH goes to
HUNT. -/
def Obligations.LaneSetActsOnTheLanesOfItsMaskByTheirStates : Prop :=
  (∀ (s : State) (k : Link) (f : RequestFrame) (rest : List RequestFrame) (mask enable least length gap : Nat),
      Takes s k f rest (.laneSet mask enable least length gap) →
      let u := withRequests s k rest
      let n : LaneSettings := { enable := decide (enable = 1), minRssi := least, maxLength := length, gapLimit := gap }
      let out : State × List Byte := (List.finRange 8).foldl
        (fun acc i =>
          if mask.testBit i.val then
            ((setOneLane acc.1 i n).1, acc.2 ++ [BitVec.ofNat 8 (laneResultCode (setOneLane acc.1 i n).2)])
          else (acc.1, acc.2 ++ [0])) (u, [])
      (1 < enable ∨ length < 10 ∨ 60 < length ∨ gap < 1 ∨ 20 < gap →
        exec (.laneSet k) s = .next (replied k f .badArgument [] u))
      ∧ (enable ≤ 1 → 10 ≤ length → length ≤ 60 → 1 ≤ gap → gap ≤ 20 →
        exec (.laneSet k) s = .next (replied k f .ok out.2 out.1)))
  ∧ (∀ (s : State) (i : Fin 8) (n : LaneSettings),
      let l := s.lanes[i]
      let equal := n.enable = l.enable ∧ n.minRssi = l.pendingMinRssi.getD l.minRssi
        ∧ n.maxLength = l.pendingMaxLength.getD l.maxLength ∧ n.gapLimit = l.gapLimit
      let current (m : Lane) (x : LaneState) : Lane := { m with
        state := x, enable := n.enable, minRssi := n.minRssi, maxLength := n.maxLength, gapLimit := n.gapLimit,
        pendingMinRssi := none, pendingMaxLength := none }
      let put (m : Lane) : State := { s with lanes := s.lanes.set i m }
      (equal → (l.state = .off ∧ n.enable = false ∨ n.enable = true ∧ (l.state = .hunt ∨ l.state = .length ∨ l.state = .body)) →
        setOneLane s i n = (s, .unchanged))
      ∧ (¬ equal → l.state = .off → n.enable = false → setOneLane s i n = (put (current l .off), .applied))
      ∧ (l.state = .off → n.enable = true → setOneLane s i n = (put (current l .hunt), .applied))
      ∧ (¬ equal → l.state = .hunt → n.enable = true → setOneLane s i n = (put (current l .hunt), .applied))
      ∧ (l.state = .hunt → n.enable = false → setOneLane s i n = (put (current l .off), .applied))
      ∧ (¬ equal → (l.state = .length ∨ l.state = .body) → n.enable = true → ∀ m, l.gapDeadline = some m →
        s.timebase < m - l.gapLimit + n.gapLimit →
        setOneLane s i n =
          (put { l with
            gapLimit := n.gapLimit, gapDeadline := some (m - l.gapLimit + n.gapLimit),
            pendingMinRssi := some n.minRssi, pendingMaxLength := some n.maxLength }, .appliedNextFrame))
      ∧ (¬ equal → n.enable = true → ∀ m, l.gapDeadline = some m → m - l.gapLimit + n.gapLimit ≤ s.timebase →
        let expired : Lane := { l with
          state := .hunt, gapLimit := n.gapLimit, gapDeadline := none, pendingMinRssi := some n.minRssi,
          pendingMaxLength := some n.maxLength }
        (l.state = .length → setOneLane s i n = (put expired, .appliedNextFrame))
        ∧ (l.state = .body → ∀ d, l.openDescriptor = some d →
          setOneLane s i n =
            ({ put { expired with
                  openDescriptor := none, frameLength := none,
                  counters := { l.counters with short := bump l.counters.short } } with
                pool := { s.pool with
                  descriptors := s.pool.descriptors.set d { s.pool.descriptors[d] with
                    state := .closed, outcome := some .short, closeTag := some s.clock.value }
                  closeQueue := s.pool.closeQueue ++ [d] } }, .appliedNextFrame)))
      ∧ (l.state = .length → n.enable = false →
        setOneLane s i n = (put (current { l with gapDeadline := none } .off), .frameAborted))
      ∧ (l.state = .body → n.enable = false → ∀ d, l.openDescriptor = some d →
        setOneLane s i n =
          ({ put (current { l with openDescriptor := none, frameLength := none, gapDeadline := none } .off) with
              pool := { s.pool with
                descriptors := s.pool.descriptors.set d { s.pool.descriptors[d] with
                  state := .closed, outcome := some .aborted, closeTag := some s.clock.value }
                closeQueue := s.pool.closeQueue ++ [d] } }, .frameAborted))
      ∧ (l.state = .faulted → n.enable = true →
        setOneLane s i n = (put { current l .hunt with streak := 0 }, .rearmed))
      ∧ (l.state = .faulted → n.enable = false →
        setOneLane s i n = (put { current l .off with streak := 0 }, .applied)))

/-! ## Frame decoder -/

/-- The idle decoder takes the head of the close-order queue; a descriptor whose outcome is not GOOD is counted and freed
at once, and a FREE count of 8 arms CAPTURE_FULL again. A GOOD descriptor: the five checks in their order, the service
table's DISCARD, and the decoded frame offered, with the counter of each case; it is freed at once but for an offered
frame, which holds it in DECODING. What it reads from a body: the length each kind needs, the flags that the map places in
the flag byte, the extension fields of an EXTENDED family, and the service code, for which 0 is none (the register:
RegisterIsReadHighByteFirstBelowM). -/
def Obligations.DecoderTakesAClosedDescriptor : Prop :=
  (∀ (s : State) (d : Fin 128) (rest : List (Fin 128)) (o : CloseOutcome), Running s → s.decoder.offer = none →
      s.pool.closeQueue = d :: rest → s.pool.descriptors[d].outcome = some o → o ≠ .good →
      let c := s.decoder.counters
      let free := s.pool.descriptors.set d { s.pool.descriptors[d] with state := .free, outcome := none, closeTag := none }
      exec .decoderTake s = .next { s with
        pool :=
          { descriptors := free, closeQueue := rest
            fullArmed := s.pool.fullArmed || decide (free.toList.countP (fun x => decide (x.state = .free)) = 8) }
        decoder := { s.decoder with
          counters :=
            match o with
            | .badCrc => { c with rawBadCrc := bump c.rawBadCrc }
            | .short => { c with rawShort := bump c.rawShort }
            | .superseded => { c with rawSuperseded := bump c.rawSuperseded }
            | .portError => { c with rawPortError := bump c.rawPortError }
            | .aborted => { c with rawAborted := bump c.rawAborted }
            | .good => c } })
  ∧ (∀ (s : State) (d : Fin 128) (rest : List (Fin 128)), Running s → s.decoder.offer = none →
      s.pool.closeQueue = d :: rest → s.pool.descriptors[d].outcome = some .good →
      let x := s.pool.descriptors[d]
      let body := x.content.drop 6
      let code := numberAt x.content 0 1
      let meter := numberAt x.content 1 4
      let control := (x.content.getD 5 0).toNat
      let c := s.decoder.counters
      let freed (k : DecoderCounters) : State := { s with
        pool := freeDescriptor { s.pool with closeQueue := rest } d, decoder := { s.decoder with counters := k } }
      let offered (fr : DecodedFrame) (k : DecoderCounters) : State := { s with
        pool := { s.pool with closeQueue := rest, descriptors := s.pool.descriptors.set d { x with state := .decoding } }
        decoder := { offer := some { descriptor := d, frame := fr }, counters := k } }
      (meter = 0 ∨ meter = 0xFFFFFFFF → exec .decoderTake s = .next (freed { c with badId := bump c.badId }))
      ∧ (meter ≠ 0 → meter ≠ 0xFFFFFFFF →
        ((∀ i : Fin 16, s.families[i].map (·.familyCode) ≠ some code) →
          exec .decoderTake s = .next (freed { c with unknownFamily := bump c.unknownFamily }))
        ∧ (∀ (i : Fin 16) (p : Profile), s.families[i] = some p → p.familyCode = code →
          (∀ j < i, s.families[j].map (·.familyCode) ≠ some code) →
          let head : FrameHead :=
            { meterId := meter, familyIndex := i, familyCode := code, mode := p.mode, window := p.window,
              sequence := control / 16, closeTag := x.closeTag.getD 0, rssi := x.rssi, lane := x.lane }
          (2 ≤ control % 4 → exec .decoderTake s = .next (freed { c with frameKind := bump c.frameKind }))
          ∧ (control % 4 = 0 → body.length < readingNeed p →
            exec .decoderTake s = .next (freed { c with shortBody := bump c.shortBody }))
          ∧ (control % 4 = 1 → body.length < extensionNeed p →
            exec .decoderTake s = .next (freed { c with shortBody := bump c.shortBody }))
          ∧ (control % 4 = 1 → extensionNeed p ≤ body.length →
            exec .decoderTake s = .next (offered { head := head, body := .extension (readExtension p body) }
              { c with decodedExtension := bump c.decodedExtension }))
          ∧ (control % 4 = 0 → readingNeed p ≤ body.length →
            (readRegister p body = none →
              exec .decoderTake s = .next (freed { c with badRegister := bump c.badRegister }))
            ∧ (∀ v, readRegister p body = some v →
              let reading (m : Option ServiceMark) : DecodedFrame :=
                { head := head, body := .reading { register := v, flags := readFlags p body, service := m } }
              (serviceCodeOf p body = none →
                exec .decoderTake s = .next (offered (reading none) { c with decodedReading := bump c.decodedReading }))
              ∧ (∀ n, serviceCodeOf p body = some n → (∀ j : Fin 16, s.services[j].map (·.code) ≠ some n) →
                exec .decoderTake s = .next (offered (reading (some { code := n, action := .note }))
                  { c with decodedReading := bump c.decodedReading, serviceUnlisted := bump c.serviceUnlisted }))
              ∧ (∀ (n : Nat) (j : Fin 16) (e : ServiceEntry), serviceCodeOf p body = some n → s.services[j] = some e →
                e.code = n → (∀ q < j, s.services[q].map (·.code) ≠ some n) →
                (e.action = .discard →
                  exec .decoderTake s = .next { freed { c with decodedReading := bump c.decodedReading } with
                    services := s.services.set j (some { e with discards := bump e.discards }) })
                ∧ (e.action = .note →
                  exec .decoderTake s = .next (offered (reading (some { code := n, action := .note }))
                    { c with decodedReading := bump c.decodedReading }))
                ∧ (e.action = .weight →
                  exec .decoderTake s = .next (offered (reading (some { code := n, action := .weight e.weight }))
                    { c with decodedReading := bump c.decodedReading }))))))))
  ∧ (∀ (p : Profile) (body : List Byte),
      let at_ (k : Nat) := (body.getD k 0).toNat
      let width := match p.encoding with
        | .binary3 => 3
        | .binary4 => 4
        | .bcd => (p.digits + 1) / 2
      (∀ n, readingNeed p ≤ n ↔
        p.registerOffset + width ≤ n ∧ (∀ o ∈ p.flagOffset, o + 1 ≤ n) ∧ (∀ o ∈ p.serviceOffset, o + 1 ≤ n))
      ∧ (∀ n, extensionNeed p ≤ n ↔
        (p.mode = .extended → (∀ o ∈ p.extTamperOffset, o + 1 ≤ n) ∧ (∀ o ∈ p.extReverseOffset, o + 2 ≤ n)))
      ∧ (∀ k < 6, (readFlags p body).getLsbD k = true ↔
        ∃ o m, p.flagOffset = some o ∧ (body.getD o 0).getLsbD m = true
          ∧ [p.flagMap.magnet, p.flagMap.tilt, p.flagMap.cover, p.flagMap.meterReverse, p.flagMap.leak,
              p.flagMap.lowbat][k]? = some (some m))
      ∧ (p.mode = .none → readExtension p body = none)
      ∧ (∀ t r, p.mode = .extended → p.extTamperOffset = some t → p.extReverseOffset = some r →
        readExtension p body = some { tamperCount := at_ t, reverseVolume := at_ r * 256 + at_ (r + 1) })
      ∧ (∀ n, serviceCodeOf p body = some n ↔ ∃ o, p.serviceOffset = some o ∧ n = at_ o ∧ n ≠ 0))

/-- The register of a READING: for a binary encoding its bytes high byte first, for BCD the number its digits spell, and
in both cases only a value below M, with no BCD digit above 9. -/
def Obligations.RegisterIsReadHighByteFirstBelowM : Prop :=
  ∀ (p : Profile) (body : List Byte) (v : Nat),
    let at_ (k : Nat) := (body.getD (p.registerOffset + k) 0).toNat
    let width := (p.digits + 1) / 2
    (p.encoding = .binary3 →
      (readRegister p body = some v ↔ v = at_ 0 * 65536 + at_ 1 * 256 + at_ 2 ∧ v < 10 ^ p.digits))
    ∧ (p.encoding = .binary4 →
      (readRegister p body = some v ↔
        v = at_ 0 * 16777216 + at_ 1 * 65536 + at_ 2 * 256 + at_ 3 ∧ v < 10 ^ p.digits))
    ∧ (p.encoding = .bcd →
      (readRegister p body = some v ↔
        (∀ k < width, at_ k / 16 ≤ 9 ∧ at_ k % 16 ≤ 9)
        ∧ v = ((List.range width).map (fun k => (at_ k / 16 * 10 + at_ k % 16) * 100 ^ (width - 1 - k))).sum
        ∧ v < 10 ^ p.digits))

/-! ## Pairing unit -/

/-- A READING of a NONE family becomes a hearing without a pairing mark; an EXTENSION of a NONE family is counted
PAIR_UNEXPECTED. The pairing table is not looked at, and the decoder's descriptor is freed. -/
def Obligations.PlainFamilyFramesPassThrough : Prop :=
  ∀ (s : State) (o : Offer), Running s → s.decoder.offer = some o → s.pairing.hearings = [] →
    o.frame.head.mode = .none →
    let h := o.frame.head
    let c := s.pairing.counters
    let base : State := { s with
      pool := freeDescriptor s.pool o.descriptor, decoder := { s.decoder with offer := none } }
    (∀ r, o.frame.body = .reading r →
      exec .pairingTakeFrame s = .next { base with
        pairing :=
          { table := s.pairing.table
            hearings :=
              [{ meterId := h.meterId, familyIndex := h.familyIndex, familyCode := h.familyCode, timeTag := h.closeTag,
                 rssi := h.rssi, lane := h.lane, register := r.register, flags := r.flags, service := r.service,
                 ext := none, mark := none }]
            counters := { c with passedThrough := bump c.passedThrough } } })
    ∧ (∀ x, o.frame.body = .extension x →
      exec .pairingTakeFrame s = .next { base with
        pairing := { s.pairing with counters := { c with unexpected := bump c.unexpected } } })

/-- An EXTENDED READING: it opens a pairing, joins one as a repeat copy, ends one of another sequence or family, or makes
room by evicting the earliest deadline, oldest first. An expiry due at once completes the new pairing with PAIR_TIMEOUT in
the same step (R51; log entries 4 and 25, DEDUCED). -/
def Obligations.ExtendedReadingLeavesOnePairing : Prop :=
  ∀ (s : State) (o : Offer) (r : ReadingFields), Running s → PairingBounded s → s.decoder.offer = some o →
    s.pairing.hearings = [] → o.frame.head.mode = .extended → o.frame.body = .reading r →
    let h := o.frame.head
    let c := s.pairing.counters
    let ends := h.closeTag + h.window
    let deadline := if s.clock.running then s.timebase + (ends - s.clock.value) else s.timebase + h.window
    let opened (table : List Pairing) (before : List Hearing) (k : PairingCounters) : State := { s with
      pool := freeDescriptor s.pool o.descriptor
      decoder := { s.decoder with offer := none }
      pairing :=
        if deadline ≤ s.timebase then
          { table := table, hearings := before ++ [hearingOf h r none (some .timeout)],
            counters := { k with opened := bump k.opened, timedOut := bump k.timedOut } }
        else
          { table := table ++ [{ head := h, reading := r, deadline := deadline }], hearings := before,
            counters := { k with opened := bump k.opened } } }
    ((∀ p ∈ s.pairing.table, p.head.meterId ≠ h.meterId) → s.pairing.table.length < 16 →
      exec .pairingTakeFrame s = .next (opened s.pairing.table [] c))
    ∧ (∀ pre p post, s.pairing.table = pre ++ p :: post → p.head.meterId = h.meterId →
      (p.head.familyIndex = h.familyIndex → p.head.sequence = h.sequence →
        exec .pairingTakeFrame s = .next { s with
          pool := freeDescriptor s.pool o.descriptor
          decoder := { s.decoder with offer := none }
          pairing := { s.pairing with
            table := pre ++ (if p.head.rssi < h.rssi then { p with head := h, reading := r } else p) :: post
            counters := { c with repeated := bump c.repeated } } })
      ∧ (p.head.familyIndex ≠ h.familyIndex ∨ p.head.sequence ≠ h.sequence →
        exec .pairingTakeFrame s = .next (opened (pre ++ post) [hearingOf p.head p.reading none (some .abandoned)]
          { c with abandoned := bump c.abandoned })))
    ∧ ((∀ p ∈ s.pairing.table, p.head.meterId ≠ h.meterId) → s.pairing.table.length = 16 →
      ∀ pre p post, s.pairing.table = pre ++ p :: post → (∀ q ∈ pre, p.deadline < q.deadline) →
        (∀ q ∈ post, p.deadline ≤ q.deadline) →
        exec .pairingTakeFrame s = .next (opened (pre ++ post) [hearingOf p.head p.reading none (some .evicted)]
          { c with evicted := bump c.evicted }))

/-- An EXTENDED EXTENSION: ORPHAN without a pairing, PAIR_MISMATCH with one of another sequence or family, and otherwise
the pairing completes with EXT_PRESENT and the extension's fields. When the deadline of an open pairing has passed, the
pairing completes with PAIR_TIMEOUT and no extension fields, and its hearing joins the tail of the queue. A deadline equal
to the timebase has passed (log entry 25, DEDUCED). -/
def Obligations.ExtensionsAndTimeoutsCompletePairings : Prop :=
  (∀ (s : State) (o : Offer) (x : Option ExtFields), Running s → PairingBounded s → s.decoder.offer = some o →
      s.pairing.hearings = [] → o.frame.head.mode = .extended → o.frame.body = .extension x →
      let h := o.frame.head
      let c := s.pairing.counters
      let base (u : PairingUnit) : State := { s with
        pool := freeDescriptor s.pool o.descriptor, decoder := { s.decoder with offer := none }, pairing := u }
      ((∀ p ∈ s.pairing.table, p.head.meterId ≠ h.meterId) →
        exec .pairingTakeFrame s = .next (base { s.pairing with counters := { c with orphan := bump c.orphan } }))
      ∧ (∀ pre p post, s.pairing.table = pre ++ p :: post → p.head.meterId = h.meterId →
        (p.head.familyIndex ≠ h.familyIndex ∨ p.head.sequence ≠ h.sequence →
          exec .pairingTakeFrame s = .next (base { s.pairing with counters := { c with mismatch := bump c.mismatch } }))
        ∧ (p.head.familyIndex = h.familyIndex → p.head.sequence = h.sequence →
          exec .pairingTakeFrame s = .next (base
            { table := pre ++ post, hearings := [hearingOf p.head p.reading x (some .extPresent)],
              counters := { c with completed := bump c.completed } }))))
  ∧ (∀ (s : State) (pre post : List Pairing) (p : Pairing), Running s → PairingBounded s →
      s.pairing.table = pre ++ p :: post → p.deadline ≤ s.timebase →
      exec (.pairTimeout p.head.meterId) s = .next { s with
        pairing :=
          { table := pre ++ post
            hearings := s.pairing.hearings ++
              [{ meterId := p.head.meterId, familyIndex := p.head.familyIndex, familyCode := p.head.familyCode,
                 timeTag := p.head.closeTag, rssi := p.head.rssi, lane := p.head.lane, register := p.reading.register,
                 flags := p.reading.flags, service := p.reading.service, ext := none, mark := some .timeout }]
            counters := { s.pairing.counters with timedOut := bump s.pairing.counters.timedOut } } })

/-- The pairing table never holds more than 16 pairings nor two for one meter, and with the hearings that wait at most 17:
every step keeps it. -/
def Obligations.PairingStaysBounded : Prop :=
  ∀ s t : State, PairingBounded s → step s = .next t → PairingBounded t

/-! ## Matcher and screening -/

/-- A ready builder lets the matcher take the head hearing; these cases make no record: no route running (NO_ROUTE), a
foreign meter under IGNORE, another family than the entry's, a HOLD entry, and a duplicate. -/
def Obligations.HearingsWithoutARecord : Prop :=
  ∀ (s : State) (h : Hearing) (rest : List Hearing), Running s → Settled s → s.pairing.hearings = h :: rest →
    s.builder.held = [] → s.builder.limitFlag = false →
    let base : State := { s with pairing := { s.pairing with hearings := rest } }
    let m := s.matcher
    let touched (e : Entry) : Entry :=
      { e with heardCount := min (e.heardCount + 1) 255, bestRssi := max e.bestRssi h.rssi }
    (s.route.state ≠ .running → s.route.state ≠ .ending →
      exec .matcherTakeHearing s = .next { base with matcher := { m with noRoute := bump m.noRoute } })
    ∧ (s.route.state = .running ∨ s.route.state = .ending →
      ((∀ e ∈ s.book, e.meterId ≠ h.meterId) → s.route.policy = .ignore →
        exec .matcherTakeHearing s = .next { base with matcher := { m with foreignSeen := bump m.foreignSeen } })
      ∧ (∀ pre e post, s.book = pre ++ e :: post → e.meterId = h.meterId →
        (∀ x ∈ pre ++ post, x.meterId ≠ h.meterId) →
        (e.familyIndex ≠ h.familyIndex →
          exec .matcherTakeHearing s = .next { base with
            matcher := { m with familyMismatch := bump m.familyMismatch } })
        ∧ (e.familyIndex = h.familyIndex → e.options.getLsbD 1 = true → e.heardCount ≤ 255 →
          exec .matcherTakeHearing s = .next { base with
            book := pre ++ touched e :: post
            matcher := { m with held := bump m.held }
            route := { s.route with heldHearings := bump s.route.heldHearings } })
        ∧ (e.familyIndex = h.familyIndex → e.options.getLsbD 1 = false → e.heardCount ≤ 255 →
          (e.hearing = .heard ∨ e.hearing = .late) →
          (∃ c, e.current = some c ∧ c.register = h.register ∧ c.flags = h.flags ∧ c.ext = h.ext) →
          exec .matcherTakeHearing s = .next { base with
            book := pre ++ touched e :: post, matcher := { m with duplicate := bump m.duplicate } })))

/-- The first hearing of an UNHEARD member, and the late hearing of a MISSED one: the entry's day fields, the segment's
counts, last-heard time and activation, the screening counters, and a READING with, when the decision is yes, an ALERT
that refers to it. The READING of a late hearing carries LATE and its ALERT does not (log entry 26, DEDUCED); a segment
deadline that has passed already waits for its own command (log entry 4, DEDUCED). What `screen` gives is spelled out by
ScreeningFollowsItsStages. -/
def Obligations.FirstAndLateHearings : Prop :=
  ∀ (s : State) (h : Hearing) (rest : List Hearing) (p : Profile) (pre post : List Entry) (e : Entry) (g : Segment),
    Running s → s.pairing.hearings = h :: rest → s.builder.held = [] → s.builder.limitFlag = false →
    (s.route.state = .running ∨ s.route.state = .ending) → s.book = pre ++ e :: post → e.meterId = h.meterId →
    (∀ x ∈ pre ++ post, x.meterId ≠ h.meterId) → e.familyIndex = h.familyIndex → e.options.getLsbD 1 = false →
    s.families[h.familyIndex] = some p → s.segments[e.segment]? = some g →
    let late := decide (e.hearing = .missed)
    let hour := min (s.route.startHour + h.timeTag / 3600000) 16777215
    let r := screen s.rules p hour e.reference none h
    let threshold := if e.options.getLsbD 0 then s.rules.watchThreshold else s.rules.alertThreshold
    let alert := decide (threshold ≤ r.score) && decide (r.conditions &&& ~~~e.alerted ≠ 0)
    let n := s.builder.nextNumber
    let heard : Entry := { e with
      hearing := if late then .late else .heard
      heardCount := bumpTo 255 e.heardCount
      current := some { register := h.register, flags := h.flags, ext := h.ext, timeTag := h.timeTag }
      bestRssi := max e.bestRssi h.rssi
      reported := some { register := h.register, flags := h.flags, conditions := r.conditions }
      recordNumber := some n
      dayMaxScore := max e.dayMaxScore r.score
      alerted := if alert then e.alerted ||| r.conditions else e.alerted }
    let lastHeard := some (match g.lastHeard with | some t => max t h.timeTag | none => h.timeTag)
    let counted : Segment :=
      if late then { g with missed := g.missed - 1, late := g.late + 1, lastHeard := lastHeard }
      else if g.state = .pending then
        { g with unheard := g.unheard - 1, heard := g.heard + 1, state := .active, activation := some h.timeTag,
                 lastHeard := some h.timeTag }
      else { g with unheard := g.unheard - 1, heard := g.heard + 1, lastHeard := lastHeard }
    let marks := markOfPair h.mark ||| markOfScreen r.mark
    let reading : Draft :=
      { body := .reading
          { meterId := e.meterId, familyCode := e.familyCode, segment := e.segment, register := h.register,
            flags := h.flags, conditions := r.conditions, score := r.score, bestRssi := max e.bestRssi h.rssi,
            lane := h.lane, advance := r.advance, rate := r.rate, reverseAmount := r.reverseAmount, ext := h.ext,
            serviceCode := h.service.map (·.code) }
        timeTag := h.timeTag
        marks := if late then marks ||| BitVec.twoPow 8 0 else marks
        liveForced := e.options.getLsbD 0 || e.options.getLsbD 2 }
    let alerting : Draft :=
      { body := .alert h.meterId r.conditions r.score threshold (some n), timeTag := h.timeTag, marks := marks,
        liveForced := false }
    (e.hearing = .unheard ∨ e.hearing = .missed) →
    exec .matcherTakeHearing s = .next (kickTrunk (takeGroup { s with
      pairing := { s.pairing with hearings := rest }
      book := pre ++ heard :: post
      segments := s.segments.set e.segment (recompute counted)
      screening := { s.screening with
        screenedBook := bump s.screening.screenedBook
        alertCreated := if alert then bump s.screening.alertCreated else s.screening.alertCreated
        alertRepeated :=
          if threshold ≤ r.score ∧ r.conditions &&& ~~~e.alerted = 0 then bump s.screening.alertRepeated
          else s.screening.alertRepeated
        rateSaturated := if r.saturated then bump s.screening.rateSaturated else s.screening.rateSaturated } }
      (if alert then [reading, alerting] else [reading])))

/-- The revision triggers: forward advance of at least the revision step, other flags than reported, a condition not
reported, or DISAGREE. -/
def Obligations.RevisionTriggers : Prop :=
  ∀ (p : Profile) (h : Hearing) (r : Screening) (rep : ReportedFields),
    h.register < 10 ^ p.digits → rep.register < 10 ^ p.digits →
    (revisionTrigger p h r rep = true ↔
      ((rep.register ≤ h.register ∧ p.revisionStep ≤ h.register - rep.register)
        ∨ (h.register < rep.register ∧ rep.register - h.register ≤ p.reverseTolerance ∧ p.revisionStep = 0)
        ∨ (h.register < rep.register ∧ p.reverseTolerance < rep.register - h.register
            ∧ (p.revisionStep : Int) ≤ (h.register : Int) + 10 ^ p.digits - rep.register))
      ∨ h.flags ≠ rep.flags
      ∨ (∃ k, k < 14 ∧ r.conditions.getLsbD k = true ∧ rep.conditions.getLsbD k = false)
      ∨ r.conditions.getLsbD 4 = true)

/-- A later hearing that is no duplicate is screened against the reference and the current reading (ScreeningFollowsItsStages
spells `screen` out). With a trigger and fewer than 15 revisions it makes a REVISION of the entry's READING, and otherwise
it is absorbed; REVISION_CAP counts where the cap alone stopped it. -/
def Obligations.LaterHearingsReviseOrAreAbsorbed : Prop :=
  ∀ (s : State) (h : Hearing) (rest : List Hearing) (p : Profile) (pre post : List Entry) (e : Entry)
    (c : CurrentFields) (rep : ReportedFields) (first : Nat),
    Running s → s.pairing.hearings = h :: rest → s.builder.held = [] → s.builder.limitFlag = false →
    (s.route.state = .running ∨ s.route.state = .ending) → s.book = pre ++ e :: post → e.meterId = h.meterId →
    (∀ x ∈ pre ++ post, x.meterId ≠ h.meterId) → e.familyIndex = h.familyIndex → e.options.getLsbD 1 = false →
    s.families[h.familyIndex] = some p → (e.hearing = .heard ∨ e.hearing = .late) → e.current = some c →
    (c.register ≠ h.register ∨ c.flags ≠ h.flags ∨ c.ext ≠ h.ext) → e.reported = some rep →
    e.recordNumber = some first →
    let hour := min (s.route.startHour + h.timeTag / 3600000) 16777215
    let r := screen s.rules p hour e.reference (some c) h
    let threshold := if e.options.getLsbD 0 then s.rules.watchThreshold else s.rules.alertThreshold
    let alert := decide (threshold ≤ r.score) && decide (r.conditions &&& ~~~e.alerted ≠ 0)
    let trigger := revisionTrigger p h r rep
    let revises := trigger && decide (e.revisions < 15)
    let marks := markOfPair h.mark ||| markOfScreen r.mark
    let heard : Entry := { e with
      heardCount := bumpTo 255 e.heardCount
      current := some { register := h.register, flags := h.flags, ext := h.ext, timeTag := h.timeTag }
      bestRssi := max e.bestRssi h.rssi
      reported :=
        if revises then some { register := h.register, flags := h.flags, conditions := r.conditions } else e.reported
      revisions := if revises then e.revisions + 1 else e.revisions
      dayMaxScore := max e.dayMaxScore r.score
      alerted := if alert then e.alerted ||| r.conditions else e.alerted }
    let revision : Draft :=
      { body := .revision
          { meterId := e.meterId, familyCode := e.familyCode, segment := e.segment, register := h.register,
            flags := h.flags, conditions := r.conditions, score := r.score, bestRssi := max e.bestRssi h.rssi,
            lane := h.lane, advance := r.advance, rate := r.rate, reverseAmount := r.reverseAmount, ext := h.ext,
            serviceCode := h.service.map (·.code) } first
        timeTag := h.timeTag, marks := marks, liveForced := e.options.getLsbD 0 || e.options.getLsbD 2 }
    let alerting : Draft :=
      { body := .alert h.meterId r.conditions r.score threshold
          (if revises then some s.builder.nextNumber else none)
        timeTag := h.timeTag, marks := marks, liveForced := false }
    exec .matcherTakeHearing s = .next (kickTrunk (takeGroup { s with
      pairing := { s.pairing with hearings := rest }
      book := pre ++ heard :: post
      matcher := { s.matcher with
        absorbed := if revises then s.matcher.absorbed else bump s.matcher.absorbed
        revisionCap := if trigger && !revises then bump s.matcher.revisionCap else s.matcher.revisionCap }
      screening := { s.screening with
        screenedBook := bump s.screening.screenedBook
        alertCreated := if alert then bump s.screening.alertCreated else s.screening.alertCreated
        alertRepeated :=
          if threshold ≤ r.score ∧ r.conditions &&& ~~~e.alerted = 0 then bump s.screening.alertRepeated
          else s.screening.alertRepeated
        rateSaturated := if r.saturated then bump s.screening.rateSaturated else s.screening.rateSaturated } }
      ((if revises then [revision] else []) ++ (if alert then [alerting] else []))))

/-- A foreign meter under FIRST or CHANGES: a new one, and one that changed its register or flags, is screened without a
reference and put at the newest place of the cache, with a FOREIGN record (under FIRST only for a new one) and an ALERT
when the decision is yes; one that changed nothing is only moved to the newest place. -/
def Obligations.ForeignMetersAreCachedAndRecorded : Prop :=
  ∀ (s : State) (h : Hearing) (rest : List Hearing) (p : Profile), Running s → s.pairing.hearings = h :: rest →
    s.builder.held = [] → s.builder.limitFlag = false → (s.route.state = .running ∨ s.route.state = .ending) →
    (∀ x ∈ s.book, x.meterId ≠ h.meterId) → s.route.policy ≠ .ignore → s.families[h.familyIndex] = some p →
    let r := screen s.rules p 0 none none h
    let threshold := s.rules.alertThreshold
    let alert (a : Conditions) := decide (threshold ≤ r.score) && decide (r.conditions &&& ~~~a ≠ 0)
    let newest (f : ForeignEntry) : List ForeignEntry :=
      let others := s.matcher.cache.filter (fun c => decide (c.meterId ≠ h.meterId))
      (if others.length < 64 then others else others.drop 1) ++ [f]
    let marks := markOfPair h.mark ||| markOfScreen r.mark
    let record : Draft :=
      { body := .foreign h.meterId h.familyCode h.register h.flags r.conditions r.score h.rssi, timeTag := h.timeTag,
        marks := marks, liveForced := false }
    let alerting (reference : Option Nat) : Draft :=
      { body := .alert h.meterId r.conditions r.score threshold reference, timeTag := h.timeTag, marks := marks,
        liveForced := false }
    let screened (a : Conditions) (creates : Bool) : State := takeGroup { s with
      pairing := { s.pairing with hearings := rest }
      matcher := { s.matcher with
        foreignSeen := bump s.matcher.foreignSeen
        cache := newest
          { meterId := h.meterId, register := h.register, flags := h.flags,
            alerted := if alert a then a ||| r.conditions else a } }
      screening := { s.screening with
        screenedForeign := bump s.screening.screenedForeign
        alertCreated := if alert a then bump s.screening.alertCreated else s.screening.alertCreated
        alertRepeated :=
          if threshold ≤ r.score ∧ r.conditions &&& ~~~a = 0 then bump s.screening.alertRepeated
          else s.screening.alertRepeated
        rateSaturated := if r.saturated then bump s.screening.rateSaturated else s.screening.rateSaturated } }
      ((if creates then [record] else [])
        ++ (if alert a then [alerting (if creates then some s.builder.nextNumber else none)] else []))
    ((∀ c ∈ s.matcher.cache, c.meterId ≠ h.meterId) →
      exec .matcherTakeHearing s = .next (kickTrunk (screened 0 true)))
    ∧ (∀ pre c post, s.matcher.cache = pre ++ c :: post → c.meterId = h.meterId →
      (∀ x ∈ pre, x.meterId ≠ h.meterId) →
      (c.register = h.register → c.flags = h.flags →
        exec .matcherTakeHearing s = .next (kickTrunk { s with
          pairing := { s.pairing with hearings := rest }
          matcher := { s.matcher with foreignSeen := bump s.matcher.foreignSeen, cache := newest c } }))
      ∧ (c.register ≠ h.register ∨ c.flags ≠ h.flags →
        exec .matcherTakeHearing s = .next (kickTrunk (screened c.alerted (decide (s.route.policy = .changes))))))

/-- The screening of a hearing, stage by stage. Stage 2 over the signed difference of the two readings: forward, a drop
within T_rev, and beyond it a plausible rollover or a reverse. Stages 1 and 3 to 5 against a reference: the elapsed hours,
the rate and its saturation, REVERSE, EXCESS, STAGNANT and CLOCK_SKEW, none of which a hearing without a reference has.
Stage 6 against the current reading: DISAGREE. Stages 7 to 9: the meter flags, the extension fields, and SERVICE. The
score: the sum of the weights of the conditions present, SERVICE with its entry's own weight under WEIGHT, at most 255. -/
def Obligations.ScreeningFollowsItsStages : Prop :=
  (∀ (p : Profile) (elapsed : Option Nat) (new ref : Nat), new < 10 ^ p.digits → ref < 10 ^ p.digits →
      let d : Int := (new : Int) - ref
      let w : Int := d + 10 ^ p.digits
      let a := advanceOf p elapsed new ref
      let plausible := ∃ e, elapsed = some e ∧ w * 16 ≤ e * p.highRate
      (0 ≤ d → (a.amount : Int) = d ∧ a.mark = none ∧ a.reverse = none)
      ∧ (d < 0 → -d ≤ p.reverseTolerance → a.amount = 0 ∧ a.mark = some .minorReverse ∧ a.reverse = none)
      ∧ (d < 0 → (p.reverseTolerance : Int) < -d →
        (plausible → (a.amount : Int) = w ∧ a.mark = some .rollover ∧ a.reverse = none)
        ∧ (¬ plausible → a.amount = 0 ∧ a.mark = none ∧ ∃ v, a.reverse = some v ∧ (v : Int) = -d)))
  ∧ (∀ (rules : RuleSet) (p : Profile) (hour : Nat) (ref : Option Reference) (cur : Option CurrentFields) (h : Hearing),
      let r := screen rules p hour ref cur h
      let has (k : Nat) : Prop := r.conditions.getLsbD k = true
      (∀ x, ref = some x →
        let elapsed := if hour < x.hour then none else some (max 1 (hour - x.hour))
        let a := advanceOf p elapsed h.register x.reading
        r.advance = some a.amount ∧ r.mark = a.mark ∧ r.reverseAmount = a.reverse
        ∧ r.rate = elapsed.map (fun e => min (a.amount * 16 / e) 16777215)
        ∧ (r.saturated = true ↔ ∃ e, elapsed = some e ∧ 16777215 < a.amount * 16 / e)
        ∧ (has 0 ↔ ∃ v, a.reverse = some v)
        ∧ (has 1 ↔ ∃ q, r.rate = some q ∧ p.highRate < q)
        ∧ (has 2 ↔ 0 < p.stagnationHours ∧ a.amount = 0 ∧ a.reverse = none
            ∧ ∃ e, elapsed = some e ∧ p.stagnationHours ≤ e)
        ∧ (has 3 ↔ hour < x.hour))
      ∧ (ref = none →
        r.advance = none ∧ r.mark = none ∧ r.reverseAmount = none ∧ r.rate = none ∧ r.saturated = false
        ∧ ∀ k < 4, ¬ has k)
      ∧ (has 4 ↔ ∃ c, cur = some c ∧ h.register < c.register ∧ p.reverseTolerance < c.register - h.register
          ∧ (max 1 ((h.timeTag - c.timeTag) / 3600000) : Int) * p.highRate
              < ((h.register : Int) + 10 ^ p.digits - c.register) * 16)
      ∧ (∀ k < 6, has (5 + k) ↔ h.flags.getLsbD k = true)
      ∧ (has 11 ↔ ∃ x, h.ext = some x ∧ 0 < x.tamperCount)
      ∧ (has 12 ↔ ∃ x, h.ext = some x ∧ 0 < x.reverseVolume)
      ∧ (has 13 ↔ ∃ x, h.service = some x)
      ∧ (∀ w : Nat → Nat,
        (∀ n v, h.service = some ⟨n, .weight v⟩ → w 13 = v) →
        ((∀ n v, h.service ≠ some ⟨n, .weight v⟩) → w 13 = rules.service) →
        [w 0, w 1, w 2, w 3, w 4, w 5, w 6, w 7, w 8, w 9, w 10, w 11, w 12] =
          [rules.reverse, rules.excess, rules.stagnant, rules.clockSkew, rules.disagree, rules.magnet, rules.tilt,
           rules.cover, rules.meterReverse, rules.leak, rules.lowbat, rules.history, rules.extReverse] →
        r.score = min 255 (((List.range 14).filter (fun k => r.conditions.getLsbD k)).map w).sum))

/-! ## Records -/

/-- A ready builder gives a record the next number, its class by the routing row and the route id, counts it, and makes
its live copy before it passes it on; the number 4,294,967,295 raises RECORD_NUMBER_LIMIT and sets the flag. Passed on, the
record joins the append queue where no record is held and there is room, and a free port grants; it is held by the builder
otherwise; in HALTED it is refused at the taking. A group is taken record by record, each with the next number; what is
left of it after the last number gets none (log entry 6, DEDUCED). BUILDER_PASS_RECORD: the first held record alone (log
entry 27, DEDUCED) joins the append queue when it has room and a free port grants, or is refused in HALTED; with a full
queue it stays (log entry 1, DESIGN CHOICE). -/
def Obligations.BuilderNumbersAndPassesRecords : Prop :=
  (∀ (s : State) (d : Draft) (more : List Draft) (row : RoutingRow), s.builder.limitFlag = false →
      row = routingRow s.routing (kindOf d.body) →
      let n := s.builder.nextNumber
      let r : Record :=
        { head := { number := n, kind := kindOf d.body, cls := row.cls, routeId := s.route.id, timeTag := d.timeTag,
                    marks := d.marks }
          body := d.body }
      let created := bumpCreated s.builder.created (kindOf d.body)
      let t : State :=
        if n < 4294967295 then { s with builder := { s.builder with nextNumber := n + 1, created := created } }
        else raiseFault { s with builder := { s.builder with limitFlag := true, created := created } } .recordNumberLimit
          s.route.id
      let u : State :=
        if row.live = true ∨ d.liveForced = true then
          pushLive t { record := r, priority := d.liveForced || decide (kindOf d.body = .alert) }
        else t
      (s.store.state = .halted →
        takeGroup s [d] = { u with
          store := { s.store with refusedHalted := min (s.store.refusedHalted + 1) 4294967295 } })
      ∧ (s.store.state = .normal → s.builder.held = [] → s.store.appendQueue.length < 32 →
        takeGroup s [d] = grantPort { u with store := { s.store with appendQueue := s.store.appendQueue ++ [r] } })
      ∧ (s.store.state = .normal → (s.builder.held ≠ [] ∨ 32 ≤ s.store.appendQueue.length) →
        takeGroup s [d] = { u with builder := { u.builder with held := s.builder.held ++ [r] } })
      ∧ (n < 4294967295 →
        takeGroup s (d :: more) = takeGroup (takeGroup s [d]) more ∧ (takeGroup s [d]).builder.nextNumber = n + 1
          ∧ (takeGroup s [d]).builder.limitFlag = false)
      ∧ (4294967295 ≤ n → takeGroup s (d :: more) = takeGroup s [d]))
  ∧ (∀ (s : State) (r : Record) (rest : List Record), Running s → Settled s → s.builder.held = r :: rest →
      let t : State := { s with builder := { s.builder with held := rest } }
      (s.store.state = .halted →
        exec .builderPassRecord s = .next { t with
          store := { s.store with refusedHalted := min (s.store.refusedHalted + 1) 4294967295 } })
      ∧ (s.store.state = .normal → s.store.appendQueue.length < 32 →
        exec .builderPassRecord s =
          .next (kickTrunk (grantPort { t with store := { s.store with appendQueue := s.store.appendQueue ++ [r] } })))
      ∧ (s.store.state = .normal → 32 ≤ s.store.appendQueue.length → exec .builderPassRecord s = .next s))

/-- What a free port grants. In NORMAL the head of the append queue is judged against its class: with quota 0, or full
under LINEAR, it is refused as FULL; below its quota it takes the lowest-numbered free slot and its write begins; full
under RING it overwrites the class's oldest record where that is STORED, and is refused as IN_FLIGHT where it is not. A
refusal is counted and, with CLASS_FULL armed, sends that event and clears the flag; the next record is judged at once.
With no record to judge, or in HALTED, the port grants the waiting read of the batch in READING; a port that serves an
access grants nothing. -/
def Obligations.FreePortJudgesTheAppendQueueAndGrants : Prop :=
  (∀ (s : State) (r : Record) (rest : List Record), s.store.port = none → s.store.state = .normal →
      s.store.appendQueue = r :: rest →
      let c := r.head.cls
      let k := s.store.classes[c]
      let full := k.quota ≤ s.store.index.countP (fun x => decide (x.head.cls = c))
      let lowestFree (index : List StoreRecord) (slot : Nat) : Prop :=
        (∀ x ∈ index, x.slot ≠ slot) ∧ ∀ j < slot, ∃ x ∈ index, x.slot = j
      let refused (cause : Nat) (counted : StoreClass) : State := { s with
        store := { s.store with
          appendQueue := rest, classes := s.store.classes.set c { counted with fullArmed := false } }
        events :=
          if k.fullArmed then
            postEvent s.events
              { kind := .classFull, timeTag := s.clock.value, parameter := r.head.number, detail := c.val * 16 + cause }
          else s.events }
      (k.quota = 0 ∨ (full ∧ k.policy = .linear) →
        grantPort s = grantPort (refused 0 { k with refusedFull := bump k.refusedFull }))
      ∧ (¬ full → ∀ slot, lowestFree s.store.index slot →
        grantPort s = { s with store := { s.store with appendQueue := rest, port := some (.write r slot) } })
      ∧ (0 < k.quota → full → k.policy = .ring → ∀ pre x post, s.store.index = pre ++ x :: post → x.head.cls = c →
        (∀ y ∈ pre, y.head.cls ≠ c) →
        (x.state = .inFlight →
          grantPort s = grantPort (refused 1 { k with refusedInFlight := bump k.refusedInFlight }))
        ∧ (x.state = .stored → (∀ y ∈ pre ++ post, y.head.number ≠ x.head.number) →
          ∀ slot, lowestFree (pre ++ post) slot →
          grantPort s = { s with
            store := { s.store with
              index := pre ++ post, appendQueue := rest, port := some (.write r slot),
              classes := s.store.classes.set c { k with overwritten := bump k.overwritten } } })))
  ∧ (∀ s : State, s.store.port = none → (s.store.appendQueue = [] ∨ s.store.state = .halted) →
      ((∀ b ∈ s.uploader.batches, b.stage ≠ .reading) → grantPort s = s)
      ∧ (∀ pre b post n, s.uploader.batches = pre ++ b :: post → (∀ x ∈ pre, x.stage ≠ .reading) → b.stage = .reading →
        b.records[b.copies.length]? = some n →
        grantPort s = { s with store := { s.store with port := some (.read n (some b.number)) } }))
  ∧ (∀ s : State, s.store.port ≠ none → grantPort s = s)

/-- A copy that reaches the live queue: it joins the tail, or a full queue loses its oldest ordinary copy to a priority
one, or the new copy is dropped; a loss is counted and, with the flag armed, sends LIVE_DROP. -/
def Obligations.LiveQueueArrivals : Prop :=
  ∀ (s : State) (c : LiveCopy),
    let q := s.live.queue
    let lost (queue : List LiveCopy) (number detail : Nat) : State := { s with
      live := { s.live with queue := queue, dropped := bump s.live.dropped, dropArmed := false }
      events :=
        if s.live.dropArmed then
          postEvent s.events { kind := .liveDrop, timeTag := s.clock.value, parameter := number, detail := detail }
        else s.events }
    (q.length < 128 → pushLive s c = { s with live := { s.live with queue := q ++ [c] } })
    ∧ (128 ≤ q.length →
      (c.priority = false ∨ (∀ x ∈ q, x.priority = true) → pushLive s c = lost q c.record.head.number 1)
      ∧ (c.priority = true → ∀ pre x post, q = pre ++ x :: post → (∀ y ∈ pre, y.priority = true) →
        x.priority = false → pushLive s c = lost (pre ++ post ++ [c]) x.record.head.number 0))

/-! ## Segments and the end of the route -/

/-- A segment's deadline as its fields give it: only ACTIVE with auto-close on has one, the later of the quiet time after
the last hearing and the min dwell after the activation, or the min dwell alone with no member unheard. An ACTIVE segment
whose close deadline the route clock has reached starts its close: CLOSING with the deadline's reason, no deadline, and the
walk at its first entry in book order, absent with no entries (log entry 12, DESIGN CHOICE). Before the deadline the
command changes nothing (log entry 1, DESIGN CHOICE). -/
def Obligations.SegmentDeadlineAndItsExpiry : Prop :=
  (∀ g : Segment,
      let dwell (a : Nat) := a + g.minDwell * 1000
      (g.state ≠ .active ∨ g.autoClose = false → recompute g = { g with deadline := none, deadlineReason := none })
      ∧ (∀ a h, g.state = .active → g.autoClose = true → g.activation = some a → g.lastHeard = some h →
        (0 < g.unheard →
          recompute g = { g with
            deadline := some (max (h + g.quietTime * 1000) (dwell a)), deadlineReason := some .auto })
        ∧ (g.unheard = 0 → recompute g = { g with deadline := some (dwell a), deadlineReason := some .complete })))
  ∧ (∀ (s : State) (n d : Nat) (g : Segment) (reason : CloseReason), Running s → s.segments[n]? = some g →
      g.state = .active → g.deadline = some d → g.deadlineReason = some reason →
      (d ≤ s.clock.value →
        exec (.segmentDeadlineExpiry n) s = .next { s with
          segments := s.segments.set n { g with
            state := .closing, closeReason := some reason, deadline := none, deadlineReason := none,
            walkPosition := s.book.findIdx? (fun e => decide (e.segment = n)), waiting := none } })
      ∧ (s.clock.value < d → exec (.segmentDeadlineExpiry n) s = .next s))

/-- A visit of the close walk: an UNHEARD member becomes MISSED at once, whose MISSED record a ready builder takes as the
walk moves on and otherwise waits in the segment (log entry 13, DEDUCED); any other entry is passed over. A walk that has
visited its last entry, coded as an absent walk position (log entry 12, DESIGN CHOICE), ends when the builder is ready: the
segment is CLOSED, its SEGMENT record is taken with the counts of that moment, and SEGMENT_CLOSED is sent, after the
events of the record (log entry 21, DEDUCED). While the builder is not ready a visit with a waiting record and the end of
the close change nothing (log entry 1, DESIGN CHOICE). -/
def Obligations.CloseWalkVisitsItsEntriesAndEnds : Prop :=
  (∀ (s : State) (n p : Nat) (g : Segment), Running s → Settled s → s.segments[n]? = some g → g.state = .closing →
      g.walkPosition = some p →
      let onward := (List.range s.book.length).find? (fun q =>
        decide (p < q) && decide ((s.book[q]?.map (·.segment)) = some n))
      let ready := s.builder.held = [] ∧ s.builder.limitFlag = false
      let missed (w : WaitingMissed) : Draft :=
        { body := .missed w.meterId n w.pass, timeTag := w.timeTag, marks := 0, liveForced := false }
      (∀ w, g.waiting = some w →
        (ready → exec (.closeWalkVisit n) s = .next (kickTrunk (takeGroup { s with
          segments := s.segments.set n { g with walkPosition := onward, waiting := none } } [missed w])))
        ∧ (¬ ready → exec (.closeWalkVisit n) s = .next s))
      ∧ (∀ e, g.waiting = none → s.book[p]? = some e → e.segment = n →
        (e.options.getLsbD 1 = true ∨ e.hearing ≠ .unheard →
          exec (.closeWalkVisit n) s = .next { s with
            segments := s.segments.set n { g with walkPosition := onward, waiting := none } })
        ∧ (e.options.getLsbD 1 = false → e.hearing = .unheard →
          let w : WaitingMissed := { meterId := e.meterId, pass := g.pass, timeTag := s.clock.value }
          let counted : Segment :=
            { g with unheard := g.unheard - 1, missed := g.missed + 1, deadline := none, deadlineReason := none }
          let book := s.book.set p { e with hearing := .missed }
          (ready → exec (.closeWalkVisit n) s = .next (kickTrunk (takeGroup { s with
            book := book, segments := s.segments.set n { counted with walkPosition := onward, waiting := none } }
            [missed w])))
          ∧ (¬ ready → exec (.closeWalkVisit n) s = .next { s with
            book := book, segments := s.segments.set n { counted with waiting := some w } }))))
  ∧ (∀ (s : State) (n : Nat) (g : Segment) (reason : CloseReason), Running s → s.segments[n]? = some g →
      g.state = .closing → g.walkPosition = none → g.closeReason = some reason → s.builder.held = [] →
      s.builder.limitFlag = false →
      exec (.closeEnd n) s = .next (kickTrunk (raiseEvent
        (takeGroup { s with segments := s.segments.set n { g with state := .closed } }
          [{ body := .segment n g.pass g.member g.heard g.missed g.late reason g.activation s.clock.value
             timeTag := s.clock.value, marks := 0, liveForced := false }])
        .segmentClosed (n * 65536 + g.missed) (g.pass * 16 + closeReasonCode reason))))
  ∧ (∀ (s : State) (n : Nat), Running s → Settled s → (s.builder.held ≠ [] ∨ s.builder.limitFlag = true) →
      exec (.closeEnd n) s = .next s)

/-- In ENDING with every segment CLOSED, a ready builder takes the ROUTE record with phase END, the route clock stops, and
the route state becomes ENDED with its ROUTE_STATE event, after the events of the record (log entry 21, DEDUCED). The fault
CLOCK_LIMIT is raised once for a route when its running clock stands at 4,294,967,295; the command again changes nothing
(log entry 1, DESIGN CHOICE). -/
def Obligations.RouteEndAndClockLimit : Prop :=
  (∀ s : State, Running s → s.route.state = .ending → (∀ g ∈ s.segments, g.state = .closed) → s.builder.held = [] →
      s.builder.limitFlag = false →
      let members (x : HearingState) : Nat :=
        s.book.countP (fun e => !e.options.getLsbD 1 && decide (e.hearing = x))
      let t := takeGroup s
        [{ body := .routeEnd (members .heard) (members .missed) (members .late) s.route.heldHearings
           timeTag := s.clock.value, marks := 0, liveForced := false }]
      exec .routeEndRecord s = .next (kickTrunk (raiseEvent { t with
        clock := { s.clock with running := false }, route := { s.route with state := .ended } }
        .routeState s.route.id 5)))
  ∧ (∀ s : State, Running s → Settled s →
      (s.clock.running = true → s.clock.value = 4294967295 → s.route.clockLimitRaised = false →
        exec .routeClockLimit s = .next (kickTrunk (raiseFault { s with
          route := { s.route with clockLimitRaised := true } } .clockLimit s.route.id)))
      ∧ (s.route.clockLimitRaised = true → exec .routeClockLimit s = .next s))

/-! ## Record store and record memory -/

/-- A write that completes OK makes the record a STORED store record, the newest of its class, with its encoding in its
slot (R188, section 11.1), and clears the write-failure streak. One that completes FAIL loses the record with
RECORD_WRITE_FAIL; its class's CLASS_FULL may be armed again; at the fourth failure in a row STORE_HALT is raised, the
store is HALTED and the append queue is refused. That the bytes land at OK and a FAIL leaves the memory as it was is the
model's choice (log entry 14, DESIGN CHOICE), as is the order of the two faults' events (log entry 21, DEDUCED). -/
def Obligations.WriteCompletionStoresOrLosesTheRecord : Prop :=
  (∀ (s : State) (r : Record) (slot : Nat), Running s → s.store.port = some (.write r slot) →
      let c := r.head.cls
      exec (.writeCompletion true) s = .next (kickBoth (settleStore { s with
        memory := writeSlot s.memory slot (encodeRecord r)
        store := { s.store with
          index := s.store.index ++
            [{ head := r.head, slot := slot, length := (encodeRecord r).length, state := .stored }]
          port := none
          failStreak := 0
          classes := s.store.classes.set c { s.store.classes[c] with appended := bump s.store.classes[c].appended } } })))
  ∧ (∀ (s : State) (r : Record) (slot : Nat), Running s → s.store.port = some (.write r slot) → s.store.state = .normal →
      s.store.failStreak < 4 →
      let c := r.head.cls
      let k := s.store.classes[c]
      let count := s.store.index.countP (fun x => decide (x.head.cls = c))
      let lost (streak : Nat) : State := raiseFault { s with
        store := { s.store with
          port := none, writeFail := bump s.store.writeFail, failStreak := streak,
          classes := if count * 8 < k.quota * 7 then s.store.classes.set c { k with fullArmed := true }
            else s.store.classes } } .recordWriteFail r.head.number
      (s.store.failStreak < 3 →
        exec (.writeCompletion false) s = .next (kickBoth (settleStore (lost (s.store.failStreak + 1)))))
      ∧ (s.store.failStreak = 3 →
        let halted := raiseFault (lost 4) .storeHalt c.val
        exec (.writeCompletion false) s = .next (kickBoth (settleStore { halted with
          store := { halted.store with
            state := .halted, appendQueue := [],
            refusedHalted := min (s.store.refusedHalted + s.store.appendQueue.length) 4294967295 } }))))

/-- A read that ends frees the port and gives the batch that asked for it the record's encoding as the slot holds it, or
with UNCORRECTABLE its head marked DAMAGED, counted and with the fault RECORD_READ_FAIL; the last copy makes the batch
READY. A read whose batch has ended gives its copy to nobody, and an UNCORRECTABLE one is counted and raises
RECORD_READ_FAIL all the same. -/
def Obligations.ReadCompletionGivesTheBatchItsCopy : Prop :=
  (∀ (s : State) (number : Nat) (x : StoreRecord) (pre post : List Batch) (b : Batch), Running s →
    s.store.port = some (.read number (some b.number)) → s.uploader.batches = pre ++ b :: post →
    (∀ y ∈ pre ++ post, y.number = b.number → y.stage ≠ .reading) → b.stage = .reading →
    s.store.index.find? (fun y => decide (y.head.number = number)) = some x →
    let given (copy : List Byte) : Batch :=
      { b with
        copies := b.copies ++ [copy]
        stage := if b.copies.length + 1 = b.records.length then .ready else .reading }
    let u (copy : List Byte) : Uploader := { s.uploader with batches := pre ++ given copy :: post }
    exec (.readCompletion true) s = .next (kickBoth (settleStore { s with
      store := { s.store with port := none }, uploader := u (readSlot s.memory x.slot x.length) }))
    ∧ exec (.readCompletion false) s = .next (kickBoth (settleStore { raiseFault { s with
        store := { s.store with port := none, readFail := bump s.store.readFail } } .recordReadFail number with
      uploader := u (14 :: encodeHead { x.head with marks := x.head.marks ||| BitVec.twoPow 8 7 }) })))
  ∧ (∀ (s : State) (number : Nat), Running s → s.store.port = some (.read number none) →
    exec (.readCompletion true) s = .next (kickBoth (settleStore { s with store := { s.store with port := none } }))
    ∧ exec (.readCompletion false) s = .next (kickBoth (settleStore (raiseFault { s with
        store := { s.store with port := none, readFail := bump s.store.readFail } } .recordReadFail number))))

/-- The record memory stays in its canonical form at every step. The form is the model's, whose unlisted bytes read as 0
(log entry 14, DESIGN CHOICE). -/
def Obligations.MemoryStaysCanonical : Prop :=
  ∀ s t : State, MemoryCanonical s → step s = .next t → MemoryCanonical t

/-- Only a write completion OK changes a byte of the record memory, and then only bytes of the slot the port writes. That
a FAIL and a cold reset leave every byte as it was is the model's choice (log entry 14, DESIGN CHOICE). -/
def Obligations.OnlyAWriteChangesTheRecordMemory : Prop :=
  ∀ (c : Instr) (s t : State), exec c s = .next t →
    (∀ a, readByte t.memory a = readByte s.memory a)
    ∨ (c = .writeCompletion true ∧ ∃ r slot, s.store.port = some (.write r slot)
        ∧ ∀ a, (a < slot * 64 ∨ slot * 64 + 64 ≤ a) → readByte t.memory a = readByte s.memory a)

/-- No step takes the next record number down, but for a cold reset, and at every step, a cold reset included, it stays in
1..4,294,967,295. -/
def Obligations.RecordNumbersNeverFall : Prop :=
  ∀ s t : State, NumbersInRange s → step s = .next t →
    NumbersInRange t
    ∧ ((∀ strap rest, s.pending ≠ .coldReset strap :: rest) → s.builder.nextNumber ≤ t.builder.nextNumber)

/-- The quotas of the four classes never sum above 65,536, and no class ever holds more records than its quota, the one
under write among them: every step keeps both. -/
def Obligations.ClassesStayWithinTheirQuotas : Prop :=
  ∀ s t : State, QuotasFit s → step s = .next t → QuotasFit t

/-- The record numbers rise along the whole way from the store through the port and the append queue to the builder, below
the next record number, and a free port in NORMAL leaves no record in the append queue: every step keeps it. So do the
batches of the uploader: never more than the window, none in IDLE, and no record in two batches, the IN_FLIGHT records
being exactly those of the batches. -/
def Obligations.RecordsAndBatchesStayAccountedFor : Prop :=
  (∀ s t : State, RecordsOrdered s → step s = .next t → RecordsOrdered t)
  ∧ (∀ s t : State, RecordsOrdered s → BatchesAccounted s → step s = .next t → BatchesAccounted t)

/-- The book holds each meter once, and the counts of every segment are those of its members in the book by hearing state,
so that the four sum to the member count: every step keeps it. The entries are UNHEARD and the segments PENDING until the
route starts. -/
def Obligations.SegmentCountsAgreeWithTheBook : Prop :=
  ∀ s t : State, SegmentsCounted s → step s = .next t → SegmentsCounted t

/-- The bounded queues never grow past their places, the two reply queues among them: every step keeps it. So it keeps
every descriptor with its holder, the CLOSED ones in the close-order queue, each once, which therefore holds at most 128. -/
def Obligations.QueuesStayBounded : Prop :=
  (∀ s t : State, QueuesBounded s → step s = .next t → QueuesBounded t)
  ∧ (∀ s t : State, DescriptorsPlaced s → step s = .next t → DescriptorsPlaced t)
  ∧ (∀ s : State, DescriptorsPlaced s → s.pool.closeQueue.length ≤ 128)

/-- No step leaves a free transmitter with a frame waiting for it: while the trunk transmitter is free no reply, event or
live copy waits, and while that of a depot link that is UP is free no reply and no READY batch does. -/
def Obligations.TransmittersNeverIdleOverAFrame : Prop :=
  ∀ s t : State, Settled s → step s = .next t → Settled t

/-- The invariants hold right after a cold reset. -/
def Obligations.InvariantsHoldAtReset : Prop :=
  MemoryCanonical State.reset ∧ PairingBounded State.reset ∧ QuotasFit State.reset ∧ QueuesBounded State.reset
    ∧ DescriptorsPlaced State.reset ∧ NumbersInRange State.reset ∧ RecordsOrdered State.reset
    ∧ BatchesAccounted State.reset ∧ SegmentsCounted State.reset ∧ Settled State.reset

/-! ## Depot uploader -/

/-- select takes the oldest STORED records of the class in record-number order, as many as fit `room` and a payload of
1,400 bytes of which `used` are taken. With the five conditions of a formation, a batch is formed as the pacing slot opens:
of the class of highest upload priority, lowest number first, with the next batch number, its records IN_FLIGHT; a free
port begins its first read. -/
def Obligations.BatchIsSelectedWhenTheSlotOpens : Prop :=
  (∀ (c : Fin 4) (index : List StoreRecord) (room used : Nat),
      let all := (index.filter (fun r => decide (r.head.cls = c) && decide (r.state = .stored))).take room
      let size (m : Nat) : Nat := used + ((all.take m).map (·.length)).sum
      ∃ m ≤ all.length, selectFrom c index room used = (all.take m).map (·.head.number)
        ∧ (0 < m → size m ≤ 1400) ∧ (m < all.length → 1400 < size (m + 1)))
  ∧ (∀ (s : State) (c : Fin 4), Running s → Settled s →
      (s.store.port ≠ none ∨ s.store.appendQueue = []) → (s.uploader.state = .running) →
      s.uploader.batches.length < s.uploader.window → (∀ b ∈ s.uploader.batches, b.stage ≠ .reading) →
      0 < s.uploader.pacing →
      (∀ t, s.uploader.lastStart = some t → t * s.uploader.pacing + 1000 ≤ s.timebase * s.uploader.pacing) →
      let servable (d : Fin 4) : Prop :=
        s.uploader.classMask.getLsbD d.val = true ∧ ∃ r ∈ s.store.index, r.head.cls = d ∧ r.state = .stored
      servable c →
      (∀ d, servable d → s.store.classes[d].priority < s.store.classes[c].priority
        ∨ (s.store.classes[d].priority = s.store.classes[c].priority ∧ c ≤ d)) →
      let numbers := selectFrom c s.store.index s.uploader.batchSize 3
      let n := s.uploader.nextNumber
      exec .pacingSlotOpen s = .next { s with
        store := { s.store with
          index := s.store.index.map (fun r => if r.head.number ∈ numbers then { r with state := .inFlight } else r)
          port :=
            match s.store.port, numbers.head? with
            | some x, _ => some x
            | none, some number => some (.read number (some n))
            | none, none => none }
        uploader := { s.uploader with
          batches := s.uploader.batches ++
            [{ number := n, cls := c, records := numbers, stage := .reading, copies := [], ackDeadline := none }]
          nextNumber := if n = 255 then 0 else (n + 1) % 256
          lastStart := some s.timebase
          currentClass := some c } })

/-- The end of a depot frame: a batch frame sent whole moves its batch to WAITING with its ack deadline and counts it as
sent. Then, as after a reply, the transmitter of a link that is UP takes the next reply, else the READY batch formed
earliest, which becomes SENDING; it takes nothing while the link is DOWN. With no frame in transmission the command changes
nothing (log entry 1, DESIGN CHOICE). -/
def Obligations.DepotFrameEndStartsTheAckTimeout : Prop :=
  ∀ s : State, Running s → Settled s →
    let goesOn (u : Uploader) : Prop :=
      let t : State := { s with depot := { s.depot with tx := none }, uploader := u }
      (s.depotUp = false → exec .depotTxFrameEnd s = .next t)
      ∧ (s.depotUp = true →
        (∀ r rest, s.depot.replies = r :: rest →
          exec .depotTxFrameEnd s = .next { t with depot := { s.depot with replies := rest, tx := some (.reply r) } })
        ∧ (s.depot.replies = [] →
          (∀ pre b post, u.batches = pre ++ b :: post → (∀ x ∈ pre, x.stage ≠ .ready) → b.stage = .ready →
            exec .depotTxFrameEnd s = .next { t with
              depot := { s.depot with
                tx := some (.batch b.number (bigEndian 1 b.number ++ bigEndian 1 b.cls.val
                  ++ bigEndian 1 b.copies.length ++ b.copies.flatten)) }
              uploader := { u with batches := pre ++ { b with stage := .sending } :: post } })
          ∧ ((∀ b ∈ u.batches, b.stage ≠ .ready) → exec .depotTxFrameEnd s = .next t)))
    (∀ (b : Batch) (payload : List Byte) (pre post : List Batch), s.depot.tx = some (.batch b.number payload) →
      s.uploader.batches = pre ++ b :: post → (∀ y ∈ pre ++ post, y.number = b.number → y.stage ≠ .sending) →
      b.stage = .sending →
      goesOn { s.uploader with
        sent := bump s.uploader.sent
        batches := pre ++ { b with
          stage := .waiting, ackDeadline := some (s.timebase + s.uploader.ackTimeout) } :: post })
    ∧ (∀ r : Reply, s.depot.tx = some (.reply r) → (r.code ≠ 8 ∨ r.status ≠ .ok) → goesOn s.uploader)
    ∧ (s.depot.tx = none → exec .depotTxFrameEnd s = .next s)

/-- An ack timeout returns the batch's records, counts a timeout and a streak; at 3 the upload ends with DEPOT_SILENT, and
in DRAINING the last batch ends it with FINISHED. The deadline has passed when the timebase has reached it (log entry 25,
DEDUCED); before it the command changes nothing (log entry 1, DESIGN CHOICE). Of two batches that wait under one number the
one formed earliest is meant (log entry 31, DESIGN CHOICE); every other batch stays. -/
def Obligations.AckTimeoutReturnsTheBatch : Prop :=
  ∀ (s : State) (b : Batch) (m : Nat) (pre post : List Batch), Running s → Settled s →
    s.uploader.batches = pre ++ b :: post → (∀ y ∈ pre, y.number = b.number → y.stage ≠ .waiting) → b.stage = .waiting →
    b.ackDeadline = some m → s.uploader.streak < 3 →
    let returned (numbers : List Nat) : List StoreRecord :=
      s.store.index.map (fun r => if r.head.number ∈ numbers then { r with state := .stored } else r)
    let u : Uploader := { s.uploader with
      batches := pre ++ post, timeouts := bump s.uploader.timeouts, streak := s.uploader.streak + 1 }
    (s.timebase < m → exec (.ackTimeout b.number) s = .next s)
    ∧ (m ≤ s.timebase → s.uploader.streak < 2 →
      (s.uploader.state ≠ .draining ∨ pre ++ post ≠ [] →
        exec (.ackTimeout b.number) s = .next (kickBoth (settleStore { s with
          store := { s.store with index := returned b.records }, uploader := u })))
      ∧ (s.uploader.state = .draining → pre ++ post = [] →
        exec (.ackTimeout b.number) s = .next (kickBoth (settleStore (raiseEvent { s with
          store := { s.store with index := returned b.records }
          uploader := { u with state := .idle, lastEnd := some .finished } }
          .uploadState s.uploader.released 1)))))
    ∧ (m ≤ s.timebase → s.uploader.streak = 2 →
      exec (.ackTimeout b.number) s = .next (kickBoth (settleStore (raiseEvent { s with
        depot := { s.depot with
          tx := match s.depot.tx with
            | some (.batch _ _) => none
            | x => x }
        store := { s.store with
          index := returned (b.records ++ (pre ++ post).flatMap (·.records))
          port := match s.store.port with
            | some (.read number _) => some (.read number none)
            | x => x }
        uploader := { u with batches := [], streak := 0, state := .idle, lastEnd := some .depotSilent } }
        .uploadState s.uploader.released 3))))

/-- UPLOAD_OPEN: refused from the trunk, for an argument out of range, outside IDLE and with the link DOWN; otherwise the
settings are written, the counts of the upload become 0, and the state is RUNNING or, with pacing 0, PAUSED. UPLOAD_PACE:
the refusals, and the pacing written with the change between RUNNING and PAUSED and its event. -/
def Obligations.UploadOpenAndPace : Prop :=
  (∀ (s : State) (k : Link) (f : RequestFrame) (rest : List RequestFrame) (mask : Nat)
      (size window timeout pacing : Option Nat), Takes s k f rest (.uploadOpen mask size window timeout pacing) →
      let u := withRequests s k rest
      let bad (low high : Nat) (x : Option Nat) : Prop := ∃ v, x = some v ∧ (v < low ∨ high < v)
      let wrong := mask = 0 ∨ 15 < mask ∨ bad 1 32 size ∨ bad 1 8 window ∨ bad 100 10000 timeout ∨ bad 0 50 pacing
      let starts : UploadState := if pacing = some 0 then .paused else .running
      (k = .trunk → exec (.uploadOpen k) s = .next (replied k f .wrongLink [] u))
      ∧ (k = .depot → wrong → exec (.uploadOpen k) s = .next (replied k f .badArgument [] u))
      ∧ (k = .depot → ¬ wrong → (s.uploader.state ≠ .idle ∨ s.depotUp = false) →
        exec (.uploadOpen k) s = .next (replied k f .wrongState [] u))
      ∧ (k = .depot → ¬ wrong → s.uploader.state = .idle → s.depotUp = true →
        exec (.uploadOpen k) s = .next (replied k f .ok
          (bigEndian 3 (s.store.index.countP (fun r => mask.testBit r.head.cls.val && decide (r.state = .stored))))
          (settleStore (raiseEvent { u with
            uploader := { s.uploader with
              classMask := BitVec.ofNat 4 mask, batchSize := size.getD 16, window := window.getD 8,
              ackTimeout := timeout.getD 2000, pacing := pacing.getD 20, streak := 0, lastStart := none,
              currentClass := none, sent := 0, released := 0, timeouts := 0, state := starts } }
            .uploadState 0 (uploadStateCode starts * 16 + 15))))))
  ∧ (∀ (s : State) (k : Link) (f : RequestFrame) (rest : List RequestFrame) (pacing : Nat),
      Takes s k f rest (.uploadPace pacing) →
      let u := withRequests s k rest
      let paced (x : UploadState) : State :=
        { u with uploader := { s.uploader with pacing := pacing, state := x } }
      let changed (x : UploadState) (detail : Nat) : State :=
        raiseEvent (paced x) .uploadState s.uploader.released detail
      (k = .trunk → exec (.uploadPace k) s = .next (replied k f .wrongLink [] u))
      ∧ (k = .depot → 50 < pacing → exec (.uploadPace k) s = .next (replied k f .badArgument [] u))
      ∧ (k = .depot → pacing ≤ 50 → (s.uploader.state = .idle ∨ s.uploader.state = .draining ∨ s.depotUp = false) →
        exec (.uploadPace k) s = .next (replied k f .wrongState [] u))
      ∧ (k = .depot → pacing ≤ 50 → s.depotUp = true →
        (s.uploader.state = .running → 0 < pacing →
          exec (.uploadPace k) s = .next (replied k f .ok [1] (settleStore (paced .running))))
        ∧ (s.uploader.state = .running → pacing = 0 →
          exec (.uploadPace k) s = .next (replied k f .ok [2] (settleStore (changed .paused 47))))
        ∧ (s.uploader.state = .paused → 0 < pacing →
          exec (.uploadPace k) s = .next (replied k f .ok [1] (settleStore (changed .running 31))))
        ∧ (s.uploader.state = .paused → pacing = 0 →
          exec (.uploadPace k) s = .next (replied k f .ok [2] (settleStore (paced .paused))))))

/-- UPLOAD_STOP ends the upload with STOPPED: the batch frame cut, every record returned, the list empty, IDLE with its
event; UPLOAD_FINISH drains, and with no batch in flight ends it with FINISHED in the same step. -/
def Obligations.UploadStopAndFinish : Prop :=
  ∀ (s : State) (k : Link) (f : RequestFrame) (rest : List RequestFrame),
    let u := withRequests s k rest
    let v := s.uploader
    let numbers := v.batches.flatMap (·.records)
    (Takes s k f rest .uploadStop →
      (k = .trunk → exec (.uploadStop k) s = .next (replied k f .wrongLink [] u))
      ∧ (k = .depot → v.state = .idle → exec (.uploadStop k) s = .next (replied k f .wrongState [] u))
      ∧ (k = .depot → v.state ≠ .idle →
        exec (.uploadStop k) s = .next (replied k f .ok (bigEndian 2 numbers.length) (settleStore (raiseEvent { u with
          depot := { u.depot with
            tx := match s.depot.tx with
              | some (.batch _ _) => none
              | x => x }
          store := { s.store with
            index := s.store.index.map (fun r => if r.head.number ∈ numbers then { r with state := .stored } else r)
            port := match s.store.port with
              | some (.read number _) => some (.read number none)
              | x => x }
          uploader := { v with batches := [], streak := 0, state := .idle, lastEnd := some .stopped } }
          .uploadState v.released 0)))))
    ∧ (Takes s k f rest .uploadFinish →
      (k = .trunk → exec (.uploadFinish k) s = .next (replied k f .wrongLink [] u))
      ∧ (k = .depot → (v.state = .idle ∨ v.state = .draining ∨ s.depotUp = false) →
        exec (.uploadFinish k) s = .next (replied k f .wrongState [] u))
      ∧ (k = .depot → (v.state = .running ∨ v.state = .paused) → s.depotUp = true →
        let drains := raiseEvent { u with uploader := { v with state := .draining } } .uploadState v.released 63
        (v.batches ≠ [] →
          exec (.uploadFinish k) s = .next (replied k f .ok (bigEndian 1 v.batches.length) drains))
        ∧ (v.batches = [] →
          exec (.uploadFinish k) s = .next (replied k f .ok [0] (raiseEvent { drains with
            uploader := { v with state := .idle, lastEnd := some .finished } } .uploadState v.released 1)))))

/-- BATCH_ACK releases and BATCH_NAK returns the records of a batch in WAITING, which alone leaves the in-flight list; any
other number is NO_SUCH_BATCH and changes nothing, and from the trunk both are WRONG_LINK. Of two batches that wait under
one number the one formed earliest is meant (log entry 31, DESIGN CHOICE). -/
def Obligations.BatchAnswersReleaseOrReturn : Prop :=
  ∀ (s : State) (k : Link) (f : RequestFrame) (rest : List RequestFrame) (number : Nat) (ack : Bool), number < 256 →
    Takes s k f rest (if ack then .batchAck number else .batchNak number) →
    let c : Instr := if ack then .batchAck k else .batchNak k
    let u := withRequests s k rest
    (k = .trunk → exec c s = .next (replied k f .wrongLink [] u))
    ∧ (k = .depot → (∀ b ∈ s.uploader.batches, b.number = number → b.stage ≠ .waiting) →
      exec c s = .next (replied k f .noSuchBatch [] u))
    ∧ (k = .depot → ∀ (b : Batch) (pre post : List Batch), s.uploader.batches = pre ++ b :: post →
      (∀ y ∈ pre, y.number = number → y.stage ≠ .waiting) → b.number = number → b.stage = .waiting →
      let n := b.records.length
      let left := s.store.index.filter (fun r => decide (r.head.number ∉ b.records))
      let full := s.store.classes[b.cls]
      let count := left.countP (fun r => decide (r.head.cls = b.cls)) +
        (match s.store.port with
          | some (.write r _) => if r.head.cls = b.cls then 1 else 0
          | _ => 0)
      let answered : State :=
        if ack then { u with
          store := { s.store with
            index := left
            classes := if count * 8 < full.quota * 7 then s.store.classes.set b.cls { full with fullArmed := true }
              else s.store.classes }
          uploader := { s.uploader with
            batches := pre ++ post, streak := 0, released := min (s.uploader.released + n) 4294967295 } }
        else { u with
          store := { s.store with
            index := s.store.index.map (fun r => if r.head.number ∈ b.records then { r with state := .stored } else r) }
          uploader := { s.uploader with batches := pre ++ post } }
      (s.uploader.state ≠ .draining ∨ pre ++ post ≠ [] →
        exec c s = .next (replied k f .ok (bigEndian 1 n) (settleStore answered)))
      ∧ (s.uploader.state = .draining → pre ++ post = [] →
        exec c s = .next (replied k f .ok (bigEndian 1 n) (settleStore (raiseEvent { answered with
          uploader := { answered.uploader with state := .idle, lastEnd := some .finished } }
          .uploadState answered.uploader.released 1)))))

/-! ## Events and faults -/

/-- An event of an enabled kind joins a queue of fewer than 64 and is otherwise lost and counted; one of a disabled kind
is left out; RESTART has no enable, and the enables stand in the order in which R181 names the kinds (log entry 8,
DEDUCED). Raising a fault counts it, sends a FAULT event, and unless it is ATTENTION fills an empty first-fault record or
counts against a full one, whose captured fields stay; a later HALT sets the flag. -/
def Obligations.EventsAndFaultsAreRecorded : Prop :=
  (∀ (s : State) (kind : EventKind) (parameter detail : Nat),
      let e : Event := { kind := kind, timeTag := s.clock.value, parameter := parameter, detail := detail }
      let enabled := kind = .restart
        ∨ ∃ n, [EventKind.captureFull, .segmentClosed, .routeState, .classFull, .liveDrop, .uploadState, .fault,
            .eventOverflow][n]? = some kind ∧ s.events.mask.getLsbD n = true
      (enabled → s.events.queue.length < 64 →
        raiseEvent s kind parameter detail = { s with events := { s.events with queue := s.events.queue ++ [e] } })
      ∧ (enabled → 64 ≤ s.events.queue.length →
        raiseEvent s kind parameter detail = { s with
          events := { s.events with lost := bump s.events.lost, pendingLost := bump s.events.pendingLost } })
      ∧ (¬ enabled → raiseEvent s kind parameter detail = s))
  ∧ (∀ (s : State) (kind : FaultKind) (parameter : Nat),
      let attention := kind = .clockLimit ∨ kind = .linkCrc ∨ kind = .requestDrop
      let halt := kind = .recordNumberLimit ∨ kind = .storeHalt
      let t := raiseFault s kind parameter
      t.faults.counts = bumpFault s.faults.counts kind
      ∧ t.events = postEvent s.events
          { kind := .fault, timeTag := s.clock.value, parameter := parameter, detail := faultCode kind }
      ∧ t = { s with faults := t.faults, events := t.events }
      ∧ (attention → t.faults = { s.faults with counts := t.faults.counts })
      ∧ (¬ attention → s.faults.first = none →
        t.faults =
          { first := some
              { kind := kind, severity := if halt then .halt else .recoverable, block := faultBlock kind,
                parameter := parameter, timeTag := s.clock.value }
            count := 0, laterHalt := false, counts := t.faults.counts })
      ∧ (¬ attention → ∀ x, s.faults.first = some x →
        t.faults =
          { first := some x
            count := if s.faults.count < 65535 then s.faults.count + 1 else 65535
            laterHalt := s.faults.laterHalt || decide halt
            counts := t.faults.counts }))

/-! ## Links and requests -/

/-- Reading back what was written: for every request whose arguments fit their widths, the dispatcher reads from its
payload exactly that request. -/
def Obligations.RequestsAreReadBackAsWritten : Prop :=
  ∀ r : Request, r.fits = true → parseRequest (encodeRequest r) = .request r

/-- A link receiver that gets a REQUEST frame of at most 1,400 payload bytes byte by byte holds each byte until the last,
and then the request joins its queue, or with 8 waiting is dropped with REQUEST_DROP; on the depot link the frame makes
the link UP. A frame that fails its kind, its length or its CRC is counted by its cause and raises LINK_CRC; hunting
resumes after its start mark. Where the discarded bytes hold another start mark, what follows that mark is judged as a
frame of its own in the same step: a whole frame is accepted, the beginning of one is held, and one that fails is discarded
in its turn. A byte taken while hunting that forms no start mark is dropped without a count, and the depot receiver takes
no byte while the DOCK line is deasserted. -/
def Obligations.LinkFramesAreAcceptedOrDiscarded : Prop :=
  (∀ (s : State) (k : Link) (tag : Byte) (payload : List Byte), Running s → Settled s → payload.length ≤ 1400 →
      (k = .depot → s.pins.dock = true) →
      let body := 1 :: tag :: (bigEndian 2 payload.length ++ payload)
      let frame := 0xA5 :: 0x5A :: (body ++ bigEndian 2 (crc16 body).toNat)
      let p := s.link k
      let up (t : State) : State := { t with depotUp := t.depotUp || decide (k = .depot) }
      (∀ pre b post, frame = pre ++ b :: post → post ≠ [] → p.rx = pre →
        exec (.linkByte k b) s = .next (s.setLink k { p with rx := pre ++ [b] }))
      ∧ (∀ pre b, frame = pre ++ [b] → p.rx = pre →
        (p.requests.length < 8 →
          exec (.linkByte k b) s = .next (kickBoth (up (s.setLink k { p with
            rx := [], requests := p.requests ++ [{ tag := tag, payload := payload }], taken := bump p.taken }))))
        ∧ (8 ≤ p.requests.length →
          exec (.linkByte k b) s = .next (kickBoth (raiseFault (up (s.setLink k { p with
            rx := [], dropped := bump p.dropped })) .requestDrop (if k = .depot then 1 else 0))))))
  ∧ (∀ (s : State) (k : Link) (b : Byte), Running s → (k = .depot → s.pins.dock = true) →
      let p := s.link k
      let number := if k = .depot then 1 else 0
      let kept := if b = 0xA5 then [b] else []
      (p.rx = [0xA5, 0x5A] → b ≠ 1 →
        exec (.linkByte k b) s = .next (kickBoth (raiseFault
          (s.setLink k { p with rx := kept, discardKind := bump p.discardKind }) .linkCrc number)))
      ∧ (∀ tag high : Byte, p.rx = [0xA5, 0x5A, 1, tag, high] → 1400 < high.toNat * 256 + b.toNat →
        ¬ (tag = 0xA5 ∧ high = 0x5A) → ¬ (high = 0xA5 ∧ b = 0x5A) →
        exec (.linkByte k b) s = .next (kickBoth (raiseFault
          (s.setLink k { p with rx := kept, discardLength := bump p.discardLength }) .linkCrc number)))
      ∧ (∀ (tag c : Byte) (payload : List Byte), payload.length ≤ 1400 →
        let body := 1 :: tag :: (bigEndian 2 payload.length ++ payload)
        p.rx = 0xA5 :: 0x5A :: (body ++ [c]) → (0xA5 : Byte) ∉ body → c ≠ 0xA5 →
        [c, b] ≠ bigEndian 2 (crc16 body).toNat →
        exec (.linkByte k b) s = .next (kickBoth (raiseFault
          (s.setLink k { p with rx := kept, discardCrc := bump p.discardCrc }) .linkCrc number))))
  ∧ (∀ (s : State) (k : Link) (b : Byte), Running s → (k = .depot → s.pins.dock = true) →
      let p := s.link k
      let number := if k = .depot then 1 else 0
      let up (t : State) : State := { t with depotUp := t.depotUp || decide (k = .depot) }
      let kept := if b = 0xA5 then [b] else []
      (∀ tag high : Byte, p.rx = [0xA5, 0x5A, 1, tag, high] → 1400 < high.toNat * 256 + b.toNat →
        let long (rx : List Byte) : State :=
          raiseFault (s.setLink k { p with rx := rx, discardLength := bump p.discardLength }) .linkCrc number
        (high = 0xA5 → b = 0x5A → exec (.linkByte k b) s = .next (kickBoth (long [0xA5, 0x5A])))
        ∧ (tag = 0xA5 → high = 0x5A → b = 1 → exec (.linkByte k b) s = .next (kickBoth (long [0xA5, 0x5A, 1])))
        ∧ (tag = 0xA5 → high = 0x5A → b ≠ 1 →
          exec (.linkByte k b) s = .next (kickBoth (raiseFault ((long []).setLink k { p with
            rx := kept, discardLength := bump p.discardLength, discardKind := bump p.discardKind }) .linkCrc number))))
      ∧ (∀ (tag c : Byte) (payload before inner : List Byte), payload.length ≤ 1400 →
        let body := 1 :: tag :: (bigEndian 2 payload.length ++ payload)
        body = before ++ 0xA5 :: 0x5A :: inner → (0xA5 : Byte) ∉ before → p.rx = 0xA5 :: 0x5A :: (body ++ [c]) →
        [c, b] ≠ bigEndian 2 (crc16 body).toNat →
        let failed (rx : List Byte) : State :=
          raiseFault (s.setLink k { p with rx := rx, discardCrc := bump p.discardCrc }) .linkCrc number
        let found := inner ++ [c, b]
        (∀ (mark : Byte) (content : List Byte), content.length ≤ 1400 →
          let framed := 1 :: mark :: (bigEndian 2 content.length ++ content)
          (found = framed ++ bigEndian 2 (crc16 framed).toNat → p.requests.length < 8 →
            exec (.linkByte k b) s = .next (kickBoth (up ((failed []).setLink k { p with
              rx := [], discardCrc := bump p.discardCrc, taken := bump p.taken
              requests := p.requests ++ [{ tag := mark, payload := content }] }))))
          ∧ (∀ check rest : List Byte, check.length = 2 → rest ≠ [] → found ++ rest = framed ++ check →
            exec (.linkByte k b) s = .next (kickBoth (failed (0xA5 :: 0x5A :: found)))))
        ∧ (found.getD 0 0 ≠ 1 → (0xA5 : Byte) ∉ inner → c ≠ 0xA5 →
          exec (.linkByte k b) s = .next (kickBoth (raiseFault ((failed []).setLink k { p with
            rx := kept, discardCrc := bump p.discardCrc, discardKind := bump p.discardKind }) .linkCrc number)))))
  ∧ (∀ (s : State) (k : Link) (b : Byte), Running s → Settled s →
      (k = .depot → s.pins.dock = false → exec (.linkByte k b) s = .next s)
      ∧ ((k = .depot → s.pins.dock = true) →
        let p := s.link k
        (p.rx = [] → b ≠ 0xA5 → exec (.linkByte k b) s = .next s)
        ∧ (p.rx = [0xA5] → b ≠ 0x5A →
          exec (.linkByte k b) s = .next (s.setLink k { p with rx := if b = 0xA5 then [b] else [] }))))

/-- The trunk transmitter ends its frame and takes the next reply, else the next event, else the next live copy; an event
queue it empties over a pending loss raises EVENT_OVERFLOW when that kind is enabled (its bit of the mask: log entry 8,
DEDUCED), a live queue it empties arms LIVE_DROP. -/
def Obligations.TrunkTransmitterChoosesInOrder : Prop :=
  ∀ (s : State) (x : TxFrame), Running s → s.trunk.tx = some x →
    (∀ r, x = .reply r → r.code ≠ 8 ∨ r.status ≠ .ok) →
    (∀ r rest, s.trunk.replies = r :: rest →
      exec .trunkTxFrameEnd s = .next { s with trunk := { s.trunk with replies := rest, tx := some (.reply r) } })
    ∧ (s.trunk.replies = [] → ∀ e rest, s.events.queue = e :: rest →
      let v : EventUnit := { s.events with queue := rest, sent := bump s.events.sent }
      (rest ≠ [] ∨ s.events.pendingLost = 0 →
        exec .trunkTxFrameEnd s = .next { s with trunk := { s.trunk with tx := some (.event e) }, events := v })
      ∧ (rest = [] → 0 < s.events.pendingLost →
        exec .trunkTxFrameEnd s = .next { s with
          trunk := { s.trunk with tx := some (.event e) }
          events := { v with
            pendingLost := 0
            queue := if s.events.mask.getLsbD 7 then
                [{ kind := .eventOverflow, timeTag := s.clock.value, parameter := s.events.pendingLost, detail := 0 }]
              else [] } }))
    ∧ (s.trunk.replies = [] → s.events.queue = [] → ∀ c rest, s.live.queue = c :: rest →
      exec .trunkTxFrameEnd s = .next { s with
        trunk := { s.trunk with tx := some (.record c.record) }
        live := { s.live with
          queue := rest, sent := bump s.live.sent, dropArmed := s.live.dropArmed || decide (rest = []) } })
    ∧ (s.trunk.replies = [] → s.events.queue = [] → s.live.queue = [] →
      exec .trunkTxFrameEnd s = .next { s with trunk := { s.trunk with tx := none } })

/-- DOCK asserted changes the line alone, in every state, one held in warm reset included (log entry 18, DEDUCED).
Deasserted, it drops the frame half received, and a link that was UP goes DOWN: the frame in transmission is cut, an upload
ends with LINK_LOST, and a load owned by the depot link is lost, UPLOAD_STATE before ROUTE_STATE (log entry 21, DEDUCED). A
RESET that the depot dispatcher has answered takes effect at that moment: the part starts again from what a warm reset
keeps, and of an upload that was open the last end reason is LINK_LOST or RESET (which of the two is open: log entry 17,
DESIGN CHOICE). -/
def Obligations.DockLineTakesTheLinkDown : Prop :=
  ∀ s : State,
    exec .dockAssert s = .next { s with pins := { s.pins with dock := true } }
    ∧ (Running s → s.depotUp = false →
      exec .dockDeassert s = .next { s with
        pins := { s.pins with dock := false }, depot := { s.depot with rx := [] } })
    ∧ (Running s → s.depotUp = true → s.depot.dispatcher ≠ .resetting →
      let down : State := { s with
        pins := { s.pins with dock := false }, depotUp := false, depot := { s.depot with rx := [], tx := none } }
      let numbers := s.uploader.batches.flatMap (·.records)
      let ended : State :=
        if s.uploader.state = .idle then down
        else raiseEvent { down with
          store := { s.store with
            index := s.store.index.map (fun r => if r.head.number ∈ numbers then { r with state := .stored } else r)
            port := match s.store.port with
              | some (.read number _) => some (.read number none)
              | x => x }
          uploader := { s.uploader with batches := [], streak := 0, state := .idle, lastEnd := some .linkLost } }
          .uploadState s.uploader.released 2
      let lost : State :=
        if s.route.state = .loading ∧ s.route.owner = some .depot then
          raiseEvent { ended with book := [], segments := [], route := {} } .routeState 0 0
        else ended
      exec .dockDeassert s = .next (kickBoth (settleStore lost)))
    ∧ (Running s → s.depotUp = true → s.depot.dispatcher = .resetting → RecordsOrdered s →
      let after := retained { s with pins := { s.pins with dock := false } }
      (s.uploader.state = .idle → exec .dockDeassert s = .next (started after 2))
      ∧ (s.uploader.state ≠ .idle → ∃ e : EndReason, (e = .linkLost ∨ e = .reset) ∧
        exec .dockDeassert s = .next (started { after with
          uploader := { after.uploader with lastEnd := some e }, freeCounter := s.freeCounter + 1 } 2)))

/-- A request whose code is not in the catalogue is answered UNKNOWN_REQUEST, one of wrong length BAD_ARGUMENT, and
nothing else is done. -/
def Obligations.UnknownRequestsAreAnswered : Prop :=
  ∀ (s : State) (k : Link) (f : RequestFrame) (rest : List RequestFrame), Running s →
    (s.link k).dispatcher = .idle → (s.link k).replies.length < 8 → (s.link k).requests = f :: rest →
    let code := (f.payload.getD 0 0).toNat
    (code = 0 ∨ 32 < code →
      exec (.unknownRequest k) s = .next (replied k f .unknownRequest [] (withRequests s k rest)))
    ∧ (1 ≤ code → code ≤ 32 → (∀ r, parseRequest f.payload ≠ .request r) →
      exec (.unknownRequest k) s = .next (replied k f .badArgument [] (withRequests s k rest)))

/-- The five reading requests answer OK, or with the status of the check that failed, and change nothing but with the
clear option of COUNTERS_READ, which sets the counters of its group to 0 and nothing else. EVENT_MASK writes the set of
enables and answers the old one, each in one byte, which can name no other kind than the eight (log entry 8, DEDUCED);
FAULT_CLEAR answers the first-fault record and empties it. The bytes of the results are those of the model's layouts (log
entries 9 and 11). -/
def Obligations.ReadingAndManagementRequests : Prop :=
  (∀ (s : State) (k : Link) (f : RequestFrame) (rest : List RequestFrame),
      let u := withRequests s k rest
      let read (c : Instr) (status : Status) (results : List Byte) : Prop :=
        exec c s = .next (replied k f status results u)
      (Takes s k f rest .identify →
        read (.identify k) .ok
          [0x49, 0x54, 0x08, 0x16, 1, (match s.pins.trunkRate with | .baud921600 => 0 | .baud3000000 => 1),
           (match k with | .trunk => 0 | .depot => 1), 8, 128, 16, 16, 16, 0x10, 0x00, 64, 64, 4, 1, 0, 0, 32, 128, 64, 8])
      ∧ (∀ n, Takes s k f rest (.status n) →
        (n ≤ 8 → ∃ results, statusSection u n = some results ∧ read (.status k) .ok results)
        ∧ (8 < n → read (.status k) .badArgument []))
      ∧ (∀ (g : CounterGroup) (n clear : Nat), Takes s k f rest (.countersRead n clear) →
        (counterGroup n = some g → clear = 1 → read (.countersRead k) .ok (counterBytes (groupCounts u g)))
        ∧ (counterGroup n = some g → clear = 0 →
          let port (p : LinkPort) : LinkPort :=
            { p with taken := 0, dropped := 0, discardKind := 0, discardLength := 0, discardCrc := 0 }
          let t : State :=
            match g with
            | .lanes => { u with lanes := s.lanes.map (fun l => { l with counters := ⟨0, 0, 0, 0, 0, 0, 0, 0⟩ }) }
            | .decoder => { u with
                decoder := { s.decoder with counters := ⟨0, 0, 0, 0, 0, 0, 0, 0, 0, 0, 0, 0, 0⟩ }
                services := s.services.map (fun e => e.map (fun x => { x with discards := 0 })) }
            | .pairing => { u with pairing := { s.pairing with counters := ⟨0, 0, 0, 0, 0, 0, 0, 0, 0, 0⟩ } }
            | .matcher => { u with
                matcher :=
                  { cache := s.matcher.cache, noRoute := 0, foreignSeen := 0, familyMismatch := 0, held := 0,
                    duplicate := 0, absorbed := 0, revisionCap := 0 } }
            | .screening => { u with screening := ⟨0, 0, 0, 0, 0⟩ }
            | .store => { u with
                builder := { s.builder with created := ⟨0, 0, 0, 0, 0, 0, 0⟩ }
                store := { s.store with
                  classes := s.store.classes.map (fun c => { c with
                    appended := 0, refusedFull := 0, refusedInFlight := 0, overwritten := 0 })
                  refusedHalted := 0, writeFail := 0, readFail := 0 }
                live := { s.live with sent := 0, dropped := 0 } }
            | .links => { u with
                trunk := port u.trunk, depot := port u.depot, events := { s.events with sent := 0, lost := 0 }
                faults := { s.faults with counts := ⟨0, 0, 0, 0, 0, 0, 0, 0⟩ } }
          groupCounts t g = List.replicate (groupCounts u g).length 0
          ∧ exec (.countersRead k) s = .next (replied k f .ok (counterBytes (groupCounts u g)) t))
        ∧ (6 < n ∨ 1 < clear → read (.countersRead k) .badArgument []))
      ∧ (∀ meter, Takes s k f rest (.entryById meter) →
        (s.route.state = .empty → read (.entryRead k) .wrongState [])
        ∧ (s.route.state ≠ .empty → (∀ e ∈ s.book, e.meterId ≠ meter) → read (.entryRead k) .notFound [])
        ∧ (s.route.state ≠ .empty → ∀ pre e post, s.book = pre ++ e :: post → e.meterId = meter →
          (∀ x ∈ pre, x.meterId ≠ meter) → read (.entryRead k) .ok (entryResults u pre.length e)))
      ∧ (∀ i, Takes s k f rest (.entryByIndex i) →
        (s.route.state = .empty → read (.entryRead k) .wrongState [])
        ∧ (s.route.state ≠ .empty → s.book.length ≤ i → read (.entryRead k) .notFound [])
        ∧ (s.route.state ≠ .empty → ∀ e, s.book[i]? = some e → read (.entryRead k) .ok (entryResults u i e)))
      ∧ (∀ n, Takes s k f rest (.segmentRead n) →
        (s.route.state = .empty → read (.segmentRead k) .wrongState [])
        ∧ (s.route.state ≠ .empty → s.segments.length ≤ n → read (.segmentRead k) .badArgument [])
        ∧ (s.route.state ≠ .empty → ∀ g, s.segments[n]? = some g → read (.segmentRead k) .ok (segmentResults g))))
  ∧ (∀ (s : State) (k : Link) (f : RequestFrame) (rest : List RequestFrame),
      let u := withRequests s k rest
      (∀ mask, Takes s k f rest (.eventMask mask) →
        (mask < 256 →
          exec (.eventMask k) s = .next (replied k f .ok (bigEndian 1 s.events.mask.toNat) { u with
            events := { s.events with mask := BitVec.ofNat 8 mask } }))
        ∧ (256 ≤ mask → exec (.eventMask k) s = .next (replied k f .badArgument [] u)))
      ∧ (Takes s k f rest .faultClear →
        exec (.faultClear k) s = .next (replied k f .ok (faultResults s.faults) { u with
          faults := { first := none, count := 0, laterHalt := false, counts := s.faults.counts } })))

/-- RESET is answered OK and its dispatcher takes no further request; the warm reset comes with the end of the reply's
frame, or at once from the depot link while it is DOWN (the link that goes DOWN before the reply's end:
DockLineTakesTheLinkDown). The trunk rate after it is that of the strap level last given (log entry 23, DESIGN CHOICE). -/
def Obligations.ResetRequestBringsAWarmReset : Prop :=
  ∀ (s : State) (k : Link) (f : RequestFrame) (rest : List RequestFrame),
    (Takes s k f rest .reset → (k = .depot → s.depotUp = true) →
      exec (.reset k) s = .next (replied k f .ok []
        (s.setLink k { s.link k with requests := rest, dispatcher := .resetting })))
    ∧ (Takes s .depot f rest .reset → s.depotUp = false →
      exec (.reset .depot) s = .next (started (retained s) 2))
    ∧ (Running s → ∀ r : Reply, r.code = 8 → r.status = .ok →
      (s.trunk.tx = some (.reply r) → exec .trunkTxFrameEnd s = .next (started (retained s) 2))
      ∧ (s.depot.tx = some (.reply r) → exec .depotTxFrameEnd s = .next (started (retained s) 2)))

/-! ## Settings -/

/-- FAMILY_SET and FAMILY_CLEAR: the refusals in their order, and the profile written to its place or the place emptied.
A profile passes when every field is in its range and the profile is consistent: fields that end by byte 54, no two reading
fields and no two extension fields that share a byte, flags of distinct positions and none without a flag byte, and
extension offsets both present under EXTENDED and both absent under NONE. -/
def Obligations.FamilyTableRequests : Prop :=
  (∀ (raw : RawProfile) (p : Profile),
    let spans (os : List (Option Nat × Nat)) : List (Nat × Nat) := os.filterMap (fun x => x.1.map (fun o => (o, x.2)))
    let apart (xs : List (Nat × Nat)) : Prop :=
      (∀ x ∈ xs, x.1 + x.2 ≤ 54) ∧ xs.Pairwise (fun x y => x.1 + x.2 ≤ y.1 ∨ y.1 + y.2 ≤ x.1)
    let bits (m : FlagMap) : List (Option Nat) := [m.magnet, m.tilt, m.cover, m.meterReverse, m.leak, m.lowbat]
    let width := match p.encoding with
      | .binary3 => 3
      | .binary4 => 4
      | .bcd => (p.digits + 1) / 2
    judgeProfile raw = some p ↔
      (p.familyCode = raw.familyCode ∧ p.digits = raw.digits ∧ p.registerOffset = raw.registerOffset
        ∧ p.flagOffset = raw.flagOffset ∧ p.flagMap = raw.flagMap ∧ p.serviceOffset = raw.serviceOffset
        ∧ p.window = raw.window ∧ p.extTamperOffset = raw.extTamperOffset ∧ p.extReverseOffset = raw.extReverseOffset
        ∧ p.highRate = raw.highRate ∧ p.reverseTolerance = raw.reverseTolerance
        ∧ p.stagnationHours = raw.stagnationHours ∧ p.revisionStep = raw.revisionStep)
      ∧ [RegisterEncoding.binary3, .binary4, .bcd][raw.encoding]? = some p.encoding
      ∧ [PairingMode.none, .extended][raw.mode]? = some p.mode
      ∧ p.familyCode ≤ 255 ∧ 4 ≤ p.digits ∧ p.digits ≤ 9 ∧ p.registerOffset ≤ 53
      ∧ (∀ o ∈ p.flagOffset, o ≤ 53) ∧ (∀ x ∈ bits p.flagMap, ∀ o ∈ x, o ≤ 7) ∧ (∀ o ∈ p.serviceOffset, o ≤ 53)
      ∧ 10 ≤ p.window ∧ p.window ≤ 2000 ∧ (∀ o ∈ p.extTamperOffset, o ≤ 53) ∧ (∀ o ∈ p.extReverseOffset, o ≤ 52)
      ∧ 1 ≤ p.highRate ∧ p.highRate ≤ 16777215 ∧ p.reverseTolerance ≤ 65535 ∧ p.stagnationHours ≤ 65535
      ∧ 1 ≤ p.revisionStep ∧ p.revisionStep ≤ 65535
      ∧ apart (spans [(some p.registerOffset, width), (p.flagOffset, 1), (p.serviceOffset, 1)])
      ∧ apart (spans [(p.extTamperOffset, 1), (p.extReverseOffset, 2)])
      ∧ ((bits p.flagMap).filterMap id).Nodup ∧ (p.flagOffset = none → ∀ x ∈ bits p.flagMap, x = none)
      ∧ (p.mode = .extended → p.extTamperOffset ≠ none ∧ p.extReverseOffset ≠ none)
      ∧ (p.mode = .none → p.extTamperOffset = none ∧ p.extReverseOffset = none))
  ∧ (∀ (s : State) (k : Link) (f : RequestFrame) (rest : List RequestFrame) (n : Nat),
    let u := withRequests s k rest
    let busy (i : Fin 16) : Prop :=
      (∃ o, s.decoder.offer = some o ∧ o.frame.head.familyIndex = i)
      ∨ (∃ p ∈ s.pairing.table, p.head.familyIndex = i) ∨ (∃ h ∈ s.pairing.hearings, h.familyIndex = i)
    (∀ raw, Takes s k f rest (.familySet n raw) →
      (s.route.state ≠ .empty → exec (.familySet k) s = .next (replied k f .wrongState [] u))
      ∧ (s.route.state = .empty → (15 < n ∨ judgeProfile raw = none) →
        exec (.familySet k) s = .next (replied k f .badArgument [] u))
      ∧ (s.route.state = .empty → ∀ (i : Fin 16) (p : Profile), n = i.val → judgeProfile raw = some p →
        ((∃ j, j ≠ i ∧ s.families[j].map (·.familyCode) = some p.familyCode) →
          exec (.familySet k) s = .next (replied k f .duplicateId [] u))
        ∧ ((∀ j, j ≠ i → s.families[j].map (·.familyCode) ≠ some p.familyCode) →
          (s.families[i] ≠ none → busy i → exec (.familySet k) s = .next (replied k f .busy [] u))
          ∧ (s.families[i] = none ∨ ¬ busy i →
            exec (.familySet k) s = .next (replied k f .ok [] { u with families := s.families.set i (some p) })))))
    ∧ (Takes s k f rest (.familyClear n) →
      (s.route.state ≠ .empty → exec (.familyClear k) s = .next (replied k f .wrongState [] u))
      ∧ (s.route.state = .empty → 15 < n → exec (.familyClear k) s = .next (replied k f .badArgument [] u))
      ∧ (s.route.state = .empty → ∀ i : Fin 16, n = i.val →
        (s.families[i] = none → exec (.familyClear k) s = .next (replied k f .notFound [] u))
        ∧ (s.families[i] ≠ none → busy i → exec (.familyClear k) s = .next (replied k f .busy [] u))
        ∧ (s.families[i] ≠ none → ¬ busy i →
          exec (.familyClear k) s = .next (replied k f .ok [] { u with families := s.families.set i none })))))

/-- SERVICE_SET writes or clears a place with its discard count at 0; RULES_SET writes the whole rule set or its defaults;
ROUTING_SET writes one row or all defaults; CLASS_SET writes the three settings of an empty class whose quotas fit, and
arms its CLASS_FULL flag. Each refuses what its rule refuses, in its order. ROUTING_SET names a record kind by its code of
R188, where R138's own table has the kinds in another order, and its live flag is 0 or 1: both are the model's choice (log
entry 9, DEDUCED). -/
def Obligations.TableSettingRequests : Prop :=
  (∀ (s : State) (k : Link) (f : RequestFrame) (rest : List RequestFrame),
      let u := withRequests s k rest
      (∀ place code action weight, Takes s k f rest (.serviceSet place code action weight) →
        (15 < place ∨ code = 0 ∨ 255 < code ∨ 2 < action ∨ 255 < weight →
          exec (.serviceSet k) s = .next (replied k f .badArgument [] u))
        ∧ (∀ (i : Fin 16) (a : TableAction), place = i.val → 0 < code → code ≤ 255 → weight ≤ 255 →
          a = (if action = 0 then .discard else if action = 1 then .note else .weight) → action ≤ 2 →
          ((∃ j, j ≠ i ∧ s.services[j].map (·.code) = some code) →
            exec (.serviceSet k) s = .next (replied k f .duplicateId [] u))
          ∧ ((∀ j, j ≠ i → s.services[j].map (·.code) ≠ some code) →
            exec (.serviceSet k) s = .next (replied k f .ok [] { u with
              services := s.services.set i (some { code := code, action := a, weight := weight, discards := 0 }) }))))
      ∧ (∀ place, Takes s k f rest (.serviceClear place) →
        (15 < place → exec (.serviceSet k) s = .next (replied k f .badArgument [] u))
        ∧ (∀ i : Fin 16, place = i.val →
          exec (.serviceSet k) s = .next (replied k f .ok [] { u with services := s.services.set i none })))
      ∧ (Takes s k f rest .rulesDefaults →
        exec (.rulesSet k) s = .next (replied k f .ok [] { u with
          rules := ⟨50, 40, 20, 0, 35, 40, 25, 30, 45, 0, 0, 30, 45, 10, 60, 30⟩ }))
      ∧ (∀ a b c d e g h i j l m n o p alert watch : Nat,
        Takes s k f rest (.rulesSet [a, b, c, d, e, g, h, i, j, l, m, n, o, p, alert, watch]) →
        (∀ w ∈ [a, b, c, d, e, g, h, i, j, l, m, n, o, p, alert, watch], w ≤ 255) →
        (0 < alert → 0 < watch →
          exec (.rulesSet k) s = .next (replied k f .ok [] { u with
            rules := ⟨a, b, c, d, e, g, h, i, j, l, m, n, o, p, alert, watch⟩ }))
        ∧ (alert = 0 ∨ watch = 0 → exec (.rulesSet k) s = .next (replied k f .badArgument [] u)))
      ∧ (Takes s k f rest .routingDefaults →
        exec (.routingSet k) s = .next (replied k f .ok [] { u with
          routing :=
            { reading := ⟨0, false⟩, revision := ⟨0, false⟩, alert := ⟨1, true⟩, foreign := ⟨2, false⟩,
              missed := ⟨1, false⟩, segment := ⟨1, true⟩, route := ⟨1, true⟩ } }))
      ∧ (∀ kind cls live, Takes s k f rest (.routingSet kind cls live) →
        (6 < kind ∨ 3 < cls ∨ 1 < live → exec (.routingSet k) s = .next (replied k f .badArgument [] u))
        ∧ (∀ (x : RecordKind) (c : Fin 4), recordKindCode x = kind → cls = c.val → live ≤ 1 →
          exec (.routingSet k) s = .next (replied k f .ok [] { u with
            routing := setRoutingRow s.routing { cls := c, live := decide (live = 1) } x }))))
  ∧ (∀ (s : State) (k : Link) (f : RequestFrame) (rest : List RequestFrame) (cls quota policy priority : Nat),
      Takes s k f rest (.classSet cls quota policy priority) →
      let u := withRequests s k rest
      (3 < cls ∨ 65536 < quota ∨ 1 < policy ∨ 3 < priority →
        exec (.classSet k) s = .next (replied k f .badArgument [] u))
      ∧ (∀ c : Fin 4, cls = c.val → quota ≤ 65536 → policy ≤ 1 → priority ≤ 3 →
        let held := (∃ r ∈ s.store.index, r.head.cls = c) ∨ ∃ r slot, s.store.port = some (.write r slot) ∧ r.head.cls = c
        let sum := quota + ∑ d : Fin 4, if d = c then 0 else s.store.classes[d].quota
        (held → exec (.classSet k) s = .next (replied k f .wrongState [] u))
        ∧ (¬ held → 65536 < sum → exec (.classSet k) s = .next (replied k f .badArgument [] u))
        ∧ (¬ held → sum ≤ 65536 →
          exec (.classSet k) s = .next (replied k f .ok [] { u with
            store := { s.store with
              classes := s.store.classes.set c { s.store.classes[c] with
                quota := quota, policy := if policy = 0 then .linear else .ring, priority := priority,
                fullArmed := true } } }))))

/-! ## The route and its segments by request -/

/-- BOOK_OPEN: refused while a route runs or a load is open, and for an argument out of range; otherwise the book, the
segment table, the foreign cache and the clock start anew, and the link owns the load. Auto-close on is coded 0 and off 1
(log entry 9, DEDUCED). -/
def Obligations.BookOpenStartsALoad : Prop :=
  ∀ (s : State) (k : Link) (f : RequestFrame) (rest : List RequestFrame)
    (id entries segments autoClose quietTime minDwell policy : Nat),
    Takes s k f rest (.bookOpen id entries segments autoClose quietTime minDwell policy) →
    let u := withRequests s k rest
    let wrong := 65535 < id ∨ entries < 1 ∨ 4096 < entries ∨ segments < 1 ∨ 64 < segments ∨ 1 < autoClose
      ∨ quietTime < 10 ∨ 3600 < quietTime ∨ 3600 < minDwell ∨ 2 < policy
    let loads := s.route.state = .empty ∨ s.route.state = .ready ∨ s.route.state = .ended
    (s.route.state = .running ∨ s.route.state = .ending ∨ (s.route.state = .loading ∧ s.route.owner = some k) →
      exec (.bookOpen k) s = .next (replied k f .wrongState [] u))
    ∧ (s.route.state = .loading → s.route.owner ≠ some k → exec (.bookOpen k) s = .next (replied k f .busy [] u))
    ∧ (loads → wrong → exec (.bookOpen k) s = .next (replied k f .badArgument [] u))
    ∧ (loads → ¬ wrong →
      exec (.bookOpen k) s = .next (replied k f .ok [] (raiseEvent { u with
        book := []
        segments := List.replicate segments
          { state := .pending, autoClose := decide (autoClose = 0), quietTime := quietTime, minDwell := minDwell, pass := 1,
            member := 0, unheard := 0, heard := 0, missed := 0, late := 0, activation := none, lastHeard := none,
            closeReason := none, deadline := none, deadlineReason := none, walkPosition := none, waiting := none }
        matcher := { s.matcher with cache := [] }
        clock := { value := 0, running := false }
        route :=
          { state := .loading, id := id, policy := if policy = 0 then .ignore else if policy = 1 then .first else .changes,
            declaredEntries := entries, declaredSegments := segments, loaded := 0, owner := some k, startHour := 0,
            heldHearings := 0, clockLimitRaised := false } }
        .routeState id 1)))

/-- BOOK_ENTRIES: the five checks of the whole, then the entries one by one up to the first that fails a check, with the
count taken and the loaded count in the reply. -/
def Obligations.BookEntriesTakesEntriesInOrder : Prop :=
  (∀ (s : State) (k : Link) (f : RequestFrame) (rest : List RequestFrame) (first : Nat) (entries : List RawEntry),
    Takes s k f rest (.bookEntries first entries) →
    let u := withRequests s k rest
    let n := entries.length
    let none_ := bigEndian 1 0 ++ bigEndian 2 s.route.loaded
    let mine := s.route.state = .loading ∧ s.route.owner = some k
    (s.route.state ≠ .loading → exec (.bookEntries k) s = .next (replied k f .wrongState none_ u))
    ∧ (s.route.state = .loading → s.route.owner ≠ some k →
      exec (.bookEntries k) s = .next (replied k f .busy none_ u))
    ∧ (mine → (n < 1 ∨ 32 < n) → exec (.bookEntries k) s = .next (replied k f .badArgument none_ u))
    ∧ (mine → 1 ≤ n → n ≤ 32 → first ≠ s.route.loaded →
      exec (.bookEntries k) s = .next (replied k f .sequence none_ u))
    ∧ (mine → 1 ≤ n → n ≤ 32 → first = s.route.loaded → s.route.declaredEntries < first + n →
      exec (.bookEntries k) s = .next (replied k f .badArgument none_ u))
    ∧ (mine → 1 ≤ n → n ≤ 32 → first = s.route.loaded → first + n ≤ s.route.declaredEntries →
      let out := takeRawEntries entries u 0
      exec (.bookEntries k) s = .next (replied k f out.2.1
        (bigEndian 1 out.2.2 ++ bigEndian 2 out.1.route.loaded) out.1)))
  ∧ (∀ (s : State) (n : Nat), takeRawEntries [] s n = (s, .ok, n))
  ∧ (∀ (s : State) (e : RawEntry) (rest : List RawEntry) (n : Nat),
    (e.meterId = 0 ∨ 0xFFFFFFFF ≤ e.meterId ∨ (∀ i : Fin 16, s.families[i].map (·.familyCode) ≠ some e.familyCode) →
      takeRawEntries (e :: rest) s n = (s, .badArgument, n))
    ∧ (∀ (i : Fin 16) (p : Profile), e.meterId ≠ 0 → e.meterId < 0xFFFFFFFF → s.families[i] = some p →
      p.familyCode = e.familyCode → (∀ j < i, s.families[j].map (·.familyCode) ≠ some e.familyCode) →
      let wrong := s.route.declaredSegments ≤ e.segment ∨ 8 ≤ e.options
        ∨ e.referenceReading.isSome ≠ e.referenceHour.isSome
        ∨ (∃ r, e.referenceReading = some r ∧ 10 ^ p.digits ≤ r) ∨ (∃ h, e.referenceHour = some h ∧ 16777215 < h)
      let options : Options := BitVec.ofNat 3 e.options
      let taken : Entry :=
        { meterId := e.meterId, familyCode := e.familyCode, familyIndex := i, segment := e.segment, options := options
          reference := match e.referenceReading, e.referenceHour with
            | some r, some h => some { reading := r, hour := h }
            | _, _ => none
          hearing := .unheard, heardCount := 0, current := none, bestRssi := 0, reported := none, recordNumber := none,
          revisions := 0, dayMaxScore := 0, alerted := 0 }
      (wrong → takeRawEntries (e :: rest) s n = (s, .badArgument, n))
      ∧ (¬ wrong → (∃ x ∈ s.book, x.meterId = e.meterId) → takeRawEntries (e :: rest) s n = (s, .duplicateId, n))
      ∧ (¬ wrong → (∀ x ∈ s.book, x.meterId ≠ e.meterId) →
        takeRawEntries (e :: rest) s n = takeRawEntries rest { s with
          book := s.book ++ [taken]
          route := { s.route with loaded := s.route.loaded + 1 }
          segments :=
            match options.getLsbD 1, s.segments[e.segment]? with
            | false, some g =>
              s.segments.set e.segment (recompute { g with member := g.member + 1, unheard := g.unheard + 1 })
            | _, _ => s.segments } (n + 1))))

/-- BOOK_CLOSE and BOOK_ABORT: refused outside LOADING and from the other link; a complete load becomes READY, one that is
not stays open with INCOMPLETE, and an aborted one leaves the book, the table and the route at their defaults. -/
def Obligations.BookCloseAndAbortEndTheLoad : Prop :=
  ∀ (s : State) (k : Link) (f : RequestFrame) (rest : List RequestFrame),
    let u := withRequests s k rest
    let mine := s.route.state = .loading ∧ s.route.owner = some k
    (Takes s k f rest .bookClose →
      (s.route.state ≠ .loading → exec (.bookClose k) s = .next (replied k f .wrongState [] u))
      ∧ (s.route.state = .loading → s.route.owner ≠ some k → exec (.bookClose k) s = .next (replied k f .busy [] u))
      ∧ (mine → s.route.loaded < s.route.declaredEntries →
        exec (.bookClose k) s = .next (replied k f .incomplete (bigEndian 2 s.route.loaded) u))
      ∧ (mine → s.route.declaredEntries ≤ s.route.loaded →
        exec (.bookClose k) s = .next (replied k f .ok [] (raiseEvent { u with
          route := { s.route with state := .ready, owner := none } } .routeState s.route.id 2))))
    ∧ (Takes s k f rest .bookAbort →
      (s.route.state ≠ .loading → exec (.bookAbort k) s = .next (replied k f .wrongState [] u))
      ∧ (s.route.state = .loading → s.route.owner ≠ some k → exec (.bookAbort k) s = .next (replied k f .busy [] u))
      ∧ (mine →
        exec (.bookAbort k) s = .next (replied k f .ok [] (raiseEvent { u with
          book := [], segments := []
          route :=
            { state := .empty, id := 0, policy := .ignore, declaredEntries := 0, declaredSegments := 0, loaded := 0,
              owner := none, startHour := 0, heldHearings := 0, clockLimitRaised := false } } .routeState 0 0))))

/-- ENTRY_MODIFY changes one entry's options and SEGMENT_MODIFY those of every entry of a segment: the old less the clear
set, plus the set set. A move into or out of HOLD moves the segment's counts and its deadline, and a deadline that has
passed already waits for its own command (log entry 4, DEDUCED). The admission of the reply is HOLD 0, WATCH 1 and
COLLECT 2, in the order of R59 (log entry 9, DEDUCED). -/
def Obligations.OptionsChangeWithTheSegmentCounts : Prop :=
  ∀ (s : State) (k : Link) (f : RequestFrame) (rest : List RequestFrame) (clear set : Nat),
    let u := withRequests s k rest
    let under := s.route.state = .ready ∨ s.route.state = .running ∨ s.route.state = .ending
    let formed (o : Options) : Options := (o &&& ~~~(BitVec.ofNat 3 clear)) ||| BitVec.ofNat 3 set
    let counted (g : Segment) (x : HearingState) (d : Nat → Nat) : Segment :=
      recompute (match x with
        | .unheard => { g with member := d g.member, unheard := d g.unheard }
        | .heard => { g with member := d g.member, heard := d g.heard }
        | .missed => { g with member := d g.member, missed := d g.missed }
        | .late => { g with member := d g.member, late := d g.late })
    let moved (g : Segment) (e : Entry) : Segment :=
      if e.options.getLsbD 1 = false ∧ (formed e.options).getLsbD 1 = true then counted g e.hearing (fun n => n - 1)
      else if e.options.getLsbD 1 = true ∧ (formed e.options).getLsbD 1 = false then counted g e.hearing (fun n => n + 1)
      else g
    let change (t : State) (e : Entry) : State := { t with
      book := t.book.map (fun x => if x.meterId = e.meterId then { x with options := formed e.options } else x)
      segments :=
        match t.segments[e.segment]? with
        | some g => t.segments.set e.segment (moved g e)
        | none => t.segments }
    let shut (n : Nat) := ∃ g, s.segments[n]? = some g ∧ (g.state = .closing ∨ g.state = .closed)
    let admission (o : Options) : Byte := if o.getLsbD 1 then 0 else if o.getLsbD 0 then 1 else 2
    (∀ meter, Takes s k f rest (.entryModify meter clear set) →
      (¬ under → exec (.entryModify k) s = .next (replied k f .wrongState [] u))
      ∧ (under → (7 < clear ∨ 7 < set) → exec (.entryModify k) s = .next (replied k f .badArgument [] u))
      ∧ (under → clear ≤ 7 → set ≤ 7 → (∀ e ∈ s.book, e.meterId ≠ meter) →
        exec (.entryModify k) s = .next (replied k f .notFound [] u))
      ∧ (under → clear ≤ 7 → set ≤ 7 → ∀ pre e post, s.book = pre ++ e :: post → e.meterId = meter →
        (∀ x ∈ pre, x.meterId ≠ meter) →
        (shut e.segment → exec (.entryModify k) s = .next (replied k f .wrongState [] u))
        ∧ (¬ shut e.segment →
          exec (.entryModify k) s = .next (replied k f .ok
            [BitVec.ofNat 8 (formed e.options).toNat, admission (formed e.options)] (change u e)))))
    ∧ (∀ n, Takes s k f rest (.segmentModify n clear set) →
      let es := s.book.filter (fun e => decide (e.segment = n))
      let changed := es.countP (fun e => decide (formed e.options ≠ e.options))
      (¬ under → exec (.segmentModify k) s = .next (replied k f .wrongState [0, 0, 0, 0, 0, 0] u))
      ∧ (under → (s.route.declaredSegments ≤ n ∨ 7 < clear ∨ 7 < set) →
        exec (.segmentModify k) s = .next (replied k f .badArgument [0, 0, 0, 0, 0, 0] u))
      ∧ (under → n < s.route.declaredSegments → clear ≤ 7 → set ≤ 7 → shut n →
        exec (.segmentModify k) s = .next (replied k f .wrongState ([0, 0, 0, 0] ++ bigEndian 2 es.length) u))
      ∧ (under → n < s.route.declaredSegments → clear ≤ 7 → set ≤ 7 → ¬ shut n →
        exec (.segmentModify k) s = .next (replied k f .ok
          (bigEndian 2 changed ++ bigEndian 2 (es.length - changed) ++ [0, 0]) (es.foldl change u))))

/-- ROUTE_START: refused outside READY and for a start hour out of range; with a ready builder it is carried out, and
otherwise its dispatcher holds it until ROUTE_START_EXECUTE finds the builder ready. That one outside READY or out of range
is refused at once although the builder is not ready, and that a held one is judged again when it is carried out, with
WRONG_STATE outside READY, is read from R71 and R136 (log entry 5, DEDUCED); while the builder is not ready
ROUTE_START_EXECUTE changes nothing (log entry 1, DESIGN CHOICE). -/
def Obligations.RouteStartsWhenTheBuilderIsReady : Prop :=
  ∀ (s : State) (k : Link) (hour : Nat),
    let ready := s.builder.held = [] ∧ s.builder.limitFlag = false
    let starts (u : State) : State :=
      let t := takeGroup { u with
        route := { s.route with startHour := hour, heldHearings := 0 }
        matcher := { s.matcher with cache := [] }
        clock := { value := 0, running := true }
        segments := s.segments.mapIdx (fun n g =>
          let members := s.book.countP (fun e => !e.options.getLsbD 1 && decide (e.segment = n))
          { autoClose := g.autoClose, quietTime := g.quietTime, minDwell := g.minDwell, state := .pending, pass := 1,
            member := members, unheard := members, heard := 0, missed := 0, late := 0, activation := none,
            lastHeard := none, closeReason := none, deadline := none, deadlineReason := none, walkPosition := none,
            waiting := none }) }
        [{ body := .routeStart, timeTag := 0, marks := 0, liveForced := false }]
      raiseEvent { t with route := { s.route with startHour := hour, heldHearings := 0, state := .running } }
        .routeState s.route.id 3
    (∀ (f : RequestFrame) (rest : List RequestFrame), Takes s k f rest (.routeStart hour) →
      let u := withRequests s k rest
      (s.route.state ≠ .ready → exec (.routeStart k) s = .next (replied k f .wrongState [] u))
      ∧ (s.route.state = .ready → 16777215 < hour → exec (.routeStart k) s = .next (replied k f .badArgument [] u))
      ∧ (s.route.state = .ready → hour ≤ 16777215 → ready →
        exec (.routeStart k) s = .next (replied k f .ok [] (starts u)))
      ∧ (s.route.state = .ready → hour ≤ 16777215 → ¬ ready →
        exec (.routeStart k) s = .next (s.setLink k { s.link k with
          requests := rest, dispatcher := .routeStart f.tag hour })))
    ∧ (∀ tag, Running s → (s.link k).dispatcher = .routeStart tag hour → hour ≤ 16777215 →
      let f : RequestFrame := { tag := tag, payload := [19] }
      let u := s.setLink k { s.link k with dispatcher := .idle }
      (¬ ready → exec (.routeStartExecute k) s = .next s)
      ∧ (ready → s.route.state = .ready → exec (.routeStartExecute k) s = .next (replied k f .ok [] (starts u)))
      ∧ (ready → s.route.state ≠ .ready → exec (.routeStartExecute k) s = .next (replied k f .wrongState [] u)))

/-- ROUTE_END starts the close of every open segment, SEGMENT_CLOSE of one, SEGMENT_REOPEN turns a closed one back for its
next pass, and SEGMENT_SET writes the settings and the deadline that follows; each with its refusals in order. Auto-close
on is coded 0 and off 1 (log entry 9, DEDUCED); a deadline already reached is left to its own command (log entry 4,
DEDUCED); the walk position of a segment without entries is absent (log entry 12, DESIGN CHOICE). -/
def Obligations.RouteEndAndSegmentRequests : Prop :=
  ∀ (s : State) (k : Link) (f : RequestFrame) (rest : List RequestFrame),
    let u := withRequests s k rest
    let closing (n : Nat) (reason : CloseReason) (g : Segment) : Segment :=
      { g with
        state := .closing, closeReason := some reason, deadline := none, deadlineReason := none,
        walkPosition := s.book.findIdx? (fun e => decide (e.segment = n)), waiting := none }
    let refused (c : Instr) (status : Status) : Prop := exec c s = .next (replied k f status [] u)
    (Takes s k f rest .routeEnd →
      (s.route.state ≠ .running → refused (.routeEnd k) .wrongState)
      ∧ (s.route.state = .running →
        let t := raiseEvent { u with route := { s.route with state := .ending } } .routeState s.route.id 4
        exec (.routeEnd k) s = .next (replied k f .ok [] { t with
          segments := s.segments.mapIdx (fun n g =>
            if g.state = .pending ∨ g.state = .active then closing n .routeEnd g else g) })))
    ∧ (∀ n, Takes s k f rest (.segmentClose n) →
      let routed := s.route.state = .running ∨ s.route.state = .ending
      (¬ routed → refused (.segmentClose k) .wrongState)
      ∧ (routed → s.route.declaredSegments ≤ n → refused (.segmentClose k) .badArgument)
      ∧ (routed → n < s.route.declaredSegments → ∀ g, s.segments[n]? = some g →
        (g.state = .closing → refused (.segmentClose k) .busy)
        ∧ (g.state = .closed → refused (.segmentClose k) .wrongState)
        ∧ (g.state = .pending ∨ g.state = .active →
          exec (.segmentClose k) s =
            .next (replied k f .ok [] { u with segments := s.segments.set n (closing n .request g) }))))
    ∧ (∀ n, Takes s k f rest (.segmentReopen n) →
      (s.route.state ≠ .running → refused (.segmentReopen k) .wrongState)
      ∧ (s.route.state = .running → s.route.declaredSegments ≤ n → refused (.segmentReopen k) .badArgument)
      ∧ (s.route.state = .running → n < s.route.declaredSegments → ∀ g, s.segments[n]? = some g →
        (g.state = .pending ∨ g.state = .active → refused (.segmentReopen k) .wrongState)
        ∧ (g.state = .closing → refused (.segmentReopen k) .busy)
        ∧ (g.state = .closed → 3 ≤ g.pass → refused (.segmentReopen k) .wrongState)
        ∧ (g.state = .closed → g.pass < 3 →
          exec (.segmentReopen k) s = .next (replied k f .ok
            (bigEndian 1 (g.pass + 1) ++ bigEndian 2 (g.unheard + g.missed)) { u with
            book := s.book.map (fun e =>
              if e.options.getLsbD 1 = false ∧ e.segment = n ∧ e.hearing = .missed then { e with hearing := .unheard }
              else e)
            segments := s.segments.set n (recompute { g with
              state := .active, pass := g.pass + 1, unheard := g.unheard + g.missed, missed := 0,
              activation := some s.clock.value, lastHeard := some s.clock.value }) }))))
    ∧ (∀ n autoClose quietTime minDwell, Takes s k f rest (.segmentSet n autoClose quietTime minDwell) →
      let open_ := (s.route.state = .loading ∧ s.route.owner = some k) ∨ s.route.state = .ready ∨ s.route.state = .running
      let wrong := s.route.declaredSegments ≤ n ∨ 1 < autoClose ∨ quietTime < 10 ∨ 3600 < quietTime ∨ 3600 < minDwell
      (s.route.state = .empty ∨ s.route.state = .ending ∨ s.route.state = .ended → refused (.segmentSet k) .wrongState)
      ∧ (s.route.state = .loading → s.route.owner ≠ some k → refused (.segmentSet k) .busy)
      ∧ (open_ → wrong → refused (.segmentSet k) .badArgument)
      ∧ (open_ → ¬ wrong → ∀ g, s.segments[n]? = some g →
        (s.route.state = .running → (g.state = .closing ∨ g.state = .closed) → refused (.segmentSet k) .wrongState)
        ∧ (s.route.state ≠ .running ∨ g.state = .pending ∨ g.state = .active →
          exec (.segmentSet k) s = .next (replied k f .ok [] { u with
            segments := s.segments.set n (recompute { g with
              autoClose := decide (autoClose = 0), quietTime := quietTime, minDwell := minDwell }) }))))

/-! ## Resets -/

/-- The RESET line holds the part in warm reset and its release starts it again with RESTART and WARM_LINE; a cold reset
starts it from its reset values. With power applied under an asserted line the kind of RESTART is open (log entry 16,
DESIGN CHOICE). While the part is held, every command but the line's release, a cold reset and the levels of the DOCK line
leaves the state as it is (log entry 18, DEDUCED), and a release while running and an assertion while asserted change
nothing (log entry 1, DESIGN CHOICE). The strap's level is an operand (log entry 23, DESIGN CHOICE), a cold reset keeps
the bytes of the record memory (log entry 14, DESIGN CHOICE), and the timebase counts on through every reset (log entry 33,
DESIGN CHOICE). -/
def Obligations.ResetLineHoldsAndStartsThePart : Prop :=
  (∀ (c : Instr) (s : State), s.pins.resetLine = true → c ≠ .dockAssert → c ≠ .dockDeassert →
    (∀ x, c ≠ .resetLineRelease x) → (∀ x, c ≠ .coldReset x) → exec c s = .next s)
  ∧ (∀ (s : State) (strap : TrunkRate),
    let cold : State :=
      { memory := s.memory, pins := { s.pins with strap := strap, trunkRate := strap }, timebase := s.timebase,
        freeCounter := s.freeCounter, pending := s.pending }
    (Running s →
      exec .resetLineAssert s = .next { retained s with pins := { s.pins with resetLine := true, coldInReset := false } }
      ∧ exec (.resetLineRelease strap) s = .next s
      ∧ exec (.coldReset strap) s = .next (started cold 0))
    ∧ (s.pins.resetLine = true →
      exec .resetLineAssert s = .next s
      ∧ exec (.coldReset strap) s = .next { cold with pins := { cold.pins with coldInReset := true } })
    ∧ (s.pins.resetLine = true → retained s = s →
      let pins : Pins := { s.pins with resetLine := false, strap := strap }
      (s.pins.coldInReset = false →
        exec (.resetLineRelease strap) s = .next (started { s with pins := pins } 1))
      ∧ (s.pins.coldInReset = true →
        ∃ n, (n = 0 ∨ n = 1) ∧ exec (.resetLineRelease strap) s =
          .next (started { s with pins := pins, freeCounter := s.freeCounter + 1 } n))))
end

