-- ==== Sys2Proof/Laws/Encoding.lean ====
section
/-! SUPPORT. Taking bytes and writing them: what was written is what is taken, and the rest is left (R187, R189). -/

namespace Sys2Proof.Machine

@[simp] theorem bigEndian_length (w n : Nat) : (bigEndian w n).length = w := by
  induction w with
  | zero => rfl
  | succ w ih => simp [bigEndian, ih]

theorem fromBigEndian_snoc (xs : List Byte) (y : Byte) :
    fromBigEndian (xs ++ [y]) = fromBigEndian xs * 256 + y.toNat := by simp [fromBigEndian]

theorem fromBigEndian_append (xs ys : List Byte) :
    fromBigEndian (xs ++ ys) = fromBigEndian xs * 256 ^ ys.length + fromBigEndian ys := by
  induction ys using List.reverseRecOn with
  | nil => simp [fromBigEndian]
  | append_singleton ys y ih =>
    rw [← List.append_assoc, fromBigEndian_snoc, fromBigEndian_snoc, ih, List.length_append, List.length_singleton,
      pow_succ]
    ring

/-- A number below 256^w is read back from the `w` bytes that spell it (R187). -/
theorem fromBigEndian_bigEndian (w n : Nat) (h : n < 256 ^ w) : fromBigEndian (bigEndian w n) = n := by
  have key (w n : Nat) : fromBigEndian (bigEndian w n) = n % 256 ^ w := by
    induction w with
    | zero => simp [bigEndian, fromBigEndian, Nat.mod_one]
    | succ w ih =>
      have one : fromBigEndian [BitVec.ofNat 8 (n / 256 ^ w)] = n / 256 ^ w % 256 := by
        simp [fromBigEndian, BitVec.toNat_ofNat]
      rw [bigEndian, ← List.singleton_append, fromBigEndian_append, ih, bigEndian_length, one, pow_succ, Nat.mod_mul,
        Nat.mul_comm]
      omega
  rw [key, Nat.mod_eq_of_lt h]

/-- Taking a number that was written leaves what follows it. -/
theorem takeNat_bigEndian (w n : Nat) (rest : List Byte) (h : n < 256 ^ w) :
    takeNat w (bigEndian w n ++ rest) = some (n, rest) := by
  simp [takeNat, fromBigEndian_bigEndian w n h]

theorem takeOptional_optionalBytes (w : Nat) (x : Option Nat) (rest : List Byte) (h : optionFits w x = true) :
    takeOptional x.isSome w (optionalBytes w x ++ rest) = some (x, rest) := by
  cases x with
  | none => rfl
  | some n =>
    have hn : n < 256 ^ w := by simpa [optionFits, fitsIn] using h
    simp [takeOptional, optionalBytes, takeNat_bigEndian w n rest hn]

/-- Numbers that were written are taken with nothing left over. -/
theorem takeAll_writeAll (xs : List (Nat × Nat)) (h : allFit xs = true) :
    takeAll (xs.map (·.1)) (writeAll xs) = some (xs.map (·.2)) := by
  induction xs with
  | nil => rfl
  | cons x xs ih =>
    simp only [allFit, List.all_cons, Bool.and_eq_true] at h
    have hx : x.2 < 256 ^ x.1 := by simpa [fitsIn] using h.1
    simp only [List.map_cons, takeAll, writeAll]
    rw [takeNat_bigEndian _ _ _ hx]
    simp [ih h.2]

end Sys2Proof.Machine
end

