-- ==== Sys2Proof/Laws/State.lean ====
section
/-! SUPPORT. One lemma per field per named update of State, true by rfl: what an update writes and what it leaves. -/

namespace Sys2Proof.Machine

@[simp] theorem setLanes_lanes (s : State) (x : Vector Lane 8) : (s.setLanes x).lanes = x := rfl
@[simp] theorem setLanes_pool (s : State) (x : Vector Lane 8) : (s.setLanes x).pool = s.pool := rfl
@[simp] theorem setLanes_families (s : State) (x : Vector Lane 8) : (s.setLanes x).families = s.families := rfl
@[simp] theorem setLanes_services (s : State) (x : Vector Lane 8) : (s.setLanes x).services = s.services := rfl
@[simp] theorem setLanes_decoder (s : State) (x : Vector Lane 8) : (s.setLanes x).decoder = s.decoder := rfl
@[simp] theorem setLanes_pairing (s : State) (x : Vector Lane 8) : (s.setLanes x).pairing = s.pairing := rfl
@[simp] theorem setLanes_route (s : State) (x : Vector Lane 8) : (s.setLanes x).route = s.route := rfl
@[simp] theorem setLanes_book (s : State) (x : Vector Lane 8) : (s.setLanes x).book = s.book := rfl
@[simp] theorem setLanes_clock (s : State) (x : Vector Lane 8) : (s.setLanes x).clock = s.clock := rfl
@[simp] theorem setLanes_segments (s : State) (x : Vector Lane 8) : (s.setLanes x).segments = s.segments := rfl
@[simp] theorem setLanes_matcher (s : State) (x : Vector Lane 8) : (s.setLanes x).matcher = s.matcher := rfl
@[simp] theorem setLanes_rules (s : State) (x : Vector Lane 8) : (s.setLanes x).rules = s.rules := rfl
@[simp] theorem setLanes_screening (s : State) (x : Vector Lane 8) : (s.setLanes x).screening = s.screening := rfl
@[simp] theorem setLanes_routing (s : State) (x : Vector Lane 8) : (s.setLanes x).routing = s.routing := rfl
@[simp] theorem setLanes_builder (s : State) (x : Vector Lane 8) : (s.setLanes x).builder = s.builder := rfl
@[simp] theorem setLanes_store (s : State) (x : Vector Lane 8) : (s.setLanes x).store = s.store := rfl
@[simp] theorem setLanes_memory (s : State) (x : Vector Lane 8) : (s.setLanes x).memory = s.memory := rfl
@[simp] theorem setLanes_live (s : State) (x : Vector Lane 8) : (s.setLanes x).live = s.live := rfl
@[simp] theorem setLanes_uploader (s : State) (x : Vector Lane 8) : (s.setLanes x).uploader = s.uploader := rfl
@[simp] theorem setLanes_events (s : State) (x : Vector Lane 8) : (s.setLanes x).events = s.events := rfl
@[simp] theorem setLanes_faults (s : State) (x : Vector Lane 8) : (s.setLanes x).faults = s.faults := rfl
@[simp] theorem setLanes_trunk (s : State) (x : Vector Lane 8) : (s.setLanes x).trunk = s.trunk := rfl
@[simp] theorem setLanes_depot (s : State) (x : Vector Lane 8) : (s.setLanes x).depot = s.depot := rfl
@[simp] theorem setLanes_depotUp (s : State) (x : Vector Lane 8) : (s.setLanes x).depotUp = s.depotUp := rfl
@[simp] theorem setLanes_pins (s : State) (x : Vector Lane 8) : (s.setLanes x).pins = s.pins := rfl
@[simp] theorem setLanes_timebase (s : State) (x : Vector Lane 8) : (s.setLanes x).timebase = s.timebase := rfl
@[simp] theorem setLanes_freeCounter (s : State) (x : Vector Lane 8) : (s.setLanes x).freeCounter = s.freeCounter := rfl
@[simp] theorem setLanes_pending (s : State) (x : Vector Lane 8) : (s.setLanes x).pending = s.pending := rfl

@[simp] theorem setPool_lanes (s : State) (x : Pool) : (s.setPool x).lanes = s.lanes := rfl
@[simp] theorem setPool_pool (s : State) (x : Pool) : (s.setPool x).pool = x := rfl
@[simp] theorem setPool_families (s : State) (x : Pool) : (s.setPool x).families = s.families := rfl
@[simp] theorem setPool_services (s : State) (x : Pool) : (s.setPool x).services = s.services := rfl
@[simp] theorem setPool_decoder (s : State) (x : Pool) : (s.setPool x).decoder = s.decoder := rfl
@[simp] theorem setPool_pairing (s : State) (x : Pool) : (s.setPool x).pairing = s.pairing := rfl
@[simp] theorem setPool_route (s : State) (x : Pool) : (s.setPool x).route = s.route := rfl
@[simp] theorem setPool_book (s : State) (x : Pool) : (s.setPool x).book = s.book := rfl
@[simp] theorem setPool_clock (s : State) (x : Pool) : (s.setPool x).clock = s.clock := rfl
@[simp] theorem setPool_segments (s : State) (x : Pool) : (s.setPool x).segments = s.segments := rfl
@[simp] theorem setPool_matcher (s : State) (x : Pool) : (s.setPool x).matcher = s.matcher := rfl
@[simp] theorem setPool_rules (s : State) (x : Pool) : (s.setPool x).rules = s.rules := rfl
@[simp] theorem setPool_screening (s : State) (x : Pool) : (s.setPool x).screening = s.screening := rfl
@[simp] theorem setPool_routing (s : State) (x : Pool) : (s.setPool x).routing = s.routing := rfl
@[simp] theorem setPool_builder (s : State) (x : Pool) : (s.setPool x).builder = s.builder := rfl
@[simp] theorem setPool_store (s : State) (x : Pool) : (s.setPool x).store = s.store := rfl
@[simp] theorem setPool_memory (s : State) (x : Pool) : (s.setPool x).memory = s.memory := rfl
@[simp] theorem setPool_live (s : State) (x : Pool) : (s.setPool x).live = s.live := rfl
@[simp] theorem setPool_uploader (s : State) (x : Pool) : (s.setPool x).uploader = s.uploader := rfl
@[simp] theorem setPool_events (s : State) (x : Pool) : (s.setPool x).events = s.events := rfl
@[simp] theorem setPool_faults (s : State) (x : Pool) : (s.setPool x).faults = s.faults := rfl
@[simp] theorem setPool_trunk (s : State) (x : Pool) : (s.setPool x).trunk = s.trunk := rfl
@[simp] theorem setPool_depot (s : State) (x : Pool) : (s.setPool x).depot = s.depot := rfl
@[simp] theorem setPool_depotUp (s : State) (x : Pool) : (s.setPool x).depotUp = s.depotUp := rfl
@[simp] theorem setPool_pins (s : State) (x : Pool) : (s.setPool x).pins = s.pins := rfl
@[simp] theorem setPool_timebase (s : State) (x : Pool) : (s.setPool x).timebase = s.timebase := rfl
@[simp] theorem setPool_freeCounter (s : State) (x : Pool) : (s.setPool x).freeCounter = s.freeCounter := rfl
@[simp] theorem setPool_pending (s : State) (x : Pool) : (s.setPool x).pending = s.pending := rfl

@[simp] theorem setFamilies_lanes (s : State) (x : Vector (Option Profile) 16) : (s.setFamilies x).lanes = s.lanes := rfl
@[simp] theorem setFamilies_pool (s : State) (x : Vector (Option Profile) 16) : (s.setFamilies x).pool = s.pool := rfl
@[simp] theorem setFamilies_families (s : State) (x : Vector (Option Profile) 16) : (s.setFamilies x).families = x := rfl
@[simp] theorem setFamilies_services (s : State) (x : Vector (Option Profile) 16) : (s.setFamilies x).services = s.services := rfl
@[simp] theorem setFamilies_decoder (s : State) (x : Vector (Option Profile) 16) : (s.setFamilies x).decoder = s.decoder := rfl
@[simp] theorem setFamilies_pairing (s : State) (x : Vector (Option Profile) 16) : (s.setFamilies x).pairing = s.pairing := rfl
@[simp] theorem setFamilies_route (s : State) (x : Vector (Option Profile) 16) : (s.setFamilies x).route = s.route := rfl
@[simp] theorem setFamilies_book (s : State) (x : Vector (Option Profile) 16) : (s.setFamilies x).book = s.book := rfl
@[simp] theorem setFamilies_clock (s : State) (x : Vector (Option Profile) 16) : (s.setFamilies x).clock = s.clock := rfl
@[simp] theorem setFamilies_segments (s : State) (x : Vector (Option Profile) 16) : (s.setFamilies x).segments = s.segments := rfl
@[simp] theorem setFamilies_matcher (s : State) (x : Vector (Option Profile) 16) : (s.setFamilies x).matcher = s.matcher := rfl
@[simp] theorem setFamilies_rules (s : State) (x : Vector (Option Profile) 16) : (s.setFamilies x).rules = s.rules := rfl
@[simp] theorem setFamilies_screening (s : State) (x : Vector (Option Profile) 16) : (s.setFamilies x).screening = s.screening := rfl
@[simp] theorem setFamilies_routing (s : State) (x : Vector (Option Profile) 16) : (s.setFamilies x).routing = s.routing := rfl
@[simp] theorem setFamilies_builder (s : State) (x : Vector (Option Profile) 16) : (s.setFamilies x).builder = s.builder := rfl
@[simp] theorem setFamilies_store (s : State) (x : Vector (Option Profile) 16) : (s.setFamilies x).store = s.store := rfl
@[simp] theorem setFamilies_memory (s : State) (x : Vector (Option Profile) 16) : (s.setFamilies x).memory = s.memory := rfl
@[simp] theorem setFamilies_live (s : State) (x : Vector (Option Profile) 16) : (s.setFamilies x).live = s.live := rfl
@[simp] theorem setFamilies_uploader (s : State) (x : Vector (Option Profile) 16) : (s.setFamilies x).uploader = s.uploader := rfl
@[simp] theorem setFamilies_events (s : State) (x : Vector (Option Profile) 16) : (s.setFamilies x).events = s.events := rfl
@[simp] theorem setFamilies_faults (s : State) (x : Vector (Option Profile) 16) : (s.setFamilies x).faults = s.faults := rfl
@[simp] theorem setFamilies_trunk (s : State) (x : Vector (Option Profile) 16) : (s.setFamilies x).trunk = s.trunk := rfl
@[simp] theorem setFamilies_depot (s : State) (x : Vector (Option Profile) 16) : (s.setFamilies x).depot = s.depot := rfl
@[simp] theorem setFamilies_depotUp (s : State) (x : Vector (Option Profile) 16) : (s.setFamilies x).depotUp = s.depotUp := rfl
@[simp] theorem setFamilies_pins (s : State) (x : Vector (Option Profile) 16) : (s.setFamilies x).pins = s.pins := rfl
@[simp] theorem setFamilies_timebase (s : State) (x : Vector (Option Profile) 16) : (s.setFamilies x).timebase = s.timebase := rfl
@[simp] theorem setFamilies_freeCounter (s : State) (x : Vector (Option Profile) 16) : (s.setFamilies x).freeCounter = s.freeCounter := rfl
@[simp] theorem setFamilies_pending (s : State) (x : Vector (Option Profile) 16) : (s.setFamilies x).pending = s.pending := rfl

@[simp] theorem setServices_lanes (s : State) (x : Vector (Option ServiceEntry) 16) : (s.setServices x).lanes = s.lanes := rfl
@[simp] theorem setServices_pool (s : State) (x : Vector (Option ServiceEntry) 16) : (s.setServices x).pool = s.pool := rfl
@[simp] theorem setServices_families (s : State) (x : Vector (Option ServiceEntry) 16) : (s.setServices x).families = s.families := rfl
@[simp] theorem setServices_services (s : State) (x : Vector (Option ServiceEntry) 16) : (s.setServices x).services = x := rfl
@[simp] theorem setServices_decoder (s : State) (x : Vector (Option ServiceEntry) 16) : (s.setServices x).decoder = s.decoder := rfl
@[simp] theorem setServices_pairing (s : State) (x : Vector (Option ServiceEntry) 16) : (s.setServices x).pairing = s.pairing := rfl
@[simp] theorem setServices_route (s : State) (x : Vector (Option ServiceEntry) 16) : (s.setServices x).route = s.route := rfl
@[simp] theorem setServices_book (s : State) (x : Vector (Option ServiceEntry) 16) : (s.setServices x).book = s.book := rfl
@[simp] theorem setServices_clock (s : State) (x : Vector (Option ServiceEntry) 16) : (s.setServices x).clock = s.clock := rfl
@[simp] theorem setServices_segments (s : State) (x : Vector (Option ServiceEntry) 16) : (s.setServices x).segments = s.segments := rfl
@[simp] theorem setServices_matcher (s : State) (x : Vector (Option ServiceEntry) 16) : (s.setServices x).matcher = s.matcher := rfl
@[simp] theorem setServices_rules (s : State) (x : Vector (Option ServiceEntry) 16) : (s.setServices x).rules = s.rules := rfl
@[simp] theorem setServices_screening (s : State) (x : Vector (Option ServiceEntry) 16) : (s.setServices x).screening = s.screening := rfl
@[simp] theorem setServices_routing (s : State) (x : Vector (Option ServiceEntry) 16) : (s.setServices x).routing = s.routing := rfl
@[simp] theorem setServices_builder (s : State) (x : Vector (Option ServiceEntry) 16) : (s.setServices x).builder = s.builder := rfl
@[simp] theorem setServices_store (s : State) (x : Vector (Option ServiceEntry) 16) : (s.setServices x).store = s.store := rfl
@[simp] theorem setServices_memory (s : State) (x : Vector (Option ServiceEntry) 16) : (s.setServices x).memory = s.memory := rfl
@[simp] theorem setServices_live (s : State) (x : Vector (Option ServiceEntry) 16) : (s.setServices x).live = s.live := rfl
@[simp] theorem setServices_uploader (s : State) (x : Vector (Option ServiceEntry) 16) : (s.setServices x).uploader = s.uploader := rfl
@[simp] theorem setServices_events (s : State) (x : Vector (Option ServiceEntry) 16) : (s.setServices x).events = s.events := rfl
@[simp] theorem setServices_faults (s : State) (x : Vector (Option ServiceEntry) 16) : (s.setServices x).faults = s.faults := rfl
@[simp] theorem setServices_trunk (s : State) (x : Vector (Option ServiceEntry) 16) : (s.setServices x).trunk = s.trunk := rfl
@[simp] theorem setServices_depot (s : State) (x : Vector (Option ServiceEntry) 16) : (s.setServices x).depot = s.depot := rfl
@[simp] theorem setServices_depotUp (s : State) (x : Vector (Option ServiceEntry) 16) : (s.setServices x).depotUp = s.depotUp := rfl
@[simp] theorem setServices_pins (s : State) (x : Vector (Option ServiceEntry) 16) : (s.setServices x).pins = s.pins := rfl
@[simp] theorem setServices_timebase (s : State) (x : Vector (Option ServiceEntry) 16) : (s.setServices x).timebase = s.timebase := rfl
@[simp] theorem setServices_freeCounter (s : State) (x : Vector (Option ServiceEntry) 16) : (s.setServices x).freeCounter = s.freeCounter := rfl
@[simp] theorem setServices_pending (s : State) (x : Vector (Option ServiceEntry) 16) : (s.setServices x).pending = s.pending := rfl

@[simp] theorem setDecoder_lanes (s : State) (x : Decoder) : (s.setDecoder x).lanes = s.lanes := rfl
@[simp] theorem setDecoder_pool (s : State) (x : Decoder) : (s.setDecoder x).pool = s.pool := rfl
@[simp] theorem setDecoder_families (s : State) (x : Decoder) : (s.setDecoder x).families = s.families := rfl
@[simp] theorem setDecoder_services (s : State) (x : Decoder) : (s.setDecoder x).services = s.services := rfl
@[simp] theorem setDecoder_decoder (s : State) (x : Decoder) : (s.setDecoder x).decoder = x := rfl
@[simp] theorem setDecoder_pairing (s : State) (x : Decoder) : (s.setDecoder x).pairing = s.pairing := rfl
@[simp] theorem setDecoder_route (s : State) (x : Decoder) : (s.setDecoder x).route = s.route := rfl
@[simp] theorem setDecoder_book (s : State) (x : Decoder) : (s.setDecoder x).book = s.book := rfl
@[simp] theorem setDecoder_clock (s : State) (x : Decoder) : (s.setDecoder x).clock = s.clock := rfl
@[simp] theorem setDecoder_segments (s : State) (x : Decoder) : (s.setDecoder x).segments = s.segments := rfl
@[simp] theorem setDecoder_matcher (s : State) (x : Decoder) : (s.setDecoder x).matcher = s.matcher := rfl
@[simp] theorem setDecoder_rules (s : State) (x : Decoder) : (s.setDecoder x).rules = s.rules := rfl
@[simp] theorem setDecoder_screening (s : State) (x : Decoder) : (s.setDecoder x).screening = s.screening := rfl
@[simp] theorem setDecoder_routing (s : State) (x : Decoder) : (s.setDecoder x).routing = s.routing := rfl
@[simp] theorem setDecoder_builder (s : State) (x : Decoder) : (s.setDecoder x).builder = s.builder := rfl
@[simp] theorem setDecoder_store (s : State) (x : Decoder) : (s.setDecoder x).store = s.store := rfl
@[simp] theorem setDecoder_memory (s : State) (x : Decoder) : (s.setDecoder x).memory = s.memory := rfl
@[simp] theorem setDecoder_live (s : State) (x : Decoder) : (s.setDecoder x).live = s.live := rfl
@[simp] theorem setDecoder_uploader (s : State) (x : Decoder) : (s.setDecoder x).uploader = s.uploader := rfl
@[simp] theorem setDecoder_events (s : State) (x : Decoder) : (s.setDecoder x).events = s.events := rfl
@[simp] theorem setDecoder_faults (s : State) (x : Decoder) : (s.setDecoder x).faults = s.faults := rfl
@[simp] theorem setDecoder_trunk (s : State) (x : Decoder) : (s.setDecoder x).trunk = s.trunk := rfl
@[simp] theorem setDecoder_depot (s : State) (x : Decoder) : (s.setDecoder x).depot = s.depot := rfl
@[simp] theorem setDecoder_depotUp (s : State) (x : Decoder) : (s.setDecoder x).depotUp = s.depotUp := rfl
@[simp] theorem setDecoder_pins (s : State) (x : Decoder) : (s.setDecoder x).pins = s.pins := rfl
@[simp] theorem setDecoder_timebase (s : State) (x : Decoder) : (s.setDecoder x).timebase = s.timebase := rfl
@[simp] theorem setDecoder_freeCounter (s : State) (x : Decoder) : (s.setDecoder x).freeCounter = s.freeCounter := rfl
@[simp] theorem setDecoder_pending (s : State) (x : Decoder) : (s.setDecoder x).pending = s.pending := rfl

@[simp] theorem setPairing_lanes (s : State) (x : PairingUnit) : (s.setPairing x).lanes = s.lanes := rfl
@[simp] theorem setPairing_pool (s : State) (x : PairingUnit) : (s.setPairing x).pool = s.pool := rfl
@[simp] theorem setPairing_families (s : State) (x : PairingUnit) : (s.setPairing x).families = s.families := rfl
@[simp] theorem setPairing_services (s : State) (x : PairingUnit) : (s.setPairing x).services = s.services := rfl
@[simp] theorem setPairing_decoder (s : State) (x : PairingUnit) : (s.setPairing x).decoder = s.decoder := rfl
@[simp] theorem setPairing_pairing (s : State) (x : PairingUnit) : (s.setPairing x).pairing = x := rfl
@[simp] theorem setPairing_route (s : State) (x : PairingUnit) : (s.setPairing x).route = s.route := rfl
@[simp] theorem setPairing_book (s : State) (x : PairingUnit) : (s.setPairing x).book = s.book := rfl
@[simp] theorem setPairing_clock (s : State) (x : PairingUnit) : (s.setPairing x).clock = s.clock := rfl
@[simp] theorem setPairing_segments (s : State) (x : PairingUnit) : (s.setPairing x).segments = s.segments := rfl
@[simp] theorem setPairing_matcher (s : State) (x : PairingUnit) : (s.setPairing x).matcher = s.matcher := rfl
@[simp] theorem setPairing_rules (s : State) (x : PairingUnit) : (s.setPairing x).rules = s.rules := rfl
@[simp] theorem setPairing_screening (s : State) (x : PairingUnit) : (s.setPairing x).screening = s.screening := rfl
@[simp] theorem setPairing_routing (s : State) (x : PairingUnit) : (s.setPairing x).routing = s.routing := rfl
@[simp] theorem setPairing_builder (s : State) (x : PairingUnit) : (s.setPairing x).builder = s.builder := rfl
@[simp] theorem setPairing_store (s : State) (x : PairingUnit) : (s.setPairing x).store = s.store := rfl
@[simp] theorem setPairing_memory (s : State) (x : PairingUnit) : (s.setPairing x).memory = s.memory := rfl
@[simp] theorem setPairing_live (s : State) (x : PairingUnit) : (s.setPairing x).live = s.live := rfl
@[simp] theorem setPairing_uploader (s : State) (x : PairingUnit) : (s.setPairing x).uploader = s.uploader := rfl
@[simp] theorem setPairing_events (s : State) (x : PairingUnit) : (s.setPairing x).events = s.events := rfl
@[simp] theorem setPairing_faults (s : State) (x : PairingUnit) : (s.setPairing x).faults = s.faults := rfl
@[simp] theorem setPairing_trunk (s : State) (x : PairingUnit) : (s.setPairing x).trunk = s.trunk := rfl
@[simp] theorem setPairing_depot (s : State) (x : PairingUnit) : (s.setPairing x).depot = s.depot := rfl
@[simp] theorem setPairing_depotUp (s : State) (x : PairingUnit) : (s.setPairing x).depotUp = s.depotUp := rfl
@[simp] theorem setPairing_pins (s : State) (x : PairingUnit) : (s.setPairing x).pins = s.pins := rfl
@[simp] theorem setPairing_timebase (s : State) (x : PairingUnit) : (s.setPairing x).timebase = s.timebase := rfl
@[simp] theorem setPairing_freeCounter (s : State) (x : PairingUnit) : (s.setPairing x).freeCounter = s.freeCounter := rfl
@[simp] theorem setPairing_pending (s : State) (x : PairingUnit) : (s.setPairing x).pending = s.pending := rfl

@[simp] theorem setRoute_lanes (s : State) (x : Route) : (s.setRoute x).lanes = s.lanes := rfl
@[simp] theorem setRoute_pool (s : State) (x : Route) : (s.setRoute x).pool = s.pool := rfl
@[simp] theorem setRoute_families (s : State) (x : Route) : (s.setRoute x).families = s.families := rfl
@[simp] theorem setRoute_services (s : State) (x : Route) : (s.setRoute x).services = s.services := rfl
@[simp] theorem setRoute_decoder (s : State) (x : Route) : (s.setRoute x).decoder = s.decoder := rfl
@[simp] theorem setRoute_pairing (s : State) (x : Route) : (s.setRoute x).pairing = s.pairing := rfl
@[simp] theorem setRoute_route (s : State) (x : Route) : (s.setRoute x).route = x := rfl
@[simp] theorem setRoute_book (s : State) (x : Route) : (s.setRoute x).book = s.book := rfl
@[simp] theorem setRoute_clock (s : State) (x : Route) : (s.setRoute x).clock = s.clock := rfl
@[simp] theorem setRoute_segments (s : State) (x : Route) : (s.setRoute x).segments = s.segments := rfl
@[simp] theorem setRoute_matcher (s : State) (x : Route) : (s.setRoute x).matcher = s.matcher := rfl
@[simp] theorem setRoute_rules (s : State) (x : Route) : (s.setRoute x).rules = s.rules := rfl
@[simp] theorem setRoute_screening (s : State) (x : Route) : (s.setRoute x).screening = s.screening := rfl
@[simp] theorem setRoute_routing (s : State) (x : Route) : (s.setRoute x).routing = s.routing := rfl
@[simp] theorem setRoute_builder (s : State) (x : Route) : (s.setRoute x).builder = s.builder := rfl
@[simp] theorem setRoute_store (s : State) (x : Route) : (s.setRoute x).store = s.store := rfl
@[simp] theorem setRoute_memory (s : State) (x : Route) : (s.setRoute x).memory = s.memory := rfl
@[simp] theorem setRoute_live (s : State) (x : Route) : (s.setRoute x).live = s.live := rfl
@[simp] theorem setRoute_uploader (s : State) (x : Route) : (s.setRoute x).uploader = s.uploader := rfl
@[simp] theorem setRoute_events (s : State) (x : Route) : (s.setRoute x).events = s.events := rfl
@[simp] theorem setRoute_faults (s : State) (x : Route) : (s.setRoute x).faults = s.faults := rfl
@[simp] theorem setRoute_trunk (s : State) (x : Route) : (s.setRoute x).trunk = s.trunk := rfl
@[simp] theorem setRoute_depot (s : State) (x : Route) : (s.setRoute x).depot = s.depot := rfl
@[simp] theorem setRoute_depotUp (s : State) (x : Route) : (s.setRoute x).depotUp = s.depotUp := rfl
@[simp] theorem setRoute_pins (s : State) (x : Route) : (s.setRoute x).pins = s.pins := rfl
@[simp] theorem setRoute_timebase (s : State) (x : Route) : (s.setRoute x).timebase = s.timebase := rfl
@[simp] theorem setRoute_freeCounter (s : State) (x : Route) : (s.setRoute x).freeCounter = s.freeCounter := rfl
@[simp] theorem setRoute_pending (s : State) (x : Route) : (s.setRoute x).pending = s.pending := rfl

@[simp] theorem setBook_lanes (s : State) (x : List Entry) : (s.setBook x).lanes = s.lanes := rfl
@[simp] theorem setBook_pool (s : State) (x : List Entry) : (s.setBook x).pool = s.pool := rfl
@[simp] theorem setBook_families (s : State) (x : List Entry) : (s.setBook x).families = s.families := rfl
@[simp] theorem setBook_services (s : State) (x : List Entry) : (s.setBook x).services = s.services := rfl
@[simp] theorem setBook_decoder (s : State) (x : List Entry) : (s.setBook x).decoder = s.decoder := rfl
@[simp] theorem setBook_pairing (s : State) (x : List Entry) : (s.setBook x).pairing = s.pairing := rfl
@[simp] theorem setBook_route (s : State) (x : List Entry) : (s.setBook x).route = s.route := rfl
@[simp] theorem setBook_book (s : State) (x : List Entry) : (s.setBook x).book = x := rfl
@[simp] theorem setBook_clock (s : State) (x : List Entry) : (s.setBook x).clock = s.clock := rfl
@[simp] theorem setBook_segments (s : State) (x : List Entry) : (s.setBook x).segments = s.segments := rfl
@[simp] theorem setBook_matcher (s : State) (x : List Entry) : (s.setBook x).matcher = s.matcher := rfl
@[simp] theorem setBook_rules (s : State) (x : List Entry) : (s.setBook x).rules = s.rules := rfl
@[simp] theorem setBook_screening (s : State) (x : List Entry) : (s.setBook x).screening = s.screening := rfl
@[simp] theorem setBook_routing (s : State) (x : List Entry) : (s.setBook x).routing = s.routing := rfl
@[simp] theorem setBook_builder (s : State) (x : List Entry) : (s.setBook x).builder = s.builder := rfl
@[simp] theorem setBook_store (s : State) (x : List Entry) : (s.setBook x).store = s.store := rfl
@[simp] theorem setBook_memory (s : State) (x : List Entry) : (s.setBook x).memory = s.memory := rfl
@[simp] theorem setBook_live (s : State) (x : List Entry) : (s.setBook x).live = s.live := rfl
@[simp] theorem setBook_uploader (s : State) (x : List Entry) : (s.setBook x).uploader = s.uploader := rfl
@[simp] theorem setBook_events (s : State) (x : List Entry) : (s.setBook x).events = s.events := rfl
@[simp] theorem setBook_faults (s : State) (x : List Entry) : (s.setBook x).faults = s.faults := rfl
@[simp] theorem setBook_trunk (s : State) (x : List Entry) : (s.setBook x).trunk = s.trunk := rfl
@[simp] theorem setBook_depot (s : State) (x : List Entry) : (s.setBook x).depot = s.depot := rfl
@[simp] theorem setBook_depotUp (s : State) (x : List Entry) : (s.setBook x).depotUp = s.depotUp := rfl
@[simp] theorem setBook_pins (s : State) (x : List Entry) : (s.setBook x).pins = s.pins := rfl
@[simp] theorem setBook_timebase (s : State) (x : List Entry) : (s.setBook x).timebase = s.timebase := rfl
@[simp] theorem setBook_freeCounter (s : State) (x : List Entry) : (s.setBook x).freeCounter = s.freeCounter := rfl
@[simp] theorem setBook_pending (s : State) (x : List Entry) : (s.setBook x).pending = s.pending := rfl

@[simp] theorem setClock_lanes (s : State) (x : Clock) : (s.setClock x).lanes = s.lanes := rfl
@[simp] theorem setClock_pool (s : State) (x : Clock) : (s.setClock x).pool = s.pool := rfl
@[simp] theorem setClock_families (s : State) (x : Clock) : (s.setClock x).families = s.families := rfl
@[simp] theorem setClock_services (s : State) (x : Clock) : (s.setClock x).services = s.services := rfl
@[simp] theorem setClock_decoder (s : State) (x : Clock) : (s.setClock x).decoder = s.decoder := rfl
@[simp] theorem setClock_pairing (s : State) (x : Clock) : (s.setClock x).pairing = s.pairing := rfl
@[simp] theorem setClock_route (s : State) (x : Clock) : (s.setClock x).route = s.route := rfl
@[simp] theorem setClock_book (s : State) (x : Clock) : (s.setClock x).book = s.book := rfl
@[simp] theorem setClock_clock (s : State) (x : Clock) : (s.setClock x).clock = x := rfl
@[simp] theorem setClock_segments (s : State) (x : Clock) : (s.setClock x).segments = s.segments := rfl
@[simp] theorem setClock_matcher (s : State) (x : Clock) : (s.setClock x).matcher = s.matcher := rfl
@[simp] theorem setClock_rules (s : State) (x : Clock) : (s.setClock x).rules = s.rules := rfl
@[simp] theorem setClock_screening (s : State) (x : Clock) : (s.setClock x).screening = s.screening := rfl
@[simp] theorem setClock_routing (s : State) (x : Clock) : (s.setClock x).routing = s.routing := rfl
@[simp] theorem setClock_builder (s : State) (x : Clock) : (s.setClock x).builder = s.builder := rfl
@[simp] theorem setClock_store (s : State) (x : Clock) : (s.setClock x).store = s.store := rfl
@[simp] theorem setClock_memory (s : State) (x : Clock) : (s.setClock x).memory = s.memory := rfl
@[simp] theorem setClock_live (s : State) (x : Clock) : (s.setClock x).live = s.live := rfl
@[simp] theorem setClock_uploader (s : State) (x : Clock) : (s.setClock x).uploader = s.uploader := rfl
@[simp] theorem setClock_events (s : State) (x : Clock) : (s.setClock x).events = s.events := rfl
@[simp] theorem setClock_faults (s : State) (x : Clock) : (s.setClock x).faults = s.faults := rfl
@[simp] theorem setClock_trunk (s : State) (x : Clock) : (s.setClock x).trunk = s.trunk := rfl
@[simp] theorem setClock_depot (s : State) (x : Clock) : (s.setClock x).depot = s.depot := rfl
@[simp] theorem setClock_depotUp (s : State) (x : Clock) : (s.setClock x).depotUp = s.depotUp := rfl
@[simp] theorem setClock_pins (s : State) (x : Clock) : (s.setClock x).pins = s.pins := rfl
@[simp] theorem setClock_timebase (s : State) (x : Clock) : (s.setClock x).timebase = s.timebase := rfl
@[simp] theorem setClock_freeCounter (s : State) (x : Clock) : (s.setClock x).freeCounter = s.freeCounter := rfl
@[simp] theorem setClock_pending (s : State) (x : Clock) : (s.setClock x).pending = s.pending := rfl

@[simp] theorem setSegments_lanes (s : State) (x : List Segment) : (s.setSegments x).lanes = s.lanes := rfl
@[simp] theorem setSegments_pool (s : State) (x : List Segment) : (s.setSegments x).pool = s.pool := rfl
@[simp] theorem setSegments_families (s : State) (x : List Segment) : (s.setSegments x).families = s.families := rfl
@[simp] theorem setSegments_services (s : State) (x : List Segment) : (s.setSegments x).services = s.services := rfl
@[simp] theorem setSegments_decoder (s : State) (x : List Segment) : (s.setSegments x).decoder = s.decoder := rfl
@[simp] theorem setSegments_pairing (s : State) (x : List Segment) : (s.setSegments x).pairing = s.pairing := rfl
@[simp] theorem setSegments_route (s : State) (x : List Segment) : (s.setSegments x).route = s.route := rfl
@[simp] theorem setSegments_book (s : State) (x : List Segment) : (s.setSegments x).book = s.book := rfl
@[simp] theorem setSegments_clock (s : State) (x : List Segment) : (s.setSegments x).clock = s.clock := rfl
@[simp] theorem setSegments_segments (s : State) (x : List Segment) : (s.setSegments x).segments = x := rfl
@[simp] theorem setSegments_matcher (s : State) (x : List Segment) : (s.setSegments x).matcher = s.matcher := rfl
@[simp] theorem setSegments_rules (s : State) (x : List Segment) : (s.setSegments x).rules = s.rules := rfl
@[simp] theorem setSegments_screening (s : State) (x : List Segment) : (s.setSegments x).screening = s.screening := rfl
@[simp] theorem setSegments_routing (s : State) (x : List Segment) : (s.setSegments x).routing = s.routing := rfl
@[simp] theorem setSegments_builder (s : State) (x : List Segment) : (s.setSegments x).builder = s.builder := rfl
@[simp] theorem setSegments_store (s : State) (x : List Segment) : (s.setSegments x).store = s.store := rfl
@[simp] theorem setSegments_memory (s : State) (x : List Segment) : (s.setSegments x).memory = s.memory := rfl
@[simp] theorem setSegments_live (s : State) (x : List Segment) : (s.setSegments x).live = s.live := rfl
@[simp] theorem setSegments_uploader (s : State) (x : List Segment) : (s.setSegments x).uploader = s.uploader := rfl
@[simp] theorem setSegments_events (s : State) (x : List Segment) : (s.setSegments x).events = s.events := rfl
@[simp] theorem setSegments_faults (s : State) (x : List Segment) : (s.setSegments x).faults = s.faults := rfl
@[simp] theorem setSegments_trunk (s : State) (x : List Segment) : (s.setSegments x).trunk = s.trunk := rfl
@[simp] theorem setSegments_depot (s : State) (x : List Segment) : (s.setSegments x).depot = s.depot := rfl
@[simp] theorem setSegments_depotUp (s : State) (x : List Segment) : (s.setSegments x).depotUp = s.depotUp := rfl
@[simp] theorem setSegments_pins (s : State) (x : List Segment) : (s.setSegments x).pins = s.pins := rfl
@[simp] theorem setSegments_timebase (s : State) (x : List Segment) : (s.setSegments x).timebase = s.timebase := rfl
@[simp] theorem setSegments_freeCounter (s : State) (x : List Segment) : (s.setSegments x).freeCounter = s.freeCounter := rfl
@[simp] theorem setSegments_pending (s : State) (x : List Segment) : (s.setSegments x).pending = s.pending := rfl

@[simp] theorem setMatcher_lanes (s : State) (x : Matcher) : (s.setMatcher x).lanes = s.lanes := rfl
@[simp] theorem setMatcher_pool (s : State) (x : Matcher) : (s.setMatcher x).pool = s.pool := rfl
@[simp] theorem setMatcher_families (s : State) (x : Matcher) : (s.setMatcher x).families = s.families := rfl
@[simp] theorem setMatcher_services (s : State) (x : Matcher) : (s.setMatcher x).services = s.services := rfl
@[simp] theorem setMatcher_decoder (s : State) (x : Matcher) : (s.setMatcher x).decoder = s.decoder := rfl
@[simp] theorem setMatcher_pairing (s : State) (x : Matcher) : (s.setMatcher x).pairing = s.pairing := rfl
@[simp] theorem setMatcher_route (s : State) (x : Matcher) : (s.setMatcher x).route = s.route := rfl
@[simp] theorem setMatcher_book (s : State) (x : Matcher) : (s.setMatcher x).book = s.book := rfl
@[simp] theorem setMatcher_clock (s : State) (x : Matcher) : (s.setMatcher x).clock = s.clock := rfl
@[simp] theorem setMatcher_segments (s : State) (x : Matcher) : (s.setMatcher x).segments = s.segments := rfl
@[simp] theorem setMatcher_matcher (s : State) (x : Matcher) : (s.setMatcher x).matcher = x := rfl
@[simp] theorem setMatcher_rules (s : State) (x : Matcher) : (s.setMatcher x).rules = s.rules := rfl
@[simp] theorem setMatcher_screening (s : State) (x : Matcher) : (s.setMatcher x).screening = s.screening := rfl
@[simp] theorem setMatcher_routing (s : State) (x : Matcher) : (s.setMatcher x).routing = s.routing := rfl
@[simp] theorem setMatcher_builder (s : State) (x : Matcher) : (s.setMatcher x).builder = s.builder := rfl
@[simp] theorem setMatcher_store (s : State) (x : Matcher) : (s.setMatcher x).store = s.store := rfl
@[simp] theorem setMatcher_memory (s : State) (x : Matcher) : (s.setMatcher x).memory = s.memory := rfl
@[simp] theorem setMatcher_live (s : State) (x : Matcher) : (s.setMatcher x).live = s.live := rfl
@[simp] theorem setMatcher_uploader (s : State) (x : Matcher) : (s.setMatcher x).uploader = s.uploader := rfl
@[simp] theorem setMatcher_events (s : State) (x : Matcher) : (s.setMatcher x).events = s.events := rfl
@[simp] theorem setMatcher_faults (s : State) (x : Matcher) : (s.setMatcher x).faults = s.faults := rfl
@[simp] theorem setMatcher_trunk (s : State) (x : Matcher) : (s.setMatcher x).trunk = s.trunk := rfl
@[simp] theorem setMatcher_depot (s : State) (x : Matcher) : (s.setMatcher x).depot = s.depot := rfl
@[simp] theorem setMatcher_depotUp (s : State) (x : Matcher) : (s.setMatcher x).depotUp = s.depotUp := rfl
@[simp] theorem setMatcher_pins (s : State) (x : Matcher) : (s.setMatcher x).pins = s.pins := rfl
@[simp] theorem setMatcher_timebase (s : State) (x : Matcher) : (s.setMatcher x).timebase = s.timebase := rfl
@[simp] theorem setMatcher_freeCounter (s : State) (x : Matcher) : (s.setMatcher x).freeCounter = s.freeCounter := rfl
@[simp] theorem setMatcher_pending (s : State) (x : Matcher) : (s.setMatcher x).pending = s.pending := rfl

@[simp] theorem setRules_lanes (s : State) (x : RuleSet) : (s.setRules x).lanes = s.lanes := rfl
@[simp] theorem setRules_pool (s : State) (x : RuleSet) : (s.setRules x).pool = s.pool := rfl
@[simp] theorem setRules_families (s : State) (x : RuleSet) : (s.setRules x).families = s.families := rfl
@[simp] theorem setRules_services (s : State) (x : RuleSet) : (s.setRules x).services = s.services := rfl
@[simp] theorem setRules_decoder (s : State) (x : RuleSet) : (s.setRules x).decoder = s.decoder := rfl
@[simp] theorem setRules_pairing (s : State) (x : RuleSet) : (s.setRules x).pairing = s.pairing := rfl
@[simp] theorem setRules_route (s : State) (x : RuleSet) : (s.setRules x).route = s.route := rfl
@[simp] theorem setRules_book (s : State) (x : RuleSet) : (s.setRules x).book = s.book := rfl
@[simp] theorem setRules_clock (s : State) (x : RuleSet) : (s.setRules x).clock = s.clock := rfl
@[simp] theorem setRules_segments (s : State) (x : RuleSet) : (s.setRules x).segments = s.segments := rfl
@[simp] theorem setRules_matcher (s : State) (x : RuleSet) : (s.setRules x).matcher = s.matcher := rfl
@[simp] theorem setRules_rules (s : State) (x : RuleSet) : (s.setRules x).rules = x := rfl
@[simp] theorem setRules_screening (s : State) (x : RuleSet) : (s.setRules x).screening = s.screening := rfl
@[simp] theorem setRules_routing (s : State) (x : RuleSet) : (s.setRules x).routing = s.routing := rfl
@[simp] theorem setRules_builder (s : State) (x : RuleSet) : (s.setRules x).builder = s.builder := rfl
@[simp] theorem setRules_store (s : State) (x : RuleSet) : (s.setRules x).store = s.store := rfl
@[simp] theorem setRules_memory (s : State) (x : RuleSet) : (s.setRules x).memory = s.memory := rfl
@[simp] theorem setRules_live (s : State) (x : RuleSet) : (s.setRules x).live = s.live := rfl
@[simp] theorem setRules_uploader (s : State) (x : RuleSet) : (s.setRules x).uploader = s.uploader := rfl
@[simp] theorem setRules_events (s : State) (x : RuleSet) : (s.setRules x).events = s.events := rfl
@[simp] theorem setRules_faults (s : State) (x : RuleSet) : (s.setRules x).faults = s.faults := rfl
@[simp] theorem setRules_trunk (s : State) (x : RuleSet) : (s.setRules x).trunk = s.trunk := rfl
@[simp] theorem setRules_depot (s : State) (x : RuleSet) : (s.setRules x).depot = s.depot := rfl
@[simp] theorem setRules_depotUp (s : State) (x : RuleSet) : (s.setRules x).depotUp = s.depotUp := rfl
@[simp] theorem setRules_pins (s : State) (x : RuleSet) : (s.setRules x).pins = s.pins := rfl
@[simp] theorem setRules_timebase (s : State) (x : RuleSet) : (s.setRules x).timebase = s.timebase := rfl
@[simp] theorem setRules_freeCounter (s : State) (x : RuleSet) : (s.setRules x).freeCounter = s.freeCounter := rfl
@[simp] theorem setRules_pending (s : State) (x : RuleSet) : (s.setRules x).pending = s.pending := rfl

@[simp] theorem setScreening_lanes (s : State) (x : ScreeningCounters) : (s.setScreening x).lanes = s.lanes := rfl
@[simp] theorem setScreening_pool (s : State) (x : ScreeningCounters) : (s.setScreening x).pool = s.pool := rfl
@[simp] theorem setScreening_families (s : State) (x : ScreeningCounters) : (s.setScreening x).families = s.families := rfl
@[simp] theorem setScreening_services (s : State) (x : ScreeningCounters) : (s.setScreening x).services = s.services := rfl
@[simp] theorem setScreening_decoder (s : State) (x : ScreeningCounters) : (s.setScreening x).decoder = s.decoder := rfl
@[simp] theorem setScreening_pairing (s : State) (x : ScreeningCounters) : (s.setScreening x).pairing = s.pairing := rfl
@[simp] theorem setScreening_route (s : State) (x : ScreeningCounters) : (s.setScreening x).route = s.route := rfl
@[simp] theorem setScreening_book (s : State) (x : ScreeningCounters) : (s.setScreening x).book = s.book := rfl
@[simp] theorem setScreening_clock (s : State) (x : ScreeningCounters) : (s.setScreening x).clock = s.clock := rfl
@[simp] theorem setScreening_segments (s : State) (x : ScreeningCounters) : (s.setScreening x).segments = s.segments := rfl
@[simp] theorem setScreening_matcher (s : State) (x : ScreeningCounters) : (s.setScreening x).matcher = s.matcher := rfl
@[simp] theorem setScreening_rules (s : State) (x : ScreeningCounters) : (s.setScreening x).rules = s.rules := rfl
@[simp] theorem setScreening_screening (s : State) (x : ScreeningCounters) : (s.setScreening x).screening = x := rfl
@[simp] theorem setScreening_routing (s : State) (x : ScreeningCounters) : (s.setScreening x).routing = s.routing := rfl
@[simp] theorem setScreening_builder (s : State) (x : ScreeningCounters) : (s.setScreening x).builder = s.builder := rfl
@[simp] theorem setScreening_store (s : State) (x : ScreeningCounters) : (s.setScreening x).store = s.store := rfl
@[simp] theorem setScreening_memory (s : State) (x : ScreeningCounters) : (s.setScreening x).memory = s.memory := rfl
@[simp] theorem setScreening_live (s : State) (x : ScreeningCounters) : (s.setScreening x).live = s.live := rfl
@[simp] theorem setScreening_uploader (s : State) (x : ScreeningCounters) : (s.setScreening x).uploader = s.uploader := rfl
@[simp] theorem setScreening_events (s : State) (x : ScreeningCounters) : (s.setScreening x).events = s.events := rfl
@[simp] theorem setScreening_faults (s : State) (x : ScreeningCounters) : (s.setScreening x).faults = s.faults := rfl
@[simp] theorem setScreening_trunk (s : State) (x : ScreeningCounters) : (s.setScreening x).trunk = s.trunk := rfl
@[simp] theorem setScreening_depot (s : State) (x : ScreeningCounters) : (s.setScreening x).depot = s.depot := rfl
@[simp] theorem setScreening_depotUp (s : State) (x : ScreeningCounters) : (s.setScreening x).depotUp = s.depotUp := rfl
@[simp] theorem setScreening_pins (s : State) (x : ScreeningCounters) : (s.setScreening x).pins = s.pins := rfl
@[simp] theorem setScreening_timebase (s : State) (x : ScreeningCounters) : (s.setScreening x).timebase = s.timebase := rfl
@[simp] theorem setScreening_freeCounter (s : State) (x : ScreeningCounters) : (s.setScreening x).freeCounter = s.freeCounter := rfl
@[simp] theorem setScreening_pending (s : State) (x : ScreeningCounters) : (s.setScreening x).pending = s.pending := rfl

@[simp] theorem setRouting_lanes (s : State) (x : Routing) : (s.setRouting x).lanes = s.lanes := rfl
@[simp] theorem setRouting_pool (s : State) (x : Routing) : (s.setRouting x).pool = s.pool := rfl
@[simp] theorem setRouting_families (s : State) (x : Routing) : (s.setRouting x).families = s.families := rfl
@[simp] theorem setRouting_services (s : State) (x : Routing) : (s.setRouting x).services = s.services := rfl
@[simp] theorem setRouting_decoder (s : State) (x : Routing) : (s.setRouting x).decoder = s.decoder := rfl
@[simp] theorem setRouting_pairing (s : State) (x : Routing) : (s.setRouting x).pairing = s.pairing := rfl
@[simp] theorem setRouting_route (s : State) (x : Routing) : (s.setRouting x).route = s.route := rfl
@[simp] theorem setRouting_book (s : State) (x : Routing) : (s.setRouting x).book = s.book := rfl
@[simp] theorem setRouting_clock (s : State) (x : Routing) : (s.setRouting x).clock = s.clock := rfl
@[simp] theorem setRouting_segments (s : State) (x : Routing) : (s.setRouting x).segments = s.segments := rfl
@[simp] theorem setRouting_matcher (s : State) (x : Routing) : (s.setRouting x).matcher = s.matcher := rfl
@[simp] theorem setRouting_rules (s : State) (x : Routing) : (s.setRouting x).rules = s.rules := rfl
@[simp] theorem setRouting_screening (s : State) (x : Routing) : (s.setRouting x).screening = s.screening := rfl
@[simp] theorem setRouting_routing (s : State) (x : Routing) : (s.setRouting x).routing = x := rfl
@[simp] theorem setRouting_builder (s : State) (x : Routing) : (s.setRouting x).builder = s.builder := rfl
@[simp] theorem setRouting_store (s : State) (x : Routing) : (s.setRouting x).store = s.store := rfl
@[simp] theorem setRouting_memory (s : State) (x : Routing) : (s.setRouting x).memory = s.memory := rfl
@[simp] theorem setRouting_live (s : State) (x : Routing) : (s.setRouting x).live = s.live := rfl
@[simp] theorem setRouting_uploader (s : State) (x : Routing) : (s.setRouting x).uploader = s.uploader := rfl
@[simp] theorem setRouting_events (s : State) (x : Routing) : (s.setRouting x).events = s.events := rfl
@[simp] theorem setRouting_faults (s : State) (x : Routing) : (s.setRouting x).faults = s.faults := rfl
@[simp] theorem setRouting_trunk (s : State) (x : Routing) : (s.setRouting x).trunk = s.trunk := rfl
@[simp] theorem setRouting_depot (s : State) (x : Routing) : (s.setRouting x).depot = s.depot := rfl
@[simp] theorem setRouting_depotUp (s : State) (x : Routing) : (s.setRouting x).depotUp = s.depotUp := rfl
@[simp] theorem setRouting_pins (s : State) (x : Routing) : (s.setRouting x).pins = s.pins := rfl
@[simp] theorem setRouting_timebase (s : State) (x : Routing) : (s.setRouting x).timebase = s.timebase := rfl
@[simp] theorem setRouting_freeCounter (s : State) (x : Routing) : (s.setRouting x).freeCounter = s.freeCounter := rfl
@[simp] theorem setRouting_pending (s : State) (x : Routing) : (s.setRouting x).pending = s.pending := rfl

@[simp] theorem setBuilder_lanes (s : State) (x : Builder) : (s.setBuilder x).lanes = s.lanes := rfl
@[simp] theorem setBuilder_pool (s : State) (x : Builder) : (s.setBuilder x).pool = s.pool := rfl
@[simp] theorem setBuilder_families (s : State) (x : Builder) : (s.setBuilder x).families = s.families := rfl
@[simp] theorem setBuilder_services (s : State) (x : Builder) : (s.setBuilder x).services = s.services := rfl
@[simp] theorem setBuilder_decoder (s : State) (x : Builder) : (s.setBuilder x).decoder = s.decoder := rfl
@[simp] theorem setBuilder_pairing (s : State) (x : Builder) : (s.setBuilder x).pairing = s.pairing := rfl
@[simp] theorem setBuilder_route (s : State) (x : Builder) : (s.setBuilder x).route = s.route := rfl
@[simp] theorem setBuilder_book (s : State) (x : Builder) : (s.setBuilder x).book = s.book := rfl
@[simp] theorem setBuilder_clock (s : State) (x : Builder) : (s.setBuilder x).clock = s.clock := rfl
@[simp] theorem setBuilder_segments (s : State) (x : Builder) : (s.setBuilder x).segments = s.segments := rfl
@[simp] theorem setBuilder_matcher (s : State) (x : Builder) : (s.setBuilder x).matcher = s.matcher := rfl
@[simp] theorem setBuilder_rules (s : State) (x : Builder) : (s.setBuilder x).rules = s.rules := rfl
@[simp] theorem setBuilder_screening (s : State) (x : Builder) : (s.setBuilder x).screening = s.screening := rfl
@[simp] theorem setBuilder_routing (s : State) (x : Builder) : (s.setBuilder x).routing = s.routing := rfl
@[simp] theorem setBuilder_builder (s : State) (x : Builder) : (s.setBuilder x).builder = x := rfl
@[simp] theorem setBuilder_store (s : State) (x : Builder) : (s.setBuilder x).store = s.store := rfl
@[simp] theorem setBuilder_memory (s : State) (x : Builder) : (s.setBuilder x).memory = s.memory := rfl
@[simp] theorem setBuilder_live (s : State) (x : Builder) : (s.setBuilder x).live = s.live := rfl
@[simp] theorem setBuilder_uploader (s : State) (x : Builder) : (s.setBuilder x).uploader = s.uploader := rfl
@[simp] theorem setBuilder_events (s : State) (x : Builder) : (s.setBuilder x).events = s.events := rfl
@[simp] theorem setBuilder_faults (s : State) (x : Builder) : (s.setBuilder x).faults = s.faults := rfl
@[simp] theorem setBuilder_trunk (s : State) (x : Builder) : (s.setBuilder x).trunk = s.trunk := rfl
@[simp] theorem setBuilder_depot (s : State) (x : Builder) : (s.setBuilder x).depot = s.depot := rfl
@[simp] theorem setBuilder_depotUp (s : State) (x : Builder) : (s.setBuilder x).depotUp = s.depotUp := rfl
@[simp] theorem setBuilder_pins (s : State) (x : Builder) : (s.setBuilder x).pins = s.pins := rfl
@[simp] theorem setBuilder_timebase (s : State) (x : Builder) : (s.setBuilder x).timebase = s.timebase := rfl
@[simp] theorem setBuilder_freeCounter (s : State) (x : Builder) : (s.setBuilder x).freeCounter = s.freeCounter := rfl
@[simp] theorem setBuilder_pending (s : State) (x : Builder) : (s.setBuilder x).pending = s.pending := rfl

@[simp] theorem setStore_lanes (s : State) (x : Store) : (s.setStore x).lanes = s.lanes := rfl
@[simp] theorem setStore_pool (s : State) (x : Store) : (s.setStore x).pool = s.pool := rfl
@[simp] theorem setStore_families (s : State) (x : Store) : (s.setStore x).families = s.families := rfl
@[simp] theorem setStore_services (s : State) (x : Store) : (s.setStore x).services = s.services := rfl
@[simp] theorem setStore_decoder (s : State) (x : Store) : (s.setStore x).decoder = s.decoder := rfl
@[simp] theorem setStore_pairing (s : State) (x : Store) : (s.setStore x).pairing = s.pairing := rfl
@[simp] theorem setStore_route (s : State) (x : Store) : (s.setStore x).route = s.route := rfl
@[simp] theorem setStore_book (s : State) (x : Store) : (s.setStore x).book = s.book := rfl
@[simp] theorem setStore_clock (s : State) (x : Store) : (s.setStore x).clock = s.clock := rfl
@[simp] theorem setStore_segments (s : State) (x : Store) : (s.setStore x).segments = s.segments := rfl
@[simp] theorem setStore_matcher (s : State) (x : Store) : (s.setStore x).matcher = s.matcher := rfl
@[simp] theorem setStore_rules (s : State) (x : Store) : (s.setStore x).rules = s.rules := rfl
@[simp] theorem setStore_screening (s : State) (x : Store) : (s.setStore x).screening = s.screening := rfl
@[simp] theorem setStore_routing (s : State) (x : Store) : (s.setStore x).routing = s.routing := rfl
@[simp] theorem setStore_builder (s : State) (x : Store) : (s.setStore x).builder = s.builder := rfl
@[simp] theorem setStore_store (s : State) (x : Store) : (s.setStore x).store = x := rfl
@[simp] theorem setStore_memory (s : State) (x : Store) : (s.setStore x).memory = s.memory := rfl
@[simp] theorem setStore_live (s : State) (x : Store) : (s.setStore x).live = s.live := rfl
@[simp] theorem setStore_uploader (s : State) (x : Store) : (s.setStore x).uploader = s.uploader := rfl
@[simp] theorem setStore_events (s : State) (x : Store) : (s.setStore x).events = s.events := rfl
@[simp] theorem setStore_faults (s : State) (x : Store) : (s.setStore x).faults = s.faults := rfl
@[simp] theorem setStore_trunk (s : State) (x : Store) : (s.setStore x).trunk = s.trunk := rfl
@[simp] theorem setStore_depot (s : State) (x : Store) : (s.setStore x).depot = s.depot := rfl
@[simp] theorem setStore_depotUp (s : State) (x : Store) : (s.setStore x).depotUp = s.depotUp := rfl
@[simp] theorem setStore_pins (s : State) (x : Store) : (s.setStore x).pins = s.pins := rfl
@[simp] theorem setStore_timebase (s : State) (x : Store) : (s.setStore x).timebase = s.timebase := rfl
@[simp] theorem setStore_freeCounter (s : State) (x : Store) : (s.setStore x).freeCounter = s.freeCounter := rfl
@[simp] theorem setStore_pending (s : State) (x : Store) : (s.setStore x).pending = s.pending := rfl

@[simp] theorem setMemory_lanes (s : State) (x : List Host.Cell) : (s.setMemory x).lanes = s.lanes := rfl
@[simp] theorem setMemory_pool (s : State) (x : List Host.Cell) : (s.setMemory x).pool = s.pool := rfl
@[simp] theorem setMemory_families (s : State) (x : List Host.Cell) : (s.setMemory x).families = s.families := rfl
@[simp] theorem setMemory_services (s : State) (x : List Host.Cell) : (s.setMemory x).services = s.services := rfl
@[simp] theorem setMemory_decoder (s : State) (x : List Host.Cell) : (s.setMemory x).decoder = s.decoder := rfl
@[simp] theorem setMemory_pairing (s : State) (x : List Host.Cell) : (s.setMemory x).pairing = s.pairing := rfl
@[simp] theorem setMemory_route (s : State) (x : List Host.Cell) : (s.setMemory x).route = s.route := rfl
@[simp] theorem setMemory_book (s : State) (x : List Host.Cell) : (s.setMemory x).book = s.book := rfl
@[simp] theorem setMemory_clock (s : State) (x : List Host.Cell) : (s.setMemory x).clock = s.clock := rfl
@[simp] theorem setMemory_segments (s : State) (x : List Host.Cell) : (s.setMemory x).segments = s.segments := rfl
@[simp] theorem setMemory_matcher (s : State) (x : List Host.Cell) : (s.setMemory x).matcher = s.matcher := rfl
@[simp] theorem setMemory_rules (s : State) (x : List Host.Cell) : (s.setMemory x).rules = s.rules := rfl
@[simp] theorem setMemory_screening (s : State) (x : List Host.Cell) : (s.setMemory x).screening = s.screening := rfl
@[simp] theorem setMemory_routing (s : State) (x : List Host.Cell) : (s.setMemory x).routing = s.routing := rfl
@[simp] theorem setMemory_builder (s : State) (x : List Host.Cell) : (s.setMemory x).builder = s.builder := rfl
@[simp] theorem setMemory_store (s : State) (x : List Host.Cell) : (s.setMemory x).store = s.store := rfl
@[simp] theorem setMemory_memory (s : State) (x : List Host.Cell) : (s.setMemory x).memory = x := rfl
@[simp] theorem setMemory_live (s : State) (x : List Host.Cell) : (s.setMemory x).live = s.live := rfl
@[simp] theorem setMemory_uploader (s : State) (x : List Host.Cell) : (s.setMemory x).uploader = s.uploader := rfl
@[simp] theorem setMemory_events (s : State) (x : List Host.Cell) : (s.setMemory x).events = s.events := rfl
@[simp] theorem setMemory_faults (s : State) (x : List Host.Cell) : (s.setMemory x).faults = s.faults := rfl
@[simp] theorem setMemory_trunk (s : State) (x : List Host.Cell) : (s.setMemory x).trunk = s.trunk := rfl
@[simp] theorem setMemory_depot (s : State) (x : List Host.Cell) : (s.setMemory x).depot = s.depot := rfl
@[simp] theorem setMemory_depotUp (s : State) (x : List Host.Cell) : (s.setMemory x).depotUp = s.depotUp := rfl
@[simp] theorem setMemory_pins (s : State) (x : List Host.Cell) : (s.setMemory x).pins = s.pins := rfl
@[simp] theorem setMemory_timebase (s : State) (x : List Host.Cell) : (s.setMemory x).timebase = s.timebase := rfl
@[simp] theorem setMemory_freeCounter (s : State) (x : List Host.Cell) : (s.setMemory x).freeCounter = s.freeCounter := rfl
@[simp] theorem setMemory_pending (s : State) (x : List Host.Cell) : (s.setMemory x).pending = s.pending := rfl

@[simp] theorem setLive_lanes (s : State) (x : LiveQueue) : (s.setLive x).lanes = s.lanes := rfl
@[simp] theorem setLive_pool (s : State) (x : LiveQueue) : (s.setLive x).pool = s.pool := rfl
@[simp] theorem setLive_families (s : State) (x : LiveQueue) : (s.setLive x).families = s.families := rfl
@[simp] theorem setLive_services (s : State) (x : LiveQueue) : (s.setLive x).services = s.services := rfl
@[simp] theorem setLive_decoder (s : State) (x : LiveQueue) : (s.setLive x).decoder = s.decoder := rfl
@[simp] theorem setLive_pairing (s : State) (x : LiveQueue) : (s.setLive x).pairing = s.pairing := rfl
@[simp] theorem setLive_route (s : State) (x : LiveQueue) : (s.setLive x).route = s.route := rfl
@[simp] theorem setLive_book (s : State) (x : LiveQueue) : (s.setLive x).book = s.book := rfl
@[simp] theorem setLive_clock (s : State) (x : LiveQueue) : (s.setLive x).clock = s.clock := rfl
@[simp] theorem setLive_segments (s : State) (x : LiveQueue) : (s.setLive x).segments = s.segments := rfl
@[simp] theorem setLive_matcher (s : State) (x : LiveQueue) : (s.setLive x).matcher = s.matcher := rfl
@[simp] theorem setLive_rules (s : State) (x : LiveQueue) : (s.setLive x).rules = s.rules := rfl
@[simp] theorem setLive_screening (s : State) (x : LiveQueue) : (s.setLive x).screening = s.screening := rfl
@[simp] theorem setLive_routing (s : State) (x : LiveQueue) : (s.setLive x).routing = s.routing := rfl
@[simp] theorem setLive_builder (s : State) (x : LiveQueue) : (s.setLive x).builder = s.builder := rfl
@[simp] theorem setLive_store (s : State) (x : LiveQueue) : (s.setLive x).store = s.store := rfl
@[simp] theorem setLive_memory (s : State) (x : LiveQueue) : (s.setLive x).memory = s.memory := rfl
@[simp] theorem setLive_live (s : State) (x : LiveQueue) : (s.setLive x).live = x := rfl
@[simp] theorem setLive_uploader (s : State) (x : LiveQueue) : (s.setLive x).uploader = s.uploader := rfl
@[simp] theorem setLive_events (s : State) (x : LiveQueue) : (s.setLive x).events = s.events := rfl
@[simp] theorem setLive_faults (s : State) (x : LiveQueue) : (s.setLive x).faults = s.faults := rfl
@[simp] theorem setLive_trunk (s : State) (x : LiveQueue) : (s.setLive x).trunk = s.trunk := rfl
@[simp] theorem setLive_depot (s : State) (x : LiveQueue) : (s.setLive x).depot = s.depot := rfl
@[simp] theorem setLive_depotUp (s : State) (x : LiveQueue) : (s.setLive x).depotUp = s.depotUp := rfl
@[simp] theorem setLive_pins (s : State) (x : LiveQueue) : (s.setLive x).pins = s.pins := rfl
@[simp] theorem setLive_timebase (s : State) (x : LiveQueue) : (s.setLive x).timebase = s.timebase := rfl
@[simp] theorem setLive_freeCounter (s : State) (x : LiveQueue) : (s.setLive x).freeCounter = s.freeCounter := rfl
@[simp] theorem setLive_pending (s : State) (x : LiveQueue) : (s.setLive x).pending = s.pending := rfl

@[simp] theorem setUploader_lanes (s : State) (x : Uploader) : (s.setUploader x).lanes = s.lanes := rfl
@[simp] theorem setUploader_pool (s : State) (x : Uploader) : (s.setUploader x).pool = s.pool := rfl
@[simp] theorem setUploader_families (s : State) (x : Uploader) : (s.setUploader x).families = s.families := rfl
@[simp] theorem setUploader_services (s : State) (x : Uploader) : (s.setUploader x).services = s.services := rfl
@[simp] theorem setUploader_decoder (s : State) (x : Uploader) : (s.setUploader x).decoder = s.decoder := rfl
@[simp] theorem setUploader_pairing (s : State) (x : Uploader) : (s.setUploader x).pairing = s.pairing := rfl
@[simp] theorem setUploader_route (s : State) (x : Uploader) : (s.setUploader x).route = s.route := rfl
@[simp] theorem setUploader_book (s : State) (x : Uploader) : (s.setUploader x).book = s.book := rfl
@[simp] theorem setUploader_clock (s : State) (x : Uploader) : (s.setUploader x).clock = s.clock := rfl
@[simp] theorem setUploader_segments (s : State) (x : Uploader) : (s.setUploader x).segments = s.segments := rfl
@[simp] theorem setUploader_matcher (s : State) (x : Uploader) : (s.setUploader x).matcher = s.matcher := rfl
@[simp] theorem setUploader_rules (s : State) (x : Uploader) : (s.setUploader x).rules = s.rules := rfl
@[simp] theorem setUploader_screening (s : State) (x : Uploader) : (s.setUploader x).screening = s.screening := rfl
@[simp] theorem setUploader_routing (s : State) (x : Uploader) : (s.setUploader x).routing = s.routing := rfl
@[simp] theorem setUploader_builder (s : State) (x : Uploader) : (s.setUploader x).builder = s.builder := rfl
@[simp] theorem setUploader_store (s : State) (x : Uploader) : (s.setUploader x).store = s.store := rfl
@[simp] theorem setUploader_memory (s : State) (x : Uploader) : (s.setUploader x).memory = s.memory := rfl
@[simp] theorem setUploader_live (s : State) (x : Uploader) : (s.setUploader x).live = s.live := rfl
@[simp] theorem setUploader_uploader (s : State) (x : Uploader) : (s.setUploader x).uploader = x := rfl
@[simp] theorem setUploader_events (s : State) (x : Uploader) : (s.setUploader x).events = s.events := rfl
@[simp] theorem setUploader_faults (s : State) (x : Uploader) : (s.setUploader x).faults = s.faults := rfl
@[simp] theorem setUploader_trunk (s : State) (x : Uploader) : (s.setUploader x).trunk = s.trunk := rfl
@[simp] theorem setUploader_depot (s : State) (x : Uploader) : (s.setUploader x).depot = s.depot := rfl
@[simp] theorem setUploader_depotUp (s : State) (x : Uploader) : (s.setUploader x).depotUp = s.depotUp := rfl
@[simp] theorem setUploader_pins (s : State) (x : Uploader) : (s.setUploader x).pins = s.pins := rfl
@[simp] theorem setUploader_timebase (s : State) (x : Uploader) : (s.setUploader x).timebase = s.timebase := rfl
@[simp] theorem setUploader_freeCounter (s : State) (x : Uploader) : (s.setUploader x).freeCounter = s.freeCounter := rfl
@[simp] theorem setUploader_pending (s : State) (x : Uploader) : (s.setUploader x).pending = s.pending := rfl

@[simp] theorem setEvents_lanes (s : State) (x : EventUnit) : (s.setEvents x).lanes = s.lanes := rfl
@[simp] theorem setEvents_pool (s : State) (x : EventUnit) : (s.setEvents x).pool = s.pool := rfl
@[simp] theorem setEvents_families (s : State) (x : EventUnit) : (s.setEvents x).families = s.families := rfl
@[simp] theorem setEvents_services (s : State) (x : EventUnit) : (s.setEvents x).services = s.services := rfl
@[simp] theorem setEvents_decoder (s : State) (x : EventUnit) : (s.setEvents x).decoder = s.decoder := rfl
@[simp] theorem setEvents_pairing (s : State) (x : EventUnit) : (s.setEvents x).pairing = s.pairing := rfl
@[simp] theorem setEvents_route (s : State) (x : EventUnit) : (s.setEvents x).route = s.route := rfl
@[simp] theorem setEvents_book (s : State) (x : EventUnit) : (s.setEvents x).book = s.book := rfl
@[simp] theorem setEvents_clock (s : State) (x : EventUnit) : (s.setEvents x).clock = s.clock := rfl
@[simp] theorem setEvents_segments (s : State) (x : EventUnit) : (s.setEvents x).segments = s.segments := rfl
@[simp] theorem setEvents_matcher (s : State) (x : EventUnit) : (s.setEvents x).matcher = s.matcher := rfl
@[simp] theorem setEvents_rules (s : State) (x : EventUnit) : (s.setEvents x).rules = s.rules := rfl
@[simp] theorem setEvents_screening (s : State) (x : EventUnit) : (s.setEvents x).screening = s.screening := rfl
@[simp] theorem setEvents_routing (s : State) (x : EventUnit) : (s.setEvents x).routing = s.routing := rfl
@[simp] theorem setEvents_builder (s : State) (x : EventUnit) : (s.setEvents x).builder = s.builder := rfl
@[simp] theorem setEvents_store (s : State) (x : EventUnit) : (s.setEvents x).store = s.store := rfl
@[simp] theorem setEvents_memory (s : State) (x : EventUnit) : (s.setEvents x).memory = s.memory := rfl
@[simp] theorem setEvents_live (s : State) (x : EventUnit) : (s.setEvents x).live = s.live := rfl
@[simp] theorem setEvents_uploader (s : State) (x : EventUnit) : (s.setEvents x).uploader = s.uploader := rfl
@[simp] theorem setEvents_events (s : State) (x : EventUnit) : (s.setEvents x).events = x := rfl
@[simp] theorem setEvents_faults (s : State) (x : EventUnit) : (s.setEvents x).faults = s.faults := rfl
@[simp] theorem setEvents_trunk (s : State) (x : EventUnit) : (s.setEvents x).trunk = s.trunk := rfl
@[simp] theorem setEvents_depot (s : State) (x : EventUnit) : (s.setEvents x).depot = s.depot := rfl
@[simp] theorem setEvents_depotUp (s : State) (x : EventUnit) : (s.setEvents x).depotUp = s.depotUp := rfl
@[simp] theorem setEvents_pins (s : State) (x : EventUnit) : (s.setEvents x).pins = s.pins := rfl
@[simp] theorem setEvents_timebase (s : State) (x : EventUnit) : (s.setEvents x).timebase = s.timebase := rfl
@[simp] theorem setEvents_freeCounter (s : State) (x : EventUnit) : (s.setEvents x).freeCounter = s.freeCounter := rfl
@[simp] theorem setEvents_pending (s : State) (x : EventUnit) : (s.setEvents x).pending = s.pending := rfl

@[simp] theorem setFaults_lanes (s : State) (x : FaultUnit) : (s.setFaults x).lanes = s.lanes := rfl
@[simp] theorem setFaults_pool (s : State) (x : FaultUnit) : (s.setFaults x).pool = s.pool := rfl
@[simp] theorem setFaults_families (s : State) (x : FaultUnit) : (s.setFaults x).families = s.families := rfl
@[simp] theorem setFaults_services (s : State) (x : FaultUnit) : (s.setFaults x).services = s.services := rfl
@[simp] theorem setFaults_decoder (s : State) (x : FaultUnit) : (s.setFaults x).decoder = s.decoder := rfl
@[simp] theorem setFaults_pairing (s : State) (x : FaultUnit) : (s.setFaults x).pairing = s.pairing := rfl
@[simp] theorem setFaults_route (s : State) (x : FaultUnit) : (s.setFaults x).route = s.route := rfl
@[simp] theorem setFaults_book (s : State) (x : FaultUnit) : (s.setFaults x).book = s.book := rfl
@[simp] theorem setFaults_clock (s : State) (x : FaultUnit) : (s.setFaults x).clock = s.clock := rfl
@[simp] theorem setFaults_segments (s : State) (x : FaultUnit) : (s.setFaults x).segments = s.segments := rfl
@[simp] theorem setFaults_matcher (s : State) (x : FaultUnit) : (s.setFaults x).matcher = s.matcher := rfl
@[simp] theorem setFaults_rules (s : State) (x : FaultUnit) : (s.setFaults x).rules = s.rules := rfl
@[simp] theorem setFaults_screening (s : State) (x : FaultUnit) : (s.setFaults x).screening = s.screening := rfl
@[simp] theorem setFaults_routing (s : State) (x : FaultUnit) : (s.setFaults x).routing = s.routing := rfl
@[simp] theorem setFaults_builder (s : State) (x : FaultUnit) : (s.setFaults x).builder = s.builder := rfl
@[simp] theorem setFaults_store (s : State) (x : FaultUnit) : (s.setFaults x).store = s.store := rfl
@[simp] theorem setFaults_memory (s : State) (x : FaultUnit) : (s.setFaults x).memory = s.memory := rfl
@[simp] theorem setFaults_live (s : State) (x : FaultUnit) : (s.setFaults x).live = s.live := rfl
@[simp] theorem setFaults_uploader (s : State) (x : FaultUnit) : (s.setFaults x).uploader = s.uploader := rfl
@[simp] theorem setFaults_events (s : State) (x : FaultUnit) : (s.setFaults x).events = s.events := rfl
@[simp] theorem setFaults_faults (s : State) (x : FaultUnit) : (s.setFaults x).faults = x := rfl
@[simp] theorem setFaults_trunk (s : State) (x : FaultUnit) : (s.setFaults x).trunk = s.trunk := rfl
@[simp] theorem setFaults_depot (s : State) (x : FaultUnit) : (s.setFaults x).depot = s.depot := rfl
@[simp] theorem setFaults_depotUp (s : State) (x : FaultUnit) : (s.setFaults x).depotUp = s.depotUp := rfl
@[simp] theorem setFaults_pins (s : State) (x : FaultUnit) : (s.setFaults x).pins = s.pins := rfl
@[simp] theorem setFaults_timebase (s : State) (x : FaultUnit) : (s.setFaults x).timebase = s.timebase := rfl
@[simp] theorem setFaults_freeCounter (s : State) (x : FaultUnit) : (s.setFaults x).freeCounter = s.freeCounter := rfl
@[simp] theorem setFaults_pending (s : State) (x : FaultUnit) : (s.setFaults x).pending = s.pending := rfl

@[simp] theorem setTrunk_lanes (s : State) (x : LinkPort) : (s.setTrunk x).lanes = s.lanes := rfl
@[simp] theorem setTrunk_pool (s : State) (x : LinkPort) : (s.setTrunk x).pool = s.pool := rfl
@[simp] theorem setTrunk_families (s : State) (x : LinkPort) : (s.setTrunk x).families = s.families := rfl
@[simp] theorem setTrunk_services (s : State) (x : LinkPort) : (s.setTrunk x).services = s.services := rfl
@[simp] theorem setTrunk_decoder (s : State) (x : LinkPort) : (s.setTrunk x).decoder = s.decoder := rfl
@[simp] theorem setTrunk_pairing (s : State) (x : LinkPort) : (s.setTrunk x).pairing = s.pairing := rfl
@[simp] theorem setTrunk_route (s : State) (x : LinkPort) : (s.setTrunk x).route = s.route := rfl
@[simp] theorem setTrunk_book (s : State) (x : LinkPort) : (s.setTrunk x).book = s.book := rfl
@[simp] theorem setTrunk_clock (s : State) (x : LinkPort) : (s.setTrunk x).clock = s.clock := rfl
@[simp] theorem setTrunk_segments (s : State) (x : LinkPort) : (s.setTrunk x).segments = s.segments := rfl
@[simp] theorem setTrunk_matcher (s : State) (x : LinkPort) : (s.setTrunk x).matcher = s.matcher := rfl
@[simp] theorem setTrunk_rules (s : State) (x : LinkPort) : (s.setTrunk x).rules = s.rules := rfl
@[simp] theorem setTrunk_screening (s : State) (x : LinkPort) : (s.setTrunk x).screening = s.screening := rfl
@[simp] theorem setTrunk_routing (s : State) (x : LinkPort) : (s.setTrunk x).routing = s.routing := rfl
@[simp] theorem setTrunk_builder (s : State) (x : LinkPort) : (s.setTrunk x).builder = s.builder := rfl
@[simp] theorem setTrunk_store (s : State) (x : LinkPort) : (s.setTrunk x).store = s.store := rfl
@[simp] theorem setTrunk_memory (s : State) (x : LinkPort) : (s.setTrunk x).memory = s.memory := rfl
@[simp] theorem setTrunk_live (s : State) (x : LinkPort) : (s.setTrunk x).live = s.live := rfl
@[simp] theorem setTrunk_uploader (s : State) (x : LinkPort) : (s.setTrunk x).uploader = s.uploader := rfl
@[simp] theorem setTrunk_events (s : State) (x : LinkPort) : (s.setTrunk x).events = s.events := rfl
@[simp] theorem setTrunk_faults (s : State) (x : LinkPort) : (s.setTrunk x).faults = s.faults := rfl
@[simp] theorem setTrunk_trunk (s : State) (x : LinkPort) : (s.setTrunk x).trunk = x := rfl
@[simp] theorem setTrunk_depot (s : State) (x : LinkPort) : (s.setTrunk x).depot = s.depot := rfl
@[simp] theorem setTrunk_depotUp (s : State) (x : LinkPort) : (s.setTrunk x).depotUp = s.depotUp := rfl
@[simp] theorem setTrunk_pins (s : State) (x : LinkPort) : (s.setTrunk x).pins = s.pins := rfl
@[simp] theorem setTrunk_timebase (s : State) (x : LinkPort) : (s.setTrunk x).timebase = s.timebase := rfl
@[simp] theorem setTrunk_freeCounter (s : State) (x : LinkPort) : (s.setTrunk x).freeCounter = s.freeCounter := rfl
@[simp] theorem setTrunk_pending (s : State) (x : LinkPort) : (s.setTrunk x).pending = s.pending := rfl

@[simp] theorem setDepot_lanes (s : State) (x : LinkPort) : (s.setDepot x).lanes = s.lanes := rfl
@[simp] theorem setDepot_pool (s : State) (x : LinkPort) : (s.setDepot x).pool = s.pool := rfl
@[simp] theorem setDepot_families (s : State) (x : LinkPort) : (s.setDepot x).families = s.families := rfl
@[simp] theorem setDepot_services (s : State) (x : LinkPort) : (s.setDepot x).services = s.services := rfl
@[simp] theorem setDepot_decoder (s : State) (x : LinkPort) : (s.setDepot x).decoder = s.decoder := rfl
@[simp] theorem setDepot_pairing (s : State) (x : LinkPort) : (s.setDepot x).pairing = s.pairing := rfl
@[simp] theorem setDepot_route (s : State) (x : LinkPort) : (s.setDepot x).route = s.route := rfl
@[simp] theorem setDepot_book (s : State) (x : LinkPort) : (s.setDepot x).book = s.book := rfl
@[simp] theorem setDepot_clock (s : State) (x : LinkPort) : (s.setDepot x).clock = s.clock := rfl
@[simp] theorem setDepot_segments (s : State) (x : LinkPort) : (s.setDepot x).segments = s.segments := rfl
@[simp] theorem setDepot_matcher (s : State) (x : LinkPort) : (s.setDepot x).matcher = s.matcher := rfl
@[simp] theorem setDepot_rules (s : State) (x : LinkPort) : (s.setDepot x).rules = s.rules := rfl
@[simp] theorem setDepot_screening (s : State) (x : LinkPort) : (s.setDepot x).screening = s.screening := rfl
@[simp] theorem setDepot_routing (s : State) (x : LinkPort) : (s.setDepot x).routing = s.routing := rfl
@[simp] theorem setDepot_builder (s : State) (x : LinkPort) : (s.setDepot x).builder = s.builder := rfl
@[simp] theorem setDepot_store (s : State) (x : LinkPort) : (s.setDepot x).store = s.store := rfl
@[simp] theorem setDepot_memory (s : State) (x : LinkPort) : (s.setDepot x).memory = s.memory := rfl
@[simp] theorem setDepot_live (s : State) (x : LinkPort) : (s.setDepot x).live = s.live := rfl
@[simp] theorem setDepot_uploader (s : State) (x : LinkPort) : (s.setDepot x).uploader = s.uploader := rfl
@[simp] theorem setDepot_events (s : State) (x : LinkPort) : (s.setDepot x).events = s.events := rfl
@[simp] theorem setDepot_faults (s : State) (x : LinkPort) : (s.setDepot x).faults = s.faults := rfl
@[simp] theorem setDepot_trunk (s : State) (x : LinkPort) : (s.setDepot x).trunk = s.trunk := rfl
@[simp] theorem setDepot_depot (s : State) (x : LinkPort) : (s.setDepot x).depot = x := rfl
@[simp] theorem setDepot_depotUp (s : State) (x : LinkPort) : (s.setDepot x).depotUp = s.depotUp := rfl
@[simp] theorem setDepot_pins (s : State) (x : LinkPort) : (s.setDepot x).pins = s.pins := rfl
@[simp] theorem setDepot_timebase (s : State) (x : LinkPort) : (s.setDepot x).timebase = s.timebase := rfl
@[simp] theorem setDepot_freeCounter (s : State) (x : LinkPort) : (s.setDepot x).freeCounter = s.freeCounter := rfl
@[simp] theorem setDepot_pending (s : State) (x : LinkPort) : (s.setDepot x).pending = s.pending := rfl

@[simp] theorem setDepotUp_lanes (s : State) (x : Bool) : (s.setDepotUp x).lanes = s.lanes := rfl
@[simp] theorem setDepotUp_pool (s : State) (x : Bool) : (s.setDepotUp x).pool = s.pool := rfl
@[simp] theorem setDepotUp_families (s : State) (x : Bool) : (s.setDepotUp x).families = s.families := rfl
@[simp] theorem setDepotUp_services (s : State) (x : Bool) : (s.setDepotUp x).services = s.services := rfl
@[simp] theorem setDepotUp_decoder (s : State) (x : Bool) : (s.setDepotUp x).decoder = s.decoder := rfl
@[simp] theorem setDepotUp_pairing (s : State) (x : Bool) : (s.setDepotUp x).pairing = s.pairing := rfl
@[simp] theorem setDepotUp_route (s : State) (x : Bool) : (s.setDepotUp x).route = s.route := rfl
@[simp] theorem setDepotUp_book (s : State) (x : Bool) : (s.setDepotUp x).book = s.book := rfl
@[simp] theorem setDepotUp_clock (s : State) (x : Bool) : (s.setDepotUp x).clock = s.clock := rfl
@[simp] theorem setDepotUp_segments (s : State) (x : Bool) : (s.setDepotUp x).segments = s.segments := rfl
@[simp] theorem setDepotUp_matcher (s : State) (x : Bool) : (s.setDepotUp x).matcher = s.matcher := rfl
@[simp] theorem setDepotUp_rules (s : State) (x : Bool) : (s.setDepotUp x).rules = s.rules := rfl
@[simp] theorem setDepotUp_screening (s : State) (x : Bool) : (s.setDepotUp x).screening = s.screening := rfl
@[simp] theorem setDepotUp_routing (s : State) (x : Bool) : (s.setDepotUp x).routing = s.routing := rfl
@[simp] theorem setDepotUp_builder (s : State) (x : Bool) : (s.setDepotUp x).builder = s.builder := rfl
@[simp] theorem setDepotUp_store (s : State) (x : Bool) : (s.setDepotUp x).store = s.store := rfl
@[simp] theorem setDepotUp_memory (s : State) (x : Bool) : (s.setDepotUp x).memory = s.memory := rfl
@[simp] theorem setDepotUp_live (s : State) (x : Bool) : (s.setDepotUp x).live = s.live := rfl
@[simp] theorem setDepotUp_uploader (s : State) (x : Bool) : (s.setDepotUp x).uploader = s.uploader := rfl
@[simp] theorem setDepotUp_events (s : State) (x : Bool) : (s.setDepotUp x).events = s.events := rfl
@[simp] theorem setDepotUp_faults (s : State) (x : Bool) : (s.setDepotUp x).faults = s.faults := rfl
@[simp] theorem setDepotUp_trunk (s : State) (x : Bool) : (s.setDepotUp x).trunk = s.trunk := rfl
@[simp] theorem setDepotUp_depot (s : State) (x : Bool) : (s.setDepotUp x).depot = s.depot := rfl
@[simp] theorem setDepotUp_depotUp (s : State) (x : Bool) : (s.setDepotUp x).depotUp = x := rfl
@[simp] theorem setDepotUp_pins (s : State) (x : Bool) : (s.setDepotUp x).pins = s.pins := rfl
@[simp] theorem setDepotUp_timebase (s : State) (x : Bool) : (s.setDepotUp x).timebase = s.timebase := rfl
@[simp] theorem setDepotUp_freeCounter (s : State) (x : Bool) : (s.setDepotUp x).freeCounter = s.freeCounter := rfl
@[simp] theorem setDepotUp_pending (s : State) (x : Bool) : (s.setDepotUp x).pending = s.pending := rfl

@[simp] theorem setPins_lanes (s : State) (x : Pins) : (s.setPins x).lanes = s.lanes := rfl
@[simp] theorem setPins_pool (s : State) (x : Pins) : (s.setPins x).pool = s.pool := rfl
@[simp] theorem setPins_families (s : State) (x : Pins) : (s.setPins x).families = s.families := rfl
@[simp] theorem setPins_services (s : State) (x : Pins) : (s.setPins x).services = s.services := rfl
@[simp] theorem setPins_decoder (s : State) (x : Pins) : (s.setPins x).decoder = s.decoder := rfl
@[simp] theorem setPins_pairing (s : State) (x : Pins) : (s.setPins x).pairing = s.pairing := rfl
@[simp] theorem setPins_route (s : State) (x : Pins) : (s.setPins x).route = s.route := rfl
@[simp] theorem setPins_book (s : State) (x : Pins) : (s.setPins x).book = s.book := rfl
@[simp] theorem setPins_clock (s : State) (x : Pins) : (s.setPins x).clock = s.clock := rfl
@[simp] theorem setPins_segments (s : State) (x : Pins) : (s.setPins x).segments = s.segments := rfl
@[simp] theorem setPins_matcher (s : State) (x : Pins) : (s.setPins x).matcher = s.matcher := rfl
@[simp] theorem setPins_rules (s : State) (x : Pins) : (s.setPins x).rules = s.rules := rfl
@[simp] theorem setPins_screening (s : State) (x : Pins) : (s.setPins x).screening = s.screening := rfl
@[simp] theorem setPins_routing (s : State) (x : Pins) : (s.setPins x).routing = s.routing := rfl
@[simp] theorem setPins_builder (s : State) (x : Pins) : (s.setPins x).builder = s.builder := rfl
@[simp] theorem setPins_store (s : State) (x : Pins) : (s.setPins x).store = s.store := rfl
@[simp] theorem setPins_memory (s : State) (x : Pins) : (s.setPins x).memory = s.memory := rfl
@[simp] theorem setPins_live (s : State) (x : Pins) : (s.setPins x).live = s.live := rfl
@[simp] theorem setPins_uploader (s : State) (x : Pins) : (s.setPins x).uploader = s.uploader := rfl
@[simp] theorem setPins_events (s : State) (x : Pins) : (s.setPins x).events = s.events := rfl
@[simp] theorem setPins_faults (s : State) (x : Pins) : (s.setPins x).faults = s.faults := rfl
@[simp] theorem setPins_trunk (s : State) (x : Pins) : (s.setPins x).trunk = s.trunk := rfl
@[simp] theorem setPins_depot (s : State) (x : Pins) : (s.setPins x).depot = s.depot := rfl
@[simp] theorem setPins_depotUp (s : State) (x : Pins) : (s.setPins x).depotUp = s.depotUp := rfl
@[simp] theorem setPins_pins (s : State) (x : Pins) : (s.setPins x).pins = x := rfl
@[simp] theorem setPins_timebase (s : State) (x : Pins) : (s.setPins x).timebase = s.timebase := rfl
@[simp] theorem setPins_freeCounter (s : State) (x : Pins) : (s.setPins x).freeCounter = s.freeCounter := rfl
@[simp] theorem setPins_pending (s : State) (x : Pins) : (s.setPins x).pending = s.pending := rfl

@[simp] theorem setTimebase_lanes (s : State) (x : Nat) : (s.setTimebase x).lanes = s.lanes := rfl
@[simp] theorem setTimebase_pool (s : State) (x : Nat) : (s.setTimebase x).pool = s.pool := rfl
@[simp] theorem setTimebase_families (s : State) (x : Nat) : (s.setTimebase x).families = s.families := rfl
@[simp] theorem setTimebase_services (s : State) (x : Nat) : (s.setTimebase x).services = s.services := rfl
@[simp] theorem setTimebase_decoder (s : State) (x : Nat) : (s.setTimebase x).decoder = s.decoder := rfl
@[simp] theorem setTimebase_pairing (s : State) (x : Nat) : (s.setTimebase x).pairing = s.pairing := rfl
@[simp] theorem setTimebase_route (s : State) (x : Nat) : (s.setTimebase x).route = s.route := rfl
@[simp] theorem setTimebase_book (s : State) (x : Nat) : (s.setTimebase x).book = s.book := rfl
@[simp] theorem setTimebase_clock (s : State) (x : Nat) : (s.setTimebase x).clock = s.clock := rfl
@[simp] theorem setTimebase_segments (s : State) (x : Nat) : (s.setTimebase x).segments = s.segments := rfl
@[simp] theorem setTimebase_matcher (s : State) (x : Nat) : (s.setTimebase x).matcher = s.matcher := rfl
@[simp] theorem setTimebase_rules (s : State) (x : Nat) : (s.setTimebase x).rules = s.rules := rfl
@[simp] theorem setTimebase_screening (s : State) (x : Nat) : (s.setTimebase x).screening = s.screening := rfl
@[simp] theorem setTimebase_routing (s : State) (x : Nat) : (s.setTimebase x).routing = s.routing := rfl
@[simp] theorem setTimebase_builder (s : State) (x : Nat) : (s.setTimebase x).builder = s.builder := rfl
@[simp] theorem setTimebase_store (s : State) (x : Nat) : (s.setTimebase x).store = s.store := rfl
@[simp] theorem setTimebase_memory (s : State) (x : Nat) : (s.setTimebase x).memory = s.memory := rfl
@[simp] theorem setTimebase_live (s : State) (x : Nat) : (s.setTimebase x).live = s.live := rfl
@[simp] theorem setTimebase_uploader (s : State) (x : Nat) : (s.setTimebase x).uploader = s.uploader := rfl
@[simp] theorem setTimebase_events (s : State) (x : Nat) : (s.setTimebase x).events = s.events := rfl
@[simp] theorem setTimebase_faults (s : State) (x : Nat) : (s.setTimebase x).faults = s.faults := rfl
@[simp] theorem setTimebase_trunk (s : State) (x : Nat) : (s.setTimebase x).trunk = s.trunk := rfl
@[simp] theorem setTimebase_depot (s : State) (x : Nat) : (s.setTimebase x).depot = s.depot := rfl
@[simp] theorem setTimebase_depotUp (s : State) (x : Nat) : (s.setTimebase x).depotUp = s.depotUp := rfl
@[simp] theorem setTimebase_pins (s : State) (x : Nat) : (s.setTimebase x).pins = s.pins := rfl
@[simp] theorem setTimebase_timebase (s : State) (x : Nat) : (s.setTimebase x).timebase = x := rfl
@[simp] theorem setTimebase_freeCounter (s : State) (x : Nat) : (s.setTimebase x).freeCounter = s.freeCounter := rfl
@[simp] theorem setTimebase_pending (s : State) (x : Nat) : (s.setTimebase x).pending = s.pending := rfl

@[simp] theorem setFreeCounter_lanes (s : State) (x : Nat) : (s.setFreeCounter x).lanes = s.lanes := rfl
@[simp] theorem setFreeCounter_pool (s : State) (x : Nat) : (s.setFreeCounter x).pool = s.pool := rfl
@[simp] theorem setFreeCounter_families (s : State) (x : Nat) : (s.setFreeCounter x).families = s.families := rfl
@[simp] theorem setFreeCounter_services (s : State) (x : Nat) : (s.setFreeCounter x).services = s.services := rfl
@[simp] theorem setFreeCounter_decoder (s : State) (x : Nat) : (s.setFreeCounter x).decoder = s.decoder := rfl
@[simp] theorem setFreeCounter_pairing (s : State) (x : Nat) : (s.setFreeCounter x).pairing = s.pairing := rfl
@[simp] theorem setFreeCounter_route (s : State) (x : Nat) : (s.setFreeCounter x).route = s.route := rfl
@[simp] theorem setFreeCounter_book (s : State) (x : Nat) : (s.setFreeCounter x).book = s.book := rfl
@[simp] theorem setFreeCounter_clock (s : State) (x : Nat) : (s.setFreeCounter x).clock = s.clock := rfl
@[simp] theorem setFreeCounter_segments (s : State) (x : Nat) : (s.setFreeCounter x).segments = s.segments := rfl
@[simp] theorem setFreeCounter_matcher (s : State) (x : Nat) : (s.setFreeCounter x).matcher = s.matcher := rfl
@[simp] theorem setFreeCounter_rules (s : State) (x : Nat) : (s.setFreeCounter x).rules = s.rules := rfl
@[simp] theorem setFreeCounter_screening (s : State) (x : Nat) : (s.setFreeCounter x).screening = s.screening := rfl
@[simp] theorem setFreeCounter_routing (s : State) (x : Nat) : (s.setFreeCounter x).routing = s.routing := rfl
@[simp] theorem setFreeCounter_builder (s : State) (x : Nat) : (s.setFreeCounter x).builder = s.builder := rfl
@[simp] theorem setFreeCounter_store (s : State) (x : Nat) : (s.setFreeCounter x).store = s.store := rfl
@[simp] theorem setFreeCounter_memory (s : State) (x : Nat) : (s.setFreeCounter x).memory = s.memory := rfl
@[simp] theorem setFreeCounter_live (s : State) (x : Nat) : (s.setFreeCounter x).live = s.live := rfl
@[simp] theorem setFreeCounter_uploader (s : State) (x : Nat) : (s.setFreeCounter x).uploader = s.uploader := rfl
@[simp] theorem setFreeCounter_events (s : State) (x : Nat) : (s.setFreeCounter x).events = s.events := rfl
@[simp] theorem setFreeCounter_faults (s : State) (x : Nat) : (s.setFreeCounter x).faults = s.faults := rfl
@[simp] theorem setFreeCounter_trunk (s : State) (x : Nat) : (s.setFreeCounter x).trunk = s.trunk := rfl
@[simp] theorem setFreeCounter_depot (s : State) (x : Nat) : (s.setFreeCounter x).depot = s.depot := rfl
@[simp] theorem setFreeCounter_depotUp (s : State) (x : Nat) : (s.setFreeCounter x).depotUp = s.depotUp := rfl
@[simp] theorem setFreeCounter_pins (s : State) (x : Nat) : (s.setFreeCounter x).pins = s.pins := rfl
@[simp] theorem setFreeCounter_timebase (s : State) (x : Nat) : (s.setFreeCounter x).timebase = s.timebase := rfl
@[simp] theorem setFreeCounter_freeCounter (s : State) (x : Nat) : (s.setFreeCounter x).freeCounter = x := rfl
@[simp] theorem setFreeCounter_pending (s : State) (x : Nat) : (s.setFreeCounter x).pending = s.pending := rfl

@[simp] theorem setPending_lanes (s : State) (x : List Instr) : (s.setPending x).lanes = s.lanes := rfl
@[simp] theorem setPending_pool (s : State) (x : List Instr) : (s.setPending x).pool = s.pool := rfl
@[simp] theorem setPending_families (s : State) (x : List Instr) : (s.setPending x).families = s.families := rfl
@[simp] theorem setPending_services (s : State) (x : List Instr) : (s.setPending x).services = s.services := rfl
@[simp] theorem setPending_decoder (s : State) (x : List Instr) : (s.setPending x).decoder = s.decoder := rfl
@[simp] theorem setPending_pairing (s : State) (x : List Instr) : (s.setPending x).pairing = s.pairing := rfl
@[simp] theorem setPending_route (s : State) (x : List Instr) : (s.setPending x).route = s.route := rfl
@[simp] theorem setPending_book (s : State) (x : List Instr) : (s.setPending x).book = s.book := rfl
@[simp] theorem setPending_clock (s : State) (x : List Instr) : (s.setPending x).clock = s.clock := rfl
@[simp] theorem setPending_segments (s : State) (x : List Instr) : (s.setPending x).segments = s.segments := rfl
@[simp] theorem setPending_matcher (s : State) (x : List Instr) : (s.setPending x).matcher = s.matcher := rfl
@[simp] theorem setPending_rules (s : State) (x : List Instr) : (s.setPending x).rules = s.rules := rfl
@[simp] theorem setPending_screening (s : State) (x : List Instr) : (s.setPending x).screening = s.screening := rfl
@[simp] theorem setPending_routing (s : State) (x : List Instr) : (s.setPending x).routing = s.routing := rfl
@[simp] theorem setPending_builder (s : State) (x : List Instr) : (s.setPending x).builder = s.builder := rfl
@[simp] theorem setPending_store (s : State) (x : List Instr) : (s.setPending x).store = s.store := rfl
@[simp] theorem setPending_memory (s : State) (x : List Instr) : (s.setPending x).memory = s.memory := rfl
@[simp] theorem setPending_live (s : State) (x : List Instr) : (s.setPending x).live = s.live := rfl
@[simp] theorem setPending_uploader (s : State) (x : List Instr) : (s.setPending x).uploader = s.uploader := rfl
@[simp] theorem setPending_events (s : State) (x : List Instr) : (s.setPending x).events = s.events := rfl
@[simp] theorem setPending_faults (s : State) (x : List Instr) : (s.setPending x).faults = s.faults := rfl
@[simp] theorem setPending_trunk (s : State) (x : List Instr) : (s.setPending x).trunk = s.trunk := rfl
@[simp] theorem setPending_depot (s : State) (x : List Instr) : (s.setPending x).depot = s.depot := rfl
@[simp] theorem setPending_depotUp (s : State) (x : List Instr) : (s.setPending x).depotUp = s.depotUp := rfl
@[simp] theorem setPending_pins (s : State) (x : List Instr) : (s.setPending x).pins = s.pins := rfl
@[simp] theorem setPending_timebase (s : State) (x : List Instr) : (s.setPending x).timebase = s.timebase := rfl
@[simp] theorem setPending_freeCounter (s : State) (x : List Instr) : (s.setPending x).freeCounter = s.freeCounter := rfl
@[simp] theorem setPending_pending (s : State) (x : List Instr) : (s.setPending x).pending = x := rfl

end Sys2Proof.Machine
end

