-- ==== Sys2Proof/Laws/Ops.lean ====
section
/-! SUPPORT. The shared operations of Machine/Ops.lean: what each can do, and the fields it can change. A lemma named
`f_shape` says which fields of State f may write: all the others are those of the state it was given. -/

namespace Sys2Proof.Machine

/-! ## Counts -/

theorem bump_le (n : Nat) : bump n ≤ Config.max32 := by
  unfold bump; split <;> omega

theorem le_bump {n : Nat} (h : n ≤ Config.max32) : n ≤ bump n := by
  unfold bump; split <;> omega

theorem bump_of_lt {n : Nat} (h : n < Config.max32) : bump n = n + 1 := by simp [bump, h]

theorem bumpTo_le (limit n : Nat) : bumpTo limit n ≤ limit := by
  unfold bumpTo; split <;> omega

/-! ## Links -/

@[simp] theorem link_trunk (s : State) : s.link .trunk = s.trunk := rfl
@[simp] theorem link_depot (s : State) : s.link .depot = s.depot := rfl
@[simp] theorem setLink_trunk (s : State) (p : LinkPort) : s.setLink .trunk p = s.setTrunk p := rfl
@[simp] theorem setLink_depot (s : State) (p : LinkPort) : s.setLink .depot p = s.setDepot p := rfl

theorem setLink_link (s : State) (k : Link) (p : LinkPort) : (s.setLink k p).link k = p := by cases k <;> rfl

theorem setLink_other (s : State) (k j : Link) (p : LinkPort) (h : j ≠ k) : (s.setLink k p).link j = s.link j := by
  cases k <;> cases j <;> first | rfl | exact absurd rfl h

theorem setLink_shape (s : State) (k : Link) (p : LinkPort) :
    ∃ tr de, s.setLink k p = { s with trunk := tr, depot := de } := by
  cases k
  · exact ⟨p, s.depot, rfl⟩
  · exact ⟨s.trunk, p, rfl⟩

theorem pushReply_shape (s : State) (k : Link) (r : Reply) :
    ∃ tr de, pushReply s k r = { s with trunk := tr, depot := de } := setLink_shape s k _

/-! ## Events and faults -/

/-- What `postEvent` can do: queue the event, lose it, or leave it out (R181, R182). -/
theorem postEvent_cases (u : EventUnit) (e : Event) :
    (eventEnabled u e.kind = true ∧ u.queue.length < Config.eventPlaces ∧
        postEvent u e = { u with queue := u.queue ++ [e] })
    ∨ (eventEnabled u e.kind = true ∧ ¬ u.queue.length < Config.eventPlaces ∧
        postEvent u e = { u with lost := bump u.lost, pendingLost := bump u.pendingLost })
    ∨ (eventEnabled u e.kind = false ∧ postEvent u e = u) := by
  unfold postEvent
  split
  · split
    · exact .inl ⟨by assumption, by assumption, rfl⟩
    · exact .inr (.inl ⟨by assumption, by assumption, rfl⟩)
  · rename_i h
    exact .inr (.inr ⟨by simpa using h, rfl⟩)

@[simp] theorem postEvent_mask (u : EventUnit) (e : Event) : (postEvent u e).mask = u.mask := by
  obtain ⟨-, -, h⟩ | ⟨-, -, h⟩ | ⟨-, h⟩ := postEvent_cases u e <;> rw [h]

@[simp] theorem postEvent_sent (u : EventUnit) (e : Event) : (postEvent u e).sent = u.sent := by
  obtain ⟨-, -, h⟩ | ⟨-, -, h⟩ | ⟨-, h⟩ := postEvent_cases u e <;> rw [h]

theorem postEvent_length (u : EventUnit) (e : Event) (h : u.queue.length ≤ Config.eventPlaces) :
    (postEvent u e).queue.length ≤ Config.eventPlaces := by
  obtain ⟨-, h2, h3⟩ | ⟨-, -, h3⟩ | ⟨-, h3⟩ := postEvent_cases u e <;> rw [h3]
  · simp only [List.length_append, List.length_singleton]; omega
  · exact h
  · exact h

theorem raiseEvent_shape (s : State) (k : EventKind) (p d : Nat) :
    ∃ ev, raiseEvent s k p d = { s with events := ev } := ⟨_, rfl⟩

theorem raiseFault_shape (s : State) (k : FaultKind) (p : Nat) :
    ∃ fa ev, raiseFault s k p = { s with faults := fa, events := ev } := ⟨_, _, rfl⟩

theorem changeRoute_shape (s : State) (r : Route) :
    ∃ ev, changeRoute s r = { s with route := r, events := ev } := ⟨_, rfl⟩

@[simp] theorem takeEvent_mask (u : EventUnit) (rest : List Event) (c : Nat) : (takeEvent u rest c).mask = u.mask := by
  unfold takeEvent
  split <;> simp

/-! ## Transmitters -/

/-- What a trunk transmitter's choice can do (R180). -/
theorem kickTrunk_cases (s : State) :
    ((∃ f, s.trunk.tx = some f) ∧ kickTrunk s = s)
    ∨ (s.trunk.tx = none ∧ ∃ r rest, s.trunk.replies = r :: rest ∧
        kickTrunk s = s.setTrunk { s.trunk with replies := rest, tx := some (.reply r) })
    ∨ (s.trunk.tx = none ∧ s.trunk.replies = [] ∧ ∃ e rest, s.events.queue = e :: rest ∧
        kickTrunk s =
          (s.setTrunk { s.trunk with tx := some (.event e) }).setEvents (takeEvent s.events rest s.clock.value))
    ∨ (s.trunk.tx = none ∧ s.trunk.replies = [] ∧ s.events.queue = [] ∧ ∃ c rest, s.live.queue = c :: rest ∧
        kickTrunk s = (s.setTrunk { s.trunk with tx := some (.record c.record) }).setLive (takeLive s.live rest))
    ∨ (s.trunk.tx = none ∧ s.trunk.replies = [] ∧ s.events.queue = [] ∧ s.live.queue = [] ∧ kickTrunk s = s) := by
  unfold kickTrunk
  split
  · exact .inl ⟨⟨_, by assumption⟩, rfl⟩
  · split
    · exact .inr (.inl ⟨by assumption, _, _, by assumption, rfl⟩)
    · split
      · exact .inr (.inr (.inl ⟨by assumption, by assumption, _, _, by assumption, rfl⟩))
      · split
        · exact .inr (.inr (.inr (.inl ⟨by assumption, by assumption, by assumption, _, _, by assumption, rfl⟩)))
        · exact .inr (.inr (.inr (.inr ⟨by assumption, by assumption, by assumption, by assumption, rfl⟩)))

theorem kickTrunk_shape (s : State) :
    ∃ tr ev li, kickTrunk s = { s with trunk := tr, events := ev, live := li } := by
  obtain ⟨-, h⟩ | ⟨-, r, rest, -, h⟩ | ⟨-, -, e, rest, -, h⟩ | ⟨-, -, -, c, rest, -, h⟩ | ⟨-, -, -, -, h⟩ :=
    kickTrunk_cases s <;> rw [h]
  · exact ⟨s.trunk, s.events, s.live, rfl⟩
  · exact ⟨_, s.events, s.live, rfl⟩
  · exact ⟨_, _, s.live, rfl⟩
  · exact ⟨_, s.events, _, rfl⟩
  · exact ⟨s.trunk, s.events, s.live, rfl⟩

/-- What a depot transmitter's choice can do (R160). -/
theorem kickDepot_cases (s : State) :
    kickDepot s = s
    ∨ (s.depotUp = true ∧ s.depot.tx = none ∧ ∃ r rest, s.depot.replies = r :: rest ∧
        kickDepot s = s.setDepot { s.depot with replies := rest, tx := some (.reply r) })
    ∨ (s.depotUp = true ∧ s.depot.tx = none ∧ s.depot.replies = [] ∧
        ∃ b, s.uploader.batches.find? (fun b => decide (b.stage = .ready)) = some b ∧
        kickDepot s =
          (s.setDepot { s.depot with tx := some (.batch b.number (batchPayload b)) }).setUploader
            { s.uploader with batches := startSending s.uploader.batches }) := by
  unfold kickDepot
  split
  · split
    · exact .inl rfl
    · split
      · exact .inr (.inl ⟨by assumption, by assumption, _, _, by assumption, rfl⟩)
      · split
        · exact .inr (.inr ⟨by assumption, by assumption, by assumption, _, by assumption, rfl⟩)
        · exact .inl rfl
  · exact .inl rfl

theorem kickDepot_shape (s : State) :
    ∃ de bs, kickDepot s = { s with depot := de, uploader := { s.uploader with batches := bs } } := by
  obtain h | ⟨-, -, r, rest, -, h⟩ | ⟨-, -, -, b, -, h⟩ := kickDepot_cases s <;> rw [h]
  · exact ⟨s.depot, s.uploader.batches, rfl⟩
  · exact ⟨_, s.uploader.batches, rfl⟩
  · exact ⟨_, _, rfl⟩

theorem kickBoth_shape (s : State) :
    ∃ tr ev li de bs, kickBoth s =
      { s with trunk := tr, events := ev, live := li, depot := de, uploader := { s.uploader with batches := bs } } := by
  obtain ⟨de, bs, h⟩ := kickDepot_shape s
  obtain ⟨tr, ev, li, h2⟩ := kickTrunk_shape (kickDepot s)
  exact ⟨tr, ev, li, de, bs, by rw [kickBoth, h2, h]⟩

/-! ## Outcomes -/

/-- A command's effect inside `whenRunning`: none while the RESET line is asserted, else that of the function. -/
theorem whenRunning_next (s : State) (f : State → State) :
    whenRunning s f = .next (if s.pins.resetLine then s else f s) := rfl

theorem whenRunning_of_running {s : State} (h : s.pins.resetLine = false) (f : State → State) :
    whenRunning s f = .next (f s) := by simp [whenRunning, h]

theorem whenRunning_of_held {s : State} (h : s.pins.resetLine = true) (f : State → State) :
    whenRunning s f = .next s := by simp [whenRunning, h]

end Sys2Proof.Machine
end

