-- ==== Sys2Proof/Laws/Gathering.lean ====
section
/-! SUPPORT. The fields that the lane receivers, the frame decoder and the pairing unit can write, operation by
operation. -/

namespace Sys2Proof.Machine

/-! ## Lanes and the capture pool -/

theorem closeFrame_shape (s : State) (i : Fin 8) (o : CloseOutcome) :
    ∃ la po, closeFrame s i o = { s with lanes := la, pool := po } := by
  unfold closeFrame
  simp only
  split
  · exact ⟨_, _, rfl⟩
  · exact ⟨_, s.pool, rfl⟩

theorem takeSync_shape (s : State) (i : Fin 8) (r : Nat) :
    ∃ la po, takeSync s i r = { s with lanes := la, pool := po } := by
  unfold takeSync
  simp only
  split
  · exact ⟨s.lanes, s.pool, rfl⟩
  · exact ⟨s.lanes, s.pool, rfl⟩
  · exact ⟨_, s.pool, rfl⟩
  · exact ⟨_, s.pool, rfl⟩
  · obtain ⟨la, po, h⟩ := closeFrame_shape s i .superseded
    rw [h]
    exact ⟨_, _, rfl⟩

theorem expireGap_shape (s : State) (i : Fin 8) :
    ∃ la po, expireGap s i = { s with lanes := la, pool := po } := by
  unfold expireGap
  split
  · exact closeFrame_shape s i .short
  · exact ⟨_, s.pool, rfl⟩
  · exact ⟨s.lanes, s.pool, rfl⟩
  · exact ⟨s.lanes, s.pool, rfl⟩
  · exact ⟨s.lanes, s.pool, rfl⟩

theorem takeDrop_shape (s : State) (i : Fin 8) :
    ∃ la po, takeDrop s i = { s with lanes := la, pool := po } := by
  unfold takeDrop
  split
  · exact ⟨s.lanes, s.pool, rfl⟩
  · exact ⟨s.lanes, s.pool, rfl⟩
  · exact ⟨s.lanes, s.pool, rfl⟩
  · exact ⟨_, s.pool, rfl⟩
  · exact closeFrame_shape s i .short

theorem takeLengthByte_shape (s : State) (i : Fin 8) (b : Byte) (g : Bool) :
    ∃ la po ev, takeLengthByte s i b g = { s with lanes := la, pool := po, events := ev } := by
  unfold takeLengthByte
  simp only
  split
  · unfold startMessage
    split
    · unfold giveDescriptor
      simp only
      split
      · exact ⟨_, _, _, rfl⟩
      · exact ⟨_, _, s.events, rfl⟩
    · exact ⟨_, s.pool, s.events, rfl⟩
  · exact ⟨_, s.pool, s.events, rfl⟩

theorem takeBodyByte_shape (s : State) (i : Fin 8) (b : Byte) :
    ∃ la po, takeBodyByte s i b = { s with lanes := la, pool := po } := by
  unfold takeBodyByte
  simp only
  split
  · exact ⟨_, s.pool, rfl⟩
  · split
    · split
      · unfold closeGood
        simp only
        rename_i d _ _ _
        obtain ⟨la, po, h⟩ := closeFrame_shape ((s.setLane i
          { s.lanes[i] with bytesReceived := s.lanes[i].bytesReceived + 1,
                            gapDeadline := some (s.timebase + s.lanes[i].gapLimit) }).setDescriptor d
            (storeByte s.pool.descriptors[d] s.lanes[i].bytesReceived (s.lanes[i].frameLength.getD 0) b)) i .good
        rw [h]
        exact ⟨_, _, rfl⟩
      · rename_i d _ _ _
        obtain ⟨la, po, h⟩ := closeFrame_shape ((s.setLane i
          { s.lanes[i] with bytesReceived := s.lanes[i].bytesReceived + 1,
                            gapDeadline := some (s.timebase + s.lanes[i].gapLimit) }).setDescriptor d
            (storeByte s.pool.descriptors[d] s.lanes[i].bytesReceived (s.lanes[i].frameLength.getD 0) b)) i .badCrc
        rw [h]
        exact ⟨_, _, rfl⟩
    · exact ⟨_, _, rfl⟩

theorem takePortError_shape (s : State) (i : Fin 8) :
    ∃ la po fa ev, takePortError s i = { s with lanes := la, pool := po, faults := fa, events := ev } := by
  unfold takePortError
  obtain ⟨la, po, h⟩ := closeFrame_shape s i .portError
  rw [h]
  simp only
  split
  · exact ⟨_, _, s.faults, s.events, rfl⟩
  · exact ⟨_, _, _, _, rfl⟩

theorem takeByte_shape (s : State) (i : Fin 8) (b : Byte) (g : Bool) :
    ∃ la po fa ev, takeByte s i b g = { s with lanes := la, pool := po, faults := fa, events := ev } := by
  unfold takeByte
  split
  · exact ⟨s.lanes, s.pool, s.faults, s.events, rfl⟩
  · exact ⟨s.lanes, s.pool, s.faults, s.events, rfl⟩
  · exact ⟨s.lanes, s.pool, s.faults, s.events, rfl⟩
  · obtain ⟨la, po, ev, h⟩ := takeLengthByte_shape s i b g
    exact ⟨la, po, s.faults, ev, h⟩
  · split
    · obtain ⟨la, po, h⟩ := takeBodyByte_shape s i b
      exact ⟨la, po, s.faults, s.events, h⟩
    · exact takePortError_shape s i

theorem setOneLane_shape (s : State) (i : Fin 8) (n : LaneSettings) :
    ∃ la po, (setOneLane s i n).1 = { s with lanes := la, pool := po } := by
  have same : ∃ la po, s = { s with lanes := la, pool := po } := ⟨s.lanes, s.pool, rfl⟩
  have ab : ∃ la po, abortFrame s i n = { s with lanes := la, pool := po } := by
    unfold abortFrame
    split
    · obtain ⟨la, po, h⟩ := closeFrame_shape s i .aborted
      rw [h]
      exact ⟨_, _, rfl⟩
    · exact ⟨_, s.pool, rfl⟩
  have nf : ∃ la po, (if settingsEqual s.lanes[i] n then (s, LaneResult.unchanged)
      else
        let t := s.setLane i (applyNextFrame s.lanes[i] n)
        (if gapPassed t.lanes[i] t.timebase then expireGap t i else t, LaneResult.appliedNextFrame)).1
          = { s with lanes := la, pool := po } := by
    split
    · exact same
    · simp only
      split
      · obtain ⟨la, po, h⟩ := expireGap_shape (s.setLane i (applyNextFrame s.lanes[i] n)) i
        rw [h]
        exact ⟨_, _, rfl⟩
      · exact ⟨_, s.pool, rfl⟩
  unfold setOneLane
  simp only
  split
  · split
    · exact same
    · exact ⟨_, s.pool, rfl⟩
  · exact ⟨_, s.pool, rfl⟩
  · split
    · exact same
    · exact ⟨_, s.pool, rfl⟩
  · exact ⟨_, s.pool, rfl⟩
  · exact nf
  · exact nf
  · exact ab
  · exact ab
  · exact ⟨_, s.pool, rfl⟩
  · exact ⟨_, s.pool, rfl⟩

theorem setLanesByMask_shape (n : LaneSettings) (mask : Nat) (is : List (Fin 8)) (s : State) :
    ∃ la po, (setLanesByMask n mask is s).1 = { s with lanes := la, pool := po } := by
  induction is generalizing s with
  | nil => exact ⟨s.lanes, s.pool, rfl⟩
  | cons i rest ih =>
    unfold setLanesByMask
    simp only
    obtain ⟨la, po, h⟩ : ∃ la po, (if mask.testBit i.val then setOneLane s i n else (s, LaneResult.notSelected)).1
        = { s with lanes := la, pool := po } := by
      split
      · exact setOneLane_shape s i n
      · exact ⟨s.lanes, s.pool, rfl⟩
    obtain ⟨la2, po2, h2⟩ := ih (if mask.testBit i.val then setOneLane s i n else (s, LaneResult.notSelected)).1
    rw [h2, h]
    exact ⟨_, _, rfl⟩

theorem setLanesByMask_length (n : LaneSettings) (mask : Nat) (is : List (Fin 8)) (s : State) :
    (setLanesByMask n mask is s).2.length = is.length := by
  induction is generalizing s with
  | nil => rfl
  | cons i rest ih => unfold setLanesByMask; simp only [List.length_cons]; rw [ih]

/-! ## Decoder -/

theorem decodeGood_shape (s : State) (d : Fin 128) :
    ∃ po de sv, decodeGood s d = { s with pool := po, decoder := de, services := sv } := by
  unfold decodeGood
  split
  · exact ⟨_, _, s.services, rfl⟩
  · exact ⟨_, _, _, rfl⟩
  · exact ⟨s.pool, _, s.services, rfl⟩

theorem decoderTake_shape (s : State) :
    ∃ po de sv, decoderTake s = { s with pool := po, decoder := de, services := sv } := by
  unfold decoderTake
  split
  · simp only
    split
    · rename_i d rest _ _ _ _
      obtain ⟨po, de, sv, h⟩ := decodeGood_shape ((s.setPool { s.pool with closeQueue := rest }).setDescriptor d
        { s.pool.descriptors[d] with state := .decoding }) d
      rw [h]
      exact ⟨_, _, _, rfl⟩
    · exact ⟨_, _, s.services, rfl⟩
    · exact ⟨_, s.decoder, s.services, rfl⟩
  · exact ⟨s.pool, s.decoder, s.services, rfl⟩

/-! ## Pairing unit -/

theorem pairingTake_shape (s : State) :
    ∃ po de pa, pairingTake s = { s with pool := po, decoder := de, pairing := pa } := by
  unfold pairingTake
  split
  · exact ⟨_, _, _, rfl⟩
  · exact ⟨s.pool, s.decoder, s.pairing, rfl⟩

end Sys2Proof.Machine
end

