-- ==== Sys2Proof/Laws/Memory.lean ====
section
/-! SUPPORT. The record memory: a read after a write, and the canonical form that every memory operation keeps. -/

namespace Sys2Proof.Machine

/-! ## Reading after writing -/

theorem readByte_of_all_gt (mem : List Host.Cell) (a : Nat) (h : mem.all (fun c => decide (a < c.1)) = true) :
    readByte mem a = blankByte := by
  induction mem with
  | nil => rfl
  | cons c rest ih =>
    simp only [List.all_cons, Bool.and_eq_true, decide_eq_true_eq] at h
    unfold readByte
    rw [if_neg (by omega)]
    exact ih h.2

/-- A byte reads as it was written, at its own address, and no other byte changes. -/
theorem readByte_writeByte (mem : List Host.Cell) (h : memoryWf mem = true) (a b : Nat) (x : Byte) :
    readByte (writeByte mem a x) b = if b = a then x else readByte mem b := by
  induction mem with
  | nil =>
    unfold writeByte
    split
    · subst_vars; split <;> simp [readByte]
    · simp [readByte]; split <;> split <;> first | rfl | omega
  | cons c rest ih =>
    obtain ⟨a', b'⟩ := c
    simp only [memoryWf, Bool.and_eq_true, decide_eq_true_eq] at h
    obtain ⟨⟨⟨hb, ha⟩, hgt⟩, hrest⟩ := h
    unfold writeByte
    split
    · rename_i hlt
      split
      · rename_i hx
        split
        · rename_i hba
          subst hba hx
          apply readByte_of_all_gt
          simp only [List.all_cons, Bool.and_eq_true, decide_eq_true_eq]
          refine ⟨hlt, ?_⟩
          simp only [List.all_eq_true, decide_eq_true_eq] at hgt ⊢
          exact fun c hc => Nat.lt_trans hlt (hgt c hc)
        · rfl
      · conv => lhs; unfold readByte
        by_cases e : b = a
        · subst e; simp
        · rw [if_neg (by omega), if_neg e]
    · split
      · rename_i heq
        subst heq
        split
        · rename_i hx
          split
          · rename_i hba
            subst hba hx
            exact readByte_of_all_gt rest b hgt
          · rename_i hba
            conv => rhs; unfold readByte
            rw [if_neg (by omega)]
        · by_cases e : b = a
          · subst e; simp [readByte]
          · simp only [readByte]; rw [if_neg (fun h => e h.symm), if_neg e, if_neg (fun h => e h.symm)]
      · rename_i hne
        simp only [readByte]
        rw [ih hrest]
        by_cases e : b = a
        · subst e; rw [if_neg (by omega)]; simp
        · simp [e]

/-! ## The canonical form -/

theorem writeByte_all_gt (mem : List Host.Cell) (a k : Nat) (x : Byte) (hk : k < a)
    (h : mem.all (fun c => decide (k < c.1)) = true) :
    (writeByte mem a x).all (fun c => decide (k < c.1)) = true := by
  induction mem with
  | nil => unfold writeByte; split <;> simp [hk]
  | cons c rest ih =>
    obtain ⟨a', b'⟩ := c
    simp only [List.all_cons, Bool.and_eq_true, decide_eq_true_eq] at h
    unfold writeByte
    split
    · split <;> simp [h.1, h.2, hk]
    · split
      · split
        · exact h.2
        · simp only [List.all_cons, Bool.and_eq_true, decide_eq_true_eq]; exact ⟨by omega, h.2⟩
      · simp only [List.all_cons, Bool.and_eq_true, decide_eq_true_eq]; exact ⟨h.1, ih h.2⟩

theorem memoryWf_writeByte (mem : List Host.Cell) (h : memoryWf mem = true) (a : Nat) (x : Byte)
    (ha : a < Config.recordSlots * Config.slotBytes) : memoryWf (writeByte mem a x) = true := by
  induction mem with
  | nil =>
    unfold writeByte
    split
    · rfl
    · simp [memoryWf, ha]; assumption
  | cons c rest ih =>
    obtain ⟨a', b'⟩ := c
    have h0 := h
    simp only [memoryWf, Bool.and_eq_true, decide_eq_true_eq] at h
    obtain ⟨⟨⟨hb, ha'⟩, hgt⟩, hrest⟩ := h
    unfold writeByte
    split
    · rename_i hlt
      split
      · exact h0
      · rename_i hx
        simp only [memoryWf, List.all_cons, Bool.and_eq_true, decide_eq_true_eq]
        refine ⟨⟨⟨hx, ha⟩, hlt, ?_⟩, ⟨⟨hb, ha'⟩, hgt⟩, hrest⟩
        simp only [List.all_eq_true, decide_eq_true_eq] at hgt ⊢
        exact fun c hc => Nat.lt_trans hlt (hgt c hc)
    · split
      · rename_i heq
        subst heq
        split
        · exact hrest
        · rename_i hx
          simp only [memoryWf, Bool.and_eq_true, decide_eq_true_eq]
          exact ⟨⟨⟨hx, ha⟩, hgt⟩, hrest⟩
      · rename_i h1 h2
        simp only [memoryWf, Bool.and_eq_true, decide_eq_true_eq]
        exact ⟨⟨⟨hb, ha'⟩, writeByte_all_gt rest a a' x (by omega) hgt⟩, ih hrest⟩

theorem memoryWf_writeBytes (bytes : List Byte) (mem : List Host.Cell) (h : memoryWf mem = true) (a : Nat)
    (ha : a + bytes.length ≤ Config.recordSlots * Config.slotBytes) : memoryWf (writeBytes mem a bytes) = true := by
  induction bytes generalizing mem a with
  | nil => exact h
  | cons b rest ih =>
    simp only [List.length_cons] at ha
    exact ih _ (memoryWf_writeByte mem h a b (by omega)) (a + 1) (by omega)

/-- Every write of a slot keeps the canonical form. -/
theorem memoryWf_writeSlot (mem : List Host.Cell) (h : memoryWf mem = true) (slot : Nat) (enc : List Byte) :
    memoryWf (writeSlot mem slot enc) = true := by
  unfold writeSlot
  split
  · rename_i hs
    apply memoryWf_writeBytes _ _ h
    simp only [List.length_take, Config.recordSlots, Config.slotBytes] at *
    omega
  · exact h

/-- Bytes at consecutive addresses: the last bytes written stand there, and no other byte changes. -/
theorem readByte_writeBytes (bytes : List Byte) (mem : List Host.Cell) (h : memoryWf mem = true) (a b : Nat)
    (ha : a + bytes.length ≤ Config.recordSlots * Config.slotBytes) :
    readByte (writeBytes mem a bytes) b =
      if a ≤ b ∧ b < a + bytes.length then bytes.getD (b - a) 0 else readByte mem b := by
  induction bytes generalizing mem a with
  | nil =>
    simp only [writeBytes, List.length_nil]
    rw [if_neg (by omega)]
  | cons x rest ih =>
    simp only [List.length_cons] at ha ⊢
    simp only [writeBytes]
    rw [ih _ (memoryWf_writeByte mem h a x (by omega)) (a + 1) (by omega), readByte_writeByte mem h]
    by_cases e : b = a
    · subst e
      rw [if_neg (by omega), if_pos rfl, if_pos (by omega)]
      simp
    · by_cases e2 : a ≤ b ∧ b < a + (rest.length + 1)
      · rw [if_pos (by omega), if_pos e2]
        have : b - a = (b - (a + 1)) + 1 := by omega
        rw [this]; simp
      · rw [if_neg (by omega), if_neg e, if_neg e2]

/-- A write of a slot leaves every byte outside the slot as it was. -/
theorem readByte_writeSlot_outside (mem : List Host.Cell) (h : memoryWf mem = true) (slot : Nat) (enc : List Byte)
    (b : Nat) (hb : b < slot * 64 ∨ slot * 64 + 64 ≤ b) : readByte (writeSlot mem slot enc) b = readByte mem b := by
  unfold writeSlot
  split
  · rename_i hs
    have hl : ((enc ++ List.replicate Config.slotBytes 0).take Config.slotBytes).length = 64 := by
      simp [Config.slotBytes]
    rw [readByte_writeBytes _ _ h _ _ (by rw [hl]; simp only [Config.recordSlots, Config.slotBytes] at *; omega)]
    rw [hl, if_neg (by simp only [Config.slotBytes]; omega)]
  · rfl

theorem memoryWf_nil : memoryWf [] = true := rfl

end Sys2Proof.Machine
end

