-- ==== Sys2Proof/Laws/Storing.lean ====
section
/-! SUPPORT. The fields that the record builder, the record store, the live queue and the depot uploader can write,
operation by operation. -/

namespace Sys2Proof.Machine

/-! ## Store and port -/

theorem rearmClass_shape (s : State) (c : Fin 4) : ∃ st, rearmClass s c = { s with store := st } := by
  unfold rearmClass
  split
  · exact ⟨_, rfl⟩
  · exact ⟨s.store, rfl⟩

theorem refuseRecord_shape (s : State) (r : Record) (x : RefuseCause) :
    ∃ st ev, refuseRecord s r x = { s with store := st, events := ev } := by
  unfold refuseRecord
  simp only
  split
  · exact ⟨_, _, rfl⟩
  · exact ⟨_, s.events, rfl⟩

theorem judgeQueue_shape (rs : List Record) (s : State) :
    ∃ st ev, judgeQueue rs s = { s with store := st, events := ev } := by
  induction rs generalizing s with
  | nil => exact ⟨_, s.events, rfl⟩
  | cons r rest ih =>
    unfold judgeQueue
    split
    · exact ⟨_, s.events, rfl⟩
    · exact ⟨_, s.events, rfl⟩
    · rename_i x _
      obtain ⟨st, ev, h⟩ := refuseRecord_shape s r x
      obtain ⟨st2, ev2, h2⟩ := ih (refuseRecord s r x)
      rw [h2, h]
      exact ⟨_, _, rfl⟩

theorem grantRead_shape (s : State) : ∃ st, grantRead s = { s with store := st } := by
  unfold grantRead
  split
  · exact ⟨_, rfl⟩
  · exact ⟨s.store, rfl⟩

theorem grantPort_shape (s : State) : ∃ st ev, grantPort s = { s with store := st, events := ev } := by
  unfold grantPort
  split
  · exact ⟨s.store, s.events, rfl⟩
  · simp only
    obtain ⟨st, ev, h⟩ : ∃ st ev, (if s.store.state = .normal then judgeQueue s.store.appendQueue s else s)
        = { s with store := st, events := ev } := by
      split
      · exact judgeQueue_shape _ s
      · exact ⟨s.store, s.events, rfl⟩
    rw [h]
    split
    · exact ⟨_, _, rfl⟩
    · obtain ⟨st2, h2⟩ := grantRead_shape { s with store := st, events := ev }
      rw [h2]
      exact ⟨_, _, rfl⟩

theorem enqueueRecord_shape (s : State) (r : Record) :
    ∃ st ev, enqueueRecord s r = { s with store := st, events := ev } := by
  unfold enqueueRecord
  obtain ⟨st, ev, h⟩ := grantPort_shape (s.setStore { s.store with appendQueue := s.store.appendQueue ++ [r] })
  rw [h]
  exact ⟨_, _, rfl⟩

/-- Passing a record on writes the store, the events and the builder's held records alone. -/
theorem passRecord_shape (s : State) (r : Record) :
    ∃ st ev held, passRecord s r = { s with store := st, events := ev, builder := { s.builder with held := held } } := by
  unfold passRecord
  split
  · exact ⟨_, s.events, s.builder.held, rfl⟩
  · split
    · obtain ⟨st, ev, h⟩ := enqueueRecord_shape s r
      exact ⟨st, ev, s.builder.held, h⟩
    · exact ⟨s.store, s.events, _, rfl⟩

theorem builderPass_shape (s : State) :
    ∃ st ev held, builderPass s = { s with store := st, events := ev, builder := { s.builder with held := held } } := by
  unfold builderPass
  split
  · exact ⟨s.store, s.events, s.builder.held, rfl⟩
  · simp only
    split
    · exact ⟨_, s.events, _, rfl⟩
    · split
      · rename_i r rest _ _ _
        obtain ⟨st, ev, h⟩ := enqueueRecord_shape (s.setBuilder { s.builder with held := rest }) r
        rw [h]
        exact ⟨_, _, _, rfl⟩
      · exact ⟨s.store, s.events, s.builder.held, rfl⟩

theorem releaseRecords_shape (s : State) (c : Fin 4) (ns : List Nat) :
    ∃ st, releaseRecords s c ns = { s with store := st } := by
  unfold releaseRecords
  obtain ⟨st, h⟩ := rearmClass_shape
    (s.setStore { s.store with index := s.store.index.filter (fun r => decide (r.head.number ∉ ns)) }) c
  rw [h]
  exact ⟨_, rfl⟩

/-! ## Builder and live queue -/

theorem pushLive_shape (s : State) (c : LiveCopy) : ∃ li ev, pushLive s c = { s with live := li, events := ev } := by
  unfold pushLive
  split
  · exact ⟨_, s.events, rfl⟩
  · simp only
    split
    · exact ⟨_, _, rfl⟩
    · exact ⟨_, s.events, rfl⟩

/-- Giving a number: it rises by 1, or at the last one the limit flag is set with its fault (R136, R137). -/
theorem giveNumber_cases (s : State) (k : RecordKind) :
    (s.builder.nextNumber < Config.max32 ∧ ∃ cr, giveNumber s k =
      { s with builder := { s.builder with created := cr, nextNumber := s.builder.nextNumber + 1 } })
    ∨ (¬ s.builder.nextNumber < Config.max32 ∧ ∃ cr fa ev, giveNumber s k =
      { s with builder := { s.builder with created := cr, limitFlag := true }, faults := fa, events := ev }) := by
  unfold giveNumber
  simp only
  split
  · exact .inl ⟨by assumption, _, rfl⟩
  · exact .inr ⟨by assumption, _, _, _, rfl⟩

theorem makeLiveCopy_shape (s : State) (r : Record) (f : Bool) :
    ∃ li ev, makeLiveCopy s r f = { s with live := li, events := ev } := by
  unfold makeLiveCopy
  split
  · exact pushLive_shape s _
  · exact ⟨s.live, s.events, rfl⟩

theorem takeDraft_shape (s : State) (d : Draft) :
    ∃ bu st li fa ev, takeDraft s d =
      { s with builder := bu, store := st, live := li, faults := fa, events := ev } := by
  unfold takeDraft
  split
  · exact ⟨s.builder, s.store, s.live, s.faults, s.events, rfl⟩
  · simp only
    obtain ⟨bu, fa, ev, h⟩ : ∃ bu fa ev, giveNumber s (recordOf s d).head.kind
        = { s with builder := bu, faults := fa, events := ev } := by
      obtain ⟨-, cr, h⟩ | ⟨-, cr, fa, ev, h⟩ := giveNumber_cases s (recordOf s d).head.kind
      · exact ⟨_, s.faults, s.events, h⟩
      · exact ⟨_, fa, ev, h⟩
    obtain ⟨li, ev2, h2⟩ :=
      makeLiveCopy_shape (giveNumber s (recordOf s d).head.kind) (recordOf s d) d.liveForced
    obtain ⟨st, ev3, held, h3⟩ := passRecord_shape
      (makeLiveCopy (giveNumber s (recordOf s d).head.kind) (recordOf s d) d.liveForced) (recordOf s d)
    rw [h3, h2, h]
    exact ⟨_, _, _, _, _, rfl⟩

theorem takeGroup_shape (g : List Draft) (s : State) :
    ∃ bu st li fa ev, takeGroup s g =
      { s with builder := bu, store := st, live := li, faults := fa, events := ev } := by
  induction g generalizing s with
  | nil => exact ⟨s.builder, s.store, s.live, s.faults, s.events, rfl⟩
  | cons d rest ih =>
    obtain ⟨bu, st, li, fa, ev, h⟩ := takeDraft_shape s d
    obtain ⟨bu2, st2, li2, fa2, ev2, h2⟩ := ih (takeDraft s d)
    refine ⟨bu2, st2, li2, fa2, ev2, ?_⟩
    show takeGroup (takeDraft s d) rest = _
    rw [h2, h]

/-! ## Uploader -/

theorem tryForm_shape (s : State) : ∃ st up, tryForm s = { s with store := st, uploader := up } := by
  unfold tryForm
  split
  · split
    · exact ⟨_, _, rfl⟩
    · exact ⟨s.store, s.uploader, rfl⟩
  · exact ⟨s.store, s.uploader, rfl⟩

theorem settleStore_shape (s : State) :
    ∃ st up ev fc, settleStore s = { s with store := st, uploader := up, events := ev, freeCounter := fc } := by
  have one (t : State) : ∃ st up ev, grantPort (tryForm t) = { t with store := st, uploader := up, events := ev } := by
    obtain ⟨st, up, h⟩ := tryForm_shape t
    obtain ⟨st2, ev, h2⟩ := grantPort_shape (tryForm t)
    exact ⟨st2, up, ev, by rw [h2, h]⟩
  have two (t : State) : ∃ st up ev, grantPort (tryForm (grantPort t))
      = { t with store := st, uploader := up, events := ev } := by
    obtain ⟨st, ev, h⟩ := grantPort_shape t
    obtain ⟨st2, up, ev2, h2⟩ := one (grantPort t)
    exact ⟨st2, up, ev2, by rw [h2, h]⟩
  unfold settleStore
  split
  · simp only
    split
    · obtain ⟨st, up, ev, h⟩ := one (s.setFreeCounter (s.freeCounter + 1))
      exact ⟨st, up, ev, _, h⟩
    · obtain ⟨st, up, ev, h⟩ := two (s.setFreeCounter (s.freeCounter + 1))
      exact ⟨st, up, ev, _, h⟩
  · obtain ⟨st, up, ev, h⟩ := two s
    exact ⟨st, up, ev, s.freeCounter, h⟩

theorem changeUpload_shape (s : State) (u : Uploader) :
    ∃ ev, changeUpload s u = { s with uploader := u, events := ev } := ⟨_, rfl⟩

theorem releaseFlight_shape (s : State) :
    ∃ de st, releaseFlight s = { s with depot := de, store := st } := ⟨_, _, rfl⟩

theorem endUpload_shape (s : State) (x : EndReason) :
    ∃ de st up ev, endUpload s x = { s with depot := de, store := st, uploader := up, events := ev } := by
  obtain ⟨de, st, h⟩ := releaseFlight_shape s
  obtain ⟨ev, h2⟩ := changeUpload_shape (releaseFlight s)
    { s.uploader with batches := [], streak := 0, state := .idle, lastEnd := some x }
  exact ⟨de, st, _, ev, by rw [endUpload, h2, h]⟩

theorem finishIfDrained_shape (s : State) :
    ∃ up ev, finishIfDrained s = { s with uploader := up, events := ev } := by
  unfold finishIfDrained
  split
  · exact ⟨_, _, rfl⟩
  · exact ⟨s.uploader, s.events, rfl⟩

theorem ackTimeout_shape (s : State) (n : Nat) :
    ∃ de st up ev fc, ackTimeout s n =
      { s with depot := de, store := st, uploader := up, events := ev, freeCounter := fc } := by
  unfold ackTimeout
  split
  · exact ⟨s.depot, s.store, s.uploader, s.events, s.freeCounter, rfl⟩
  · split
    · simp only
      rename_i b _ _
      split
      · obtain ⟨de, st, up, ev, h⟩ := endUpload_shape (timeOutBatch s b) .depotSilent
        obtain ⟨st2, up2, ev2, fc, h2⟩ := settleStore_shape (endUpload (timeOutBatch s b) .depotSilent)
        rw [h2, h]
        exact ⟨_, _, _, _, _, rfl⟩
      · obtain ⟨up, ev, h⟩ := finishIfDrained_shape (timeOutBatch s b)
        obtain ⟨st2, up2, ev2, fc, h2⟩ := settleStore_shape (finishIfDrained (timeOutBatch s b))
        rw [h2, h]
        exact ⟨s.depot, _, _, _, _, rfl⟩
    · exact ⟨s.depot, s.store, s.uploader, s.events, s.freeCounter, rfl⟩

theorem writeDone_shape (s : State) (r : Record) (k : Nat) :
    ∃ st, writeDone s r k = { s with store := st, memory := writeSlot s.memory k (encodeRecord r) } := ⟨_, rfl⟩

theorem strikeWrite_shape (s : State) (c : Fin 4) :
    ∃ st fa ev, strikeWrite s c = { s with store := st, faults := fa, events := ev } := by
  unfold strikeWrite
  simp only
  split
  · obtain ⟨fa, ev, h⟩ := raiseFault_shape
      (s.setStore { s.store with failStreak := bumpTo 4 s.store.failStreak }) .storeHalt c.val
    unfold haltStore
    rw [h]
    exact ⟨_, _, _, rfl⟩
  · exact ⟨_, s.faults, s.events, rfl⟩

theorem dropWrite_shape (s : State) (c : Fin 4) : ∃ st, dropWrite s c = { s with store := st } := by
  obtain ⟨st, h⟩ := rearmClass_shape (s.setStore { s.store with port := none, writeFail := bump s.store.writeFail }) c
  exact ⟨st, by rw [dropWrite, h]; rfl⟩

theorem writeFailed_shape (s : State) (r : Record) :
    ∃ st fa ev, writeFailed s r = { s with store := st, faults := fa, events := ev } := by
  obtain ⟨st, h⟩ := dropWrite_shape s r.head.cls
  obtain ⟨fa, ev, h2⟩ := raiseFault_shape (dropWrite s r.head.cls) .recordWriteFail r.head.number
  obtain ⟨st2, fa2, ev2, h3⟩ := strikeWrite_shape
    (raiseFault (dropWrite s r.head.cls) .recordWriteFail r.head.number) r.head.cls
  exact ⟨st2, fa2, ev2, by rw [writeFailed, h3, h2, h]⟩

/-- The one way the record memory changes but for nothing: a write completion OK writes its slot. -/
theorem writeCompletion_shape (s : State) (ok : Bool) :
    (∃ st fa ev up fc, writeCompletion s ok =
        { s with store := st, faults := fa, events := ev, uploader := up, freeCounter := fc })
    ∨ (∃ r k st ev up fc, s.store.port = some (.write r k) ∧ writeCompletion s ok =
        { s with store := st, memory := writeSlot s.memory k (encodeRecord r), events := ev, uploader := up,
                 freeCounter := fc }) := by
  unfold writeCompletion
  split
  · rename_i r k hp
    cases ok
    · left
      obtain ⟨st, fa, ev, h⟩ := writeFailed_shape s r
      obtain ⟨st2, up, ev2, fc, h2⟩ := settleStore_shape (writeFailed s r)
      simp only [Bool.false_eq_true, if_false]
      rw [h2, h]
      exact ⟨_, _, _, _, _, rfl⟩
    · right
      obtain ⟨st, h⟩ := writeDone_shape s r k
      obtain ⟨st2, up, ev2, fc, h2⟩ := settleStore_shape (writeDone s r k)
      simp only [if_true]
      rw [h2, h]
      exact ⟨r, k, _, _, _, _, hp, rfl⟩
  · exact .inl ⟨s.store, s.faults, s.events, s.uploader, s.freeCounter, rfl⟩

theorem countRead_shape (s : State) (n : Nat) (ok : Bool) :
    ∃ st fa ev, countRead s n ok = { s with store := st, faults := fa, events := ev } := by
  unfold countRead
  split
  · exact ⟨s.store, s.faults, s.events, rfl⟩
  · obtain ⟨fa, ev, h⟩ := raiseFault_shape (s.setStore { s.store with readFail := bump s.store.readFail })
      .recordReadFail n
    exact ⟨_, fa, ev, h⟩

theorem finishRead_shape (s : State) (n : Nat) (b : Option Nat) (ok : Bool) :
    ∃ st fa ev, finishRead s n b ok =
      { s with store := st, faults := fa, events := ev, uploader := deliverCopy s.uploader b (copyOf s n ok) } := by
  obtain ⟨st, fa, ev, h⟩ := countRead_shape (s.setStore { s.store with port := none }) n ok
  exact ⟨st, fa, ev, by rw [finishRead, h]; rfl⟩

theorem readCompletion_shape (s : State) (ok : Bool) :
    ∃ st fa ev up fc, readCompletion s ok =
      { s with store := st, faults := fa, events := ev, uploader := up, freeCounter := fc } := by
  unfold readCompletion
  split
  · rename_i n b _
    obtain ⟨st, fa, ev, h⟩ := finishRead_shape s n b ok
    obtain ⟨st2, up, ev2, fc, h2⟩ := settleStore_shape (finishRead s n b ok)
    exact ⟨st2, fa, ev2, up, fc, by rw [h2, h]⟩
  · exact ⟨s.store, s.faults, s.events, s.uploader, s.freeCounter, rfl⟩

theorem pacingSlotOpen_shape (s : State) :
    ∃ st up ev fc, pacingSlotOpen s = { s with store := st, uploader := up, events := ev, freeCounter := fc } := by
  unfold pacingSlotOpen
  split
  · exact settleStore_shape s
  · exact ⟨s.store, s.uploader, s.events, s.freeCounter, rfl⟩

end Sys2Proof.Machine
end

