-- ==== Sys2Proof/Laws/Requests.lean ====
section
/-! SUPPORT. The links and the dispatcher: what the receivers, the ends of frames, the resets and the taking of a request
can do. -/

namespace Sys2Proof.Machine

/-! ## Receivers -/

theorem discardFrame_shape (s : State) (k : Link) (m : List Byte) (c : DiscardCause) :
    ∃ tr de fa ev, discardFrame s k m c = { s with trunk := tr, depot := de, faults := fa, events := ev } := by
  unfold discardFrame
  obtain ⟨tr, de, h⟩ := setLink_shape s k { countLinkDiscard (s.link k) c with rx := m.drop 2 }
  obtain ⟨fa, ev, h2⟩ := raiseFault_shape
    (s.setLink k { countLinkDiscard (s.link k) c with rx := m.drop 2 }) .linkCrc (linkNumber k)
  exact ⟨tr, de, fa, ev, by rw [h2, h]⟩

theorem queueRequest_shape (s : State) (k : Link) (f : RequestFrame) (rest : List Byte) :
    ∃ tr de fa ev, queueRequest s k f rest = { s with trunk := tr, depot := de, faults := fa, events := ev } := by
  unfold queueRequest
  simp only
  split
  · obtain ⟨tr, de, h⟩ := setLink_shape s k
      { s.link k with rx := rest, requests := (s.link k).requests ++ [f], taken := bump (s.link k).taken }
    exact ⟨tr, de, s.faults, s.events, h⟩
  · obtain ⟨tr, de, h⟩ := setLink_shape s k { s.link k with rx := rest, dropped := bump (s.link k).dropped }
    obtain ⟨fa, ev, h2⟩ := raiseFault_shape
      (s.setLink k { s.link k with rx := rest, dropped := bump (s.link k).dropped }) .requestDrop (linkNumber k)
    exact ⟨tr, de, fa, ev, by rw [h2, h]⟩

theorem acceptOn_shape (s : State) (k : Link) : ∃ up, acceptOn s k = { s with depotUp := up } := by
  cases k
  · exact ⟨s.depotUp, rfl⟩
  · exact ⟨true, rfl⟩

theorem receive_shape (k : Link) (n : Nat) (s : State) :
    ∃ tr de up fa ev, receive k n s =
      { s with trunk := tr, depot := de, depotUp := up, faults := fa, events := ev } := by
  induction n generalizing s with
  | zero => exact ⟨s.trunk, s.depot, s.depotUp, s.faults, s.events, rfl⟩
  | succ n ih =>
    have keep (m : List Byte) : ∃ tr de up fa ev, s.setLink k { s.link k with rx := m } =
        { s with trunk := tr, depot := de, depotUp := up, faults := fa, events := ev } := by
      obtain ⟨tr, de, h⟩ := setLink_shape s k { s.link k with rx := m }
      exact ⟨tr, de, s.depotUp, s.faults, s.events, h⟩
    unfold receive
    simp only
    split
    · exact keep _
    · split
      · exact keep _
      · rename_i c _
        obtain ⟨tr, de, fa, ev, h⟩ := discardFrame_shape s k (findMark (s.link k).rx) c
        obtain ⟨tr', de', up', fa', ev', h'⟩ := ih (discardFrame s k (findMark (s.link k).rx) c)
        exact ⟨tr', de', up', fa', ev', by rw [h', h]⟩
      · rename_i f rest _
        obtain ⟨up, h0⟩ := acceptOn_shape s k
        obtain ⟨tr, de, fa, ev, h⟩ := queueRequest_shape (acceptOn s k) k f rest
        obtain ⟨tr', de', up', fa', ev', h'⟩ := ih (queueRequest (acceptOn s k) k f rest)
        exact ⟨tr', de', up', fa', ev', by rw [h', h, h0]⟩

/-- A byte on a link writes the link interfaces, the depot link state, faults and events. -/
theorem linkByte_shape (s : State) (k : Link) (b : Byte) :
    ∃ tr de up fa ev, linkByte s k b =
      { s with trunk := tr, depot := de, depotUp := up, faults := fa, events := ev } := by
  unfold linkByte
  split
  · obtain ⟨tr, de, h⟩ := setLink_shape s k { s.link k with rx := (s.link k).rx ++ [b] }
    obtain ⟨tr', de', up', fa', ev', h'⟩ := receive_shape k (((s.link k).rx ++ [b]).length + 1)
      (s.setLink k { s.link k with rx := (s.link k).rx ++ [b] })
    exact ⟨tr', de', up', fa', ev', by simp only; rw [h', h]⟩
  · exact ⟨s.trunk, s.depot, s.depotUp, s.faults, s.events, rfl⟩

/-! ## Ends of frames -/

theorem afterDepotFrame_shape (s : State) (f : TxFrame) : ∃ up, afterDepotFrame s f = { s with uploader := up } := by
  cases f
  case batch => exact ⟨_, rfl⟩
  all_goals exact ⟨s.uploader, rfl⟩

theorem abandonLoad_shape (s : State) :
    ∃ ev, abandonLoad s = { s with book := [], segments := [], route := {}, events := ev } := ⟨_, rfl⟩

theorem loseLoad_shape (s : State) :
    ∃ bk sg ro ev, loseLoad s = { s with book := bk, segments := sg, route := ro, events := ev } := by
  unfold loseLoad
  split
  · exact ⟨_, _, _, _, rfl⟩
  · exact ⟨s.book, s.segments, s.route, s.events, rfl⟩

theorem loseUpload_shape (s : State) :
    ∃ de st up ev, loseUpload s = { s with depot := de, store := st, uploader := up, events := ev } := by
  unfold loseUpload
  split
  · exact ⟨s.depot, s.store, s.uploader, s.events, rfl⟩
  · exact endUpload_shape s _

theorem linkDown_shape (s : State) :
    ∃ de st up ev bk sg ro fc, linkDown s =
      { s with depotUp := false, depot := de, store := st, uploader := up, events := ev, book := bk, segments := sg,
               route := ro, freeCounter := fc } := by
  unfold linkDown
  obtain ⟨de, st, up, ev, h1⟩ := loseUpload_shape ((s.setDepotUp false).setDepot { s.depot with tx := none })
  obtain ⟨bk, sg, ro, ev2, h2⟩ := loseLoad_shape
    (loseUpload ((s.setDepotUp false).setDepot { s.depot with tx := none }))
  obtain ⟨st3, up3, ev3, fc, h3⟩ := settleStore_shape
    (loseLoad (loseUpload ((s.setDepotUp false).setDepot { s.depot with tx := none })))
  exact ⟨de, st3, up3, ev3, bk, sg, ro, fc, by rw [h3, h2, h1]; rfl⟩

/-! ## Resets: the fields of a warm and a cold reset (section 10.8) -/

@[simp] theorem warmValues_pins (s : State) : (warmValues s).pins = s.pins := rfl
@[simp] theorem warmValues_pending (s : State) : (warmValues s).pending = s.pending := rfl
@[simp] theorem warmValues_memory (s : State) : (warmValues s).memory = s.memory := rfl
@[simp] theorem coldValues_pins (s : State) : (coldValues s).pins = s.pins := rfl
@[simp] theorem coldValues_pending (s : State) : (coldValues s).pending = s.pending := rfl
@[simp] theorem coldValues_memory (s : State) : (coldValues s).memory = s.memory := rfl

theorem startPart_shape (s : State) (x : ResetKind) :
    ∃ pi tr ev li, startPart s x = { s with pins := pi, trunk := tr, events := ev, live := li } := by
  unfold startPart
  obtain ⟨tr, ev, li, h⟩ := kickTrunk_shape (raiseEvent (s.setPins { s.pins with trunkRate := s.pins.strap, coldInReset := false }) .restart
    (s.setPins { s.pins with trunkRate := s.pins.strap, coldInReset := false }).builder.nextNumber (resetKindCode x))
  exact ⟨_, tr, ev, li, by simp only; rw [h]; rfl⟩

/-! ## Taking a request -/

/-- What `takable` answers: the head request, of a dispatcher that holds none with a free place for the reply (R173). -/
theorem takable_eq_some {s : State} {k : Link} {f : RequestFrame} (h : takable s k = some f) :
    (s.link k).dispatcher = .idle ∧ (s.link k).replies.length < Config.linkPlaces
      ∧ ∃ rest, (s.link k).requests = f :: rest := by
  unfold takable at h
  simp only at h
  split at h
  · rename_i hc
    refine ⟨hc.1, hc.2, ?_⟩
    cases hq : (s.link k).requests with
    | nil => rw [hq] at h; cases h
    | cons g rest => rw [hq] at h; cases h; exact ⟨rest, rfl⟩
  · cases h

theorem takable_some {s : State} {k : Link} {f : RequestFrame} {rest : List RequestFrame}
    (h1 : (s.link k).dispatcher = .idle) (h2 : (s.link k).replies.length < Config.linkPlaces)
    (h3 : (s.link k).requests = f :: rest) : takable s k = some f := by
  simp [takable, h1, h2, h3]

/-- What taking a request can do (R173, R174): the owner answers and the reply joins its queue, or nothing. -/
theorem serve_cases (k : Link) (owner : State → Request → Option Answer) (s : State) :
    serve k owner s = s
    ∨ ∃ f r a, takable s k = some f ∧ parseRequest f.payload = .request r ∧ owner (popRequest s k) r = some a
        ∧ serve k owner s = kickBoth (finishRequest k f a) := by
  unfold serve
  split
  · exact .inl rfl
  · split
    · split
      · exact .inr ⟨_, _, _, by assumption, by assumption, by assumption, rfl⟩
      · exact .inl rfl
    all_goals exact .inl rfl

theorem serve_of {k : Link} {owner : State → Request → Option Answer} {s : State} {f : RequestFrame} {r : Request}
    {a : Answer} (h1 : takable s k = some f) (h2 : parseRequest f.payload = .request r)
    (h3 : owner (popRequest s k) r = some a) : serve k owner s = kickBoth (finishRequest k f a) := by
  simp [serve, h1, h2, h3]

theorem popRequest_shape (s : State) (k : Link) : ∃ tr de, popRequest s k = { s with trunk := tr, depot := de } :=
  setLink_shape s k _

theorem finishRequest_shape (k : Link) (f : RequestFrame) (a : Answer) :
    ∃ tr de, finishRequest k f a = { a.state with trunk := tr, depot := de } := pushReply_shape a.state k _

end Sys2Proof.Machine
end

