-- ==== Sys2Proof/Laws/Route.lean ====
section
/-! SUPPORT. The fields that the segment tracker, the route book and the matcher can write, operation by operation. -/

namespace Sys2Proof.Machine

/-! ## Segments -/

theorem notifySegment_shape (s : State) (n : Nat) (f : Segment → Segment) :
    ∃ sg, notifySegment s n f = { s with segments := sg } := by
  unfold notifySegment
  split
  · exact ⟨_, rfl⟩
  · exact ⟨s.segments, rfl⟩

theorem startClose_shape (s : State) (n : Nat) (r : CloseReason) :
    ∃ sg, startClose s n r = { s with segments := sg } := notifySegment_shape s n _

theorem deadlineExpiry_shape (s : State) (n : Nat) : ∃ sg, deadlineExpiry s n = { s with segments := sg } := by
  unfold deadlineExpiry
  split
  · split
    · split
      · exact startClose_shape s n _
      · exact ⟨s.segments, rfl⟩
    · exact ⟨s.segments, rfl⟩
  · exact ⟨s.segments, rfl⟩

theorem handMissed_shape (s : State) (n p : Nat) (w : WaitingMissed) :
    ∃ sg bu st li fa ev, handMissed s n p w =
      { s with segments := sg, builder := bu, store := st, live := li, faults := fa, events := ev } := by
  unfold handMissed
  split
  · obtain ⟨sg, h⟩ := notifySegment_shape s n (walkOn s.book n p)
    obtain ⟨bu, st, li, fa, ev, h2⟩ := takeGroup_shape [missedDraft n w] (notifySegment s n (walkOn s.book n p))
    exact ⟨sg, bu, st, li, fa, ev, by rw [h2, h]⟩
  · exact ⟨s.segments, s.builder, s.store, s.live, s.faults, s.events, rfl⟩

theorem missEntry_shape (s : State) (n p : Nat) (g : Segment) (e : Entry) :
    ∃ bk sg bu st li fa ev, missEntry s n p g e =
      { s with book := bk, segments := sg, builder := bu, store := st, live := li, faults := fa, events := ev } := by
  unfold missEntry
  obtain ⟨sg, bu, st, li, fa, ev, h⟩ := handMissed_shape
    ((s.setBook (s.book.set p { e with hearing := .missed })).setSegment n
      { noteMiss g with waiting := some { meterId := e.meterId, pass := g.pass, timeTag := s.clock.value } }) n p
    { meterId := e.meterId, pass := g.pass, timeTag := s.clock.value }
  exact ⟨_, sg, bu, st, li, fa, ev, h⟩

theorem walkVisit_shape (s : State) (n : Nat) :
    ∃ bk sg bu st li fa ev, walkVisit s n =
      { s with book := bk, segments := sg, builder := bu, store := st, live := li, faults := fa, events := ev } := by
  have same : ∃ bk sg bu st li fa ev, s =
      { s with book := bk, segments := sg, builder := bu, store := st, live := li, faults := fa, events := ev } :=
    ⟨s.book, s.segments, s.builder, s.store, s.live, s.faults, s.events, rfl⟩
  have on (g : Segment) : ∃ bk sg bu st li fa ev, s.setSegment n g =
      { s with book := bk, segments := sg, builder := bu, store := st, live := li, faults := fa, events := ev } :=
    ⟨s.book, _, s.builder, s.store, s.live, s.faults, s.events, rfl⟩
  unfold walkVisit
  split
  · exact same
  · split
    · split
      · rename_i p _ _ _ w _
        obtain ⟨sg, bu, st, li, fa, ev, h⟩ := handMissed_shape s n p w
        exact ⟨s.book, sg, bu, st, li, fa, ev, h⟩
      · split
        · split
          · exact missEntry_shape s n _ _ _
          · exact on _
        · exact on _
    · exact same

theorem closeEnd_shape (s : State) (n : Nat) :
    ∃ sg bu st li fa ev, closeEnd s n =
      { s with segments := sg, builder := bu, store := st, live := li, faults := fa, events := ev } := by
  unfold closeEnd
  split
  · exact ⟨s.segments, s.builder, s.store, s.live, s.faults, s.events, rfl⟩
  · rename_i g _
    split
    · obtain ⟨bu, st, li, fa, ev, h⟩ := takeGroup_shape [segmentDraft n g s.clock.value]
        (s.setSegment n { g with state := .closed, walkPosition := none })
      rw [h]
      obtain ⟨ev2, h2⟩ := raiseEvent_shape
        ({ s.setSegment n { g with state := .closed, walkPosition := none } with
            builder := bu, store := st, live := li, faults := fa, events := ev } : State) .segmentClosed
        (n * 65536 + g.missed) (g.pass * 16 + closeReasonCode (g.closeReason.getD .auto))
      unfold sendSegmentClosed
      rw [h2]
      exact ⟨_, _, _, _, _, _, rfl⟩
    · exact ⟨s.segments, s.builder, s.store, s.live, s.faults, s.events, rfl⟩

theorem routeEndRecord_shape (s : State) :
    ∃ ro cl bu st li fa ev, routeEndRecord s =
      { s with route := ro, clock := cl, builder := bu, store := st, live := li, faults := fa, events := ev } := by
  unfold routeEndRecord
  split
  · simp only
    obtain ⟨bu, st, li, fa, ev, h⟩ := takeGroup_shape [routeEndDraft s] s
    obtain ⟨ev2, h2⟩ := changeRoute_shape
      ((takeGroup s [routeEndDraft s]).setClock { s.clock with running := false })
      { (takeGroup s [routeEndDraft s]).route with state := .ended }
    rw [h2, h]
    exact ⟨_, _, _, _, _, _, _, rfl⟩
  · exact ⟨s.route, s.clock, s.builder, s.store, s.live, s.faults, s.events, rfl⟩

theorem routeClockLimit_shape (s : State) :
    ∃ ro fa ev, routeClockLimit s = { s with route := ro, faults := fa, events := ev } := by
  unfold routeClockLimit
  split
  · obtain ⟨fa, ev, h⟩ := raiseFault_shape (s.setRoute { s.route with clockLimitRaised := true }) .clockLimit s.route.id
    exact ⟨_, fa, ev, h⟩
  · exact ⟨s.route, s.faults, s.events, rfl⟩

/-! ## Matcher -/

/-- A hearing writes the book, the segments, the matcher, the screening counters, the route's held hearings, and what
the records it causes write. -/
theorem hear_shape (s : State) (h : Hearing) :
    ∃ bk sg ma sc hh bu st li fa ev, hear s h =
      { s with book := bk, segments := sg, matcher := ma, screening := sc,
               route := { s.route with heldHearings := hh }, builder := bu, store := st, live := li, faults := fa,
               events := ev } := by
  have grp (t : State) (g : List Draft)
      (ht : ∃ bk sg ma sc, t = { s with book := bk, segments := sg, matcher := ma, screening := sc }) :
      ∃ bk sg ma sc hh bu st li fa ev, takeGroup t g =
        { s with book := bk, segments := sg, matcher := ma, screening := sc,
                 route := { s.route with heldHearings := hh }, builder := bu, store := st, live := li, faults := fa,
                 events := ev } := by
    obtain ⟨bk, sg, ma, sc, ht⟩ := ht
    obtain ⟨bu, st, li, fa, ev, h2⟩ := takeGroup_shape g t
    refine ⟨bk, sg, ma, sc, s.route.heldHearings, bu, st, li, fa, ev, ?_⟩
    rw [h2, ht]
  have plain (t : State)
      (ht : ∃ bk ma, t = { s with book := bk, matcher := ma }) :
      ∃ bk sg ma sc hh bu st li fa ev, t =
        { s with book := bk, segments := sg, matcher := ma, screening := sc,
                 route := { s.route with heldHearings := hh }, builder := bu, store := st, live := li, faults := fa,
                 events := ev } := by
    obtain ⟨bk, ma, ht⟩ := ht
    exact ⟨bk, s.segments, ma, s.screening, s.route.heldHearings, s.builder, s.store, s.live, s.faults, s.events, ht⟩
  have fs (t : State) (b : Bool) (a : Conditions)
      (ht : ∃ ma, t = { s with matcher := ma }) :
      ∃ bk sg ma sc hh bu st li fa ev, hearForeignScreened t h a b =
        { s with book := bk, segments := sg, matcher := ma, screening := sc,
                 route := { s.route with heldHearings := hh }, builder := bu, store := st, live := li, faults := fa,
                 events := ev } := by
    obtain ⟨ma, ht⟩ := ht
    unfold hearForeignScreened
    apply grp
    rw [ht]
    exact ⟨_, _, _, _, rfl⟩
  unfold hear
  split
  · split
    · unfold hearForeign
      simp only
      split
      · exact plain _ ⟨s.book, _, rfl⟩
      all_goals
        split
        · exact fs _ _ _ ⟨_, rfl⟩
        · split
          · exact plain _ ⟨s.book, _, rfl⟩
          · exact fs _ _ _ ⟨_, rfl⟩
    · rename_i e _
      unfold hearBook
      split
      · exact plain _ ⟨s.book, _, rfl⟩
      · split
        · exact ⟨_, s.segments, _, s.screening, _, s.builder, s.store, s.live, s.faults, s.events, rfl⟩
        · have first (b : Bool) : ∃ bk sg ma sc hh bu st li fa ev, hearFirst s e h b =
              { s with book := bk, segments := sg, matcher := ma, screening := sc,
                       route := { s.route with heldHearings := hh }, builder := bu, store := st, live := li,
                       faults := fa, events := ev } := by
            unfold hearFirst
            apply grp
            obtain ⟨sg, hn⟩ := notifySegment_shape
              (updateEntry (countBook s (screenFor s e none h) (thresholdOf s.rules e.options) e.alerted) e.meterId
                (fun _ =>
                  { screenEntry e h (screenFor s e none h) (thresholdOf s.rules e.options) with
                    hearing := if b then .late else .heard
                    reported := some { register := h.register, flags := h.flags,
                                       conditions := (screenFor s e none h).conditions }
                    recordNumber := some s.builder.nextNumber })) e.segment
              (fun g => if b then noteLate g h.timeTag else noteFirst g h.timeTag)
            simp only
            rw [hn]
            exact ⟨_, _, _, _, rfl⟩
          split
          · exact first false
          · exact first true
          all_goals
            unfold hearLater
            split
            · exact plain _ ⟨_, _, rfl⟩
            · simp only
              split
              · split
                · unfold hearRevision
                  apply grp
                  exact ⟨_, _, _, _, rfl⟩
                · unfold hearAbsorbed
                  apply grp
                  exact ⟨_, _, _, _, rfl⟩
              · unfold hearAbsorbed
                apply grp
                exact ⟨_, _, _, _, rfl⟩
  · exact plain _ ⟨s.book, _, rfl⟩

theorem matcherTake_shape (s : State) :
    ∃ pa bk sg ma sc hh bu st li fa ev, matcherTake s =
      { s with pairing := pa, book := bk, segments := sg, matcher := ma, screening := sc,
               route := { s.route with heldHearings := hh }, builder := bu, store := st, live := li, faults := fa,
               events := ev } := by
  have same : ∃ pa bk sg ma sc hh bu st li fa ev, s =
      { s with pairing := pa, book := bk, segments := sg, matcher := ma, screening := sc,
               route := { s.route with heldHearings := hh }, builder := bu, store := st, live := li, faults := fa,
               events := ev } :=
    ⟨s.pairing, s.book, s.segments, s.matcher, s.screening, s.route.heldHearings, s.builder, s.store, s.live, s.faults,
      s.events, rfl⟩
  unfold matcherTake
  split
  · exact same
  · rename_i h rest _
    split
    · obtain ⟨bk, sg, ma, sc, hh, bu, st, li, fa, ev, hq⟩ := hear_shape (s.setPairing { s.pairing with hearings := rest }) h
      exact ⟨_, bk, sg, ma, sc, hh, bu, st, li, fa, ev, hq⟩
    · exact same

end Sys2Proof.Machine
end

