-- ==== Sys2Proof/Laws/Settled.lean ====
section
/-! SUPPORT. When the transmitters have nothing to choose (R160, R180): `Settled` in the fields it reads. -/

namespace Sys2Proof.Machine

/-- The trunk transmitter has nothing to choose: it is busy, or nothing waits (R180). -/
def TrunkIdle (s : State) : Prop :=
  s.trunk.tx = none → s.trunk.replies = [] ∧ s.events.queue = [] ∧ s.live.queue = []

/-- The depot transmitter has nothing to choose: the link is DOWN, it is busy, or nothing waits (R160). -/
def DepotIdle (s : State) : Prop :=
  s.depotUp = true → s.depot.tx = none →
    s.depot.replies = [] ∧ ∀ b ∈ s.uploader.batches, b.stage ≠ .ready

theorem kickTrunk_of_idle {s : State} (h : TrunkIdle s) : kickTrunk s = s := by
  unfold kickTrunk
  split
  · rfl
  · obtain ⟨h1, h2, h3⟩ := h (by assumption)
    simp [h1, h2, h3]

theorem kickDepot_of_idle {s : State} (h : DepotIdle s) : kickDepot s = s := by
  unfold kickDepot
  split
  · split
    · rfl
    · obtain ⟨h1, h2⟩ := h (by assumption) (by assumption)
      have h3 : s.uploader.batches.find? (fun b => decide (b.stage = .ready)) = none := by simpa using h2
      simp [h1, h3]
  · rfl

/-- A trunk transmitter that has chosen has nothing left to choose. -/
theorem trunkIdle_kickTrunk (s : State) : TrunkIdle (kickTrunk s) := by
  obtain ⟨⟨f, hf⟩, h⟩ | ⟨-, r, rest, -, h⟩ | ⟨-, -, e, rest, -, h⟩ | ⟨-, -, -, c, rest, -, h⟩ | ⟨-, h1, h2, h3, h⟩ :=
    kickTrunk_cases s <;> rw [h]
  · intro hn; rw [hf] at hn; cases hn
  · intro hn; cases hn
  · intro hn; cases hn
  · intro hn; cases hn
  · exact fun _ => ⟨h1, h2, h3⟩

/-- A depot transmitter that has chosen has nothing left to choose. -/
theorem depotIdle_kickDepot (s : State) : DepotIdle (kickDepot s) := by
  unfold kickDepot
  split
  · split
    · intro _ hn; rename_i hf _; rw [hf] at hn; cases hn
    · split
      · intro _ hn; cases hn
      · split
        · intro _ hn; cases hn
        · rename_i h
          exact fun _ _ => ⟨by assumption, by simpa using h⟩
  · rename_i h
    exact fun hn => absurd hn h

theorem depotIdle_of_kickTrunk (s : State) (h : DepotIdle s) : DepotIdle (kickTrunk s) := by
  obtain ⟨tr, ev, li, e⟩ := kickTrunk_shape s
  rw [e]
  exact h

theorem settled_of_idle {s : State} (h1 : DepotIdle s) (h2 : TrunkIdle s) : Settled s := ⟨h2, h1⟩

theorem settled_kickBoth (s : State) : Settled (kickBoth s) :=
  settled_of_idle (depotIdle_of_kickTrunk _ (depotIdle_kickDepot s)) (trunkIdle_kickTrunk _)

theorem kickTrunk_of_settled {s : State} (h : Settled s) : kickTrunk s = s := kickTrunk_of_idle h.1

theorem kickDepot_of_settled {s : State} (h : Settled s) : kickDepot s = s := kickDepot_of_idle h.2

/-- `Settled` says that the transmitters' choice changes nothing. -/
theorem settled_iff (s : State) : Settled s ↔ kickBoth s = s := by
  refine ⟨fun h => ?_, fun h => h ▸ settled_kickBoth s⟩
  rw [kickBoth, kickDepot_of_settled h, kickTrunk_of_settled h]

end Sys2Proof.Machine
end

