-- ==== Sys2Proof/Laws/Takes.lean ====
section
/-! SUPPORT. A request that is taken, in the words of Safety: what its command answers. -/

namespace Sys2Proof.Machine

theorem popRequest_of_queue {s : State} {k : Link} {f : RequestFrame} {rest : List RequestFrame}
    (h : (s.link k).requests = f :: rest) : popRequest s k = withRequests s k rest := by
  simp [popRequest, withRequests, h]

theorem Takes.takable {s : State} {k : Link} {f : RequestFrame} {rest : List RequestFrame} {r : Request}
    (h : Takes s k f rest r) : takable s k = some f := takable_some h.free h.room h.queue

theorem Takes.popRequest {s : State} {k : Link} {f : RequestFrame} {rest : List RequestFrame} {r : Request}
    (h : Takes s k f rest r) : popRequest s k = withRequests s k rest := popRequest_of_queue h.queue

theorem kickBoth_finishRequest (k : Link) (f : RequestFrame) (a : Answer) :
    kickBoth (finishRequest k f a) = replied k f a.status a.results a.state := rfl

/-- A request that is taken is answered as its owning rule answers it, on the state with the queue's rest (R173, R174). -/
theorem Takes.serve {s : State} {k : Link} {f : RequestFrame} {rest : List RequestFrame} {r : Request}
    {owner : State → Request → Option Answer} {a : Answer} (h : Takes s k f rest r)
    (ha : owner (withRequests s k rest) r = some a) :
    whenRunning s (serve k owner) = .next (replied k f a.status a.results a.state) := by
  have hr : s.pins.resetLine = false := h.running
  have hs := serve_of (owner := owner) h.takable h.parsed (by rw [h.popRequest]; exact ha)
  simp [whenRunning, hr, hs, kickBoth_finishRequest]

/-- Taking a request off its queue touches that queue alone (R172). -/
theorem withRequests_shape (s : State) (k : Link) (rest : List RequestFrame) :
    ∃ tr de, withRequests s k rest = { s with trunk := tr, depot := de } := setLink_shape s k _

@[simp] theorem withRequests_route (s : State) (k : Link) (q : List RequestFrame) :
    (withRequests s k q).route = s.route := by cases k <;> rfl
@[simp] theorem withRequests_book (s : State) (k : Link) (q : List RequestFrame) :
    (withRequests s k q).book = s.book := by cases k <;> rfl
@[simp] theorem withRequests_segments (s : State) (k : Link) (q : List RequestFrame) :
    (withRequests s k q).segments = s.segments := by cases k <;> rfl
@[simp] theorem withRequests_families (s : State) (k : Link) (q : List RequestFrame) :
    (withRequests s k q).families = s.families := by cases k <;> rfl
@[simp] theorem withRequests_services (s : State) (k : Link) (q : List RequestFrame) :
    (withRequests s k q).services = s.services := by cases k <;> rfl
@[simp] theorem withRequests_store (s : State) (k : Link) (q : List RequestFrame) :
    (withRequests s k q).store = s.store := by cases k <;> rfl
@[simp] theorem withRequests_uploader (s : State) (k : Link) (q : List RequestFrame) :
    (withRequests s k q).uploader = s.uploader := by cases k <;> rfl
@[simp] theorem withRequests_depotUp (s : State) (k : Link) (q : List RequestFrame) :
    (withRequests s k q).depotUp = s.depotUp := by cases k <;> rfl
@[simp] theorem withRequests_events (s : State) (k : Link) (q : List RequestFrame) :
    (withRequests s k q).events = s.events := by cases k <;> rfl
@[simp] theorem withRequests_faults (s : State) (k : Link) (q : List RequestFrame) :
    (withRequests s k q).faults = s.faults := by cases k <;> rfl
@[simp] theorem withRequests_builder (s : State) (k : Link) (q : List RequestFrame) :
    (withRequests s k q).builder = s.builder := by cases k <;> rfl
@[simp] theorem withRequests_matcher (s : State) (k : Link) (q : List RequestFrame) :
    (withRequests s k q).matcher = s.matcher := by cases k <;> rfl
@[simp] theorem withRequests_rules (s : State) (k : Link) (q : List RequestFrame) :
    (withRequests s k q).rules = s.rules := by cases k <;> rfl
@[simp] theorem withRequests_routing (s : State) (k : Link) (q : List RequestFrame) :
    (withRequests s k q).routing = s.routing := by cases k <;> rfl
@[simp] theorem withRequests_clock (s : State) (k : Link) (q : List RequestFrame) :
    (withRequests s k q).clock = s.clock := by cases k <;> rfl
@[simp] theorem withRequests_lanes (s : State) (k : Link) (q : List RequestFrame) :
    (withRequests s k q).lanes = s.lanes := by cases k <;> rfl
@[simp] theorem withRequests_decoder (s : State) (k : Link) (q : List RequestFrame) :
    (withRequests s k q).decoder = s.decoder := by cases k <;> rfl
@[simp] theorem withRequests_pairing (s : State) (k : Link) (q : List RequestFrame) :
    (withRequests s k q).pairing = s.pairing := by cases k <;> rfl
@[simp] theorem withRequests_pins (s : State) (k : Link) (q : List RequestFrame) :
    (withRequests s k q).pins = s.pins := by cases k <;> rfl

end Sys2Proof.Machine
end

