-- ==== Sys2Proof/WellFormed.lean ====
section
/-! DEFINITION. Which terms of Instr name something the part has: operands whose range the type does not already hold. -/

namespace Sys2Proof

/-- Meter ids are 1..0xFFFFFFFE; 0 and 0xFFFFFFFF are invalid (00_scope.md, Meter ids). -/
def validMeterId (m : Nat) : Bool := decide (0 < m ∧ m < 0xFFFFFFFF)

/-- Segments are numbered 0 to 63 at most (00_scope.md, Capacities). -/
def validSegment (n : Nat) : Bool := decide (n < 64)

/-- Batch numbers are 0..255 (R153). -/
def validBatch (n : Nat) : Bool := decide (n < 256)

/-- The check of a command's operands; every other operand's range is its type. -/
def Instr.wellFormed : Instr → Bool
  | .pairTimeout m => validMeterId m
  | .segmentDeadlineExpiry n => validSegment n
  | .closeWalkVisit n => validSegment n
  | .closeEnd n => validSegment n
  | .ackTimeout n => validBatch n
  | .sync _ _ | .byte _ _ _ | .drop _ | .gapExpiry _ | .decoderTake | .pairingTakeFrame | .matcherTakeHearing
  | .builderPassRecord | .writeCompletion _ | .readCompletion _ | .routeEndRecord | .routeClockLimit | .pacingSlotOpen
  | .depotTxFrameEnd | .dockAssert | .dockDeassert | .linkByte _ _ | .unknownRequest _ | .identify _ | .status _
  | .countersRead _ | .entryRead _ | .segmentRead _ | .eventMask _ | .faultClear _ | .reset _ | .laneSet _
  | .familySet _ | .familyClear _ | .serviceSet _ | .bookOpen _ | .bookEntries _ | .bookClose _ | .bookAbort _
  | .entryModify _ | .segmentModify _ | .routeStart _ | .routeStartExecute _ | .routeEnd _ | .rulesSet _
  | .segmentSet _ | .segmentClose _ | .segmentReopen _ | .classSet _ | .routingSet _ | .uploadOpen _ | .uploadPace _
  | .uploadStop _ | .uploadFinish _ | .batchAck _ | .batchNak _ | .trunkTxFrameEnd | .resetLineAssert
  | .resetLineRelease _ | .coldReset _ => true

end Sys2Proof
end

