-- ==== Sys2Proof/Tests/Slice0.lean ====
section
/-! SUPPORT. Tests: the smoke test of WellFormed, layouts and worked examples of the spec, and for every obligation with
hypotheses a witness that meets them, clause by clause. -/

namespace Sys2Proof.Tests

open Sys2Proof Sys2Proof.Machine

/-! ## WellFormed refuses what the part does not have -/

theorem test_wellFormed_meter_low : (Instr.pairTimeout 0).wellFormed = false := by decide
theorem test_wellFormed_meter_high : (Instr.pairTimeout 0xFFFFFFFF).wellFormed = false := by decide
theorem test_wellFormed_meter : (Instr.pairTimeout 0xFFFFFFFE).wellFormed = true := by decide
theorem test_wellFormed_deadline : (Instr.segmentDeadlineExpiry 64).wellFormed = false := by decide
theorem test_wellFormed_visit : (Instr.closeWalkVisit 64).wellFormed = false := by decide
theorem test_wellFormed_end : (Instr.closeEnd 64).wellFormed = false := by decide
theorem test_wellFormed_batch : (Instr.ackTimeout 256).wellFormed = false := by decide

/-! ## Helpers -/

/-- A part with no frame in transmission. -/
def idle : State := {}

/-- The request frame of tag 7 that spells a request. -/
def frameOf (r : Request) : RequestFrame := { tag := 7, payload := encodeRequest r }

/-- A state with one request waiting on a link. -/
def asked (s : State) (k : Link) (r : Request) : State := s.setLink k { s.link k with requests := [frameOf r] }

/-- What it takes for the link's dispatcher to take that request. -/
theorem takes_asked (s : State) (k : Link) (r : Request) (h1 : s.pins.resetLine = false)
    (h2 : (s.link k).dispatcher = .idle) (h3 : (s.link k).replies.length < 8)
    (h4 : parseRequest (encodeRequest r) = .request r) : Takes (asked s k r) k (frameOf r) [] r := by
  cases k <;> exact ⟨h1, h2, h3, rfl, h4⟩

/-- The transmitters of a state choose nothing where their choice evaluates to the state itself. -/
theorem settled_rfl {s : State} (h : kickBoth s = s) : Settled s := (settled_iff s).2 h

/-- A route book entry of segment 0. -/
def member (m : Nat) : Entry :=
  { meterId := m, familyCode := 0x41, familyIndex := 0, segment := 0, options := 0, reference := none }

/-- A segment with the default settings of the worked examples of chapter 7. -/
def street : Segment := { autoClose := true, quietTime := 120, minDwell := 30 }

/-- A NONE family of five BINARY3 digits with the register at the start of the body and the flag byte behind it. -/
def plainFamily : Profile :=
  { familyCode := 0x41, digits := 5, encoding := .binary3, registerOffset := 0, flagOffset := some 3,
    flagMap := { magnet := some 0 }, serviceOffset := some 4, mode := .none, window := 250, extTamperOffset := none,
    extReverseOffset := none, highRate := 16, reverseTolerance := 2, stagnationHours := 0, revisionStep := 5 }

/-- A hearing of a meter. -/
def heardOf (m : Nat) : Hearing :=
  { meterId := m, familyIndex := 0, familyCode := 0x41, timeTag := 1000, rssi := 90, lane := 2, register := 12345,
    flags := 0, service := none, ext := none, mark := none }

/-- A record of a class. -/
def recordIn (n : Nat) (c : Fin 4) : Record :=
  { head := { number := n, kind := .missed, cls := c, routeId := 5, timeTag := 0, marks := 0 }, body := .missed 9 0 1 }

/-- Its store record in slot 0. -/
def storedIn (n : Nat) (c : Fin 4) : StoreRecord :=
  { head := (recordIn n c).head, slot := 0, length := 20, state := .stored }

/-- A batch of one record. -/
def batchOf (n : Nat) (x : BatchStage) : Batch :=
  { number := n, cls := 0, records := [1], stage := x, copies := [], ackDeadline := none }

/-! ## Worked values of the spec -/

set_option maxRecDepth 8000 in
/-- The check value of the CRC with this polynomial, start value and bit order (R10). -/
theorem test_crc_check_value :
    crc16 [0x31, 0x32, 0x33, 0x34, 0x35, 0x36, 0x37, 0x38, 0x39] = 0x29B1 := by decide

/-- High byte first (R187). -/
theorem test_big_endian : bigEndian 4 0x01020304 = [1, 2, 3, 4] := by decide

/-- A BCD register of five digits: the extra leading digit is 0 (R30). -/
theorem test_bcd_register :
    readRegister { plainFamily with encoding := .bcd } [0x01, 0x23, 0x45] = some 12345
      ∧ readRegister { plainFamily with encoding := .bcd } [0x11, 0x23, 0x45] = none
      ∧ readRegister { plainFamily with encoding := .bcd } [0x01, 0x2A, 0x45] = none := by decide

/-- BINARY3 takes the top value below M and refuses M itself (R30). -/
theorem test_binary_register :
    readRegister plainFamily [0x01, 0x86, 0x9F] = some 99999 ∧ readRegister plainFamily [0x01, 0x86, 0xA0] = none := by
  decide

/-- A drop of exactly T_rev is MINOR_REVERSE, one more is REVERSE without an elapsed time (R103, R104). -/
theorem test_reverse_limit :
    advanceOf plainFamily none 10 12 = { amount := 0, mark := some .minorReverse, reverse := none }
      ∧ advanceOf plainFamily none 9 12 = { amount := 0, mark := none, reverse := some 3 } := by decide

/-- Equality of the two products counts as a plausible rollover (R104): W = 100,000 - 90,000 = 10,000 and E × L_hi with
E = 10,000 and L_hi = 16. -/
theorem test_rollover_equality :
    advanceOf plainFamily (some 10000) 0 90000 = { amount := 10000, mark := some .rollover, reverse := none }
      ∧ advanceOf plainFamily (some 9999) 0 90000 = { amount := 0, mark := none, reverse := some 90000 } := by decide

/-- The deadline of step 1 of the street that closes itself (chapter 7): the later of 9,120,000 and 9,030,000, AUTO. -/
theorem test_street_deadline :
    (recompute { street with state := .active, activation := some 9000000, lastHeard := some 9000000, unheard := 2 }).deadline
      = some 9120000 := by decide

/-- The second pass of the closed street (chapter 7): with no member unheard the deadline is 9,330,000, COMPLETE. -/
theorem test_second_pass_deadline :
    (recompute { street with state := .active, activation := some 9300000, lastHeard := some 9310500, pass := 2 }).deadline
      = some 9330000 := by decide

/-! ## Payloads written out from R189 and the catalogue -/

theorem test_parse_empty : parseRequest [] = .unknownCode := by decide
theorem test_parse_unknown : parseRequest [33] = .unknownCode := by decide
theorem test_parse_too_long : parseRequest [1, 0] = .wrongLength := by decide
theorem test_parse_lane_set :
    parseRequest [9, 0xFF, 1, 40, 60, 4] = .request (.laneSet 255 1 40 60 4) := by decide
theorem test_parse_book_open :
    parseRequest [13, 0x01, 0x02, 0x10, 0x00, 64, 0, 0x00, 0x78, 0x00, 0x1E, 2] =
      .request (.bookOpen 258 4096 64 0 120 30 2) := by decide
theorem test_parse_upload_open :
    parseRequest [27, 0x05, 0x0F, 16, 0x07, 0xD0] = .request (.uploadOpen 15 (some 16) none (some 2000) none) := by decide
theorem test_parse_entries :
    parseRequest [14, 0, 0, 1, 0x03, 0, 0, 0, 9, 0x41, 0, 1, 0, 0, 1, 0, 0, 0, 2] =
      .request (.bookEntries 0 [{ meterId := 9, familyCode := 0x41, segment := 0, options := 1,
                                  referenceReading := some 256, referenceHour := some 2 }]) := by decide

/-- A ROUTE record with phase START, byte by byte (R188). -/
theorem test_encode_route_start :
    encodeRecord
        { head := { number := 1, kind := .route, cls := 1, routeId := 0x1234, timeTag := 0, marks := 0 }, body := .routeStart }
      = [15, 0, 0, 0, 1, 6, 1, 0x12, 0x34, 0, 0, 0, 0, 0, 0] := by decide

/-! ## Worked cases of chapters 1 and 6 -/

/-- The family W6 of the worked cases. -/
def w6 : Profile :=
  { familyCode := 33, digits := 6, encoding := .bcd, registerOffset := 0, flagOffset := some 3,
    flagMap := { magnet := some 0, cover := some 1, meterReverse := some 2, leak := some 3, lowbat := some 7 },
    serviceOffset := some 4, mode := .extended, window := 250, extTamperOffset := some 0, extReverseOffset := some 1,
    highRate := 4800, reverseTolerance := 2, stagnationHours := 720, revisionStep := 10 }

/-- Meter A (chapter 6): A = 2,380, ROLLOVER, r = 54, {MAGNET}, score 40. -/
theorem test_meter_a :
    screen {} w6 (routeHour 412700 9000000) (some { reading := 998750, hour := 412000 }) none
        { heardOf 40117225 with register := 1130, flags := 1, ext := some { tamperCount := 0, reverseVolume := 0 } }
      = { conditions := 0x20, score := 40, mark := some .rollover, advance := some 2380, rate := some 54,
          reverseAmount := none, saturated := false } := by decide

/-- Meter B (chapter 6) at 9,600,000: {REVERSE, COVER, DISAGREE}, V = 420, score 115. -/
theorem test_meter_b :
    screen {} w6 412702 (some { reading := 52310, hour := 412402 })
        (some { register := 51900, flags := 4, ext := none, timeTag := 9000000 })
        { heardOf 40117412 with timeTag := 9600000, register := 51890, flags := 4 }
      = { conditions := 0x91, score := 115, mark := none, advance := some 0, rate := some 0,
          reverseAmount := some 420, saturated := false } := by decide

/-- The plausibility edge (chapter 6): 2,000, 2,001 and 998,998 against 999,000 with E = 10. -/
theorem test_plausibility_edge :
    advanceOf w6 (some 10) 2000 999000 = { amount := 3000, mark := some .rollover, reverse := none }
      ∧ advanceOf w6 (some 10) 2001 999000 = { amount := 0, mark := none, reverse := some 996999 }
      ∧ advanceOf w6 (some 10) 998998 999000 = { amount := 0, mark := some .minorReverse, reverse := none } := by decide

/-- Meter D (chapter 6): 7,415 and 7,414 are STAGNANT with score 20, 7,416 is not. -/
theorem test_stagnation :
    (screen {} w6 412702 (some { reading := 7415, hour := 411900 }) none { heardOf 1 with register := 7415 }).score = 20
      ∧ (screen {} w6 412702 (some { reading := 7415, hour := 411900 }) none { heardOf 1 with register := 7414 }).score = 20
      ∧ (screen {} w6 412702 (some { reading := 7415, hour := 411900 }) none { heardOf 1 with register := 7416 }).score = 0 := by
  decide

/-- The LANE_SET of chapter 1 on a lane in LENGTH, on a FAULTED one and on one that has the settings. -/
theorem test_lane_set_results :
    let n : LaneSettings := { enable := true, minRssi := 40, maxLength := 48, gapLimit := 6 }
    let at_ (l : Lane) : State := idle.setLane 0 l
    (setOneLane (at_ { state := .length, enable := true, minRssi := 30, gapDeadline := some 4 }) 0 n).2 = .appliedNextFrame
      ∧ (setOneLane (at_ { state := .faulted, enable := true, minRssi := 30, streak := 32 }) 0 n).2 = .rearmed
      ∧ (setOneLane (at_ { state := .hunt, enable := true, minRssi := 40, maxLength := 48, gapLimit := 6 }) 0 n).2
          = .unchanged := by decide

/-- The batch record encoding of chapter 11: a READING with A, r and extension fields takes 41 bytes. -/
theorem test_reading_length :
    (encodeRecord
        { head := { number := 1211, kind := .reading, cls := 0, routeId := 533, timeTag := 0, marks := 16 }
          body := .reading (readingBody (member 9)
            { heardOf 9 with ext := some { tamperCount := 0, reverseVolume := 0 } }
            { conditions := 0, score := 0, mark := none, advance := some 1, rate := some 1, reverseAmount := none,
              saturated := false }) }).length = 41 := by decide

/-! ## Witnesses: lanes -/

/-- A lane in a frame: its state and the bytes taken, with descriptor 0 open for a message of 10 content bytes. -/
def inFrame (x : LaneState) (taken streak : Nat) : State :=
  let l : Lane :=
    { state := x, enable := true, frameLength := some 10, bytesReceived := taken, openDescriptor := some 0,
      gapDeadline := some 4, streak := streak }
  let d : Descriptor := { state := .opened, length := 10 }
  { lanes := (Vector.replicate 8 {}).set 0 l, pool := { descriptors := (Vector.replicate 128 {}).set 0 d } }

/-- A lane in LENGTH with as many FREE descriptors as wished, the lowest numbers first. -/
def inLength (free : Nat) : State :=
  { lanes := (Vector.replicate 8 {}).set 0 { state := .length, enable := true, gapDeadline := some 4 }
    pool := { descriptors := Vector.ofFn (fun i => if i.val < free then {} else { state := .closed }) } }

theorem inLength_descriptor (free : Nat) (d : Fin 128) :
    (inLength free).pool.descriptors[d] = if d.val < free then {} else { state := .closed } :=
  Vector.getElem_ofFn d.isLt

/-- No command waiting, with the clock stopped and at its maximum. -/
theorem witness_StepRunsTheFrontCommandOrTicks :
    idle.pending = [] ∧ ({ clock := { value := 4294967295, running := true } } : State).pending = [] := ⟨rfl, rfl⟩

theorem witness_OffAndFaultedLanesIgnoreTheirPortAndDropEndsTheFrame :
    (Running idle ∧ Settled idle ∧ idle.lanes[(0 : Fin 8)].state = .off)
    ∧ (Running (inFrame .faulted 0 32) ∧ Settled (inFrame .faulted 0 32)
        ∧ (inFrame .faulted 0 32).lanes[(0 : Fin 8)].state = .faulted)
    ∧ (Running (inLength 1) ∧ (inLength 1).lanes[(0 : Fin 8)].state = .length)
    ∧ (Running (inFrame .body 3 0) ∧ (inFrame .body 3 0).lanes[(0 : Fin 8)].state = .body
        ∧ (inFrame .body 3 0).lanes[(0 : Fin 8)].openDescriptor = some 0)
    ∧ (({ inFrame .body 3 0 with timebase := 4 } : State).lanes[(0 : Fin 8)].gapDeadline = some 4
        ∧ 4 ≤ ({ inFrame .body 3 0 with timebase := 4 } : State).timebase)
    ∧ (Running (inFrame .hunt 0 0) ∧ Settled (inFrame .hunt 0 0)
        ∧ (inFrame .hunt 0 0).lanes[(0 : Fin 8)].state = .hunt)
    ∧ (∀ m, ({ inFrame .body 3 0 with timebase := 3 } : State).lanes[(0 : Fin 8)].gapDeadline = some m →
        ({ inFrame .body 3 0 with timebase := 3 } : State).timebase < m) := by
  exact ⟨⟨rfl, settled_rfl rfl, rfl⟩, ⟨rfl, settled_rfl rfl, rfl⟩, ⟨rfl, rfl⟩, ⟨rfl, rfl, rfl⟩, ⟨rfl, by decide⟩, ⟨rfl, settled_rfl rfl, rfl⟩,
    fun m h => by cases h; decide⟩

theorem witness_SyncIsJudgedUnderSettledSettings :
    Running (inLength 1) ∧ (inLength 1).lanes[(0 : Fin 8)].state = .length
      ∧ Running (inFrame .body 3 0) ∧ (inFrame .body 3 0).lanes[(0 : Fin 8)].state = .body
      ∧ (inFrame .body 3 0).lanes[(0 : Fin 8)].openDescriptor = some 0 := by
  and_intros <;> rfl

/-- The boundary lengths 9, 10, 60 and 61, and a pool with no, one and two FREE descriptors. -/
theorem witness_LengthByteStartsMessage :
    (∀ n ∈ [0, 1, 2], Running (inLength n) ∧ Settled (inLength n) ∧ (inLength n).lanes[(0 : Fin 8)].state = .length)
    ∧ (9 : Byte).toNat < 10 ∧ 10 ≤ (10 : Byte).toNat ∧ (60 : Byte).toNat ≤ (inLength 1).lanes[(0 : Fin 8)].maxLength
    ∧ (inLength 1).lanes[(0 : Fin 8)].maxLength < (61 : Byte).toNat
    ∧ (∀ d : Fin 128, (inLength 0).pool.descriptors[d].state ≠ .free)
    ∧ (inLength 1).pool.descriptors[(0 : Fin 128)].state = .free ∧ (∀ e : Fin 128, ¬ e < 0)
    ∧ (inLength 1).pool.fullArmed = true
    ∧ (∀ e : Fin 128, e ≠ 0 → (inLength 1).pool.descriptors[e].state ≠ .free)
    ∧ (∃ e : Fin 128, e ≠ 0 ∧ (inLength 2).pool.descriptors[e].state = .free) := by
  refine ⟨fun n _ => ⟨rfl, settled_rfl rfl, rfl⟩, by decide, by decide, by decide, by decide, ?_, ?_, by decide, rfl, ?_, ?_⟩
  · intro d; rw [inLength_descriptor, if_neg (by omega)]; decide
  · rw [inLength_descriptor, if_pos (by decide)]
  · intro e h; rw [inLength_descriptor, if_neg (by have := Fin.val_ne_iff.2 h; simp at this; omega)]; decide
  · exact ⟨1, by decide, by rw [inLength_descriptor, if_pos (by decide)]⟩

/-- A byte in the middle, the last byte of the CRC, and streaks 30 and 31. -/
theorem witness_BodyBytesAreStoredAndTheFrameJudged :
    (Running (inFrame .body 0 30) ∧ Settled (inFrame .body 0 30) ∧ (inFrame .body 0 30).lanes[(0 : Fin 8)].state = .body
      ∧ (inFrame .body 0 30).lanes[(0 : Fin 8)].openDescriptor = some 0
      ∧ (inFrame .body 0 30).lanes[(0 : Fin 8)].frameLength = some 10
      ∧ (inFrame .body 0 30).lanes[(0 : Fin 8)].streak < 31)
    ∧ (Running (inFrame .body 11 31) ∧ Settled (inFrame .body 11 31)
      ∧ (inFrame .body 11 31).lanes[(0 : Fin 8)].state = .body
      ∧ (inFrame .body 11 31).lanes[(0 : Fin 8)].openDescriptor = some 0
      ∧ (inFrame .body 11 31).lanes[(0 : Fin 8)].bytesReceived + 1 = 10 + 2
      ∧ (inFrame .body 11 31).lanes[(0 : Fin 8)].streak = 31) := by
  exact ⟨⟨rfl, settled_rfl rfl, rfl, rfl, rfl, by decide⟩, rfl, settled_rfl rfl, rfl, rfl, by decide, by decide⟩

/-- A refused and an accepted LANE_SET, a selected lane in each of its states, and a gap deadline that a limit of 1 moves
to the timebase and one of 2 leaves after it. -/
theorem witness_LaneSetActsOnTheLanesOfItsMaskByTheirStates :
    Takes (asked idle .trunk (.laneSet 1 2 0 60 4)) .trunk (frameOf (.laneSet 1 2 0 60 4)) [] (.laneSet 1 2 0 60 4)
    ∧ Takes (asked idle .depot (.laneSet 255 1 0 10 20)) .depot (frameOf (.laneSet 255 1 0 10 20)) []
        (.laneSet 255 1 0 10 20)
    ∧ idle.lanes[(0 : Fin 8)].state = .off ∧ (inFrame .hunt 0 0).lanes[(0 : Fin 8)].state = .hunt
    ∧ (inFrame .body 0 0).lanes[(0 : Fin 8)].gapDeadline = some 4
    ∧ (inFrame .body 0 0).timebase < 4 - (inFrame .body 0 0).lanes[(0 : Fin 8)].gapLimit + 1
    ∧ (inFrame .body 0 0).lanes[(0 : Fin 8)].state = .body
    ∧ (inFrame .body 0 0).lanes[(0 : Fin 8)].openDescriptor = some 0
    ∧ (inLength 1).lanes[(0 : Fin 8)].state = .length ∧ (inFrame .faulted 0 32).lanes[(0 : Fin 8)].state = .faulted
    ∧ 4 - (inFrame .body 0 0).lanes[(0 : Fin 8)].gapLimit + 1 ≤ ({ inFrame .body 0 0 with timebase := 1 } : State).timebase
    ∧ ({ inFrame .body 0 0 with timebase := 1 } : State).timebase < 4 - (inFrame .body 0 0).lanes[(0 : Fin 8)].gapLimit + 2 :=
  ⟨takes_asked _ _ _ rfl rfl (by decide) (by decide), takes_asked _ _ _ rfl rfl (by decide) (by decide), by rfl, by rfl,
    by rfl, by decide, by rfl, by rfl, by rfl, by rfl, by decide, by decide⟩

/-! ## Witnesses: decoder and pairing -/

/-- The pool with descriptor 0 closed with an outcome and a content, and the plain family in place 0. -/
def closedWith (o : CloseOutcome) (content : List Byte) : State :=
  let d : Descriptor := { state := .closed, length := content.length, content := content, outcome := some o, closeTag := some 9 }
  { pool := { descriptors := (Vector.replicate 128 {}).set 0 d, closeQueue := [0] }
    families := (Vector.replicate 16 none).set 0 (some plainFamily)
    services := (Vector.replicate 16 none).set 2 (some { code := 3, action := .discard, weight := 0, discards := 0 }) }

/-- A BAD_CRC close, and GOOD ones: an invalid id, an unknown family, an unknown frame kind, a body too short for a
READING, a register at M, a reading with no service code, one without an entry, one to discard, and an EXTENSION. -/
theorem witness_DecoderTakesAClosedDescriptor :
    (∀ c ∈ [[0x41, 0, 0, 0, 0, 0], [0x42, 0, 0, 0, 9, 0], [0x41, 0, 0, 0, 9, 2], [0x41, 0, 0, 0, 9, 0, 0, 0, 7],
        [0x41, 0, 0, 0, 9, 0, 1, 0x86, 0xA0, 0, 0], [0x41, 0, 0, 0, 9, 0, 1, 0x86, 0x9F, 0, 0],
        [0x41, 0, 0, 0, 9, 0, 0, 0, 7, 0, 4], [0x41, 0, 0, 0, 9, 0, 0, 0, 7, 0, 3], [0x41, 0, 0, 0, 9, 1]],
      Running (closedWith .good c) ∧ (closedWith .good c).decoder.offer = none
        ∧ (closedWith .good c).pool.closeQueue = [0]
        ∧ (closedWith .good c).pool.descriptors[(0 : Fin 128)].outcome = some .good
        ∧ (closedWith .good c).families[(0 : Fin 16)] = some plainFamily)
    ∧ (closedWith .badCrc []).pool.descriptors[(0 : Fin 128)].outcome = some .badCrc
    ∧ numberAt [0x41, 0, 0, 0, 0, 0] 1 4 = 0 ∧ numberAt [0x41, 0, 0, 0, 9, 0] 1 4 = 9
    ∧ (∀ i : Fin 16, (closedWith .good []).families[i].map (·.familyCode) ≠ some (numberAt [0x42, 0, 0, 0, 9, 0] 0 1))
    ∧ plainFamily.familyCode = numberAt [0x41, 0, 0, 0, 9, 2] 0 1
    ∧ readingNeed plainFamily = 5 ∧ extensionNeed plainFamily = 0
    ∧ readRegister plainFamily [1, 0x86, 0xA0, 0, 0] = none ∧ readRegister plainFamily [1, 0x86, 0x9F, 0, 0] = some 99999
    ∧ serviceCodeOf plainFamily [1, 0x86, 0x9F, 0, 0] = none ∧ serviceCodeOf plainFamily [0, 0, 7, 0, 4] = some 4
    ∧ (∀ j : Fin 16, (closedWith .good []).services[j].map (·.code) ≠ some 4)
    ∧ (closedWith .good []).services[(2 : Fin 16)] = some { code := 3, action := .discard, weight := 0, discards := 0 }
    ∧ (∀ q : Fin 16, q < 2 → (closedWith .good []).services[q].map (·.code) ≠ some 3) := by
  refine ⟨fun c _ => ⟨rfl, rfl, rfl, rfl, rfl⟩, rfl, by decide, by decide, by decide, by decide, by decide, by decide,
    by decide, by decide, by decide, by decide, by decide, by rfl, by decide⟩

theorem witness_RegisterIsReadHighByteFirstBelowM :
    plainFamily.encoding = .binary3 ∧ ({ plainFamily with encoding := .binary4 } : Profile).encoding = .binary4
      ∧ ({ plainFamily with encoding := .bcd } : Profile).encoding = .bcd := ⟨rfl, rfl, rfl⟩

/-- The head of a frame of a meter with a sequence. -/
def headOf (m sequence rssi : Nat) (mode : PairingMode) : FrameHead :=
  { meterId := m, familyIndex := 0, familyCode := 0x41, mode := mode, window := 250, sequence := sequence, closeTag := 1000,
    rssi := rssi, lane := 0 }

/-- An open pairing of a meter with sequence 1. -/
def pairOf (m deadline : Nat) : Pairing :=
  { head := headOf m 1 90 .extended, reading := { register := 7, flags := 0, service := none }, deadline := deadline }

/-- A part that offers a frame over a pairing table. -/
def offering (f : DecodedFrame) (table : List Pairing) : State :=
  { decoder := { offer := some { descriptor := 0, frame := f } }, pairing := { table := table } }

/-- A full table: deadlines 20 down to 5, so that the last is the earliest. -/
def fullTable : List Pairing := (List.range 16).map (fun i => pairOf (i + 1) (20 - i))

theorem witness_PlainFamilyFramesPassThrough :
    ∀ b ∈ [FrameBody.reading { register := 7, flags := 0, service := none }, .extension none],
      Running (offering { head := headOf 9 0 90 .none, body := b } [])
        ∧ (offering { head := headOf 9 0 90 .none, body := b } []).decoder.offer =
            some { descriptor := 0, frame := { head := headOf 9 0 90 .none, body := b } }
        ∧ (offering { head := headOf 9 0 90 .none, body := b } []).pairing.hearings = [] := fun _ _ => ⟨rfl, rfl, rfl⟩

/-- No pairing, a repeat copy that is stronger, another sequence, and a full table whose earliest deadline is the last. -/
theorem witness_ExtendedReadingLeavesOnePairing :
    (∀ t ∈ [[], [pairOf 9 5], fullTable], ∀ n ∈ [1, 2],
      Running (offering { head := headOf 9 n 91 .extended, body := .reading { register := 7, flags := 0, service := none } } t)
        ∧ PairingBounded (offering { head := headOf 9 n 91 .extended,
                                     body := .reading { register := 7, flags := 0, service := none } } t))
    ∧ (pairOf 9 5).head.familyIndex = (headOf 9 1 91 .extended).familyIndex
    ∧ (pairOf 9 5).head.sequence = (headOf 9 1 91 .extended).sequence
    ∧ (pairOf 9 5).head.sequence ≠ (headOf 9 2 91 .extended).sequence
    ∧ fullTable.length = 16 ∧ (∀ p ∈ fullTable, p.head.meterId ≠ 17)
    ∧ fullTable = fullTable.take 15 ++ pairOf 16 5 :: [] ∧ (∀ q ∈ fullTable.take 15, (pairOf 16 5).deadline < q.deadline) := by
  refine ⟨?_, rfl, rfl, by decide, by decide, by decide, by decide, by decide⟩
  intro t ht n hn
  simp only [List.mem_cons, List.not_mem_nil, or_false] at ht hn
  rcases ht with rfl | rfl | rfl <;> rcases hn with rfl | rfl <;> exact ⟨rfl, by decide, by decide, by decide⟩

theorem witness_ExtensionsAndTimeoutsCompletePairings :
    (∀ t ∈ [[], [pairOf 9 5]], ∀ n ∈ [1, 2],
      Running (offering { head := headOf 9 n 91 .extended, body := .extension none } t)
        ∧ PairingBounded (offering { head := headOf 9 n 91 .extended, body := .extension none } t))
    ∧ ({ offering { head := headOf 9 1 91 .extended, body := .extension none } [pairOf 9 5] with timebase := 5 } : State).pairing.table
        = [] ++ pairOf 9 5 :: []
    ∧ (pairOf 9 5).deadline ≤ 5 := by
  refine ⟨?_, rfl, by decide⟩
  intro t ht n hn
  simp only [List.mem_cons, List.not_mem_nil, or_false] at ht hn
  rcases ht with rfl | rfl <;> rcases hn with rfl | rfl <;> exact ⟨rfl, by decide, by decide, by decide⟩

theorem witness_PairingStaysBounded :
    PairingBounded (offering { head := headOf 17 1 91 .extended, body := .extension none } fullTable)
      ∧ ∃ t, step (offering { head := headOf 17 1 91 .extended, body := .extension none } fullTable) = .next t :=
  ⟨⟨by decide, by decide, by decide⟩, _, rfl⟩

/-! ## Witnesses: matcher and screening -/

/-- A route in a state, with a book, a foreign policy and one hearing that waits. -/
def onRoute (x : RouteState) (policy : ForeignPolicy) (book : List Entry) (h : Hearing) : State :=
  { route := { state := x, policy := policy, declaredSegments := 1, id := 5 }, book := book
    segments := [{ street with member := 1, unheard := 1 }], pairing := { hearings := [h] }
    families := (Vector.replicate 16 none).set 0 (some plainFamily) }

/-- Meter 9 heard before, with register 12,340 and one revision more to give. -/
def heardBefore : Entry :=
  { member 9 with
    hearing := .heard, heardCount := 1, recordNumber := some 1, revisions := 14
    current := some { register := 12340, flags := 0, ext := none, timeTag := 500 }
    reported := some { register := 12340, flags := 0, conditions := 0 } }

/-- No route; a foreign meter under IGNORE; another family; HOLD with a heard count at 255; a repeat of the current
fields. -/
theorem witness_HearingsWithoutARecord :
    (∀ s ∈ [onRoute .ready .ignore [] (heardOf 9), onRoute .running .ignore [] (heardOf 9),
        onRoute .running .ignore [{ member 9 with familyIndex := 1 }] (heardOf 9),
        onRoute .ending .ignore [{ member 9 with options := 2, heardCount := 255 }] (heardOf 9),
        onRoute .running .ignore
          [{ heardBefore with current := some { register := 12345, flags := 0, ext := none, timeTag := 0 } }] (heardOf 9)],
      Running s ∧ Settled s ∧ s.pairing.hearings = heardOf 9 :: [] ∧ s.builder.held = [] ∧ s.builder.limitFlag = false)
    ∧ (onRoute .ready .ignore [] (heardOf 9)).route.state ≠ .running
    ∧ ({ member 9 with familyIndex := 1 } : Entry).familyIndex ≠ (heardOf 9).familyIndex
    ∧ (member 9).familyIndex = (heardOf 9).familyIndex ∧ (member 9).meterId = (heardOf 9).meterId
    ∧ ({ member 9 with options := 2 } : Entry).options.getLsbD 1 = true
    ∧ heardBefore.hearing = .heard ∧ (∀ x ∈ ([] : List Entry) ++ [], x.meterId ≠ 9) := by
  refine ⟨?_, by decide, by decide, rfl, rfl, rfl, rfl, by decide⟩
  intro s hs
  simp only [List.mem_cons, List.not_mem_nil, or_false] at hs
  rcases hs with rfl | rfl | rfl | rfl | rfl <;> exact ⟨rfl, settled_rfl rfl, rfl, rfl, rfl⟩

/-- The shared part of a hearing of meter 9 in the book. -/
theorem hearing_of_member (e : Entry) (h1 : e.meterId = 9) (h2 : e.familyIndex = 0) (h3 : e.segment = 0)
    (h4 : e.options.getLsbD 1 = false) :
    let s := onRoute .running .ignore [e] (heardOf 9)
    Running s ∧ s.pairing.hearings = heardOf 9 :: [] ∧ s.builder.held = [] ∧ s.builder.limitFlag = false
      ∧ s.route.state = .running ∧ s.book = [] ++ e :: [] ∧ e.meterId = (heardOf 9).meterId
      ∧ e.familyIndex = (heardOf 9).familyIndex ∧ e.options.getLsbD 1 = false
      ∧ s.families[(heardOf 9).familyIndex] = some plainFamily
      ∧ s.segments[e.segment]? = some { street with member := 1, unheard := 1 } :=
  ⟨rfl, rfl, rfl, rfl, rfl, rfl, h1, h2, h4, rfl, by rw [h3]; rfl⟩

theorem witness_FirstAndLateHearings :
    (∀ e ∈ [member 9, { member 9 with hearing := .missed }],
      e.meterId = 9 ∧ e.familyIndex = 0 ∧ e.segment = 0 ∧ e.options.getLsbD 1 = false
        ∧ (e.hearing = .unheard ∨ e.hearing = .missed))
    ∧ (onRoute .running .ignore [member 9] (heardOf 9)).book = [] ++ member 9 :: [] :=
  ⟨by decide, (hearing_of_member (member 9) rfl rfl rfl rfl).2.2.2.2.2.1⟩

theorem witness_RevisionTriggers :
    (heardOf 9).register < 10 ^ plainFamily.digits ∧ (12340 : Nat) < 10 ^ plainFamily.digits := by decide

/-- Revisions 14 and 15, and a hearing that differs from the current fields. -/
theorem witness_LaterHearingsReviseOrAreAbsorbed :
    (∀ e ∈ [heardBefore, { heardBefore with revisions := 15 }],
      e.meterId = 9 ∧ e.familyIndex = 0 ∧ e.segment = 0 ∧ e.options.getLsbD 1 = false ∧ e.hearing = .heard
        ∧ e.current = some { register := 12340, flags := 0, ext := none, timeTag := 500 }
        ∧ e.reported = some { register := 12340, flags := 0, conditions := 0 } ∧ e.recordNumber = some 1)
    ∧ (12340 : Nat) ≠ (heardOf 9).register := by decide

/-- A new foreign meter, one that changed nothing and one that changed its register. -/
theorem witness_ForeignMetersAreCachedAndRecorded :
    (∀ p ∈ [ForeignPolicy.first, .changes],
      Running (onRoute .running p [] (heardOf 9)) ∧ (onRoute .running p [] (heardOf 9)).pairing.hearings = heardOf 9 :: []
        ∧ (onRoute .running p [] (heardOf 9)).builder.held = []
        ∧ (onRoute .running p [] (heardOf 9)).builder.limitFlag = false
        ∧ (onRoute .running p [] (heardOf 9)).route.policy ≠ .ignore
        ∧ (onRoute .running p [] (heardOf 9)).matcher.cache = [])
    ∧ ({ meterId := 9, register := 12345, flags := 0, alerted := 0 } : ForeignEntry).register = (heardOf 9).register
    ∧ ({ meterId := 9, register := 12344, flags := 0, alerted := 0 } : ForeignEntry).register ≠ (heardOf 9).register := by
  refine ⟨?_, rfl, by decide⟩
  intro p hp
  simp only [List.mem_cons, List.not_mem_nil, or_false] at hp
  rcases hp with rfl | rfl <;> exact ⟨rfl, rfl, rfl, rfl, by decide, rfl⟩

/-- Differences of 0, of exactly T_rev and one beyond it; an elapsed time at and below the plausible limit. -/
theorem witness_ScreeningFollowsItsStages :
    (10 : Nat) < 10 ^ plainFamily.digits ∧ (0 : Int) ≤ ((10 : Nat) : Int) - (10 : Nat)
      ∧ -(((10 : Nat) : Int) - (12 : Nat)) ≤ plainFamily.reverseTolerance
      ∧ (plainFamily.reverseTolerance : Int) < -(((9 : Nat) : Int) - (12 : Nat))
      ∧ (((0 : Nat) : Int) - (90000 : Nat) + 10 ^ plainFamily.digits) * 16 ≤ (10000 : Nat) * (plainFamily.highRate : Int)
      ∧ ¬ ((((0 : Nat) : Int) - (90000 : Nat) + 10 ^ plainFamily.digits) * 16
            ≤ (9999 : Nat) * (plainFamily.highRate : Int)) := by decide

/-! ## Witnesses: records, live queue, segments, route -/

/-- A part whose builder holds a record over an append queue of some length. -/
def holding (x : StoreState) (queued : Nat) : State :=
  { builder := { held := [recordIn 9 0] }
    store := { state := x, appendQueue := List.replicate queued (recordIn 3 0), port := some (.write (recordIn 2 0) 0) } }

/-- A record to number with the last number and the one before it, in HALTED, over a queue of 31 and of 32 and with a
record held; and the held one passed on. -/
theorem witness_BuilderNumbersAndPassesRecords :
    (idle.builder.limitFlag = false ∧ idle.routing.route = routingRow idle.routing (kindOf .routeStart)
      ∧ idle.builder.held = [] ∧ idle.store.state = .normal ∧ (holding .halted 0).store.state = .halted
      ∧ (holding .normal 0).builder.held ≠ []
      ∧ ({ builder := { nextNumber := 4294967294 } } : State).builder.nextNumber < 4294967295
      ∧ 4294967295 ≤ ({ builder := { nextNumber := 4294967295 } } : State).builder.nextNumber)
    ∧ (∀ s ∈ [holding .halted 0, holding .normal 31, holding .normal 32],
      Running s ∧ Settled s ∧ s.builder.held = recordIn 9 0 :: [])
    ∧ (holding .normal 31).store.appendQueue.length < 32 ∧ 32 ≤ (holding .normal 32).store.appendQueue.length := by
  refine ⟨by decide, ?_, by decide, by decide⟩
  intro s hs
  simp only [List.mem_cons, List.not_mem_nil, or_false] at hs
  rcases hs with rfl | rfl | rfl <;> exact ⟨rfl, settled_rfl rfl, rfl⟩

/-- A free port over record 9 of class 2, whose quota and policy are given, with store records 1 and 2. -/
def judging (quota : Nat) (policy : Policy) (oldest : StoredState) : State :=
  { store :=
      { classes := defaultClasses.set 2 { quota := quota, policy := policy, priority := 0 }
        index := [{ storedIn 1 2 with state := oldest }, { storedIn 2 2 with slot := 1 }], appendQueue := [recordIn 9 2] } }

/-- Quota 0, a full LINEAR class, a quota of 3 with slot 2 the lowest free one, and a full RING class with its oldest record
STORED, whose slot 0 comes free, and IN_FLIGHT; and a waiting read. -/
theorem witness_FreePortJudgesTheAppendQueueAndGrants :
    (∀ q ∈ [0, 2, 3], ∀ p ∈ [Policy.linear, .ring], ∀ x ∈ [StoredState.stored, .inFlight],
      (judging q p x).store.port = none ∧ (judging q p x).store.state = .normal
        ∧ (judging q p x).store.appendQueue = recordIn 9 2 :: [] ∧ (judging q p x).store.classes[(2 : Fin 4)].quota = q
        ∧ (judging q p x).store.classes[(2 : Fin 4)].policy = p
        ∧ (judging q p x).store.index = [] ++ { storedIn 1 2 with state := x } :: [{ storedIn 2 2 with slot := 1 }]
        ∧ (judging q p x).store.index.countP (fun r => decide (r.head.cls = 2)) = 2
        ∧ (∀ r ∈ (judging q p x).store.index, r.slot ≠ 2) ∧ (∀ j < 2, ∃ r ∈ (judging q p x).store.index, r.slot = j))
    ∧ (∀ r ∈ [] ++ [{ storedIn 2 2 with slot := 1 }], r.slot ≠ 0 ∧ r.head.number ≠ (storedIn 1 2).head.number)
    ∧ ({ uploader := { batches := [batchOf 4 .reading] } } : State).uploader.batches = [] ++ batchOf 4 .reading :: []
    ∧ (batchOf 4 .reading).records[(batchOf 4 .reading).copies.length]? = some 1 := by
  decide

/-- A queue of 127, and a full one whose first ordinary copy stands behind a priority one. -/
theorem witness_LiveQueueArrivals :
    let copy (p : Bool) : LiveCopy := { record := recordIn 9 0, priority := p }
    (List.replicate 127 (copy true)).length < 128 ∧ 128 ≤ (List.replicate 128 (copy true)).length
      ∧ (∀ x ∈ List.replicate 128 (copy true), x.priority = true)
      ∧ (copy true :: List.replicate 127 (copy false)) = [copy true] ++ copy false :: List.replicate 126 (copy false) :=
  ⟨by simp, by simp, fun _ hx => by rw [List.eq_of_mem_replicate hx], rfl⟩

/-- A route that runs at clock value 1000 with one segment of two members of which the first has been heard. -/
def running (g : Segment) : State :=
  { route := { state := .running, declaredSegments := 1, id := 5 }, clock := { value := 1000, running := true }
    book := [heardBefore, { member 10 with options := 2 }, member 11], segments := [g] }

/-- The deadline at the clock value and one above it. -/
theorem witness_SegmentDeadlineAndItsExpiry :
    (∀ d ∈ [1000, 1001],
      let g : Segment := { street with state := .active, deadline := some d, deadlineReason := some .auto }
      Running (running g) ∧ (running g).segments[0]? = some g ∧ g.state = .active ∧ g.deadline = some d
        ∧ g.deadlineReason = some .auto)
    ∧ 1000 ≤ (running street).clock.value ∧ (running street).clock.value < 1001
    ∧ ({ street with state := .active, activation := some 1, lastHeard := some 2, unheard := 1 } : Segment).autoClose = true
    ∧ (street.state ≠ .active) := by
  refine ⟨fun d _ => ⟨rfl, rfl, rfl, rfl, rfl⟩, by decide, by decide, rfl, by decide⟩

/-- The walk at a heard entry, at a HOLD one and at an UNHEARD member, with a ready builder and with one that holds a
record, with a MISSED record that waits, and past the last entry. -/
theorem witness_CloseWalkVisitsItsEntriesAndEnds :
    (∀ p ∈ [some 0, some 1, some 2, none],
      let g : Segment := { street with state := .closing, closeReason := some .auto, walkPosition := p }
      Running (running g) ∧ Settled (running g) ∧ (running g).segments[0]? = some g ∧ g.state = .closing
        ∧ g.closeReason = some .auto ∧ g.waiting = none ∧ (running g).builder.held = []
        ∧ (running g).builder.limitFlag = false)
    ∧ (running street).book[0]? = some heardBefore ∧ heardBefore.hearing ≠ .unheard
    ∧ (running street).book[1]? = some { member 10 with options := 2 }
    ∧ ({ member 10 with options := 2 } : Entry).options.getLsbD 1 = true
    ∧ (running street).book[2]? = some (member 11) ∧ (member 11).options.getLsbD 1 = false
    ∧ (member 11).hearing = .unheard
    ∧ Settled { running { street with waiting := some { meterId := 11, pass := 1, timeTag := 5 } } with
        builder := { held := [recordIn 9 0] } }
    ∧ (∀ b ∈ [({ held := [recordIn 9 0] } : Builder), { limitFlag := true }],
      let s : State := { running { street with state := .closing, closeReason := some .auto } with builder := b }
      Running s ∧ Settled s ∧ (s.builder.held ≠ [] ∨ s.builder.limitFlag = true)) := by
  refine ⟨fun p _ => ⟨rfl, settled_rfl rfl, rfl, rfl, rfl, rfl, rfl, rfl⟩, rfl, by decide, rfl, rfl, rfl, rfl, rfl,
    settled_rfl rfl, fun b hb => ⟨rfl, settled_rfl rfl, ?_⟩⟩
  revert b
  decide

/-- A route in ENDING whose segment is CLOSED. -/
def ending : State := { running { street with state := .closed } with route := { state := .ending, id := 5 } }

/-- A route clock at its maximum. -/
def clockAtLimit : State := { clock := { value := 4294967295, running := true } }

theorem witness_RouteEndAndClockLimit :
    (Running ending ∧ ending.route.state = .ending ∧ (∀ g ∈ ending.segments, g.state = .closed)
      ∧ ending.builder.held = [] ∧ ending.builder.limitFlag = false)
    ∧ (Running clockAtLimit ∧ Settled clockAtLimit ∧ clockAtLimit.clock.running = true
      ∧ clockAtLimit.clock.value = 4294967295 ∧ clockAtLimit.route.clockLimitRaised = false)
    ∧ ({ route := { clockLimitRaised := true } } : State).route.clockLimitRaised = true := by
  refine ⟨⟨rfl, rfl, by decide, rfl, rfl⟩, ⟨rfl, settled_rfl rfl, rfl, rfl, rfl⟩, rfl⟩

/-! ## Witnesses: store, memory and invariants -/

/-- A write under way with a write-failure streak. -/
def writing (streak : Nat) : State := { store := { port := some (.write (recordIn 1 0) 65535), failStreak := streak } }

/-- The last slot, and streaks 0, 2 and 3. -/
theorem witness_WriteCompletionStoresOrLosesTheRecord :
    ∀ n ∈ [0, 2, 3], Running (writing n) ∧ (writing n).store.port = some (.write (recordIn 1 0) 65535)
      ∧ (writing n).store.state = .normal ∧ (writing n).store.failStreak = n ∧ n < 4 := by
  intro n hn
  exact ⟨rfl, rfl, rfl, rfl, by revert n; decide⟩

/-- A read under way for batch 4, whose one record it is. -/
def reading : State :=
  { store := { port := some (.read 1 (some 4)), index := [{ storedIn 1 0 with state := .inFlight }] }
    uploader := { state := .running, batches := [batchOf 4 .ready, batchOf 4 .reading] } }

/-- A read for a batch beside another of the same number that is READY, and a read whose batch has ended. -/
theorem witness_ReadCompletionGivesTheBatchItsCopy :
    Running reading ∧ reading.store.port = some (.read 1 (some (batchOf 4 .reading).number))
      ∧ reading.uploader.batches = [batchOf 4 .ready] ++ batchOf 4 .reading :: []
      ∧ (∀ y ∈ [batchOf 4 .ready] ++ [], y.number = (batchOf 4 .reading).number → y.stage ≠ .reading)
      ∧ (batchOf 4 .reading).stage = .reading
      ∧ reading.store.index.find? (fun y => decide (y.head.number = 1)) = some { storedIn 1 0 with state := .inFlight }
      ∧ ({ store := { port := some (.read 1 none) } } : State).store.port = some (.read 1 none) :=
  ⟨rfl, rfl, rfl, by decide, rfl, rfl, rfl⟩

theorem witness_OnlyAWriteChangesTheRecordMemory : ∃ t, exec (.writeCompletion true) (writing 0) = .next t := ⟨_, rfl⟩

/-- A part with a record stored, one in a batch that waits, one under write and one queued, a segment with one member
heard and one not, and a write completion to come. -/
def busyPart : State :=
  { running { street with state := .active, member := 2, heard := 1, unheard := 1 } with
    store :=
      { index := [storedIn 1 0, { storedIn 2 0 with slot := 1, state := .inFlight }], port := some (.write (recordIn 3 0) 2)
        appendQueue := [recordIn 4 1] }
    builder := { nextNumber := 5 }
    uploader := { state := .running, batches := [{ batchOf 4 .waiting with records := [2], ackDeadline := some 50 }] }
    pending := [.writeCompletion true] }

/-- That part meets every invariant and steps on. -/
theorem witness_invariants :
    MemoryCanonical busyPart ∧ PairingBounded busyPart ∧ QuotasFit busyPart ∧ QueuesBounded busyPart
      ∧ NumbersInRange busyPart ∧ RecordsOrdered busyPart ∧ BatchesAccounted busyPart ∧ SegmentsCounted busyPart
      ∧ Settled busyPart ∧ (∀ strap rest, busyPart.pending ≠ .coldReset strap :: rest)
      ∧ ∃ t, step busyPart = .next t := by
  refine ⟨rfl, ⟨by decide, by decide, by decide⟩, by decide, by decide, ⟨by decide, by decide⟩, by decide, by decide,
    by decide, settled_rfl rfl, ?_, _, rfl⟩
  intro x rest h
  cases h

/-- A pool with descriptor 0 in the close-order queue meets the invariant of the descriptors. -/
theorem witness_QueuesStayBounded :
    DescriptorsPlaced { closedWith .good [] with pending := [.decoderTake] }
      ∧ ∃ t, step { closedWith .good [] with pending := [.decoderTake] } = .next t := by
  have hs (d : Fin 128) : (closedWith .good []).pool.descriptors[d].state = if d = 0 then .closed else .free := by
    show ((Vector.replicate 128 ({} : Descriptor)).set 0 _)[d.val].state = _
    rw [Vector.getElem_set]
    by_cases h : d = 0
    · subst h; rfl
    · rw [if_neg (fun e => h (Fin.ext e.symm)), if_neg h, Vector.getElem_replicate]
  have hl (i : Fin 8) : (closedWith .good []).lanes[i] = {} := Vector.getElem_replicate i.isLt
  refine ⟨⟨by decide, fun d => ?_, fun d => ?_, fun i j h _ => ?_, fun i => ?_, fun d => ?_⟩, _, rfl⟩
  · show d ∈ ([0] : List (Fin 128)) ↔ (closedWith .good []).pool.descriptors[d].state = _
    rw [hs]
    by_cases h : d = 0 <;> simp [h]
  · show (closedWith .good []).pool.descriptors[d].state = _ ↔ ∃ i : Fin 8, (closedWith .good []).lanes[i].openDescriptor = _
    rw [hs]
    simp only [hl]
    by_cases h : d = 0 <;> simp [h]
  · exact absurd (show (closedWith .good []).lanes[i].openDescriptor = none by rw [hl]) h
  · show (closedWith .good []).lanes[i].state = _ ↔ (closedWith .good []).lanes[i].openDescriptor ≠ none
    rw [hl]
    simp
  · show (closedWith .good []).pool.descriptors[d].state = _ ↔ _
    rw [hs]
    by_cases h : d = 0 <;> simp [h, closedWith]

/-! ## Witnesses: uploader -/

/-- An upload in a state over one stored record of class 0, with a batch of number 4. -/
def uploading (x : UploadState) (b : List Batch) (streak : Nat) : State :=
  { uploader := { state := x, batches := b, streak := streak, nextNumber := 255 }
    store := { index := [storedIn 1 0] }, depotUp := true, timebase := 50 }

/-- A batch that waits for its answer until 50. -/
def waitingFor (n : Nat) : Batch := { batchOf n .waiting with ackDeadline := some 50 }

/-- The slot interval of pacing 20 has passed at its very end, with batch number 255 next. -/
theorem witness_BatchIsSelectedWhenTheSlotOpens :
    let s : State := { uploading .running [] 0 with
      uploader := { state := .running, nextNumber := 255, lastStart := some 0 } }
    Running s ∧ Settled s ∧ (s.store.port ≠ none ∨ s.store.appendQueue = []) ∧ s.uploader.state = .running
      ∧ s.uploader.batches.length < s.uploader.window ∧ (∀ b ∈ s.uploader.batches, b.stage ≠ .reading)
      ∧ 0 < s.uploader.pacing ∧ 0 * s.uploader.pacing + 1000 ≤ s.timebase * s.uploader.pacing
      ∧ s.uploader.classMask.getLsbD 0 = true ∧ (∃ r ∈ s.store.index, r.head.cls = 0 ∧ r.state = .stored)
      ∧ (∀ d : Fin 4, (∃ r ∈ s.store.index, r.head.cls = d ∧ r.state = .stored) → d = 0) :=
  ⟨rfl, settled_rfl rfl, .inr rfl, rfl, by decide, by decide, by decide, by decide, rfl, by decide, by decide⟩

/-- A batch frame, a reply and no frame in transmission; a reply that waits, a READY batch that does, and none; and the
link UP and DOWN. -/
theorem witness_DepotFrameEndStartsTheAckTimeout :
    (∀ x ∈ [some (TxFrame.batch 4 []), some (.reply { code := 1, tag := 0, status := .ok, results := [] })],
      ∀ r ∈ [[], [{ code := 1, tag := 0, status := Status.ok, results := [] }]], ∀ up ∈ [true, false],
      let s : State := { uploading .running [batchOf 4 .sending, batchOf 5 .ready] 0 with
        depot := { tx := x, replies := r }, depotUp := up }
      Running s ∧ Settled s ∧ s.uploader.batches = [] ++ batchOf 4 .sending :: [batchOf 5 .ready])
    ∧ (batchOf 4 .sending).stage = .sending ∧ (batchOf 5 .ready).stage = .ready
    ∧ Running idle ∧ Settled idle ∧ idle.depot.tx = none := by
  refine ⟨?_, rfl, rfl, rfl, settled_rfl rfl, rfl⟩
  intro x hx r hr up hu
  simp only [List.mem_cons, List.not_mem_nil, or_false] at hx hr hu
  rcases hx with rfl | rfl <;> rcases hr with rfl | rfl <;> rcases hu with rfl | rfl <;>
    exact ⟨rfl, settled_rfl rfl, rfl⟩

/-- Alone and before another batch of its number, one millisecond before the deadline and at it, with streaks 0 and 2, in RUNNING and in DRAINING. -/
theorem witness_AckTimeoutReturnsTheBatch :
    (∀ x ∈ [UploadState.running, .draining], ∀ n ∈ [0, 1, 2],
      Running (uploading x [waitingFor 4] n) ∧ Settled (uploading x [waitingFor 4] n)
        ∧ (uploading x [waitingFor 4] n).uploader.batches = [] ++ waitingFor 4 :: []
        ∧ (uploading x [waitingFor 4] n).uploader.state = x ∧ (uploading x [waitingFor 4] n).uploader.streak = n)
    ∧ (uploading .running [batchOf 4 .sending, waitingFor 4, waitingFor 4] 0).uploader.batches =
        [batchOf 4 .sending] ++ waitingFor 4 :: [waitingFor 4]
    ∧ (∀ y ∈ [batchOf 4 .sending], y.number = 4 → y.stage ≠ .waiting)
    ∧ (waitingFor 4).stage = .waiting ∧ (waitingFor 4).ackDeadline = some 50
    ∧ (uploading .running [] 0).timebase = 50
    ∧ ({ uploading .running [] 0 with timebase := 49 } : State).timebase < 50 := by
  refine ⟨?_, rfl, by decide, rfl, rfl, rfl, by decide⟩
  intro x hx n hn
  simp only [List.mem_cons, List.not_mem_nil, or_false] at hx hn
  rcases hx with rfl | rfl <;> rcases hn with rfl | rfl | rfl <;> exact ⟨rfl, settled_rfl rfl, rfl, rfl, rfl⟩

/-- From both links; with an empty mask, and with the limits of each setting; the pacing at 0, 50 and 51. -/
theorem witness_UploadOpenAndPace :
    (∀ k, Takes (asked (uploading .idle [] 0) k (.uploadOpen 0 none none none none)) k
      (frameOf (.uploadOpen 0 none none none none)) [] (.uploadOpen 0 none none none none))
    ∧ (Takes (asked (uploading .idle [] 0) .depot (.uploadOpen 15 (some 32) (some 8) (some 10000) (some 0))) .depot
      (frameOf (.uploadOpen 15 (some 32) (some 8) (some 10000) (some 0))) []
      (.uploadOpen 15 (some 32) (some 8) (some 10000) (some 0)))
    ∧ (∀ k, ∀ n ∈ [0, 50, 51], Takes (asked (uploading .running [] 0) k (.uploadPace n)) k (frameOf (.uploadPace n)) []
      (.uploadPace n))
    ∧ (uploading .idle [] 0).uploader.state = .idle ∧ (uploading .idle [] 0).depotUp = true
    ∧ (uploading .paused [] 0).uploader.state = .paused := by
  refine ⟨fun k => ?_, takes_asked _ _ _ rfl rfl (by decide) (by decide), fun k n hn => ?_, rfl, rfl, rfl⟩
  · cases k <;> exact takes_asked _ _ _ rfl rfl (by decide) (by decide)
  · refine takes_asked _ _ _ rfl ?_ ?_ ?_
    · cases k <;> rfl
    · cases k <;> decide
    · revert n; decide

theorem witness_UploadStopAndFinish :
    (∀ k, Takes (asked (uploading .running [waitingFor 4] 0) k .uploadStop) k (frameOf .uploadStop) [] .uploadStop)
    ∧ (∀ k, Takes (asked (uploading .running [] 0) k .uploadFinish) k (frameOf .uploadFinish) [] .uploadFinish)
    ∧ (uploading .running [waitingFor 4] 0).uploader.batches ≠ [] ∧ (uploading .idle [] 0).uploader.state = .idle := by
  refine ⟨fun k => ?_, fun k => ?_, by decide, rfl⟩ <;> cases k <;>
    exact takes_asked _ _ _ rfl rfl (by decide) (by decide)

/-- Batch number 255 in WAITING, alone and before another of its number, and the number of a batch in SENDING. -/
theorem witness_BatchAnswersReleaseOrReturn :
    (∀ k, Takes (asked (uploading .draining [waitingFor 255] 0) k (.batchAck 255)) k (frameOf (.batchAck 255)) []
      (.batchAck 255))
    ∧ (∀ k, Takes (asked (uploading .running [batchOf 4 .sending] 0) k (.batchNak 4)) k (frameOf (.batchNak 4)) []
      (.batchNak 4))
    ∧ (uploading .draining [waitingFor 255] 0).uploader.batches = [] ++ waitingFor 255 :: []
    ∧ (uploading .draining [waitingFor 255, waitingFor 255] 0).uploader.batches = [] ++ waitingFor 255 :: [waitingFor 255]
    ∧ (waitingFor 255).stage = .waiting ∧ (batchOf 4 .sending).stage ≠ .waiting := by
  refine ⟨fun k => ?_, fun k => ?_, rfl, rfl, rfl, by decide⟩ <;> cases k <;>
    exact takes_asked _ _ _ rfl rfl (by decide) (by decide)

/-! ## Witnesses: events, links, requests -/

/-- Queues of 63 and 64 events, a masked kind, and both an empty and a full first-fault record. -/
theorem witness_EventsAndFaultsAreRecorded :
    eventEnabled idle.events .eventOverflow = true ∧ eventEnabled { mask := 0 } .fault = false
      ∧ (List.replicate 63 coldRestart).length < 64 ∧ 64 ≤ (List.replicate 64 coldRestart).length
      ∧ idle.faults.first = none
      ∧ ({ first := some { kind := .storeHalt, severity := .halt, block := .recordStore, parameter := 0, timeTag := 0 } } :
          FaultUnit).first.isSome = true :=
  ⟨by decide, by decide, by simp, by simp, rfl, rfl⟩

theorem witness_RequestsAreReadBackAsWritten :
    (Request.bookOpen 65535 4096 64 1 3600 3600 2).fits = true ∧ (Request.bookOpen 65536 1 1 0 10 0 0).fits = false := by
  decide

set_option maxRecDepth 8000 in
/-- An empty payload, the first byte and the last of its frame, a queue of 7 and of 8 requests; a wrong kind, length 1,401
and a wrong CRC. -/
theorem witness_LinkFramesAreAcceptedOrDiscarded :
    (Running idle ∧ Settled idle ∧ ([] : List Byte).length ≤ 1400 ∧ idle.trunk.rx = []
      ∧ ({ pins := { dock := true } } : State).pins.dock = true)
    ∧ (List.replicate 7 (frameOf .identify)).length < 8 ∧ 8 ≤ (List.replicate 8 (frameOf .identify)).length
    ∧ ({ trunk := { rx := [0xA5, 0x5A] } } : State).trunk.rx = [0xA5, 0x5A] ∧ (2 : Byte) ≠ 1
    ∧ 1400 < (0x05 : Byte).toNat * 256 + (0x79 : Byte).toNat ∧ ¬ 1400 < (0x05 : Byte).toNat * 256 + (0x78 : Byte).toNat
    ∧ (0xA5 : Byte) ∉ ((1 : Byte) :: 7 :: (bigEndian 2 0 ++ []))
    ∧ ([0, 0] : List Byte) ≠ bigEndian 2 (crc16 ((1 : Byte) :: 7 :: (bigEndian 2 0 ++ []))).toNat := by
  refine ⟨⟨rfl, settled_rfl rfl, by decide, rfl, rfl⟩, by simp, by simp, rfl, by decide, by decide, by decide, by decide,
    by decide⟩

set_option maxRecDepth 8000 in
/-- A discarded frame of wrong CRC whose 7 payload bytes hold a start mark and the beginning of an empty frame: with its
last two bytes the inner frame is whole, without its second CRC byte it is held, and of another kind it is discarded. -/
theorem witness_LinkFramesAreAcceptedOrDiscarded_inner :
    let crc := bigEndian 2 (crc16 ((1 : Byte) :: 9 :: (bigEndian 2 0 ++ []))).toNat
    (1 : Byte) :: 7 :: (bigEndian 2 6 ++ [0xA5, 0x5A, 1, 9, 0, 0]) = [1, 7, 0, 6] ++ 0xA5 :: 0x5A :: [1, 9, 0, 0]
    ∧ (0xA5 : Byte) ∉ ([1, 7, 0, 6] : List Byte)
    ∧ [1, 9, 0, 0] ++ crc = (1 : Byte) :: 9 :: (bigEndian 2 0 ++ []) ++ crc
    ∧ crc ≠ bigEndian 2 (crc16 ((1 : Byte) :: 7 :: (bigEndian 2 6 ++ [0xA5, 0x5A, 1, 9, 0, 0]))).toNat
    ∧ ([1, 9] ++ [0, 0]) ++ crc = (1 : Byte) :: 9 :: (bigEndian 2 0 ++ []) ++ crc ∧ crc.length = 2 ∧ crc ≠ []
    ∧ ([2, 9] ++ [0, 0] : List Byte).getD 0 0 ≠ 1 := by
  decide

/-- A receiver that hunts with no byte and with a first mark byte, on either link, and a depot link undocked. -/
theorem witness_LinkFramesAreAcceptedOrDiscarded_hunting :
    (∀ x ∈ [([] : List Byte), [0xA5]], ∀ k : Link,
      let s : State := { trunk := { rx := x }, depot := { rx := x }, pins := { dock := true } }
      Running s ∧ Settled s ∧ s.pins.dock = true ∧ (s.link k).rx = x)
    ∧ Running {} ∧ Settled {} ∧ ({} : State).pins.dock = false :=
  ⟨fun x _ k => ⟨rfl, settled_rfl rfl, rfl, by cases k <;> rfl⟩, rfl, settled_rfl rfl, rfl⟩

/-- A reply, an event, the last event over a pending loss, a live copy, and nothing waiting. -/
theorem witness_TrunkTransmitterChoosesInOrder :
    let t : LinkPort := { tx := some (.event coldRestart) }
    Running { idle with trunk := { t with replies := [{ code := 1, tag := 0, status := .ok, results := [] }] } }
      ∧ (∀ r, TxFrame.event coldRestart = .reply r → r.code ≠ 8 ∨ r.status ≠ .ok)
      ∧ ({ queue := [coldRestart], pendingLost := 1 } : EventUnit).queue = coldRestart :: []
      ∧ ({ queue := [{ record := recordIn 1 0, priority := true }] } : LiveQueue).queue =
          { record := recordIn 1 0, priority := true } :: [] := by
  refine ⟨rfl, ?_, rfl, rfl⟩
  intro r h
  cases h

/-- A link DOWN, one UP with an upload, and one UP whose dispatcher has answered a RESET, with and without an upload. -/
theorem witness_DockLineTakesTheLinkDown :
    (∀ x ∈ [UploadState.idle, .running],
      let s : State := { uploading x [] 0 with
        depot := { dispatcher := .resetting }, builder := { nextNumber := 2 } }
      Running s ∧ s.depotUp = true ∧ s.depot.dispatcher = .resetting ∧ RecordsOrdered s ∧ s.uploader.state = x)
    ∧ Running idle ∧ idle.depotUp = false ∧ Running (uploading .running [waitingFor 4] 0)
      ∧ (uploading .running [waitingFor 4] 0).depotUp = true
      ∧ (uploading .running [waitingFor 4] 0).depot.dispatcher ≠ .resetting :=
  ⟨fun x _ => ⟨rfl, rfl, rfl, by cases x <;> decide, rfl⟩, rfl, rfl, rfl, rfl, by decide⟩

/-- Codes 0 and 33, and a code of the catalogue with a byte too many. -/
theorem witness_UnknownRequestsAreAnswered :
    (∀ x ∈ [[], [33], [1, 0]],
      Running ({ idle with trunk := { requests := [{ tag := 7, payload := x }] } })
        ∧ ({ idle with trunk := { requests := [{ tag := 7, payload := x }] } } : State).trunk.dispatcher = .idle)
    ∧ (([] : List Byte).getD 0 0).toNat = 0 ∧ 32 < (([33] : List Byte).getD 0 0).toNat
    ∧ (∀ r, parseRequest [1, 0] ≠ .request r) := by
  refine ⟨fun _ _ => ⟨rfl, rfl⟩, by decide, by decide, ?_⟩
  intro r h
  rw [test_parse_too_long] at h
  cases h

theorem witness_ReadingAndManagementRequests :
    ∀ r ∈ [Request.identify, .status 8, .status 9, .countersRead 6 0, .countersRead 6 1, .countersRead 7 1,
        .countersRead 0 2, .entryById 9, .entryByIndex 0, .entryByIndex 3, .segmentRead 0, .segmentRead 1,
        .eventMask 0, .eventMask 255, .faultClear],
      Takes (asked (running street) .trunk r) .trunk (frameOf r) [] r := by
  intro r hr
  refine takes_asked _ _ _ rfl rfl (by decide) ?_
  revert r
  decide

theorem witness_ResetRequestBringsAWarmReset :
    (∀ k, Takes (asked (uploading .running [] 0) k .reset) k (frameOf .reset) [] .reset)
    ∧ Takes (asked idle .depot .reset) .depot (frameOf .reset) [] .reset ∧ idle.depotUp = false
    ∧ (uploading .running [] 0).depotUp = true := by
  refine ⟨fun k => ?_, takes_asked _ _ _ rfl rfl (by decide) (by decide), rfl, rfl⟩
  cases k <;> exact takes_asked _ _ _ rfl rfl (by decide) (by decide)

/-- The raw profile of the plain family. -/
def rawPlain : RawProfile :=
  { familyCode := 0x41, digits := 5, encoding := 0, registerOffset := 0, flagOffset := some 3,
    flagMap := { magnet := some 0 }, serviceOffset := some 4, mode := 0, window := 250, extTamperOffset := none,
    extReverseOffset := none, highRate := 16, reverseTolerance := 2, stagnationHours := 0, revisionStep := 5 }

/-- An empty table and one that holds the code, the places 15 and 16, and a profile with 10 digits. -/
theorem witness_FamilyTableRequests :
    (∀ r ∈ [Request.familySet 15 rawPlain, .familySet 16 rawPlain, .familySet 0 { rawPlain with digits := 10 },
        .familyClear 0, .familyClear 15, .familyClear 16],
      Takes (asked idle .trunk r) .trunk (frameOf r) [] r
        ∧ Takes (asked (closedWith .good []) .trunk r) .trunk (frameOf r) [] r)
    ∧ idle.route.state = .empty ∧ judgeProfile rawPlain = some plainFamily
    ∧ judgeProfile { rawPlain with registerOffset := 1 } = none ∧ judgeProfile { rawPlain with mode := 1 } = none
    ∧ judgeProfile { rawPlain with flagOffset := none } = none ∧ judgeProfile { rawPlain with window := 9 } = none
    ∧ judgeProfile { rawPlain with digits := 10 } = none ∧ (closedWith .good []).families[(0 : Fin 16)] ≠ none
    ∧ (running street).route.state ≠ .empty := by
  refine ⟨fun r hr => ⟨takes_asked _ _ _ rfl rfl (by decide) ?_, takes_asked _ _ _ rfl rfl (by decide) ?_⟩, rfl, by decide,
    by decide, by decide, by decide, by decide, by decide, by decide, by decide⟩ <;> revert r <;> decide

/-- Settings at and past their limits. -/
theorem witness_TableSettingRequests :
    (∀ r ∈ [Request.serviceSet 15 255 2 255, .serviceSet 16 1 0 0, .serviceSet 0 0 0 0, .serviceSet 0 1 3 0,
        .serviceSet 0 3 0 0, .serviceClear 15, .serviceClear 16, .rulesDefaults,
        .rulesSet [255, 0, 0, 0, 0, 0, 0, 0, 0, 0, 0, 0, 0, 0, 1, 255],
        .rulesSet [0, 0, 0, 0, 0, 0, 0, 0, 0, 0, 0, 0, 0, 0, 0, 1], .routingDefaults, .routingSet 6 3 1,
        .routingSet 7 0 0, .routingSet 0 4 0, .routingSet 0 0 2, .classSet 3 2048 1 3, .classSet 3 2049 1 3,
        .classSet 4 0 0 0, .classSet 0 65537 0 0, .classSet 0 0 2 0, .classSet 0 0 0 4],
      Takes (asked (closedWith .good []) .trunk r) .trunk (frameOf r) [] r)
    ∧ ((∑ d : Fin 4, if d = 3 then 0 else idle.store.classes[d].quota) + 2048 ≤ 65536)
    ∧ (65536 < (∑ d : Fin 4, if d = 3 then 0 else idle.store.classes[d].quota) + 2049)
    ∧ (writing 0).store.port = some (.write (recordIn 1 0) 65535) ∧ (recordIn 1 0).head.cls = 0 := by
  refine ⟨fun r hr => takes_asked _ _ _ rfl rfl (by decide) ?_, by decide, by decide, rfl, rfl⟩
  revert r
  decide

/-! ## Witnesses: route requests and resets -/

/-- A load of the trunk link with one entry declared. -/
def loading (loaded : Nat) : State :=
  { route := { state := .loading, declaredEntries := 1, declaredSegments := 1, loaded := loaded, owner := some .trunk }
    segments := [street], families := (Vector.replicate 16 none).set 0 (some plainFamily) }

theorem witness_BookOpenStartsALoad :
    (∀ s ∈ [idle, running street, loading 0], ∀ k, ∀ r ∈ [Request.bookOpen 65535 4096 64 1 3600 3600 2,
        .bookOpen 0 1 1 0 10 0 0, .bookOpen 0 4097 1 0 10 0 0, .bookOpen 0 1 65 0 10 0 0, .bookOpen 0 1 1 2 10 0 0,
        .bookOpen 0 1 1 0 9 0 0, .bookOpen 0 1 1 0 10 3601 0, .bookOpen 0 1 1 0 10 0 3],
      Takes (asked s k r) k (frameOf r) [] r)
    ∧ idle.route.state = .empty ∧ (running street).route.state = .running ∧ (loading 0).route.state = .loading
    ∧ (loading 0).route.owner = some .trunk ∧ (loading 0).route.owner ≠ some .depot := by
  refine ⟨fun s hs k r hr => ?_, rfl, rfl, rfl, rfl, by decide⟩
  have hp : parseRequest (encodeRequest r) = .request r := by revert r; decide
  simp only [List.mem_cons, List.not_mem_nil, or_false] at hs
  rcases hs with rfl | rfl | rfl <;> cases k <;> exact takes_asked _ _ _ rfl rfl (Nat.zero_lt_succ 7) hp

/-- An entry of the plain family; its reference is below M. -/
def rawMember : RawEntry :=
  { meterId := 9, familyCode := 0x41, segment := 0, options := 7, referenceReading := some 99999,
    referenceHour := some 16777215 }

/-- Lists of 0, 1 and 33 entries, a wrong first index, one entry more than declared, and an entry of each check. -/
theorem witness_BookEntriesTakesEntriesInOrder :
    (∀ k, ∀ r ∈ [Request.bookEntries 0 [rawMember], .bookEntries 0 [], .bookEntries 1 [rawMember],
        .bookEntries 0 [rawMember, rawMember]],
      Takes (asked (loading 0) k r) k (frameOf r) [] r)
    ∧ 32 < (List.replicate 33 rawMember).length
    ∧ (loading 0).families[(0 : Fin 16)] = some plainFamily ∧ plainFamily.familyCode = rawMember.familyCode
    ∧ (∀ j : Fin 16, ¬ j < 0) ∧ rawMember.meterId < 0xFFFFFFFF ∧ rawMember.segment < (loading 0).route.declaredSegments
    ∧ rawMember.options < 8 ∧ 99999 < 10 ^ plainFamily.digits ∧ 10 ^ plainFamily.digits ≤ 100000
    ∧ (∀ i : Fin 16, (loading 0).families[i].map (·.familyCode) ≠ some 0x42)
    ∧ (∀ x ∈ (loading 0).book, x.meterId ≠ 9) := by
  refine ⟨fun k r hr => ?_, by simp, rfl, rfl, by decide, by decide, by decide, by decide, by decide, by decide, by decide,
    by decide⟩
  have hp : parseRequest (encodeRequest r) = .request r := by revert r; decide
  cases k <;> exact takes_asked _ _ _ rfl rfl (Nat.zero_lt_succ 7) hp

/-- An incomplete load and a complete one, from its owner and from the other link. -/
theorem witness_BookCloseAndAbortEndTheLoad :
    (∀ n ∈ [0, 1], ∀ k, ∀ r ∈ [Request.bookClose, .bookAbort],
      Takes (asked (loading n) k r) k (frameOf r) [] r ∧ (loading n).route.state = .loading
        ∧ (loading n).route.owner = some .trunk ∧ (loading n).route.loaded = n ∧ (loading n).route.declaredEntries = 1) := by
  intro n hn k r hr
  have hp : parseRequest (encodeRequest r) = .request r := by revert r; decide
  exact ⟨by cases k <;> exact takes_asked _ _ _ rfl rfl (Nat.zero_lt_succ 7) hp, rfl, rfl, rfl, rfl⟩

/-- Sets of 7 and 8, a meter of the book and one that is not, segments 0 and 1, open and shut. -/
theorem witness_OptionsChangeWithTheSegmentCounts :
    (∀ g ∈ [street, { street with state := .closed }], ∀ r ∈ [Request.entryModify 11 0 7, .entryModify 11 8 0,
        .entryModify 12 0 0, .segmentModify 0 7 2, .segmentModify 1 0 0, .segmentModify 0 0 8],
      Takes (asked (running g) .trunk r) .trunk (frameOf r) [] r ∧ (running g).route.state = .running
        ∧ (running g).segments[0]? = some g)
    ∧ (running street).book = [heardBefore, { member 10 with options := 2 }] ++ member 11 :: []
    ∧ (∀ x ∈ [heardBefore, { member 10 with options := 2 }], x.meterId ≠ 11) := by
  refine ⟨fun g hg r hr => ?_, rfl, by decide⟩
  have hp : parseRequest (encodeRequest r) = .request r := by revert r; decide
  exact ⟨takes_asked _ _ _ rfl rfl (Nat.zero_lt_succ 7) hp, rfl, rfl⟩

/-- READY with a ready builder and with one that holds a record, and a dispatcher that holds the request. -/
theorem witness_RouteStartsWhenTheBuilderIsReady :
    (∀ b ∈ [({} : Builder), { held := [recordIn 1 0] }], ∀ r ∈ [Request.routeStart 0, .routeStart 16777215],
      Takes (asked { route := { state := .ready }, builder := b } .trunk r) .trunk (frameOf r) [] r)
    ∧ ({ trunk := { dispatcher := .routeStart 7 16777215 } } : State).trunk.dispatcher = .routeStart 7 16777215
    ∧ Running { trunk := { dispatcher := .routeStart 7 16777215 } } := by
  refine ⟨fun b hb r hr => ?_, rfl, rfl⟩
  have hp : parseRequest (encodeRequest r) = .request r := by revert r; decide
  exact takes_asked _ _ _ rfl rfl (Nat.zero_lt_succ 7) hp

/-- A held ROUTE_START in READY and outside it, before a ready builder and before one that holds a record or has given its
last number. -/
theorem witness_RouteStartsWhenTheBuilderIsReady_held :
    ∀ x ∈ [RouteState.ready, .empty],
      ∀ b ∈ [({} : Builder), { held := [recordIn 1 0] }, { nextNumber := 4294967295, limitFlag := true }],
      let s : State := { trunk := { dispatcher := .routeStart 7 16777215 }, route := { state := x }, builder := b }
      Running s ∧ (s.link .trunk).dispatcher = .routeStart 7 16777215 ∧ s.route.state = x ∧ s.builder = b :=
  fun _ _ _ _ => ⟨rfl, rfl, rfl, rfl⟩

/-- A body whose flag byte, service byte and extension fields are read. -/
def readFamily : Profile :=
  { plainFamily with
    mode := .extended, flagOffset := some 3, flagMap := { tilt := some 7, lowbat := some 0 }, serviceOffset := some 4,
    extTamperOffset := some 0, extReverseOffset := some 1 }

theorem test_fields_are_read :
    readFlags readFamily [0, 0, 7, 0x81, 4] = 0x22 ∧ readExtension readFamily [9, 1, 2] = some ⟨9, 258⟩
      ∧ readExtension plainFamily [9, 1, 2] = none ∧ serviceCodeOf readFamily [0, 0, 7, 0, 4] = some 4
      ∧ readingNeed readFamily = 5 ∧ extensionNeed readFamily = 3 := by decide

/-- Segments 0 and 1 in each of the four states, passes 2 and 3, and settings at and past their limits. -/
theorem witness_RouteEndAndSegmentRequests :
    (∀ g ∈ [street, { street with state := .active }, { street with state := .closing },
        { street with state := .closed, pass := 2 }, { street with state := .closed, pass := 3 }],
      ∀ r ∈ [Request.routeEnd, .segmentClose 0, .segmentClose 1, .segmentReopen 0, .segmentReopen 1,
        .segmentSet 0 0 10 0, .segmentSet 0 1 3600 3600, .segmentSet 1 0 10 0, .segmentSet 0 2 10 0, .segmentSet 0 0 9 0,
        .segmentSet 0 0 3601 0, .segmentSet 0 0 10 3601],
      Takes (asked (running g) .trunk r) .trunk (frameOf r) [] r ∧ (running g).route.state = .running
        ∧ (running g).route.declaredSegments = 1 ∧ (running g).segments[0]? = some g) := by
  intro g hg r hr
  have hp : parseRequest (encodeRequest r) = .request r := by revert r; decide
  exact ⟨takes_asked _ _ _ rfl rfl (Nat.zero_lt_succ 7) hp, rfl, rfl, rfl⟩

/-- A part that runs, and one held as the line leaves it, also with power applied meanwhile. -/
theorem witness_ResetLineHoldsAndStartsThePart :
    Running idle ∧ (∀ b ∈ [false, true],
      ({ pins := { resetLine := true, coldInReset := b } } : State).pins.resetLine = true
        ∧ retained { pins := { resetLine := true, coldInReset := b } } = { pins := { resetLine := true, coldInReset := b } }) :=
  ⟨rfl, fun b _ => ⟨rfl, by simp [retained, defaultClasses]⟩⟩

/-- A command that a held part ignores. -/
theorem witness_ResetLineHoldsAndStartsThePart_held :
    ({ pins := { resetLine := true } } : State).pins.resetLine = true ∧ Instr.sync 0 0 ≠ .dockAssert
      ∧ Instr.sync 0 0 ≠ .dockDeassert ∧ (∀ x, Instr.sync 0 0 ≠ .resetLineRelease x)
      ∧ (∀ x, Instr.sync 0 0 ≠ .coldReset x) := by
  refine ⟨rfl, by decide, by decide, ?_, ?_⟩ <;> intro x h <;> cases h

end Sys2Proof.Tests
end

