-- ==== Sys2Proof/Proofs/RegisterReading.lean ====
section
/-! SUPPORT. The register of a READING (R30): the number its bytes spell, binary or BCD, and when it is refused. -/

namespace Sys2Proof.Machine

/-! ## The bytes of a field -/

theorem bytesAt_succ (bytes : List Byte) (offset width : Nat) :
    bytesAt bytes offset (width + 1) = bytesAt bytes offset width ++ [bytes.getD (offset + width) 0] := by
  simp [bytesAt, List.range_succ]

theorem numberAt_zero (bytes : List Byte) (offset : Nat) : numberAt bytes offset 0 = 0 := rfl

/-- One byte more is one lower place of base 256. -/
theorem numberAt_succ (bytes : List Byte) (offset width : Nat) :
    numberAt bytes offset (width + 1) =
      numberAt bytes offset width * 256 + (bytes.getD (offset + width) 0).toNat := by
  rw [numberAt, bytesAt_succ, fromBigEndian_snoc, numberAt]

/-! ## BCD digits -/

/-- The two digits of a BCD byte read as one number, its upper four bits the higher digit (R30). -/
def bcdPair (b : Byte) : Nat := b.toNat / 16 * 10 + b.toNat % 16

/-- One BCD byte more is one lower place of base 100. -/
theorem digitsValue_bcdDigits_snoc (bytes : List Byte) (b : Byte) :
    digitsValue (bcdDigits (bytes ++ [b])) = digitsValue (bcdDigits bytes) * 100 + bcdPair b := by
  simp only [digitsValue, bcdDigits, bcdPair, List.flatMap_append, List.flatMap_singleton, List.foldl_append,
    List.foldl_cons, List.foldl_nil]
  ring

/-- A sum of places of base 100, taken one place further, is Horner's step. -/
theorem sum_places_succ (f : Nat → Nat) (width : Nat) :
    ((List.range (width + 1)).map (fun k => f k * 100 ^ (width + 1 - 1 - k))).sum =
      ((List.range width).map (fun k => f k * 100 ^ (width - 1 - k))).sum * 100 + f width := by
  have shift : ∀ k ∈ List.range width, f k * 100 ^ (width - k) = f k * 100 ^ (width - 1 - k) * 100 := by
    intro k hk
    have hk : k < width := List.mem_range.1 hk
    rw [mul_assoc, ← pow_succ, show width - 1 - k + 1 = width - k by omega]
  simp only [List.range_succ, List.map_append, List.map_singleton, List.sum_append, List.sum_singleton,
    Nat.add_sub_cancel, Nat.sub_self, pow_zero, mul_one]
  rw [List.map_congr_left shift, List.sum_map_mul_right]

theorem digitsValue_bcdDigits_bytesAt (bytes : List Byte) (offset width : Nat) :
    digitsValue (bcdDigits (bytesAt bytes offset width)) =
      ((List.range width).map (fun k => bcdPair (bytes.getD (offset + k) 0) * 100 ^ (width - 1 - k))).sum := by
  induction width with
  | zero => rfl
  | succ width ih =>
    rw [bytesAt_succ, digitsValue_bcdDigits_snoc, ih, sum_places_succ (fun k => bcdPair (bytes.getD (offset + k) 0))]

theorem bcdDigits_bytesAt_all_le_nine (bytes : List Byte) (offset width : Nat) :
    (bcdDigits (bytesAt bytes offset width)).all (fun d => decide (d ≤ 9)) = true ↔
      ∀ k < width, (bytes.getD (offset + k) 0).toNat / 16 ≤ 9 ∧ (bytes.getD (offset + k) 0).toNat % 16 ≤ 9 := by
  simp [bcdDigits, bytesAt]

/-! ## The register -/

theorem readRegister_of_binary {p : Profile} (h : p.encoding ≠ .bcd) (body : List Byte) :
    readRegister p body =
      if numberAt body p.registerOffset (registerWidth p) < 10 ^ p.digits
      then some (numberAt body p.registerOffset (registerWidth p)) else none := by
  unfold readRegister
  cases he : p.encoding with
  | binary3 => rfl
  | binary4 => rfl
  | bcd => exact absurd he h

/-- A binary register is the number of its bytes, if that is below M. -/
theorem readRegister_eq_some_of_binary {p : Profile} (h : p.encoding ≠ .bcd) (body : List Byte) (v : Nat) :
    readRegister p body = some v ↔
      v = numberAt body p.registerOffset (registerWidth p) ∧ v < 10 ^ p.digits := by
  rw [readRegister_of_binary h, Option.ite_none_right_eq_some, Option.some_inj]
  constructor
  · rintro ⟨hlt, rfl⟩
    exact ⟨rfl, hlt⟩
  · rintro ⟨rfl, hlt⟩
    exact ⟨hlt, rfl⟩

/-- A BCD register is the number of its digits, if each is a decimal digit and the number is below M. -/
theorem readRegister_eq_some_of_bcd {p : Profile} (h : p.encoding = .bcd) (body : List Byte) (v : Nat) :
    readRegister p body = some v ↔
      (bcdDigits (bytesAt body p.registerOffset ((p.digits + 1) / 2))).all (fun d => decide (d ≤ 9)) = true
        ∧ v = digitsValue (bcdDigits (bytesAt body p.registerOffset ((p.digits + 1) / 2)))
        ∧ v < 10 ^ p.digits := by
  simp only [readRegister, registerWidth, registerModulus, h, Option.ite_none_right_eq_some, Option.some_inj,
    Bool.and_eq_true, decide_eq_true_eq]
  constructor
  · rintro ⟨⟨hdigits, hlt⟩, rfl⟩
    exact ⟨hdigits, rfl, hlt⟩
  · rintro ⟨hdigits, rfl, hlt⟩
    exact ⟨⟨hdigits, hlt⟩, rfl⟩

/-- Settles O10: the number of three or four bytes, and the BCD digits as places of base 100. -/
theorem registerIsReadHighByteFirstBelowM : Obligations.RegisterIsReadHighByteFirstBelowM := by
  intro p body v
  refine ⟨fun h => ?binary3, fun h => ?binary4, fun h => ?bcd⟩
  case binary3 =>
    have width : registerWidth p = 3 := by simp [registerWidth, h]
    rw [readRegister_eq_some_of_binary (by simp [h]), width]
    simp only [numberAt_succ, numberAt_zero]
    omega
  case binary4 =>
    have width : registerWidth p = 4 := by simp [registerWidth, h]
    rw [readRegister_eq_some_of_binary (by simp [h]), width]
    simp only [numberAt_succ, numberAt_zero]
    omega
  case bcd =>
    rw [readRegister_eq_some_of_bcd h, bcdDigits_bytesAt_all_le_nine, digitsValue_bcdDigits_bytesAt]
    rfl

end Sys2Proof.Machine
end

