-- ==== Sys2Proof/Proofs/PairingPassThrough.lean ====
section
/-! SUPPORT. Frames of a NONE family in the pairing unit (R43): what taking one does. -/

namespace Sys2Proof.Machine

/-! ## Frames of a NONE family -/

theorem takePlain_reading {f : DecodedFrame} {r : ReadingFields} (hbody : f.body = .reading r) (u : PairingUnit) :
    takePlain u f =
      { table := u.table
        hearings := u.hearings ++ [hearingOf f.head r none none]
        counters := { u.counters with passedThrough := bump u.counters.passedThrough } } := by
  rw [takePlain, hbody]
  rfl

theorem takePlain_extension {f : DecodedFrame} {x : Option ExtFields} (hbody : f.body = .extension x)
    (u : PairingUnit) :
    takePlain u f = { u with counters := { u.counters with unexpected := bump u.counters.unexpected } } := by
  rw [takePlain, hbody]

/-- Neither the clock nor the timebase matters to a frame of a NONE family. -/
theorem takeFrame_of_none {f : DecodedFrame} (hmode : f.head.mode = .none) (u : PairingUnit) (clock : Clock)
    (now : Nat) : takeFrame u f clock now = takePlain u f := by
  rw [takeFrame, hmode]

/-! ## PAIRING_TAKE_FRAME -/

/-- With no hearing waiting, the unit takes the offered frame and the decoder frees its descriptor (R24, R41). -/
theorem exec_pairingTakeFrame {s : State} {o : Offer} (hrun : Running s) (hoffer : s.decoder.offer = some o)
    (hempty : s.pairing.hearings = []) :
    exec .pairingTakeFrame s =
      .next ((handOffer s o).setPairing (takeFrame s.pairing o.frame s.clock s.timebase)) := by
  have htake : pairingTake s = (handOffer s o).setPairing (takeFrame s.pairing o.frame s.clock s.timebase) := by
    rw [pairingTake, hoffer, hempty]
  calc exec .pairingTakeFrame s = whenRunning s pairingTake := rfl
    _ = .next (pairingTake s) := whenRunning_of_running hrun pairingTake
    _ = _ := by rw [htake]

/-- Settles O11: a frame of a NONE family goes to `takePlain`, whose READING is the only hearing of the queue. -/
theorem plainFamilyFramesPassThrough : Obligations.PlainFamilyFramesPassThrough := by
  intro s o hrun hoffer hempty hmode
  have htaken : exec .pairingTakeFrame s = .next ((handOffer s o).setPairing (takePlain s.pairing o.frame)) := by
    rw [exec_pairingTakeFrame hrun hoffer hempty, takeFrame_of_none hmode]
  refine ⟨fun r hbody => ?reading, fun x hbody => ?extension⟩
  case reading =>
    rw [htaken, takePlain_reading hbody, hempty]
    rfl
  case extension =>
    rw [htaken, takePlain_extension hbody]
    rfl

end Sys2Proof.Machine
end

