-- ==== Sys2Proof/Proofs/BookLoad.lean ====
section
/-! SUPPORT. Loading the route book (R63 to R65): the checks of one entry, what taking it writes, and the answers of
BOOK_ENTRIES, BOOK_CLOSE and BOOK_ABORT. -/

namespace Sys2Proof.Machine

/-! ## What the checks of an entry look up (R64) -/

theorem familyOf_eq_none_iff (t : Vector (Option Profile) 16) (code : Nat) :
    familyOf t code = none ↔ ∀ i : Fin 16, t[i].map (·.familyCode) ≠ some code := by
  simp only [familyOf, List.find?_eq_none, List.mem_finRange, decide_eq_true_eq, forall_const, ne_eq]

/-- The search goes up the places, so it stops at the first that holds the code. -/
theorem familyOf_eq_some_of_first {t : Vector (Option Profile) 16} {code : Nat} {i : Fin 16}
    (hat : t[i].map (·.familyCode) = some code) (hfirst : ∀ j < i, t[j].map (·.familyCode) ≠ some code) :
    familyOf t code = some i := by
  refine List.find?_eq_some_iff_getElem.2 ⟨by simpa using hat, i.val, by simp, by simp, fun j hj => ?_⟩
  simpa using hfirst ⟨j, hj.trans i.isLt⟩ hj

theorem profileOf_of_place {s : State} {i : Fin 16} {p : Profile} (h : s.families[i] = some p) : profileOf s i = p := by
  rw [profileOf, h, Option.getD_some]

theorem entryOf_isSome_iff (s : State) (meter : Nat) :
    (entryOf s meter).isSome = true ↔ ∃ x ∈ s.book, x.meterId = meter := by
  simp [entryOf, List.find?_isSome]

theorem referencePaired_eq_false_iff (e : RawEntry) :
    referencePaired e = false ↔ e.referenceReading.isSome ≠ e.referenceHour.isSome := by
  rw [referencePaired, beq_eq_false_iff_ne]

theorem referenceInRange_iff (p : Profile) (e : RawEntry) :
    referenceInRange p e = true ↔
      (∀ r, e.referenceReading = some r → r < 10 ^ p.digits) ∧ ∀ h, e.referenceHour = some h → h ≤ 16777215 := by
  simp only [referenceInRange, Bool.and_eq_true, Option.all_eq_true, decide_eq_true_eq]
  rfl

theorem referenceInRange_eq_false_iff (p : Profile) (e : RawEntry) :
    referenceInRange p e = false ↔
      (∃ r, e.referenceReading = some r ∧ 10 ^ p.digits ≤ r) ∨ ∃ h, e.referenceHour = some h ∧ 16777215 < h := by
  rw [← Bool.not_eq_true, referenceInRange_iff, not_and_or]
  simp only [not_forall, not_lt, not_le, exists_prop]

/-! ## Judging one entry (R64) -/

/-- An entry's segment, options or reference breaks its check for the family `p` (R64, checks 3 to 6). -/
def FieldsWrong (s : State) (p : Profile) (e : RawEntry) : Prop :=
  s.route.declaredSegments ≤ e.segment ∨ 8 ≤ e.options ∨ e.referenceReading.isSome ≠ e.referenceHour.isSome
    ∨ (∃ r, e.referenceReading = some r ∧ 10 ^ p.digits ≤ r) ∨ ∃ h, e.referenceHour = some h ∧ 16777215 < h

theorem fieldsWrong_iff {s : State} {p : Profile} {i : Fin 16} (hplace : s.families[i] = some p) (e : RawEntry) :
    FieldsWrong s p e ↔ s.route.declaredSegments ≤ e.segment ∨ 8 ≤ e.options ∨ referencePaired e = false
      ∨ referenceInRange (profileOf s i) e = false := by
  rw [FieldsWrong, profileOf_of_place hplace, referencePaired_eq_false_iff, referenceInRange_eq_false_iff]

theorem judgeEntry_of_meterId_wrong {s : State} {e : RawEntry} (h : e.meterId = 0 ∨ 0xFFFFFFFF ≤ e.meterId) :
    judgeEntry s e = .error .badArgument := if_pos h

theorem judgeEntry_of_family_unknown {s : State} {e : RawEntry} (h : familyOf s.families e.familyCode = none) :
    judgeEntry s e = .error .badArgument := by
  rw [judgeEntry, h, ite_self]

section
variable {s : State} {e : RawEntry} {i : Fin 16} {p : Profile} (hpos : e.meterId ≠ 0) (hlt : e.meterId < 0xFFFFFFFF)
  (hfamily : familyOf s.families e.familyCode = some i) (hplace : s.families[i] = some p)
include hpos hlt hfamily hplace

theorem judgeEntry_of_fields_wrong (hwrong : FieldsWrong s p e) : judgeEntry s e = .error .badArgument := by
  have hid : ¬ (e.meterId = 0 ∨ 0xFFFFFFFF ≤ e.meterId) := by omega
  rw [judgeEntry, if_neg hid, hfamily]
  exact if_pos ((fieldsWrong_iff hplace e).1 hwrong)

/-- Only past every other check is the book searched for the meter id. -/
theorem judgeEntry_of_fields_right (hright : ¬ FieldsWrong s p e) : judgeEntry s e =
    if (entryOf s e.meterId).isSome then .error .duplicateId else .ok (entryFromRaw e i) := by
  have hid : ¬ (e.meterId = 0 ∨ 0xFFFFFFFF ≤ e.meterId) := by omega
  rw [judgeEntry, if_neg hid, hfamily]
  exact if_neg (mt (fieldsWrong_iff hplace e).2 hright)

theorem judgeEntry_of_known_meter (hright : ¬ FieldsWrong s p e) (hknown : ∃ x ∈ s.book, x.meterId = e.meterId) :
    judgeEntry s e = .error .duplicateId := by
  rw [judgeEntry_of_fields_right hpos hlt hfamily hplace hright, if_pos ((entryOf_isSome_iff _ _).2 hknown)]

theorem judgeEntry_of_new_meter (hright : ¬ FieldsWrong s p e) (hnew : ∀ x ∈ s.book, x.meterId ≠ e.meterId) :
    judgeEntry s e = .ok (entryFromRaw e i) := by
  have hunknown : ¬ ∃ x ∈ s.book, x.meterId = e.meterId := fun ⟨x, hx, hmeter⟩ => hnew x hx hmeter
  rw [judgeEntry_of_fields_right hpos hlt hfamily hplace hright, if_neg (mt (entryOf_isSome_iff _ _).1 hunknown)]

end

/-! ## Taking entries (R64, R120) -/

/-- The segment table once an entry is taken: its segment gains an UNHEARD member, unless the entry is HOLD. -/
def segmentsWithEntry (segments : List Segment) (e : Entry) : List Segment :=
  match hasHold e.options, segments[e.segment]? with
  | false, some g => segments.set e.segment (noteJoin g .unheard)
  | _, _ => segments

theorem takeEntryIntoBook_eq (s : State) (e : Entry) : takeEntryIntoBook s e =
    { s with
      book := s.book ++ [e]
      route := { s.route with loaded := s.route.loaded + 1 }
      segments := segmentsWithEntry s.segments e } := by
  cases hhold : hasHold e.options with
  | true => simp [takeEntryIntoBook, isMember, segmentsWithEntry, hhold, State.setBook, State.setRoute]
  | false =>
    cases hseg : s.segments[e.segment]? with
    | none =>
      simp [takeEntryIntoBook, isMember, segmentsWithEntry, notifySegment, hhold, hseg, State.setBook, State.setRoute]
    | some g =>
      simp [takeEntryIntoBook, isMember, segmentsWithEntry, notifySegment, hhold, hseg, State.setBook, State.setRoute,
        State.setSegment, State.setSegments]

theorem takeRawEntries_of_error {s : State} {e : RawEntry} {x : Status} (h : judgeEntry s e = .error x)
    (rest : List RawEntry) (n : Nat) : takeRawEntries (e :: rest) s n = (s, x, n) := by
  rw [takeRawEntries, h]

theorem takeRawEntries_of_ok {s : State} {e : RawEntry} {x : Entry} (h : judgeEntry s e = .ok x)
    (rest : List RawEntry) (n : Nat) :
    takeRawEntries (e :: rest) s n = takeRawEntries rest (takeEntryIntoBook s x) (n + 1) := by
  rw [takeRawEntries, h]

/-! ## BOOK_ENTRIES as a whole (R63) -/

theorem judgeBookEntries_of_not_loading {s : State} (h : s.route.state ≠ .loading) (k : Link) (first : Nat)
    (entries : List RawEntry) : judgeBookEntries s k first entries = refuseEntries s .wrongState := if_pos h

theorem judgeBookEntries_of_other_link {s : State} {k : Link} (hstate : s.route.state = .loading)
    (howner : s.route.owner ≠ some k) (first : Nat) (entries : List RawEntry) :
    judgeBookEntries s k first entries = refuseEntries s .busy := by
  simp [judgeBookEntries, ownsLoad, hstate, howner]

/-- The owner of the load meets the number of entries, the first index and the declared count, in this order (R63). -/
theorem judgeBookEntries_of_owner {s : State} {k : Link} {first : Nat} {entries : List RawEntry}
    (mine : s.route.state = .loading ∧ s.route.owner = some k) : judgeBookEntries s k first entries =
      if entries.length < 1 ∨ 32 < entries.length then refuseEntries s .badArgument
      else if first ≠ s.route.loaded then refuseEntries s .sequence
      else if s.route.declaredEntries < first + entries.length then refuseEntries s .badArgument
      else
        { state := (takeRawEntries entries s 0).1
          status := (takeRawEntries entries s 0).2.1
          results := entriesResults (takeRawEntries entries s 0).1 (takeRawEntries entries s 0).2.2 } := by
  obtain ⟨hstate, howner⟩ := mine
  rw [judgeBookEntries, if_neg (not_not.2 hstate), if_neg (by simp [ownsLoad, howner])]

section
variable {s : State} {k : Link} {f : RequestFrame} {rest : List RequestFrame} {first : Nat} {entries : List RawEntry}
  (htakes : Takes s k f rest (.bookEntries first entries))
include htakes

theorem exec_bookEntries {a : Answer} (ha : judgeBookEntries (withRequests s k rest) k first entries = a) :
    exec (.bookEntries k) s = .next (replied k f a.status a.results a.state) :=
  htakes.serve (owner := ownBookEntries k) (congrArg some ha)

/-- Refused as a whole, no entry is taken, and the reply says so (R63). -/
theorem exec_bookEntries_of_refused {x : Status}
    (hrefused : judgeBookEntries (withRequests s k rest) k first entries = refuseEntries (withRequests s k rest) x) :
    exec (.bookEntries k) s =
      .next (replied k f x (bigEndian 1 0 ++ bigEndian 2 s.route.loaded) (withRequests s k rest)) := by
  rw [exec_bookEntries htakes hrefused, refuseEntries, entriesResults, withRequests_route]

end

/-- Settles O55: each check of the whole in its order, then `judgeEntry` for every entry. -/
theorem bookEntriesTakesEntriesInOrder : Obligations.BookEntriesTakesEntriesInOrder := by
  refine ⟨fun s k f rest first entries htakes => ?whole, fun _ _ => rfl,
    fun s e rest n => ⟨fun hbad => ?unknown, fun i p hpos hlt hplace hcode hfirst => ?entry⟩⟩
  case whole =>
    have refused {x : Status} := exec_bookEntries_of_refused htakes (x := x)
    rw [← withRequests_route s k rest] at refused ⊢
    refine ⟨fun hstate => refused ?_, fun hstate howner => refused ?_, fun mine hcount => refused ?_,
      fun mine hmin hmax hfirst => refused ?_, fun mine hmin hmax hfirst hover => refused ?_,
      fun mine hmin hmax hfirst hfits => ?_⟩
    · exact judgeBookEntries_of_not_loading hstate k first entries
    · exact judgeBookEntries_of_other_link hstate howner first entries
    · rw [judgeBookEntries_of_owner mine, if_pos hcount]
    · rw [judgeBookEntries_of_owner mine, if_neg (by omega), if_pos hfirst]
    · rw [judgeBookEntries_of_owner mine, if_neg (by omega), if_neg (not_not.2 hfirst), if_pos hover]
    · have htaken := judgeBookEntries_of_owner (first := first) (entries := entries) mine
      rw [if_neg (by omega), if_neg (not_not.2 hfirst), if_neg (not_lt.2 hfits)] at htaken
      exact exec_bookEntries htakes htaken
  case unknown =>
    refine takeRawEntries_of_error ?_ rest n
    obtain hzero | hmax | hfamily := hbad
    · exact judgeEntry_of_meterId_wrong (.inl hzero)
    · exact judgeEntry_of_meterId_wrong (.inr hmax)
    · exact judgeEntry_of_family_unknown ((familyOf_eq_none_iff _ _).2 hfamily)
  case entry =>
    have hfamily : familyOf s.families e.familyCode = some i :=
      familyOf_eq_some_of_first (by rw [hplace, Option.map_some, hcode]) hfirst
    refine ⟨fun hwrong => ?_, fun hright hknown => ?_, fun hright hnew => ?_⟩
    · exact takeRawEntries_of_error (judgeEntry_of_fields_wrong hpos hlt hfamily hplace hwrong) rest n
    · exact takeRawEntries_of_error (judgeEntry_of_known_meter hpos hlt hfamily hplace hright hknown) rest n
    · rw [takeRawEntries_of_ok (judgeEntry_of_new_meter hpos hlt hfamily hplace hright hnew), takeEntryIntoBook_eq]
      rfl

/-! ## BOOK_CLOSE and BOOK_ABORT (R65) -/

theorem asOwner_of_not_loading {s : State} (h : s.route.state ≠ .loading) (k : Link) (f : State → Answer) :
    asOwner s k f = refuse s .wrongState := if_pos h

theorem asOwner_of_other_link {s : State} {k : Link} (hstate : s.route.state = .loading)
    (howner : s.route.owner ≠ some k) (f : State → Answer) : asOwner s k f = refuse s .busy := by
  simp [asOwner, ownsLoad, hstate, howner]

theorem asOwner_of_owner {s : State} {k : Link} (mine : s.route.state = .loading ∧ s.route.owner = some k)
    (f : State → Answer) : asOwner s k f = f s := by
  simp [asOwner, ownsLoad, mine]

theorem closeBook_of_incomplete {s : State} (h : s.route.loaded < s.route.declaredEntries) :
    closeBook s = { state := s, status := .incomplete, results := bigEndian 2 s.route.loaded } := if_pos h

theorem closeBook_of_complete {s : State} (h : s.route.declaredEntries ≤ s.route.loaded) :
    closeBook s =
      accept (raiseEvent (s.setRoute { s.route with state := .ready, owner := none }) .routeState s.route.id 2) :=
  if_neg (not_lt.2 h)

section
variable {s : State} {k : Link} {f : RequestFrame} {rest : List RequestFrame} {r : Request}
  {owner : State → Request → Option Answer} {g : State → Answer} (htakes : Takes s k f rest r)
  (hasks : owner (withRequests s k rest) r = some (asOwner (withRequests s k rest) k g))
include htakes hasks

/-- Outside LOADING and from the other link the request is refused, whatever it does for the owner. -/
theorem serve_asOwner_refused :
    (s.route.state ≠ .loading →
      whenRunning s (serve k owner) = .next (replied k f .wrongState [] (withRequests s k rest)))
    ∧ (s.route.state = .loading → s.route.owner ≠ some k →
      whenRunning s (serve k owner) = .next (replied k f .busy [] (withRequests s k rest))) := by
  rw [← withRequests_route s k rest]
  refine ⟨fun hstate => ?_, fun hstate howner => ?_⟩
  · rw [asOwner_of_not_loading hstate] at hasks
    exact htakes.serve hasks
  · rw [asOwner_of_other_link hstate howner] at hasks
    exact htakes.serve hasks

theorem serve_asOwner_of_owner (mine : s.route.state = .loading ∧ s.route.owner = some k) :
    whenRunning s (serve k owner) = .next (replied k f (g (withRequests s k rest)).status
      (g (withRequests s k rest)).results (g (withRequests s k rest)).state) := by
  rw [← withRequests_route s k rest] at mine
  rw [asOwner_of_owner mine] at hasks
  exact htakes.serve hasks

end

/-- Settles O56: the refusals common to both requests, then `closeBook` and `abandonLoad` for the owner. -/
theorem bookCloseAndAbortEndTheLoad : Obligations.BookCloseAndAbortEndTheLoad := by
  refine fun s k f rest => ⟨fun htakes => ?close, fun htakes => ?abort⟩
  case close =>
    have hasks : ownBookClose k (withRequests s k rest) .bookClose =
      some (asOwner (withRequests s k rest) k closeBook) := rfl
    obtain ⟨hwrongState, hbusy⟩ := serve_asOwner_refused htakes hasks
    refine ⟨hwrongState, hbusy, fun mine hloaded => ?_, fun mine hloaded => ?_⟩ <;>
      rw [← withRequests_route s k rest] at hloaded ⊢
    · refine (serve_asOwner_of_owner htakes hasks mine).trans ?_
      rw [closeBook_of_incomplete hloaded]
    · refine (serve_asOwner_of_owner htakes hasks mine).trans ?_
      rw [closeBook_of_complete hloaded]
      rfl
  case abort =>
    have hasks : ownBookAbort k (withRequests s k rest) .bookAbort =
      some (asOwner (withRequests s k rest) k (fun s => accept (abandonLoad s))) := rfl
    obtain ⟨hwrongState, hbusy⟩ := serve_asOwner_refused htakes hasks
    exact ⟨hwrongState, hbusy, serve_asOwner_of_owner htakes hasks⟩

end Sys2Proof.Machine
end

