-- ==== Sys2Proof/Proofs/RevisionTriggers.lean ====
section
/-! SUPPORT. The revision triggers of a later hearing (R94): the forward advance and the tests on condition sets. -/

namespace Sys2Proof.Machine

/-! ## The forward advance from the reported register (R94) -/

theorem forwardAdvance_of_le (p : Profile) {new rep : Nat} (h : rep ≤ new) : forwardAdvance p new rep = new - rep :=
  if_pos h

theorem forwardAdvance_of_drop_within {p : Profile} {new rep : Nat} (hdrop : new < rep)
    (hwithin : rep - new ≤ p.reverseTolerance) : forwardAdvance p new rep = 0 := by
  rw [forwardAdvance, if_neg hdrop.not_ge, if_pos hwithin]

theorem forwardAdvance_of_drop_beyond {p : Profile} {new rep : Nat} (hdrop : new < rep)
    (hbeyond : p.reverseTolerance < rep - new) : forwardAdvance p new rep = new + 10 ^ p.digits - rep := by
  rw [forwardAdvance, if_neg hdrop.not_ge, if_neg hbeyond.not_ge, registerModulus]

/-- A reported register below M keeps the wrapped advance from being cut off at 0. -/
theorem le_forwardAdvance_iff {p : Profile} {rep : Nat} (hrep : rep < 10 ^ p.digits) (step new : Nat) :
    step ≤ forwardAdvance p new rep ↔
      (rep ≤ new ∧ step ≤ new - rep)
      ∨ (new < rep ∧ rep - new ≤ p.reverseTolerance ∧ step = 0)
      ∨ (new < rep ∧ p.reverseTolerance < rep - new ∧ (step : Int) ≤ (new : Int) + 10 ^ p.digits - rep) := by
  rcases le_or_gt rep new with hup | hdrop
  · simp [forwardAdvance_of_le p hup, hup, hup.not_gt]
  rcases le_or_gt (rep - new) p.reverseTolerance with hwithin | hbeyond
  · simp [forwardAdvance_of_drop_within hdrop hwithin, hdrop, hdrop.not_ge, hwithin, hwithin.not_gt]
  · have wraps : step ≤ new + 10 ^ p.digits - rep ↔ (step : Int) ≤ (new : Int) + 10 ^ p.digits - rep := by
      have hcast : ((10 ^ p.digits : Nat) : Int) = 10 ^ p.digits := Nat.cast_pow 10 p.digits
      omega
    simp [forwardAdvance_of_drop_beyond hdrop hbeyond, hdrop, hdrop.not_ge, hbeyond, hbeyond.not_ge, wraps]

/-! ## Sets of conditions -/

theorem conditions_ne_zero_iff (c : Conditions) : c ≠ 0 ↔ ∃ k, k < 14 ∧ c.getLsbD k = true := by
  simp [BitVec.eq_of_getLsbD_eq_iff]

theorem holdsNew_eq_true_iff (c old : Conditions) :
    holdsNew c old = true ↔ ∃ k, k < 14 ∧ c.getLsbD k = true ∧ old.getLsbD k = false := by
  rw [holdsNew, decide_eq_true_iff, conditions_ne_zero_iff]
  refine exists_congr fun k => and_congr_right fun hk => ?_
  simp [hk]

theorem and_condDisagree_ne_zero_iff (c : Conditions) : c &&& condDisagree ≠ 0 ↔ c.getLsbD 4 = true := by
  have mask_ne_zero : BitVec.twoPow 14 4 ≠ 0#14 := by decide
  simp [condDisagree, BitVec.and_twoPow, mask_ne_zero]

/-! ## The revision triggers (R94) -/

/-- Settles O17: `revisionTrigger` tests the four in R94's order, and each test is its clause of the statement. -/
theorem revisionTriggers : Obligations.RevisionTriggers := by
  intro p h r rep _ hrep
  rw [revisionTrigger, Bool.or_eq_true, Bool.or_eq_true, Bool.or_eq_true, decide_eq_true_iff, decide_eq_true_iff,
    decide_eq_true_iff, le_forwardAdvance_iff hrep, holdsNew_eq_true_iff, and_condDisagree_ne_zero_iff,
    or_assoc, or_assoc]

end Sys2Proof.Machine
end

