-- ==== Sys2Proof/Proofs/UploadSettings.lean ====
section
/-! SUPPORT. UPLOAD_OPEN and UPLOAD_PACE (R155, R165): the refusals in their order, and what an accepted request writes. -/

namespace Sys2Proof.Machine

/-! ## Requests that only the depot link may make (R154) -/

section
variable {s : State} {k : Link} {f : RequestFrame} {rest : List RequestFrame} {r : Request}
  {owner : State → Request → Option Answer} {g : State → Answer} (htakes : Takes s k f rest r)
  (hasks : owner (withRequests s k rest) r = some (onDepot (withRequests s k rest) k g))
include htakes hasks

theorem serve_onDepot_of_trunk (hlink : k = .trunk) :
    whenRunning s (serve k owner) = .next (replied k f .wrongLink [] (withRequests s k rest)) := by
  subst hlink
  exact htakes.serve hasks

theorem serve_onDepot_of_depot (hlink : k = .depot) {a : Answer} (ha : g (withRequests s k rest) = a) :
    whenRunning s (serve k owner) = .next (replied k f a.status a.results a.state) := by
  subst hlink ha
  exact htakes.serve hasks

end

/-! ## Eligible records (R169) -/

/-- Counting the records of some classes class by class counts each record once, under its own class. -/
theorem sum_countP_of_classes (chosen : Fin 4 → Bool) (x : StoredState) (index : List StoreRecord) :
    (∑ c, if chosen c then index.countP (fun r => decide (r.head.cls = c) && decide (r.state = x)) else 0) =
      index.countP (fun r => chosen r.head.cls && decide (r.state = x)) := by
  induction index with
  | nil => simp
  | cons r rest ih =>
    have own_class (c : Fin 4) :
        (if chosen c then (r :: rest).countP (fun r => decide (r.head.cls = c) && decide (r.state = x)) else 0) =
          (if chosen c then rest.countP (fun r => decide (r.head.cls = c) && decide (r.state = x)) else 0)
            + if r.head.cls = c then (if chosen r.head.cls && decide (r.state = x) then 1 else 0) else 0 := by
      rcases eq_or_ne r.head.cls c with rfl | hother
      · cases chosen r.head.cls <;> simp [List.countP_cons]
      · simp [hother]
    rw [Finset.sum_congr rfl fun c _ => own_class c, Finset.sum_add_distrib, ih, Finset.sum_ite_eq, List.countP_cons,
      if_pos (Finset.mem_univ _)]

theorem eligible_eq_countP (s : State) : eligible s =
    s.store.index.countP (fun r => s.uploader.classMask.getLsbD r.head.cls.val && decide (r.state = .stored)) := by
  rw [← sum_countP_of_classes (fun c => s.uploader.classMask.getLsbD c.val), Fin.sum_univ_def]
  rfl

theorem eligible_of_mask {s : State} {mask : Nat} (h : s.uploader.classMask = BitVec.ofNat 4 mask) : eligible s =
    s.store.index.countP (fun r => mask.testBit r.head.cls.val && decide (r.state = .stored)) := by
  simp only [eligible_eq_countP, h, BitVec.getLsbD_ofNat, Fin.is_lt, decide_true, Bool.true_and]

/-! ## A change of uploader state (R169) -/

theorem changeUpload_of_not_idle (s : State) {u : Uploader} (h : u.state ≠ .idle) : changeUpload s u =
    raiseEvent (s.setUploader u) .uploadState u.released (uploadStateCode u.state * 16 + 15) := by
  have no_end_reason : uploadDetail u = uploadStateCode u.state * 16 + 15 := by
    cases hstate : u.state <;> simp_all [uploadDetail]
  rw [changeUpload, no_end_reason]

theorem changeUpload_store (s : State) (u : Uploader) : (changeUpload s u).store = s.store := rfl

/-! ## The arguments of UPLOAD_OPEN (R153, R155) -/

theorem settingInRange_eq_false_iff (low high : Nat) (x : Option Nat) :
    settingInRange low high x = false ↔ ∃ v, x = some v ∧ (v < low ∨ high < v) := by
  cases x with
  | none => simp [settingInRange]
  | some v => simp [settingInRange, imp_iff_not_or]

theorem uploadArgumentsGood_eq_false_iff (mask : Nat) (size window timeout pacing : Option Nat) :
    uploadArgumentsGood mask size window timeout pacing = false ↔
      mask = 0 ∨ 15 < mask ∨ (∃ v, size = some v ∧ (v < 1 ∨ 32 < v)) ∨ (∃ v, window = some v ∧ (v < 1 ∨ 8 < v))
        ∨ (∃ v, timeout = some v ∧ (v < 100 ∨ 10000 < v)) ∨ ∃ v, pacing = some v ∧ (v < 0 ∨ 50 < v) := by
  have mask_zero : decide (0 < mask) = false ↔ mask = 0 := by simp
  have mask_wide : decide (mask < 16) = false ↔ 15 < mask := by rw [decide_eq_false_iff_not]; omega
  simp only [uploadArgumentsGood, Bool.and_eq_false_iff, mask_zero, mask_wide, settingInRange_eq_false_iff, or_assoc]

/-! ## Judging UPLOAD_OPEN (R155) -/

section
variable {s : State} {mask : Nat} {size window timeout pacing : Option Nat}

theorem judgeUploadOpen_of_bad (hbad : uploadArgumentsGood mask size window timeout pacing = false) :
    judgeUploadOpen mask size window timeout pacing s = refuse s .badArgument := if_pos hbad

theorem judgeUploadOpen_of_wrong_state (hgood : ¬ uploadArgumentsGood mask size window timeout pacing = false)
    (hnot : s.uploader.state ≠ .idle ∨ s.depotUp = false) :
    judgeUploadOpen mask size window timeout pacing s = refuse s .wrongState := by
  rw [judgeUploadOpen, if_neg hgood]
  rcases hnot with hstate | hdown
  · rw [if_pos hstate]
  · rw [if_pos hdown, ite_self]

theorem judgeUploadOpen_of_accepted (hgood : ¬ uploadArgumentsGood mask size window timeout pacing = false)
    (hidle : s.uploader.state = .idle) (hup : s.depotUp = true) :
    judgeUploadOpen mask size window timeout pacing s =
      openUpload s (openedUploader s.uploader mask size window timeout pacing) := by
  rw [judgeUploadOpen, if_neg hgood, if_neg (not_not.2 hidle), if_neg (by simp [hup])]

end

/-- An absent pacing takes its default, 20, which is not 0 (R153). -/
theorem openedUploader_state (u : Uploader) (mask : Nat) (size window timeout pacing : Option Nat) :
    (openedUploader u mask size window timeout pacing).state = if pacing = some 0 then .paused else .running := by
  cases pacing <;> simp [openedUploader]

theorem openUpload_openedUploader (s : State) (mask : Nat) (size window timeout pacing : Option Nat) {x : UploadState}
    (hx : x = if pacing = some 0 then .paused else .running) :
    openUpload s (openedUploader s.uploader mask size window timeout pacing) =
      acceptWith
        (settleStore (raiseEvent
          (s.setUploader { openedUploader s.uploader mask size window timeout pacing with state := x })
          .uploadState 0 (uploadStateCode x * 16 + 15)))
        (bigEndian 3 (s.store.index.countP (fun r => mask.testBit r.head.cls.val && decide (r.state = .stored)))) := by
  have starts_in : (openedUploader s.uploader mask size window timeout pacing).state = x := by
    rw [openedUploader_state, hx]
  have starts_open : (openedUploader s.uploader mask size window timeout pacing).state ≠ .idle := by
    rw [openedUploader_state]
    split <;> simp
  rw [openUpload, eligible_of_mask (mask := mask) rfl, changeUpload_store, changeUpload_of_not_idle s starts_open,
    ← starts_in]
  rfl

/-! ## Judging UPLOAD_PACE (R165) -/

theorem bigEndian_one (n : Nat) : bigEndian 1 n = [BitVec.ofNat 8 n] := by simp [bigEndian]

theorem uploadClosed_iff (s : State) : uploadClosed s = true ↔
    s.uploader.state = .idle ∨ s.uploader.state = .draining ∨ s.depotUp = false := by
  simp [uploadClosed, or_assoc]

theorem judgeUploadPace_of_bad {pacing : Nat} (h : 50 < pacing) (s : State) :
    judgeUploadPace pacing s = refuse s .badArgument := if_pos h

theorem judgeUploadPace_of_closed {pacing : Nat} {s : State} (hpacing : pacing ≤ 50) (hclosed : uploadClosed s = true) :
    judgeUploadPace pacing s = refuse s .wrongState := by
  rw [judgeUploadPace, if_neg hpacing.not_gt, if_pos hclosed]

theorem judgeUploadPace_of_open {pacing : Nat} {s t : State} (hpacing : pacing ≤ 50)
    (hstate : s.uploader.state = .running ∨ s.uploader.state = .paused) (hup : s.depotUp = true)
    (hrepace : repace s pacing = t) :
    judgeUploadPace pacing s =
      acceptWith (settleStore t) [BitVec.ofNat 8 (uploadStateCode t.uploader.state)] := by
  have not_closed : ¬ uploadClosed s = true := by
    rcases hstate with h | h <;> simp [uploadClosed, h, hup]
  rw [judgeUploadPace, if_neg hpacing.not_gt, if_neg not_closed, hrepace, ← bigEndian_one]

section
variable {s : State} {pacing : Nat}

theorem repace_of_running_positive (hstate : s.uploader.state = .running) (hpos : 0 < pacing) :
    repace s pacing = s.setUploader { s.uploader with pacing := pacing, state := .running } := by
  rw [repace, if_neg (by omega), if_neg (by simp [hstate]), ← hstate]

theorem repace_of_running_zero (hstate : s.uploader.state = .running) (hzero : pacing = 0) :
    repace s pacing = raiseEvent (s.setUploader { s.uploader with pacing := pacing, state := .paused })
      .uploadState s.uploader.released 47 := by
  rw [repace, if_pos ⟨hstate, hzero⟩, changeUpload_of_not_idle s (by simp)]
  rfl

theorem repace_of_paused_positive (hstate : s.uploader.state = .paused) (hpos : 0 < pacing) :
    repace s pacing = raiseEvent (s.setUploader { s.uploader with pacing := pacing, state := .running })
      .uploadState s.uploader.released 31 := by
  rw [repace, if_neg (by omega), if_pos ⟨hstate, hpos⟩, changeUpload_of_not_idle s (by simp)]
  rfl

theorem repace_of_paused_zero (hstate : s.uploader.state = .paused) (hzero : pacing = 0) :
    repace s pacing = s.setUploader { s.uploader with pacing := pacing, state := .paused } := by
  rw [repace, if_neg (by simp [hstate]), if_neg (by omega), ← hstate]

end

/-! ## The two commands -/

/-- Settles O41: the link, the arguments and the state are judged in the order of R155 and R165; `openUpload` and the four
rows of `repace` give what an accepted request leaves. -/
theorem uploadOpenAndPace : Obligations.UploadOpenAndPace := by
  refine ⟨fun s k f rest mask size window timeout pacing htakes => ?opens, fun s k f rest pacing htakes => ?paces⟩
  case opens =>
    intro u bad wrong starts
    have hasks : ownUploadOpen k u (.uploadOpen mask size window timeout pacing) =
      some (onDepot u k (judgeUploadOpen mask size window timeout pacing)) := rfl
    have hwrong : uploadArgumentsGood mask size window timeout pacing = false ↔ wrong :=
      uploadArgumentsGood_eq_false_iff mask size window timeout pacing
    rw [← hwrong]
    have same_uploader : u.uploader = s.uploader := withRequests_uploader s k rest
    have same_link : u.depotUp = s.depotUp := withRequests_depotUp s k rest
    have same_store : u.store = s.store := withRequests_store s k rest
    rw [← same_uploader, ← same_link, ← same_store]
    refine ⟨serve_onDepot_of_trunk htakes hasks, fun hlink hbad => ?_, fun hlink hgood hnot => ?_,
      fun hlink hgood hidle hup => ?_⟩
    · exact serve_onDepot_of_depot htakes hasks hlink (judgeUploadOpen_of_bad hbad)
    · exact serve_onDepot_of_depot htakes hasks hlink (judgeUploadOpen_of_wrong_state hgood hnot)
    · have accepted := (judgeUploadOpen_of_accepted hgood hidle hup).trans
        (openUpload_openedUploader u mask size window timeout pacing rfl)
      exact serve_onDepot_of_depot htakes hasks hlink accepted
  case paces =>
    intro u paced changed
    have hasks : ownUploadPace k u (.uploadPace pacing) = some (onDepot u k (judgeUploadPace pacing)) := rfl
    have same_uploader : u.uploader = s.uploader := withRequests_uploader s k rest
    have same_link : u.depotUp = s.depotUp := withRequests_depotUp s k rest
    simp only [changed, paced]
    rw [← same_uploader, ← same_link]
    refine ⟨serve_onDepot_of_trunk htakes hasks, fun hlink hbad => ?_, fun hlink hpacing hclosed => ?_,
      fun hlink hpacing hup => ⟨fun hstate hpos => ?_, fun hstate hzero => ?_, fun hstate hpos => ?_,
        fun hstate hzero => ?_⟩⟩
    · exact serve_onDepot_of_depot htakes hasks hlink (judgeUploadPace_of_bad hbad u)
    · exact serve_onDepot_of_depot htakes hasks hlink (judgeUploadPace_of_closed hpacing ((uploadClosed_iff u).2 hclosed))
    · exact serve_onDepot_of_depot htakes hasks hlink (judgeUploadPace_of_open hpacing (.inl hstate) hup
        (repace_of_running_positive hstate hpos))
    · exact serve_onDepot_of_depot htakes hasks hlink (judgeUploadPace_of_open hpacing (.inl hstate) hup
        (repace_of_running_zero hstate hzero))
    · exact serve_onDepot_of_depot htakes hasks hlink (judgeUploadPace_of_open hpacing (.inr hstate) hup
        (repace_of_paused_positive hstate hpos))
    · exact serve_onDepot_of_depot htakes hasks hlink (judgeUploadPace_of_open hpacing (.inr hstate) hup
        (repace_of_paused_zero hstate hzero))

end Sys2Proof.Machine
end

