-- ==== Sys2Proof/Proofs/StepFrame.lean ====
section
/-! SUPPORT. Which block of the state each command can write. An invariant that reads some blocks alone then has to be
proved for the commands that write one of them, and the package at the end makes a statement about every step of it. -/

namespace Sys2Proof.Machine

/-! ## Blocks -/

/-- A group of State's fields that one invariant reads together. -/
inductive Block where
  | gathering
  | pairing
  | route
  | builder
  | store
  | uploader
  | memory
  | pending
deriving DecidableEq

/-- Two states agree on a block. Of the uploader that is its state, its window and the records of each batch: the
transmitters' choice moves a batch on in its stage. -/
def Agrees : Block → State → State → Prop
  | .gathering, s, t => t.lanes = s.lanes ∧ t.pool = s.pool ∧ t.decoder = s.decoder
  | .pairing, s, t => t.pairing = s.pairing
  | .route, s, t => t.route.state = s.route.state ∧ t.book = s.book ∧ t.segments = s.segments
  | .builder, s, t => t.builder = s.builder
  | .store, s, t => t.store = s.store
  | .uploader, s, t => t.uploader.state = s.uploader.state ∧ t.uploader.window = s.uploader.window
      ∧ t.uploader.batches.map (·.records) = s.uploader.batches.map (·.records)
  | .memory, s, t => t.memory = s.memory
  | .pending, s, t => t.pending = s.pending

theorem Agrees.refl (b : Block) (s : State) : Agrees b s s := by
  cases b <;> simp [Agrees]

theorem Agrees.of_eq (b : Block) {s t : State} (h : t = s) : Agrees b s t := h ▸ Agrees.refl b s

theorem Agrees.trans {b : Block} {s t u : State} (h : Agrees b s t) (h' : Agrees b t u) : Agrees b s u := by
  cases b <;> simp_all [Agrees]

/-- The command can write the block. -/
def writes : Instr → Block → Bool
  | _, .pending => false
  | .writeCompletion _, .memory => true
  | _, .memory => false
  | .sync _ _, b | .byte _ _ _, b | .drop _, b | .gapExpiry _, b | .decoderTake, b | .laneSet _, b => b == .gathering
  | .pairingTakeFrame, b => b == .gathering || b == .pairing
  | .pairTimeout _, b => b == .pairing
  | .matcherTakeHearing, b => b == .pairing || b == .route || b == .builder || b == .store
  | .builderPassRecord, b => b == .builder || b == .store
  | .closeWalkVisit _, b | .closeEnd _, b | .routeEndRecord, b | .routeStart _, b | .routeStartExecute _, b =>
    b == .route || b == .builder || b == .store
  | .segmentDeadlineExpiry _, b | .bookOpen _, b | .bookEntries _, b | .bookClose _, b | .bookAbort _, b
  | .entryModify _, b | .segmentModify _, b | .routeEnd _, b | .segmentSet _, b | .segmentClose _, b
  | .segmentReopen _, b => b == .route
  | .writeCompletion _, b | .readCompletion _, b | .pacingSlotOpen, b | .ackTimeout _, b | .uploadOpen _, b
  | .uploadPace _, b | .uploadStop _, b | .batchAck _, b | .batchNak _, b => b == .store || b == .uploader
  | .uploadFinish _, b => b == .uploader
  | .classSet _, b => b == .store
  | .countersRead _, b => b == .gathering || b == .pairing || b == .builder || b == .store
  | .coldReset _, _ | .resetLineAssert, _ | .resetLineRelease _, _ | .trunkTxFrameEnd, _ | .depotTxFrameEnd, _
  | .dockDeassert, _ | .reset _, _ => true
  | .routeClockLimit, _ | .dockAssert, _ | .linkByte _ _, _ | .unknownRequest _, _ | .identify _, _ | .status _, _
  | .entryRead _, _ | .segmentRead _, _ | .eventMask _, _ | .faultClear _, _ | .familySet _, _ | .familyClear _, _
  | .serviceSet _, _ | .rulesSet _, _ | .routingSet _, _ => false

/-! ## Operations that write no block -/

theorem startSending_map_records (bs : List Batch) : (startSending bs).map (·.records) = bs.map (·.records) := by
  induction bs with
  | nil => rfl
  | cons b rest ih => unfold startSending; split <;> simp [ih]

theorem agrees_kickTrunk (b : Block) (s : State) : Agrees b s (kickTrunk s) := by
  obtain ⟨_, _, _, e⟩ := kickTrunk_shape s
  rw [e]; cases b <;> simp [Agrees]

theorem agrees_kickDepot (b : Block) (s : State) : Agrees b s (kickDepot s) := by
  obtain e | ⟨-, -, _, _, -, e⟩ | ⟨-, -, -, _, -, e⟩ := kickDepot_cases s <;>
    rw [e] <;> cases b <;> simp [Agrees, startSending_map_records]

theorem agrees_kickBoth (b : Block) (s : State) : Agrees b s (kickBoth s) :=
  (agrees_kickDepot b s).trans (agrees_kickTrunk b _)

theorem agrees_setLink (b : Block) (s : State) (k : Link) (p : LinkPort) : Agrees b s (s.setLink k p) := by
  cases k <;> cases b <;> simp [Agrees]

theorem agrees_raiseEvent (b : Block) (s : State) (x : EventKind) (p d : Nat) : Agrees b s (raiseEvent s x p d) := by
  cases b <;> simp [Agrees, raiseEvent]

theorem agrees_raiseFault (b : Block) (s : State) (x : FaultKind) (p : Nat) : Agrees b s (raiseFault s x p) := by
  cases b <;> simp [Agrees, raiseFault, raiseEvent]

theorem agrees_startPart (b : Block) (s : State) (x : ResetKind) : Agrees b s (startPart s x) := by
  obtain ⟨_, _, _, _, e⟩ := startPart_shape s x
  rw [e]; cases b <;> simp [Agrees]

theorem agrees_setPending {b : Block} (h : b ≠ .pending) (s : State) (x : List Instr) : Agrees b s (s.setPending x) := by
  cases b <;> first | exact absurd rfl h | simp [Agrees]

theorem agrees_tick (b : Block) (s : State) : Agrees b s (tick s) := by
  cases b <;> simp [Agrees, tick]

/-- A command that acts only while the part runs agrees on what its effect agrees on. -/
theorem agrees_of_whenRunning {b : Block} {s t : State} {f : State → State} (h : whenRunning s f = .next t)
    (hf : Agrees b s (f s)) : Agrees b s t := by
  rw [whenRunning_next] at h
  cases h
  split
  · exact Agrees.refl b s
  · exact hf

/-- A request writes what its owning rule's answer writes: taking it off its queue, the reply and the transmitters'
choice touch no block. -/
theorem agrees_serve {b : Block} {owner : State → Request → Option Answer}
    (h : ∀ u r a, owner u r = some a → Agrees b u a.state) (k : Link) (s : State) : Agrees b s (serve k owner s) := by
  obtain e | ⟨f, r, a, -, -, ha, e⟩ := serve_cases k owner s <;> rw [e]
  · exact Agrees.refl b s
  · have popped : Agrees b s (popRequest s k) := agrees_setLink b s k _
    have replied : Agrees b a.state (finishRequest k f a) := agrees_setLink b a.state k _
    exact ((popped.trans (h _ r a ha)).trans replied).trans (agrees_kickBoth b _)

/-! ## What each owning rule's answer writes -/

section
variable {b : Block} {u : State} {r : Request} {a : Answer}

theorem agrees_ownIdentify {k : Link} (h : ownIdentify k u r = some a) : Agrees b u a.state := by
  unfold ownIdentify at h
  split at h <;> cases h
  exact Agrees.refl b u

theorem agrees_ownStatus (h : ownStatus u r = some a) : Agrees b u a.state := by
  unfold ownStatus at h
  split at h <;> cases h
  unfold readStatus
  split <;> exact Agrees.refl b u

theorem agrees_readEntryAt (i : Option Nat) : Agrees b u (readEntryAt u i).state := by
  unfold readEntryAt
  split
  · exact Agrees.refl b u
  · split
    · exact Agrees.refl b u
    · split <;> exact Agrees.refl b u

theorem agrees_ownEntryRead (h : ownEntryRead u r = some a) : Agrees b u a.state := by
  unfold ownEntryRead at h
  split at h <;> cases h <;> exact agrees_readEntryAt _

theorem agrees_ownSegmentRead (h : ownSegmentRead u r = some a) : Agrees b u a.state := by
  unfold ownSegmentRead at h
  split at h <;> cases h
  unfold readSegment
  split
  · exact Agrees.refl b u
  · split <;> exact Agrees.refl b u

theorem agrees_ownEventMask (h : ownEventMask u r = some a) : Agrees b u a.state := by
  unfold ownEventMask at h
  split at h <;> cases h
  unfold writeEventMask
  split
  · exact Agrees.refl b u
  · cases b <;> simp [Agrees, acceptWith]

theorem agrees_ownFaultClear (h : ownFaultClear u r = some a) : Agrees b u a.state := by
  unfold ownFaultClear at h
  split at h <;> cases h
  cases b <;> simp [Agrees, clearFaults, acceptWith]

theorem agrees_ownReset {k : Link} (h : ownReset k u r = some a) : Agrees b u a.state := by
  unfold ownReset at h
  split at h <;> cases h
  exact agrees_setLink b u k _

theorem agrees_ownCountersRead {k : Link} (hw : writes (.countersRead k) b = false)
    (h : ownCountersRead u r = some a) : Agrees b u a.state := by
  unfold ownCountersRead at h
  split at h <;> cases h
  unfold readCounters
  split
  · exact Agrees.refl b u
  · split
    · rename_i g _ _
      cases g <;> cases b <;> simp_all [Agrees, writes, acceptWith, clearGroup]
    · exact Agrees.refl b u
    · exact Agrees.refl b u

theorem agrees_ownLaneSet (hw : b ≠ .gathering) (h : ownLaneSet u r = some a) : Agrees b u a.state := by
  unfold ownLaneSet at h
  split at h <;> cases h
  unfold setLaneSettings
  split
  · rename_i mask enable least length gap _
    obtain ⟨_, _, e⟩ := setLanesByMask_shape
      { enable := decide (enable = 1), minRssi := least, maxLength := length, gapLimit := gap } mask (List.finRange 8) u
    simp only [acceptWith]
    rw [e]
    cases b <;> simp_all [Agrees]
  · exact Agrees.refl b u

theorem agrees_setFamilies (x : Vector (Option Profile) 16) : Agrees b u (u.setFamilies x) := by
  cases b <;> simp [Agrees]

theorem agrees_ownFamilySet (h : ownFamilySet u r = some a) : Agrees b u a.state := by
  unfold ownFamilySet at h
  split at h <;> cases h
  unfold setFamily
  split
  · split
    · unfold writeFamily
      split
      · exact Agrees.refl b u
      · split
        · exact Agrees.refl b u
        · exact agrees_setFamilies _
    · exact Agrees.refl b u
  · exact Agrees.refl b u

theorem agrees_ownFamilyClear (h : ownFamilyClear u r = some a) : Agrees b u a.state := by
  unfold ownFamilyClear at h
  split at h <;> cases h
  unfold clearFamily
  split
  · split
    · exact Agrees.refl b u
    · split
      · exact Agrees.refl b u
      · split
        · exact Agrees.refl b u
        · exact agrees_setFamilies _
  · exact Agrees.refl b u

theorem agrees_setServices (x : Vector (Option ServiceEntry) 16) : Agrees b u (u.setServices x) := by
  cases b <;> simp [Agrees]

theorem agrees_ownServiceSet (h : ownServiceSet u r = some a) : Agrees b u a.state := by
  unfold ownServiceSet at h
  split at h <;> cases h
  · unfold setService
    split
    · split
      · exact Agrees.refl b u
      · split
        · exact Agrees.refl b u
        · exact agrees_setServices _
    · exact Agrees.refl b u
  · unfold clearService
    split
    · exact agrees_setServices _
    · exact Agrees.refl b u

theorem agrees_setRules (x : RuleSet) : Agrees b u (u.setRules x) := by cases b <;> simp [Agrees]

theorem agrees_ownRulesSet (h : ownRulesSet u r = some a) : Agrees b u a.state := by
  unfold ownRulesSet at h
  split at h <;> cases h
  · unfold setRuleSet
    split
    · exact agrees_setRules _
    · exact Agrees.refl b u
  · exact agrees_setRules _

theorem agrees_setRouting (x : Routing) : Agrees b u (u.setRouting x) := by cases b <;> simp [Agrees]

theorem agrees_ownRoutingSet (h : ownRoutingSet u r = some a) : Agrees b u a.state := by
  unfold ownRoutingSet at h
  split at h <;> cases h
  · unfold setRouteRow
    split
    · split
      · exact agrees_setRouting _
      · exact Agrees.refl b u
    · exact Agrees.refl b u
  · exact agrees_setRouting _

theorem agrees_ownClassSet (hw : b ≠ .store) (h : ownClassSet u r = some a) : Agrees b u a.state := by
  unfold ownClassSet at h
  split at h <;> cases h
  unfold setClassSettings
  split
  · split
    · unfold writeClass
      split
      · exact Agrees.refl b u
      · split
        · exact Agrees.refl b u
        · cases b <;> simp_all [Agrees, accept, State.setClass]
    · exact Agrees.refl b u
  · exact Agrees.refl b u

/-! ### The book, the route and its segments -/

theorem agrees_notifySegment (hw : b ≠ .route) (s : State) (n : Nat) (f : Segment → Segment) :
    Agrees b s (notifySegment s n f) := by
  obtain ⟨_, e⟩ := notifySegment_shape s n f
  rw [e]; cases b <;> simp_all [Agrees]

theorem agrees_changeRoute (hw : b ≠ .route) (s : State) (x : Route) : Agrees b s (changeRoute s x) := by
  obtain ⟨_, e⟩ := changeRoute_shape s x
  rw [e]; cases b <;> simp_all [Agrees]

theorem agrees_abandonLoad (hw : b ≠ .route) (s : State) : Agrees b s (abandonLoad s) := by
  obtain ⟨_, e⟩ := abandonLoad_shape s
  rw [e]; cases b <;> simp_all [Agrees]

theorem agrees_ownBookOpen {k : Link} (hw : b ≠ .route) (h : ownBookOpen k u r = some a) : Agrees b u a.state := by
  unfold ownBookOpen at h
  split at h <;> cases h
  have opened (x : Route) (g : Segment) : Agrees b u (openBook u k x g) := by
    unfold openBook changeRoute raiseEvent
    cases b <;> simp_all [Agrees]
  unfold judgeBookOpen
  split
  · exact Agrees.refl b u
  · exact Agrees.refl b u
  · split <;> exact Agrees.refl b u
  all_goals
    split
    · split
      · exact opened _ _
      · exact Agrees.refl b u
    · exact Agrees.refl b u

theorem agrees_takeEntryIntoBook (hw : b ≠ .route) (s : State) (e : Entry) : Agrees b s (takeEntryIntoBook s e) := by
  have booked (x : List Entry) (y : Route) : Agrees b s ((s.setBook x).setRoute y) := by
    cases b <;> simp_all [Agrees]
  unfold takeEntryIntoBook
  split
  · exact (booked _ _).trans (agrees_notifySegment hw _ _ _)
  · exact booked _ _

theorem agrees_takeRawEntries (hw : b ≠ .route) (es : List RawEntry) (s : State) (n : Nat) :
    Agrees b s (takeRawEntries es s n).1 := by
  induction es generalizing s n with
  | nil => exact Agrees.refl b s
  | cons e rest ih =>
    unfold takeRawEntries
    split
    · exact Agrees.refl b s
    · exact (agrees_takeEntryIntoBook hw s _).trans (ih _ _)

theorem agrees_ownBookEntries {k : Link} (hw : b ≠ .route) (h : ownBookEntries k u r = some a) :
    Agrees b u a.state := by
  unfold ownBookEntries at h
  split at h <;> cases h
  rename_i first entries
  have taken := agrees_takeRawEntries hw entries u 0
  unfold judgeBookEntries
  simp only
  split
  · exact Agrees.refl b u
  · split
    · exact Agrees.refl b u
    · split
      · exact Agrees.refl b u
      · split
        · exact Agrees.refl b u
        · split
          · exact Agrees.refl b u
          · exact taken

theorem agrees_asOwner {k : Link} {f : State → Answer} (hf : Agrees b u (f u).state) :
    Agrees b u (asOwner u k f).state := by
  unfold asOwner
  split
  · exact Agrees.refl b u
  · split
    · exact Agrees.refl b u
    · exact hf

theorem agrees_ownBookClose {k : Link} (hw : b ≠ .route) (h : ownBookClose k u r = some a) : Agrees b u a.state := by
  unfold ownBookClose at h
  split at h <;> cases h
  refine agrees_asOwner ?_
  unfold closeBook
  split
  · exact Agrees.refl b u
  · exact agrees_changeRoute hw u _

theorem agrees_ownBookAbort {k : Link} (hw : b ≠ .route) (h : ownBookAbort k u r = some a) : Agrees b u a.state := by
  unfold ownBookAbort at h
  split at h <;> cases h
  exact agrees_asOwner (agrees_abandonLoad hw u)

theorem agrees_changeOptions (hw : b ≠ .route) (clear set : Nat) (s : State) (e : Entry) :
    Agrees b s (changeOptions clear set s e) := by
  have updated (f : Entry → Entry) : Agrees b s (updateEntry s e.meterId f) := by
    unfold updateEntry
    cases b <;> simp_all [Agrees]
  exact (updated _).trans (agrees_notifySegment hw _ _ _)

theorem agrees_ownEntryModify (hw : b ≠ .route) (h : ownEntryModify u r = some a) : Agrees b u a.state := by
  unfold ownEntryModify at h
  split at h <;> cases h
  unfold judgeEntryModify
  split
  · exact Agrees.refl b u
  · split
    · exact Agrees.refl b u
    · split
      · exact Agrees.refl b u
      · split
        · exact Agrees.refl b u
        · exact agrees_changeOptions hw _ _ u _

theorem agrees_foldl_changeOptions (hw : b ≠ .route) (clear set : Nat) (es : List Entry) (s : State) :
    Agrees b s (es.foldl (changeOptions clear set) s) := by
  induction es generalizing s with
  | nil => exact Agrees.refl b s
  | cons e rest ih => exact (agrees_changeOptions hw clear set s e).trans (ih _)

theorem agrees_ownSegmentModify (hw : b ≠ .route) (h : ownSegmentModify u r = some a) : Agrees b u a.state := by
  unfold ownSegmentModify at h
  split at h <;> cases h
  unfold judgeSegmentModify
  simp only
  split
  · exact Agrees.refl b u
  · split
    · exact Agrees.refl b u
    · split
      · exact Agrees.refl b u
      · exact agrees_foldl_changeOptions hw _ _ _ u

theorem agrees_ownRouteEnd (hw : b ≠ .route) (h : ownRouteEnd u r = some a) : Agrees b u a.state := by
  unfold ownRouteEnd at h
  split at h <;> cases h
  unfold endRoute
  split
  · exact Agrees.refl b u
  · have closed (s : State) : Agrees b s (closeAllOpen s) := by
      cases b <;> simp_all [Agrees, closeAllOpen]
    exact (agrees_changeRoute hw u _).trans (closed _)

theorem agrees_ownSegmentSet {k : Link} (hw : b ≠ .route) (h : ownSegmentSet k u r = some a) : Agrees b u a.state := by
  unfold ownSegmentSet at h
  split at h <;> cases h
  unfold judgeSegmentSet
  split
  case h_1 | h_2 | h_3 => exact Agrees.refl b u
  all_goals
    split
    · exact Agrees.refl b u
    · split
      · exact Agrees.refl b u
      · split
        · exact Agrees.refl b u
        · exact agrees_notifySegment hw u _ _

theorem agrees_ownSegmentClose (hw : b ≠ .route) (h : ownSegmentClose u r = some a) : Agrees b u a.state := by
  unfold ownSegmentClose at h
  split at h <;> cases h
  unfold judgeSegmentClose
  split
  · exact Agrees.refl b u
  · split
    · exact Agrees.refl b u
    · split
      · exact Agrees.refl b u
      · split
        · exact Agrees.refl b u
        · exact Agrees.refl b u
        all_goals exact agrees_notifySegment hw u _ _

theorem agrees_ownSegmentReopen (hw : b ≠ .route) (h : ownSegmentReopen u r = some a) : Agrees b u a.state := by
  unfold ownSegmentReopen at h
  split at h <;> cases h
  unfold judgeSegmentReopen
  split
  · exact Agrees.refl b u
  · split
    · exact Agrees.refl b u
    · split
      · exact Agrees.refl b u
      · split
        case h_1 | h_2 | h_3 => exact Agrees.refl b u
        split
        · exact Agrees.refl b u
        · unfold reopen
          cases b <;> simp_all [Agrees, acceptWith, State.setSegment]

/-! ### The uploader -/

theorem agrees_settleStore (hs : b ≠ .store) (hu : b ≠ .uploader) (s : State) : Agrees b s (settleStore s) := by
  obtain ⟨_, _, _, _, e⟩ := settleStore_shape s
  rw [e]; cases b <;> simp_all [Agrees]

theorem agrees_changeUpload (hu : b ≠ .uploader) (s : State) (x : Uploader) : Agrees b s (changeUpload s x) := by
  obtain ⟨_, e⟩ := changeUpload_shape s x
  rw [e]; cases b <;> simp_all [Agrees]

theorem agrees_finishIfDrained (hu : b ≠ .uploader) (s : State) : Agrees b s (finishIfDrained s) := by
  obtain ⟨_, _, e⟩ := finishIfDrained_shape s
  rw [e]; cases b <;> simp_all [Agrees]

theorem agrees_endUpload (hs : b ≠ .store) (hu : b ≠ .uploader) (s : State) (x : EndReason) :
    Agrees b s (endUpload s x) := by
  obtain ⟨_, _, _, _, e⟩ := endUpload_shape s x
  rw [e]; cases b <;> simp_all [Agrees]

theorem agrees_onDepot {k : Link} {f : State → Answer} (hf : Agrees b u (f u).state) :
    Agrees b u (onDepot u k f).state := by
  cases k
  · exact Agrees.refl b u
  · exact hf

theorem agrees_ownUploadOpen {k : Link} (hs : b ≠ .store) (hu : b ≠ .uploader) (h : ownUploadOpen k u r = some a) :
    Agrees b u a.state := by
  unfold ownUploadOpen at h
  split at h <;> cases h
  refine agrees_onDepot ?_
  unfold judgeUploadOpen
  split
  · exact Agrees.refl b u
  · split
    · exact Agrees.refl b u
    · split
      · exact Agrees.refl b u
      · exact (agrees_changeUpload hu u _).trans (agrees_settleStore hs hu _)

theorem agrees_ownUploadPace {k : Link} (hs : b ≠ .store) (hu : b ≠ .uploader) (h : ownUploadPace k u r = some a) :
    Agrees b u a.state := by
  unfold ownUploadPace at h
  split at h <;> cases h
  refine agrees_onDepot ?_
  unfold judgeUploadPace
  split
  · exact Agrees.refl b u
  · split
    · exact Agrees.refl b u
    · rename_i pacing _ _
      have paced : Agrees b u (repace u pacing) := by
        unfold repace
        simp only
        split
        · exact agrees_changeUpload hu u _
        · split
          · exact agrees_changeUpload hu u _
          · cases b <;> simp_all [Agrees]
      exact paced.trans (agrees_settleStore hs hu _)

theorem agrees_ownUploadStop {k : Link} (hs : b ≠ .store) (hu : b ≠ .uploader) (h : ownUploadStop k u r = some a) :
    Agrees b u a.state := by
  unfold ownUploadStop at h
  split at h <;> cases h
  refine agrees_onDepot ?_
  unfold judgeUploadStop
  split
  · exact Agrees.refl b u
  · exact (agrees_endUpload hs hu u _).trans (agrees_settleStore hs hu _)

theorem agrees_ownUploadFinish {k : Link} (hu : b ≠ .uploader) (h : ownUploadFinish k u r = some a) :
    Agrees b u a.state := by
  unfold ownUploadFinish at h
  split at h <;> cases h
  refine agrees_onDepot ?_
  unfold judgeUploadFinish
  split
  · exact Agrees.refl b u
  · exact (agrees_changeUpload hu u _).trans (agrees_finishIfDrained hu _)

theorem agrees_answerBatch {f : State → Batch → State} (hs : b ≠ .store) (hu : b ≠ .uploader)
    (hf : ∀ x, Agrees b u (f u x)) (number : Nat) : Agrees b u (answerBatch number f u).state := by
  unfold answerBatch
  split
  · exact Agrees.refl b u
  · split
    · exact Agrees.refl b u
    · exact ((hf _).trans (agrees_finishIfDrained hu _)).trans (agrees_settleStore hs hu _)

theorem agrees_acknowledge (hs : b ≠ .store) (hu : b ≠ .uploader) (x : Batch) : Agrees b u (acknowledge u x) := by
  obtain ⟨_, e⟩ := releaseRecords_shape u x.cls x.records
  unfold acknowledge
  rw [e]; cases b <;> simp_all [Agrees]

theorem agrees_refuseBatch (hs : b ≠ .store) (hu : b ≠ .uploader) (x : Batch) : Agrees b u (refuseBatch u x) := by
  unfold refuseBatch returnRecords
  cases b <;> simp_all [Agrees]

theorem agrees_ownBatchAck {k : Link} (hs : b ≠ .store) (hu : b ≠ .uploader) (h : ownBatchAck k u r = some a) :
    Agrees b u a.state := by
  unfold ownBatchAck at h
  split at h <;> cases h
  exact agrees_onDepot (agrees_answerBatch hs hu (agrees_acknowledge hs hu) _)

theorem agrees_ownBatchNak {k : Link} (hs : b ≠ .store) (hu : b ≠ .uploader) (h : ownBatchNak k u r = some a) :
    Agrees b u a.state := by
  unfold ownBatchNak at h
  split at h <;> cases h
  exact agrees_onDepot (agrees_answerBatch hs hu (agrees_refuseBatch hs hu) _)

end

/-! ## Resets (section 10.8) -/

/-- Two states agree on every block. -/
def AgreesAll (s t : State) : Prop := ∀ b, Agrees b s t

theorem AgreesAll.refl (s : State) : AgreesAll s s := fun b => Agrees.refl b s

theorem AgreesAll.trans {s t u : State} (h : AgreesAll s t) (h' : AgreesAll t u) : AgreesAll s u :=
  fun b => (h b).trans (h' b)

/-- The depot link goes DOWN in a state that agrees with this one, or it stays as it is. -/
def DownOrSame (s u : State) : Prop := AgreesAll s u ∨ ∃ v, AgreesAll s v ∧ u = linkDown v

/-- What a command that may reset can do to the blocks: nothing, the loss of the depot link, either one followed by a
warm reset, or a cold reset. -/
theorem exec_mayReset_cases {c : Instr} {s t : State} (hc : mayReset c = true) (h : exec c s = .next t) :
    (∃ u, DownOrSame s u ∧ (AgreesAll u t ∨ AgreesAll (warmValues u) t))
    ∨ ((∃ strap, c = .coldReset strap) ∧ AgreesAll (coldValues s) t) := by
  have warmed (u : State) : AgreesAll (warmValues u) (warmResetRequest u) := fun b => agrees_startPart b _ _
  have running {f : State → State} (h : whenRunning s f = .next t)
      (hf : ∃ u, DownOrSame s u ∧ (AgreesAll u (f s) ∨ AgreesAll (warmValues u) (f s))) :
      ∃ u, DownOrSame s u ∧ (AgreesAll u t ∨ AgreesAll (warmValues u) t) := by
    rw [whenRunning_next] at h
    cases h
    split
    · exact ⟨s, .inl (AgreesAll.refl s), .inl (AgreesAll.refl s)⟩
    · exact hf
  cases c <;> cases hc
  case trunkTxFrameEnd =>
    refine .inl (running h ?_)
    unfold trunkFrameEnd
    split
    · exact ⟨s, .inl (AgreesAll.refl s), .inl (AgreesAll.refl s)⟩
    · have freed : AgreesAll s (s.setTrunk { s.trunk with tx := none }) := fun b => agrees_setLink b s .trunk _
      simp only
      split
      · exact ⟨_, .inl freed, .inr (warmed _)⟩
      · exact ⟨_, .inl freed, .inl fun b => agrees_kickTrunk b _⟩
  case depotTxFrameEnd =>
    refine .inl (running h ?_)
    unfold depotFrameEnd
    split
    · exact ⟨s, .inl (AgreesAll.refl s), .inl (AgreesAll.refl s)⟩
    · have freed : AgreesAll s (s.setDepot { s.depot with tx := none }) := fun b => agrees_setLink b s .depot _
      have sent (u : State) (f : TxFrame) : AgreesAll u (afterDepotFrame u f) := by
        intro b
        cases f <;> cases b <;> simp [Agrees, afterDepotFrame, batchSent]
        intro x _
        split <;> rfl
      simp only
      split
      · exact ⟨_, .inl freed, .inr (warmed _)⟩
      · exact ⟨_, .inl (freed.trans (sent _ _)), .inl fun b => agrees_kickBoth b _⟩
  case dockDeassert =>
    have lowered : AgreesAll s (s.setPins { s.pins with dock := false }) := fun b => by cases b <;> simp [Agrees]
    have cleared (u : State) : AgreesAll u (u.setDepot { u.depot with rx := [] }) := fun b => agrees_setLink b u .depot _
    have drawn (u : State) (n : Nat) : AgreesAll u (u.setFreeCounter n) := fun b => by cases b <;> simp [Agrees]
    left
    simp only [exec, execDockDeassert] at h
    cases h
    split
    · exact ⟨_, .inl lowered, .inl (AgreesAll.refl _)⟩
    · have ready := lowered.trans (cleared (s.setPins { s.pins with dock := false }))
      unfold dockDeassert
      simp only
      split
      · split
        · unfold resetOnDown
          split
          · exact ⟨_, .inr ⟨_, ready, rfl⟩, .inr (warmed _)⟩
          · simp only
            split
            · exact ⟨_, .inl (ready.trans (drawn _ _)), .inr (warmed _)⟩
            · exact ⟨_, .inr ⟨_, ready.trans (drawn _ _), rfl⟩, .inr (warmed _)⟩
        · exact ⟨_, .inr ⟨_, ready, rfl⟩, .inl fun b => agrees_kickBoth b _⟩
      · exact ⟨_, .inl ready, .inl (AgreesAll.refl _)⟩
  case reset k =>
    refine .inl (running h ?_)
    have served (k : Link) : AgreesAll s (serve k (ownReset k) s) :=
      fun b => agrees_serve (fun _ _ _ => agrees_ownReset) k s
    unfold serveReset
    split
    · exact ⟨s, .inl (AgreesAll.refl s), .inl (served .trunk)⟩
    · split
      · exact ⟨s, .inl (AgreesAll.refl s), .inl (served .depot)⟩
      · unfold serveResetDown
        split
        · exact ⟨s, .inl (AgreesAll.refl s), .inl (AgreesAll.refl s)⟩
        · split
          · rename_i r _
            cases r
            case reset => exact ⟨s, .inl (AgreesAll.refl s), .inr (warmed s)⟩
            all_goals exact ⟨s, .inl (AgreesAll.refl s), .inl (AgreesAll.refl s)⟩
          all_goals exact ⟨s, .inl (AgreesAll.refl s), .inl (AgreesAll.refl s)⟩
  case resetLineAssert =>
    left
    simp only [exec, execResetLineAssert] at h
    cases h
    split
    · exact ⟨s, .inl (AgreesAll.refl s), .inl (AgreesAll.refl s)⟩
    · exact ⟨s, .inl (AgreesAll.refl s), .inr fun b => by cases b <;> simp [Agrees]⟩
  case resetLineRelease strap =>
    left
    simp only [exec, execResetLineRelease] at h
    cases h
    split
    · refine ⟨(s.setPins { s.pins with resetLine := false, strap := strap }).setFreeCounter (releaseCounter s),
        .inl fun b => ?_, .inl fun b => agrees_startPart b _ _⟩
      cases b <;> simp [Agrees]
    · exact ⟨s, .inl (AgreesAll.refl s), .inl (AgreesAll.refl s)⟩
  case coldReset strap =>
    right
    simp only [exec, execColdReset] at h
    cases h
    refine ⟨⟨strap, rfl⟩, fun b => ?_⟩
    split
    · cases b <;> simp [Agrees]
    · refine Agrees.trans ?_ (agrees_startPart b _ _)
      cases b <;> simp [Agrees]

theorem agrees_linkDown {b : Block} (hr : b ≠ .route) (hs : b ≠ .store) (hu : b ≠ .uploader) (s : State) :
    Agrees b s (linkDown s) := by
  obtain ⟨_, _, _, _, _, _, _, _, e⟩ := linkDown_shape s
  rw [e]; cases b <;> simp_all [Agrees]

/-- The record memory and the queue of commands outlive every reset. -/
theorem agrees_of_mayReset {c : Instr} {s t : State} {b : Block} (hc : mayReset c = true) (h : exec c s = .next t)
    (hb : b = .memory ∨ b = .pending) : Agrees b s t := by
  have down {u : State} (hu : DownOrSame s u) : Agrees b s u := by
    obtain hu | ⟨v, hv, rfl⟩ := hu
    · exact hu b
    · exact (hv b).trans (agrees_linkDown (by aesop) (by aesop) (by aesop) v)
  have warm (u : State) : Agrees b u (warmValues u) := by
    obtain rfl | rfl := hb <;> simp [Agrees]
  obtain ⟨u, hu, ht | ht⟩ | ⟨-, ht⟩ := exec_mayReset_cases hc h
  · exact (down hu).trans (ht b)
  · exact ((down hu).trans (warm u)).trans (ht b)
  · refine Agrees.trans ?_ (ht b)
    obtain rfl | rfl := hb <;> simp [Agrees]

/-! ## The frame of a command -/

section
variable {b : Block} (s : State)

/-! ### Lanes, decoder and pairing unit -/

theorem agrees_takeSync (hg : b ≠ .gathering) (i : Fin 8) (r : Nat) : Agrees b s (takeSync s i r) := by
  obtain ⟨_, _, e⟩ := takeSync_shape s i r
  rw [e]; cases b <;> first | exact absurd rfl hg | simp [Agrees]

theorem agrees_takeByte (hg : b ≠ .gathering) (i : Fin 8) (v : Byte) (good : Bool) :
    Agrees b s (takeByte s i v good) := by
  obtain ⟨_, _, _, _, e⟩ := takeByte_shape s i v good
  rw [e]; cases b <;> first | exact absurd rfl hg | simp [Agrees]

theorem agrees_takeDrop (hg : b ≠ .gathering) (i : Fin 8) : Agrees b s (takeDrop s i) := by
  obtain ⟨_, _, e⟩ := takeDrop_shape s i
  rw [e]; cases b <;> first | exact absurd rfl hg | simp [Agrees]

theorem agrees_expireGap (hg : b ≠ .gathering) (i : Fin 8) : Agrees b s (expireGap s i) := by
  obtain ⟨_, _, e⟩ := expireGap_shape s i
  rw [e]; cases b <;> first | exact absurd rfl hg | simp [Agrees]

theorem agrees_decoderTake (hg : b ≠ .gathering) : Agrees b s (decoderTake s) := by
  obtain ⟨_, _, _, e⟩ := decoderTake_shape s
  rw [e]; cases b <;> first | exact absurd rfl hg | simp [Agrees]

theorem agrees_pairingTake (hg : b ≠ .gathering) (hp : b ≠ .pairing) : Agrees b s (pairingTake s) := by
  obtain ⟨_, _, _, e⟩ := pairingTake_shape s
  rw [e]; cases b <;> first | exact absurd rfl hg | exact absurd rfl hp | simp [Agrees]

theorem agrees_setPairing (hp : b ≠ .pairing) (u : PairingUnit) : Agrees b s (s.setPairing u) := by
  cases b <;> first | exact absurd rfl hp | simp [Agrees]

/-! ### Records, store and uploader -/

theorem agrees_takeGroup (hb : b ≠ .builder) (hs : b ≠ .store) (g : List Draft) : Agrees b s (takeGroup s g) := by
  obtain ⟨_, _, _, _, _, e⟩ := takeGroup_shape g s
  rw [e]; cases b <;> first | exact absurd rfl hb | exact absurd rfl hs | simp [Agrees]

theorem agrees_builderPass (hb : b ≠ .builder) (hs : b ≠ .store) : Agrees b s (builderPass s) := by
  obtain ⟨_, _, _, e⟩ := builderPass_shape s
  rw [e]; cases b <;> first | exact absurd rfl hb | exact absurd rfl hs | simp [Agrees]

theorem agrees_writeCompletion (hs : b ≠ .store) (hu : b ≠ .uploader) (hm : b ≠ .memory) (ok : Bool) :
    Agrees b s (writeCompletion s ok) := by
  obtain ⟨_, _, _, _, _, e⟩ | ⟨_, _, _, _, _, _, _, e⟩ := writeCompletion_shape s ok <;> rw [e] <;>
    cases b <;> first | exact absurd rfl hs | exact absurd rfl hu | exact absurd rfl hm | simp [Agrees]

theorem agrees_readCompletion (hs : b ≠ .store) (hu : b ≠ .uploader) (ok : Bool) :
    Agrees b s (readCompletion s ok) := by
  obtain ⟨_, _, _, _, _, e⟩ := readCompletion_shape s ok
  rw [e]; cases b <;> first | exact absurd rfl hs | exact absurd rfl hu | simp [Agrees]

theorem agrees_pacingSlotOpen (hs : b ≠ .store) (hu : b ≠ .uploader) : Agrees b s (pacingSlotOpen s) := by
  obtain ⟨_, _, _, _, e⟩ := pacingSlotOpen_shape s
  rw [e]; cases b <;> first | exact absurd rfl hs | exact absurd rfl hu | simp [Agrees]

theorem agrees_ackTimeout (hs : b ≠ .store) (hu : b ≠ .uploader) (n : Nat) : Agrees b s (ackTimeout s n) := by
  obtain ⟨_, _, _, _, _, e⟩ := ackTimeout_shape s n
  rw [e]; cases b <;> first | exact absurd rfl hs | exact absurd rfl hu | simp [Agrees]

/-! ### Matcher, segments and route -/

section
variable (hr : b ≠ .route) (hb : b ≠ .builder) (hs : b ≠ .store)
include hr hb hs

theorem agrees_matcherTake (hp : b ≠ .pairing) : Agrees b s (matcherTake s) := by
  obtain ⟨_, _, _, _, _, _, _, _, _, _, _, e⟩ := matcherTake_shape s
  rw [e]
  cases b <;> first | exact absurd rfl hr | exact absurd rfl hb | exact absurd rfl hs | exact absurd rfl hp | simp [Agrees]

theorem agrees_walkVisit (n : Nat) : Agrees b s (walkVisit s n) := by
  obtain ⟨_, _, _, _, _, _, _, e⟩ := walkVisit_shape s n
  rw [e]; cases b <;> first | exact absurd rfl hr | exact absurd rfl hb | exact absurd rfl hs | simp [Agrees]

theorem agrees_closeEnd (n : Nat) : Agrees b s (closeEnd s n) := by
  obtain ⟨_, _, _, _, _, _, e⟩ := closeEnd_shape s n
  rw [e]; cases b <;> first | exact absurd rfl hr | exact absurd rfl hb | exact absurd rfl hs | simp [Agrees]

theorem agrees_routeEndRecord : Agrees b s (routeEndRecord s) := by
  obtain ⟨_, _, _, _, _, _, _, e⟩ := routeEndRecord_shape s
  rw [e]; cases b <;> first | exact absurd rfl hr | exact absurd rfl hb | exact absurd rfl hs | simp [Agrees]

theorem agrees_startRoute (hour : Nat) : Agrees b s (startRoute s hour) := by
  unfold startRoute
  refine (Agrees.trans ?_ (agrees_takeGroup _ hb hs _)).trans (agrees_changeRoute hr _ _)
  cases b <;> first | exact absurd rfl hr | simp [Agrees]

theorem agrees_judgeRouteStart (hour : Nat) : Agrees b s (judgeRouteStart s hour).state := by
  unfold judgeRouteStart
  split
  · exact Agrees.refl b s
  · split
    · exact Agrees.refl b s
    · exact agrees_startRoute s hr hb hs hour

theorem agrees_serveRouteStart (k : Link) : Agrees b s (serveRouteStart k s) := by
  unfold serveRouteStart
  split
  · exact Agrees.refl b s
  · split
    · simp only
      split
      · exact (agrees_setLink b s k _).trans (agrees_setLink b _ k _)
      · exact (((agrees_setLink b s k _).trans (agrees_judgeRouteStart _ hr hb hs _)).trans
          (agrees_setLink b _ k _)).trans (agrees_kickBoth b _)
    · exact Agrees.refl b s

theorem agrees_executeRouteStart (k : Link) : Agrees b s (executeRouteStart k s) := by
  unfold executeRouteStart
  split
  · split
    · exact (((agrees_setLink b s k _).trans (agrees_judgeRouteStart _ hr hb hs _)).trans
        (agrees_setLink b _ k _)).trans (agrees_kickBoth b _)
    · exact Agrees.refl b s
  all_goals exact Agrees.refl b s

end

theorem agrees_deadlineExpiry (hr : b ≠ .route) (n : Nat) : Agrees b s (deadlineExpiry s n) := by
  obtain ⟨_, e⟩ := deadlineExpiry_shape s n
  rw [e]; cases b <;> first | exact absurd rfl hr | simp [Agrees]

theorem agrees_routeClockLimit : Agrees b s (routeClockLimit s) := by
  unfold routeClockLimit
  split
  · refine Agrees.trans ?_ (agrees_raiseFault b _ _ _)
    cases b <;> simp [Agrees]
  · exact Agrees.refl b s

/-! ### Links -/

theorem agrees_linkByte (k : Link) (v : Byte) : Agrees b s (linkByte s k v) := by
  obtain ⟨_, _, _, _, _, e⟩ := linkByte_shape s k v
  rw [e]; cases b <;> simp [Agrees]

theorem agrees_serveUnknown (k : Link) : Agrees b s (serveUnknown k s) := by
  have replied (u : State) (f : RequestFrame) (x : Status) :
      Agrees b u (kickBoth (finishRequest k f (refuse u x))) :=
    (agrees_setLink b u k _).trans (agrees_kickBoth b _)
  unfold serveUnknown
  split
  · exact Agrees.refl b s
  · split
    · rename_i ha
      unfold judgeUnknown at ha
      split at ha <;> cases ha <;> exact (agrees_setLink b s k _).trans (replied _ _ _)
    · exact Agrees.refl b s

end

/-- A command leaves every block that it is not listed as writing. -/
theorem exec_agrees {c : Instr} {s t : State} {b : Block} (h : exec c s = .next t) (hw : writes c b = false) :
    Agrees b s t := by
  have served {k : Link} {owner : State → Request → Option Answer} (h : whenRunning s (serve k owner) = .next t)
      (ho : ∀ u r a, owner u r = some a → Agrees b u a.state) : Agrees b s t :=
    agrees_of_whenRunning h (agrees_serve ho k s)
  have kicked {f : State → State} (hf : Agrees b s (f s)) (h : whenRunning s (fun s => kickTrunk (f s)) = .next t) :
      Agrees b s t := agrees_of_whenRunning h (hf.trans (agrees_kickTrunk b _))
  have both {f : State → State} (hf : Agrees b s (f s)) (h : whenRunning s (fun s => kickBoth (f s)) = .next t) :
      Agrees b s t := agrees_of_whenRunning h (hf.trans (agrees_kickBoth b _))
  have plain {f : State → State} (hf : Agrees b s (f s)) (h : whenRunning s f = .next t) :
      Agrees b s t := agrees_of_whenRunning h hf
  have hg : writes c .gathering = true → b ≠ .gathering := by rintro h rfl; simp [h] at hw
  have hp : writes c .pairing = true → b ≠ .pairing := by rintro h rfl; simp [h] at hw
  have hr : writes c .route = true → b ≠ .route := by rintro h rfl; simp [h] at hw
  have hb : writes c .builder = true → b ≠ .builder := by rintro h rfl; simp [h] at hw
  have hs : writes c .store = true → b ≠ .store := by rintro h rfl; simp [h] at hw
  have hu : writes c .uploader = true → b ≠ .uploader := by rintro h rfl; simp [h] at hw
  have hm : writes c .memory = true → b ≠ .memory := by rintro h rfl; simp [h] at hw
  cases c with
  | sync i r => exact plain (f := fun s => takeSync s i r.toNat) (agrees_takeSync s (hg rfl) i r.toNat) h
  | byte i v g => exact kicked (f := fun s => takeByte s i v g) (agrees_takeByte s (hg rfl) i v g) h
  | drop i => exact plain (f := fun s => takeDrop s i) (agrees_takeDrop s (hg rfl) i) h
  | gapExpiry i =>
    refine plain (f := fun s => if gapPassed s.lanes[i] s.timebase then expireGap s i else s) ?_ h
    split
    · exact agrees_expireGap s (hg rfl) i
    · exact Agrees.refl b s
  | decoderTake => exact plain (agrees_decoderTake s (hg rfl)) h
  | pairingTakeFrame => exact plain (agrees_pairingTake s (hg rfl) (hp rfl)) h
  | pairTimeout m =>
    exact plain (f := fun s => s.setPairing (expirePairing s.pairing m s.timebase))
      (agrees_setPairing s (hp rfl) _) h
  | matcherTakeHearing => exact kicked (agrees_matcherTake s (hr rfl) (hb rfl) (hs rfl) (hp rfl)) h
  | builderPassRecord => exact kicked (agrees_builderPass s (hb rfl) (hs rfl)) h
  | writeCompletion ok => exact both (f := fun s => writeCompletion s ok) (agrees_writeCompletion s (hs rfl) (hu rfl) (hm rfl) ok) h
  | readCompletion ok => exact both (f := fun s => readCompletion s ok) (agrees_readCompletion s (hs rfl) (hu rfl) ok) h
  | segmentDeadlineExpiry n => exact plain (f := fun s => deadlineExpiry s n) (agrees_deadlineExpiry s (hr rfl) n) h
  | closeWalkVisit n => exact kicked (f := fun s => walkVisit s n) (agrees_walkVisit s (hr rfl) (hb rfl) (hs rfl) n) h
  | closeEnd n => exact kicked (f := fun s => closeEnd s n) (agrees_closeEnd s (hr rfl) (hb rfl) (hs rfl) n) h
  | routeEndRecord => exact kicked (agrees_routeEndRecord s (hr rfl) (hb rfl) (hs rfl)) h
  | routeClockLimit => exact kicked (agrees_routeClockLimit s) h
  | pacingSlotOpen => exact both (agrees_pacingSlotOpen s (hs rfl) (hu rfl)) h
  | ackTimeout n => exact both (f := fun s => ackTimeout s n) (agrees_ackTimeout s (hs rfl) (hu rfl) n) h
  | linkByte k v => exact both (f := fun s => linkByte s k v) (agrees_linkByte s k v) h
  | dockAssert =>
    cases h
    cases b <;> simp [Agrees]
  | unknownRequest k => exact plain (agrees_serveUnknown s k) h
  | routeStart k => exact plain (agrees_serveRouteStart s (hr rfl) (hb rfl) (hs rfl) k) h
  | routeStartExecute k => exact plain (agrees_executeRouteStart s (hr rfl) (hb rfl) (hs rfl) k) h
  | identify k => exact served h fun _ _ _ => agrees_ownIdentify
  | status k => exact served h fun _ _ _ => agrees_ownStatus
  | countersRead k => exact served h fun _ _ _ => agrees_ownCountersRead hw
  | entryRead k => exact served h fun _ _ _ => agrees_ownEntryRead
  | segmentRead k => exact served h fun _ _ _ => agrees_ownSegmentRead
  | eventMask k => exact served h fun _ _ _ => agrees_ownEventMask
  | faultClear k => exact served h fun _ _ _ => agrees_ownFaultClear
  | laneSet k => exact served h fun _ _ _ => agrees_ownLaneSet (hg rfl)
  | familySet k => exact served h fun _ _ _ => agrees_ownFamilySet
  | familyClear k => exact served h fun _ _ _ => agrees_ownFamilyClear
  | serviceSet k => exact served h fun _ _ _ => agrees_ownServiceSet
  | bookOpen k => exact served h fun _ _ _ => agrees_ownBookOpen (hr rfl)
  | bookEntries k => exact served h fun _ _ _ => agrees_ownBookEntries (hr rfl)
  | bookClose k => exact served h fun _ _ _ => agrees_ownBookClose (hr rfl)
  | bookAbort k => exact served h fun _ _ _ => agrees_ownBookAbort (hr rfl)
  | entryModify k => exact served h fun _ _ _ => agrees_ownEntryModify (hr rfl)
  | segmentModify k => exact served h fun _ _ _ => agrees_ownSegmentModify (hr rfl)
  | routeEnd k => exact served h fun _ _ _ => agrees_ownRouteEnd (hr rfl)
  | rulesSet k => exact served h fun _ _ _ => agrees_ownRulesSet
  | segmentSet k => exact served h fun _ _ _ => agrees_ownSegmentSet (hr rfl)
  | segmentClose k => exact served h fun _ _ _ => agrees_ownSegmentClose (hr rfl)
  | segmentReopen k => exact served h fun _ _ _ => agrees_ownSegmentReopen (hr rfl)
  | classSet k => exact served h fun _ _ _ => agrees_ownClassSet (hs rfl)
  | routingSet k => exact served h fun _ _ _ => agrees_ownRoutingSet
  | uploadOpen k => exact served h fun _ _ _ => agrees_ownUploadOpen (hs rfl) (hu rfl)
  | uploadPace k => exact served h fun _ _ _ => agrees_ownUploadPace (hs rfl) (hu rfl)
  | uploadStop k => exact served h fun _ _ _ => agrees_ownUploadStop (hs rfl) (hu rfl)
  | uploadFinish k => exact served h fun _ _ _ => agrees_ownUploadFinish (hu rfl)
  | batchAck k => exact served h fun _ _ _ => agrees_ownBatchAck (hs rfl) (hu rfl)
  | batchNak k => exact served h fun _ _ _ => agrees_ownBatchNak (hs rfl) (hu rfl)
  | trunkTxFrameEnd | depotTxFrameEnd | dockDeassert | reset _ | resetLineAssert | resetLineRelease _ | coldReset _ =>
    exact agrees_of_mayReset rfl h (by cases b <;> simp_all [writes])

/-! ## Statements about every step -/

/-- A predicate that reads some blocks alone is kept by every step, when the commands that write one of them keep it. -/
theorem step_keeps {P : State → Prop} (bs : List Block) (hP : ∀ s t, (∀ b ∈ bs, Agrees b s t) → P s → P t)
    (hbs : .pending ∉ bs)
    (hexec : ∀ c s t, bs.any (writes c) = true → exec c s = .next t → P s → P t) :
    ∀ s t, P s → step s = .next t → P t := by
  intro s t h hstep
  unfold step at hstep
  split at hstep
  · cases hstep
    exact hP _ _ (fun b _ => agrees_tick b s) h
  · rename_i c rest _
    have queued : P (s.setPending rest) :=
      hP _ _ (fun b hb => agrees_setPending (fun hpending => hbs (hpending ▸ hb)) s rest) h
    cases hw : bs.any (writes c)
    · have hw' : ∀ b ∈ bs, writes c b = false := by simpa using hw
      exact hP _ _ (fun b hb => exec_agrees hstep (hw' b hb)) queued
    · exact hexec c _ _ hw hstep queued

/-- Settles O2: each command's effect is computed inside an outcome `next`, and no command writes the queue. -/
theorem commandsAnswerNextAndLeaveQueue : Obligations.CommandsAnswerNextAndLeaveQueue := by
  intro c s
  have answers : ∃ t, exec c s = .next t := by cases c <;> exact ⟨_, rfl⟩
  obtain ⟨t, h⟩ := answers
  exact ⟨t, h, exec_agrees (b := .pending) h (by simp [writes])⟩

end Sys2Proof.Machine
end

