-- ==== Sys2Proof/Proofs/StepPackage.lean ====
section
/-! SUPPORT. The inductions over steps, packaged once: what must be shown of a predicate for every step to keep it. -/

namespace Sys2Proof.Machine

/-! ## One command -/

section
variable {P : State → Prop}

/-- A command that acts only while the part runs keeps what its effect keeps. -/
theorem whenRunning_keeps {f : State → State} {s t : State} (h : whenRunning s f = .next t) (hf : P (f s)) (hs : P s) :
    P t := by
  rw [whenRunning_next] at h
  cases h
  split
  · exact hs
  · exact hf

variable (hall : ∀ s t, AgreesAll s t → P s → P t)
include hall

/-- A request keeps what its owning rule's answer keeps. -/
theorem serve_keeps {owner : State → Request → Option Answer} {k : Link} {s t : State}
    (howner : ∀ u r a, owner u r = some a → P u → P a.state) (h : whenRunning s (serve k owner) = .next t) (hs : P s) :
    P t := by
  refine whenRunning_keeps h ?_ hs
  obtain e | ⟨f, r, a, -, -, ha, e⟩ := serve_cases k owner s <;> rw [e]
  · exact hs
  · have popped : P (popRequest s k) := hall _ _ (fun b => agrees_setLink b s k _) hs
    have answered : P a.state := howner _ r a ha popped
    exact hall _ _ (fun b => (agrees_setLink b a.state k _).trans (agrees_kickBoth b _)) answered

theorem kickTrunk_keeps {f : State → State} {s t : State} (h : whenRunning s (fun s => kickTrunk (f s)) = .next t)
    (hf : P (f s)) (hs : P s) : P t :=
  whenRunning_keeps h (hall _ _ (fun b => agrees_kickTrunk b _) hf) hs

theorem kickBoth_keeps {f : State → State} {s t : State} (h : whenRunning s (fun s => kickBoth (f s)) = .next t)
    (hf : P (f s)) (hs : P s) : P t :=
  whenRunning_keeps h (hall _ _ (fun b => agrees_kickBoth b _) hf) hs

end

/-! ## Invariants through a reset -/

/-- A predicate that reads some blocks alone is kept by every step, when the loss of the depot link and both resets keep
it, and so do the commands that bring none and write one of its blocks. -/
theorem step_keeps_through_resets {P : State → Prop} (bs : List Block)
    (hP : ∀ s t, (∀ b ∈ bs, Agrees b s t) → P s → P t) (hbs : .pending ∉ bs)
    (hdown : ∀ s, P s → P (linkDown s)) (hwarm : ∀ s, P s → P (warmValues s)) (hcold : ∀ s, P s → P (coldValues s))
    (hexec : ∀ c s t, mayReset c = false → bs.any (writes c) = true → exec c s = .next t → P s → P t) :
    ∀ s t, P s → step s = .next t → P t := by
  have all {s t : State} (h : AgreesAll s t) : P s → P t := hP s t fun b _ => h b
  refine step_keeps bs hP hbs fun c s t hw h hs => ?_
  cases hc : mayReset c
  · exact hexec c s t hc hw h hs
  · obtain ⟨u, hu, ht⟩ | ⟨-, ht⟩ := exec_mayReset_cases hc h
    · have hPu : P u := by
        obtain hu | ⟨v, hv, rfl⟩ := hu
        · exact all hu hs
        · exact hdown v (all hv hs)
      obtain ht | ht := ht
      · exact all ht hPu
      · exact all ht (hwarm u hPu)
    · exact all ht (hcold s hs)

end Sys2Proof.Machine
end

