-- ==== Sys2Proof/Proofs/PairingBounds.lean ====
section
/-! SUPPORT. The pairing unit: what an EXTENDED READING, an EXTENDED EXTENSION and an expiry do to its table, and the
bounds that every step keeps (R39 to R51). -/

namespace Sys2Proof.Machine

/-! ## The pairing of a meter (R39) -/

/-- No open pairing is for this meter. -/
def Unpaired (table : List Pairing) (meter : Nat) : Prop := ∀ q ∈ table, q.head.meterId ≠ meter

theorem pairingOf_of_unpaired {u : PairingUnit} {meter : Nat} (h : Unpaired u.table meter) :
    pairingOf u meter = none := by
  simpa [pairingOf, Unpaired] using h

theorem pairingOf_eq_some {u : PairingUnit} {meter : Nat} {p : Pairing} (h : pairingOf u meter = some p) :
    p ∈ u.table ∧ p.head.meterId = meter := by
  unfold pairingOf at h
  exact ⟨List.mem_of_find?_eq_some h, by simpa using List.find?_some h⟩

/-- The first pairing of a meter that no earlier one is for is the meter's pairing. -/
theorem pairingOf_of_split {u : PairingUnit} {pre post : List Pairing} {p : Pairing} (ht : u.table = pre ++ p :: post)
    (hpre : Unpaired pre p.head.meterId) : pairingOf u p.head.meterId = some p := by
  have hnone : pre.find? (fun q => decide (q.head.meterId = p.head.meterId)) = none := by simpa [Unpaired] using hpre
  simp [pairingOf, ht, List.find?_append, hnone]

theorem filter_of_unpaired {table : List Pairing} {meter : Nat} (h : Unpaired table meter) :
    table.filter (fun q => decide (q.head.meterId ≠ meter)) = table :=
  List.filter_eq_self.2 (by simpa [Unpaired] using h)

theorem withoutPairing_of_split {u : PairingUnit} {pre post : List Pairing} {p : Pairing}
    (ht : u.table = pre ++ p :: post) (hpre : Unpaired pre p.head.meterId) (hpost : Unpaired post p.head.meterId) :
    withoutPairing u p.head.meterId = { u with table := pre ++ post } := by
  rw [withoutPairing, ht, List.filter_append, List.filter_cons_of_neg (by simp), filter_of_unpaired hpre,
    filter_of_unpaired hpost]

/-- In a table with one pairing for a meter, the ones around a pairing are for other meters. -/
theorem unpaired_of_nodup {pre post : List Pairing} {p : Pairing}
    (h : ((pre ++ p :: post).map (·.head.meterId)).Nodup) :
    Unpaired pre p.head.meterId ∧ Unpaired post p.head.meterId := by
  simp only [List.map_append, List.map_cons, List.nodup_append, List.nodup_cons, List.mem_map, List.mem_cons] at h
  obtain ⟨-, ⟨hpost, -⟩, hpre⟩ := h
  exact ⟨fun q hq heq => hpre _ ⟨q, hq, rfl⟩ _ (.inl rfl) heq, fun q hq heq => hpost ⟨q, hq, heq⟩⟩

/-! ## A completion, and the expiry of a pairing that opens (R39, R51) -/

theorem completePairing_of_split {u : PairingUnit} {pre post : List Pairing} {p : Pairing}
    (ht : u.table = pre ++ p :: post) (hn : (u.table.map (·.head.meterId)).Nodup) (ext : Option ExtFields)
    (mark : PairMark) :
    completePairing u p ext mark =
      { table := pre ++ post
        hearings := u.hearings ++ [hearingOf p.head p.reading ext (some mark)]
        counters := countCompletion u.counters mark } := by
  obtain ⟨hpre, hpost⟩ := unpaired_of_nodup (ht ▸ hn)
  unfold completePairing
  rw [withoutPairing_of_split (u := queueHearing u _) ht hpre hpost]
  rfl

/-- A pairing for a new meter opens, and an expiry due at once takes it out again. -/
theorem openAndExpire_of_unpaired {u : PairingUnit} {h : FrameHead} (hu : Unpaired u.table h.meterId)
    (r : ReadingFields) (deadline now : Nat) :
    openAndExpire u h r deadline now =
      if deadline ≤ now then
        { table := u.table
          hearings := u.hearings ++ [hearingOf h r none (some .timeout)]
          counters := { u.counters with opened := bump u.counters.opened, timedOut := bump u.counters.timedOut } }
      else
        { table := u.table ++ [{ head := h, reading := r, deadline := deadline }]
          hearings := u.hearings
          counters := { u.counters with opened := bump u.counters.opened } } := by
  have hfound := pairingOf_of_split (u := openPairing u h r deadline) (post := []) rfl hu
  have hwithout := withoutPairing_of_split (post := [])
    (u := queueHearing (openPairing u h r deadline) (hearingOf h r none (some .timeout)))
    (p := { head := h, reading := r, deadline := deadline }) rfl hu (by simp [Unpaired])
  unfold openAndExpire expirePairing
  rw [hfound]
  dsimp only
  split
  · unfold completePairing
    rw [hwithout]
    simp [queueHearing, openPairing, countCompletion]
  · rfl

/-- The deadline as a sum: an end that has passed leaves nothing to add (R40). -/
theorem pairingDeadline_eq (clock : Clock) (timebase : Nat) (h : FrameHead) :
    pairingDeadline clock timebase h =
      if clock.running then timebase + (h.closeTag + h.window - clock.value) else timebase + h.window := by
  unfold pairingDeadline
  split
  · split <;> omega
  · rfl

/-! ## The pairing to evict (R47) -/

/-- The earliest deadline of a table is that of one of its pairings, and no later than any other. -/
theorem earliestDeadline_spec {table : List Pairing} (h : table ≠ []) :
    ∃ d, earliestDeadline table = some d ∧ (∃ p ∈ table, p.deadline = d) ∧ ∀ q ∈ table, d ≤ q.deadline := by
  induction table with
  | nil => exact absurd rfl h
  | cons p rest ih =>
    unfold earliestDeadline
    by_cases hrest : rest = []
    · subst hrest
      exact ⟨p.deadline, rfl, ⟨p, by simp, rfl⟩, by simp⟩
    · obtain ⟨d, hd, ⟨q, hq, hqd⟩, hle⟩ := ih hrest
      rw [hd]
      refine ⟨min p.deadline d, rfl, ?_, ?_⟩
      · by_cases hpd : p.deadline ≤ d
        · exact ⟨p, by simp, by omega⟩
        · exact ⟨q, by simp [hq], by omega⟩
      · intro x hx
        obtain rfl | hx := List.mem_cons.1 hx
        · omega
        · have := hle x hx
          omega

theorem evictionChoice_isSome {table : List Pairing} (h : table ≠ []) : ∃ p ∈ table, evictionChoice table = some p := by
  obtain ⟨d, hd, ⟨p, hp, hpd⟩, -⟩ := earliestDeadline_spec h
  cases hc : evictionChoice table with
  | none =>
    have hne : some p.deadline ≠ earliestDeadline table := by simpa using List.find?_eq_none.1 hc p hp
    exact absurd (by rw [hd, hpd]) hne
  | some q => exact ⟨q, List.mem_of_find?_eq_some hc, rfl⟩

/-- The first pairing of the earliest deadline is the one to evict. -/
theorem evictionChoice_of_split {pre post : List Pairing} {p : Pairing} (hpre : ∀ q ∈ pre, p.deadline < q.deadline)
    (hpost : ∀ q ∈ post, p.deadline ≤ q.deadline) : evictionChoice (pre ++ p :: post) = some p := by
  have least : earliestDeadline (pre ++ p :: post) = some p.deadline := by
    obtain ⟨d, hd, ⟨q, hq, hqd⟩, hle⟩ := earliestDeadline_spec (table := pre ++ p :: post) (by simp)
    have hdp : d ≤ p.deadline := hle p (by simp)
    have hpd : p.deadline ≤ d := by
      rw [← hqd]
      simp only [List.mem_append, List.mem_cons] at hq
      obtain hq | rfl | hq := hq
      · exact (hpre q hq).le
      · exact le_rfl
      · exact hpost q hq
    rw [hd, le_antisymm hdp hpd]
  have hnone : pre.find? (fun q => decide (some q.deadline = some p.deadline)) = none := by
    simpa using fun q hq => (hpre q hq).ne'
  rw [evictionChoice, least, List.find?_append, hnone]
  simp

/-! ## The bounds (R39, R41) -/

/-- `PairingBounded` of the unit alone. -/
def UnitBounded (u : PairingUnit) : Prop :=
  u.table.length ≤ 16 ∧ u.table.length + u.hearings.length ≤ 17 ∧ (u.table.map (·.head.meterId)).Nodup

theorem pairingBounded_iff (s : State) : PairingBounded s ↔ UnitBounded s.pairing := Iff.rfl

/-- A pairing of the meter leaves the table, and one hearing joins the queue. -/
theorem unitBounded_completePairing {u : PairingUnit} (hu : UnitBounded u) {p : Pairing} (hp : p ∈ u.table)
    (ext : Option ExtFields) (mark : PairMark) :
    UnitBounded (completePairing u p ext mark)
      ∧ (completePairing u p ext mark).table.length < u.table.length
      ∧ (completePairing u p ext mark).hearings.length = u.hearings.length + 1
      ∧ Unpaired (completePairing u p ext mark).table p.head.meterId := by
  obtain ⟨hlen, hsum, hnodup⟩ := hu
  obtain ⟨pre, post, ht⟩ := List.append_of_mem hp
  obtain ⟨hpre, hpost⟩ := unpaired_of_nodup (ht ▸ hnodup)
  rw [completePairing_of_split ht hnodup]
  have kept : ((pre ++ post).map (·.head.meterId)).Nodup :=
    hnodup.sublist (by rw [ht]; exact (List.Sublist.append_left (List.sublist_cons_self p post) pre).map _)
  have hlength : u.table.length = pre.length + post.length + 1 := by rw [ht]; simp; omega
  refine ⟨⟨?_, ?_, kept⟩, ?_, by simp, ?_⟩
  · simp; omega
  · simp; omega
  · simp; omega
  · intro q hq
    obtain hq | hq := List.mem_append.1 hq
    · exact hpre q hq
    · exact hpost q hq

theorem unitBounded_expirePairing {u : PairingUnit} (hu : UnitBounded u) (meter now : Nat) :
    UnitBounded (expirePairing u meter now) := by
  unfold expirePairing
  split
  · rename_i p hp
    split
    · exact (unitBounded_completePairing hu (pairingOf_eq_some hp).1 _ _).1
    · exact hu
  · exact hu

theorem unitBounded_openAndExpire {u : PairingUnit} {h : FrameHead} (hu : UnitBounded u)
    (hfree : Unpaired u.table h.meterId) (hroom : u.table.length < 16)
    (hsum : u.table.length + u.hearings.length < 17) (r : ReadingFields) (deadline now : Nat) :
    UnitBounded (openAndExpire u h r deadline now) := by
  obtain ⟨-, -, hnodup⟩ := hu
  rw [openAndExpire_of_unpaired hfree]
  split
  · exact ⟨hroom.le, by simp; omega, hnodup⟩
  · refine ⟨by simp; omega, by simp; omega, ?_⟩
    simp only [List.map_append, List.map_cons, List.map_nil]
    refine List.Nodup.append hnodup (by simp) ?_
    simp only [List.disjoint_singleton, List.mem_map, not_exists, not_and]
    exact fun q hq => hfree q hq

theorem makeRoom_of_room {u : PairingUnit} (h : u.table.length < 16) : makeRoom u = u := if_pos h

theorem makeRoom_of_full {u : PairingUnit} {p : Pairing} (h : u.table.length = 16)
    (hp : evictionChoice u.table = some p) : makeRoom u = completePairing u p none .evicted := by
  rw [makeRoom, if_neg (by rw [h]; decide), hp]

theorem unitBounded_takeReading {u : PairingUnit} (hu : UnitBounded u) (hempty : u.hearings = []) (h : FrameHead)
    (r : ReadingFields) (deadline now : Nat) : UnitBounded (takeReading u h r deadline now) := by
  obtain ⟨hlen, hsum, hnodup⟩ := hu
  have hlen0 : u.hearings.length = 0 := by simp [hempty]
  unfold takeReading
  split
  · rename_i p hp
    obtain ⟨hmem, hmeter⟩ := pairingOf_eq_some hp
    split
    · refine ⟨by simpa [mergeCopy] using hlen, by simpa [mergeCopy] using hsum, ?_⟩
      have sameMeters : (mergeCopy u h r).table.map (·.head.meterId) = u.table.map (·.head.meterId) := by
        simp only [mergeCopy, List.map_map]
        refine List.map_congr_left fun q _ => ?_
        simp only [Function.comp_apply]
        split
        · rename_i hq
          exact hq.1.symm
        · rfl
      rw [sameMeters]
      exact hnodup
    · obtain ⟨hb, hless, hhear, hfree⟩ := unitBounded_completePairing ⟨hlen, hsum, hnodup⟩ hmem none .abandoned
      exact unitBounded_openAndExpire hb (hmeter ▸ hfree) (by omega) (by omega) r deadline now
  · rename_i hp
    have hfree : Unpaired u.table h.meterId := by simpa [pairingOf, Unpaired] using hp
    by_cases hroom : u.table.length < 16
    · rw [makeRoom_of_room hroom]
      exact unitBounded_openAndExpire ⟨hlen, hsum, hnodup⟩ hfree hroom (by omega) r deadline now
    · have hfull : u.table.length = 16 := by omega
      obtain ⟨p, hmem, hchoice⟩ := evictionChoice_isSome (table := u.table) (by rintro h; simp [h] at hfull)
      rw [makeRoom_of_full hfull hchoice]
      obtain ⟨hb, hless, hhear, -⟩ := unitBounded_completePairing ⟨hlen, hsum, hnodup⟩ hmem none .evicted
      have hfree' : Unpaired (completePairing u p none .evicted).table h.meterId := by
        intro q hq
        exact hfree q (List.mem_of_mem_filter hq)
      exact unitBounded_openAndExpire hb hfree' (by omega) (by omega) r deadline now

theorem unitBounded_takeFrame {u : PairingUnit} (hu : UnitBounded u) (hempty : u.hearings = []) (f : DecodedFrame)
    (clock : Clock) (now : Nat) : UnitBounded (takeFrame u f clock now) := by
  obtain ⟨hlen, hsum, hnodup⟩ := hu
  unfold takeFrame
  split
  · cases hbody : f.body with
    | reading r =>
      rw [takePlain_reading hbody]
      exact ⟨hlen, by simp [hempty]; omega, hnodup⟩
    | extension x =>
      rw [takePlain_extension hbody]
      exact ⟨hlen, hsum, hnodup⟩
  · exact unitBounded_takeReading ⟨hlen, hsum, hnodup⟩ hempty _ _ _ _
  · unfold takeExtension
    split
    · exact ⟨hlen, hsum, hnodup⟩
    · rename_i p hp
      split
      · exact (unitBounded_completePairing ⟨hlen, hsum, hnodup⟩ (pairingOf_eq_some hp).1 _ _).1
      · exact ⟨hlen, hsum, hnodup⟩

theorem unitBounded_fewer_hearings {u : PairingUnit} (hu : UnitBounded u) {h : Hearing} {rest : List Hearing}
    (hh : u.hearings = h :: rest) : UnitBounded { u with hearings := rest } := by
  obtain ⟨hlen, hsum, hnodup⟩ := hu
  refine ⟨hlen, ?_, hnodup⟩
  simp only [hh, List.length_cons] at hsum
  dsimp only
  omega

theorem pairing_matcherTake (s : State) :
    (matcherTake s).pairing = s.pairing
      ∨ ∃ h rest, s.pairing.hearings = h :: rest
        ∧ (matcherTake s).pairing = { s.pairing with hearings := rest } := by
  unfold matcherTake
  split
  · exact .inl rfl
  · rename_i h rest hh
    split
    · obtain ⟨_, _, _, _, _, _, _, _, _, _, e⟩ := hear_shape (s.setPairing { s.pairing with hearings := rest }) h
      exact .inr ⟨h, rest, hh, by rw [e]; rfl⟩
    · exact .inl rfl

theorem unitBounded_clearGroup {s : State} (hs : UnitBounded s.pairing) (g : CounterGroup) :
    UnitBounded (clearGroup s g).pairing := by
  cases g <;> exact hs

/-- Settles O14: each command of the unit keeps its bounds, for a completion makes the place that an opening takes. -/
theorem pairingStaysBounded : Obligations.PairingStaysBounded := by
  have hP (s t : State) (h : ∀ b ∈ [Block.pairing], Agrees b s t) (hs : PairingBounded s) : PairingBounded t := by
    have e : t.pairing = s.pairing := h .pairing (by simp)
    rw [pairingBounded_iff] at hs ⊢
    rw [e]
    exact hs
  have hall (s t : State) (h : AgreesAll s t) : PairingBounded s → PairingBounded t := hP s t fun b _ => h b
  have empty (s : State) (h : s.pairing = {}) : PairingBounded s := by
    rw [pairingBounded_iff, h]
    exact ⟨by simp, by simp, by simp⟩
  refine step_keeps_through_resets [.pairing] hP (by simp) ?down (fun s _ => empty _ rfl) (fun s _ => empty _ rfl) ?exec
  case down =>
    exact fun s hs => hP _ _ (by simpa using agrees_linkDown (by simp) (by simp) (by simp) s) hs
  case exec =>
    intro c s t hc hw h hs
    cases c <;> simp [writes, mayReset] at hc hw
    case pairingTakeFrame =>
      refine whenRunning_keeps h ?_ hs
      unfold pairingTake
      split
      · exact unitBounded_takeFrame hs (by assumption) _ _ _
      · exact hs
    case pairTimeout m =>
      exact whenRunning_keeps (f := fun s => s.setPairing (expirePairing s.pairing m s.timebase)) h
        (unitBounded_expirePairing hs m s.timebase) hs
    case matcherTakeHearing =>
      refine kickTrunk_keeps hall h ?_ hs
      rw [pairingBounded_iff] at hs ⊢
      obtain e | ⟨x, rest, hh, e⟩ := pairing_matcherTake s <;> rw [e]
      · exact hs
      · exact unitBounded_fewer_hearings hs hh
    case countersRead k =>
      refine serve_keeps hall (fun u r a ha hu => ?_) h hs
      unfold ownCountersRead at ha
      split at ha <;> cases ha
      unfold readCounters
      split
      · exact hu
      · split
        · exact unitBounded_clearGroup hu _
        · exact hu
        · exact hu

/-! ## The effects, case by case (R44 to R51) -/

theorem makeRoom_of_evicted {u : PairingUnit} {pre post : List Pairing} {p : Pairing} (ht : u.table = pre ++ p :: post)
    (hfull : u.table.length = 16) (hn : (u.table.map (·.head.meterId)).Nodup)
    (hpre : ∀ q ∈ pre, p.deadline < q.deadline) (hpost : ∀ q ∈ post, p.deadline ≤ q.deadline) :
    makeRoom u =
      { table := pre ++ post
        hearings := u.hearings ++ [hearingOf p.head p.reading none (some .evicted)]
        counters := { u.counters with evicted := bump u.counters.evicted } } := by
  rw [makeRoom_of_full hfull (ht ▸ evictionChoice_of_split hpre hpost), completePairing_of_split ht hn]
  rfl

/-- A repeat copy changes the pairing of its meter alone. -/
theorem mergeCopy_of_split {u : PairingUnit} {pre post : List Pairing} {p : Pairing} {h : FrameHead}
    (ht : u.table = pre ++ p :: post) (hn : (u.table.map (·.head.meterId)).Nodup) (hm : p.head.meterId = h.meterId)
    (r : ReadingFields) :
    mergeCopy u h r =
      { u with
        table := pre ++ (if p.head.rssi < h.rssi then { p with head := h, reading := r } else p) :: post
        counters := { u.counters with repeated := bump u.counters.repeated } } := by
  obtain ⟨hpre, hpost⟩ := unpaired_of_nodup (ht ▸ hn)
  have others {l : List Pairing} (hl : Unpaired l p.head.meterId) :
      l.map (fun q => if q.head.meterId = h.meterId ∧ q.head.rssi < h.rssi then { q with head := h, reading := r } else q)
        = l := by
    exact (List.map_congr_left fun q hq => if_neg fun hc => hl q hq (hc.1.trans hm.symm)).trans (List.map_id l)
  unfold mergeCopy
  rw [ht, List.map_append, List.map_cons, others hpre, others hpost]
  simp [hm]

theorem samePair_eq_true_iff (p : Pairing) (h : FrameHead) :
    samePair p h = true ↔ p.head.familyIndex = h.familyIndex ∧ p.head.sequence = h.sequence := by
  simp [samePair]

theorem samePair_eq_false_iff (p : Pairing) (h : FrameHead) :
    samePair p h = false ↔ p.head.familyIndex ≠ h.familyIndex ∨ p.head.sequence ≠ h.sequence := by
  rw [← Bool.not_eq_true, samePair_eq_true_iff, not_and_or]

section
variable {s : State} {o : Offer} (hrun : Running s) (hoffer : s.decoder.offer = some o)
  (hempty : s.pairing.hearings = []) (hmode : o.frame.head.mode = .extended)
include hrun hoffer hempty hmode

theorem exec_pairingTakeFrame_reading {r : ReadingFields} (hbody : o.frame.body = .reading r) :
    exec .pairingTakeFrame s = .next ((handOffer s o).setPairing
      (takeReading s.pairing o.frame.head r (pairingDeadline s.clock s.timebase o.frame.head) s.timebase)) := by
  rw [exec_pairingTakeFrame hrun hoffer hempty, takeFrame, hmode, hbody]

theorem exec_pairingTakeFrame_extension {x : Option ExtFields} (hbody : o.frame.body = .extension x) :
    exec .pairingTakeFrame s = .next ((handOffer s o).setPairing (takeExtension s.pairing o.frame.head x)) := by
  rw [exec_pairingTakeFrame hrun hoffer hempty, takeFrame, hmode, hbody]

end

/-- Settles O12: what `takeReading` does with no pairing of the meter, with one of the same pair, with another one, and
with a full table. -/
theorem extendedReadingLeavesOnePairing : Obligations.ExtendedReadingLeavesOnePairing := by
  intro s o r hrun hbounded hoffer hempty hmode hbody h c ends deadline opened
  obtain ⟨-, -, hnodup⟩ := hbounded
  have taken := exec_pairingTakeFrame_reading hrun hoffer hempty hmode hbody
  have hdeadline : pairingDeadline s.clock s.timebase h = deadline := pairingDeadline_eq _ _ _
  have opens {u : PairingUnit} (hfree : Unpaired u.table h.meterId) :
      (handOffer s o).setPairing (openAndExpire u h r deadline s.timebase) = opened u.table u.hearings u.counters := by
    rw [openAndExpire_of_unpaired hfree]
    rfl
  rw [taken, hdeadline]
  refine ⟨fun hfree hroom => ?fresh, fun pre p post ht hm => ⟨fun hfam hseq => ?again, fun hother => ?abandoned⟩,
    fun hfree hfull pre p post ht hpre hpost => ?evicted⟩
  case fresh =>
    rw [takeReading, pairingOf_of_unpaired hfree, makeRoom_of_room hroom, opens hfree, hempty]
  case again =>
    have found : pairingOf s.pairing h.meterId = some p := hm ▸ pairingOf_of_split ht (unpaired_of_nodup (ht ▸ hnodup)).1
    rw [takeReading, found]
    dsimp only
    rw [if_pos ((samePair_eq_true_iff p h).2 ⟨hfam, hseq⟩), mergeCopy_of_split ht hnodup hm]
    rfl
  case abandoned =>
    obtain ⟨hpre, hpost⟩ := unpaired_of_nodup (ht ▸ hnodup)
    have found : pairingOf s.pairing h.meterId = some p := hm ▸ pairingOf_of_split ht hpre
    have hfree : Unpaired (pre ++ post) h.meterId := by
      rw [← hm]
      exact fun q hq => (List.mem_append.1 hq).elim (hpre q) (hpost q)
    rw [takeReading, found]
    dsimp only
    rw [if_neg (Bool.not_eq_true _ ▸ (samePair_eq_false_iff p h).2 hother), completePairing_of_split ht hnodup, opens hfree, hempty]
    rfl
  case evicted =>
    have hfree' : Unpaired (pre ++ post) h.meterId := fun q hq => hfree q (by
      rw [ht]
      simp only [List.mem_append, List.mem_cons] at hq ⊢
      tauto)
    rw [takeReading, pairingOf_of_unpaired hfree, makeRoom_of_evicted ht hfull hnodup hpre hpost, opens hfree', hempty]
    rfl

/-- Settles O13: an extension and an expiry both complete the pairing that the meter has. -/
theorem extensionsAndTimeoutsCompletePairings : Obligations.ExtensionsAndTimeoutsCompletePairings := by
  refine ⟨fun s o x hrun hbounded hoffer hempty hmode hbody => ?extension,
    fun s pre post p hrun hbounded ht hdue => ?timeout⟩
  case extension =>
    obtain ⟨-, -, hnodup⟩ := hbounded
    intro h c base
    rw [exec_pairingTakeFrame_extension hrun hoffer hempty hmode hbody]
    refine ⟨fun hfree => ?orphan, fun pre p post ht hm => ?paired⟩
    case orphan =>
      rw [takeExtension, pairingOf_of_unpaired hfree]
      rfl
    case paired =>
      have found : pairingOf s.pairing h.meterId = some p :=
        hm ▸ pairingOf_of_split ht (unpaired_of_nodup (ht ▸ hnodup)).1
      rw [takeExtension, found]
      dsimp only
      refine ⟨fun hother => ?mismatch, fun hfam hseq => ?completed⟩
      case mismatch =>
        rw [if_neg (Bool.not_eq_true _ ▸ (samePair_eq_false_iff p h).2 hother)]
        rfl
      case completed =>
        rw [if_pos ((samePair_eq_true_iff p h).2 ⟨hfam, hseq⟩), completePairing_of_split ht hnodup, hempty]
        rfl
  case timeout =>
    obtain ⟨-, -, hnodup⟩ := hbounded
    have found : pairingOf s.pairing p.head.meterId = some p :=
      pairingOf_of_split ht (unpaired_of_nodup (ht ▸ hnodup)).1
    have expired : exec (.pairTimeout p.head.meterId) s =
        .next (s.setPairing (expirePairing s.pairing p.head.meterId s.timebase)) :=
      whenRunning_of_running hrun fun s => s.setPairing (expirePairing s.pairing p.head.meterId s.timebase)
    rw [expired, expirePairing, found]
    dsimp only
    rw [if_pos hdue, completePairing_of_split ht hnodup]
    rfl

end Sys2Proof.Machine
end

