-- ==== Sys2Proof/Proofs/RecordFlow.lean ====
section
/-! SUPPORT. The way of a record through the builder, the store and the uploader: the operations that move it, and the
induction over steps for what they all keep. -/

namespace Sys2Proof.Machine

/-! ## Commands that record -/

/-- Two states agree on the builder, the store and the uploader's batches. -/
def AgreesRecords (s t : State) : Prop := Agrees .builder s t ∧ Agrees .store s t ∧ Agrees .uploader s t

theorem AgreesRecords.refl (s : State) : AgreesRecords s s :=
  ⟨Agrees.refl _ s, Agrees.refl _ s, Agrees.refl _ s⟩

theorem AgreesRecords.trans {s t u : State} (h : AgreesRecords s t) (h' : AgreesRecords t u) : AgreesRecords s u := by
  obtain ⟨hb, hs, hu⟩ := h
  obtain ⟨hb', hs', hu'⟩ := h'
  exact ⟨hb.trans hb', hs.trans hs', hu.trans hu'⟩

theorem AgreesAll.records {s t : State} (h : AgreesAll s t) : AgreesRecords s t := ⟨h _, h _, h _⟩

theorem agreesRecords_of_eq {s t : State} (hb : t.builder = s.builder) (hs : t.store = s.store)
    (hu : t.uploader = s.uploader) : AgreesRecords s t :=
  ⟨hb, hs, by simp [Agrees, hu]⟩

theorem agreesRecords_notifySegment (s : State) (n : Nat) (f : Segment → Segment) :
    AgreesRecords s (notifySegment s n f) :=
  ⟨agrees_notifySegment (by simp) s n f, agrees_notifySegment (by simp) s n f, agrees_notifySegment (by simp) s n f⟩

theorem agreesRecords_changeRoute (s : State) (r : Route) : AgreesRecords s (changeRoute s r) :=
  agreesRecords_of_eq rfl rfl rfl

/-- As far as the records go, the step from `s` to `t` is the taking of a group by the builder. -/
def Recorded (s t : State) : Prop := ∃ u g, AgreesRecords s u ∧ AgreesRecords (takeGroup u g) t

theorem Recorded.group {s u : State} (h : AgreesRecords s u) (g : List Draft) : Recorded s (takeGroup u g) :=
  ⟨u, g, h, AgreesRecords.refl _⟩

theorem Recorded.none {s t : State} (h : AgreesRecords s t) : Recorded s t := ⟨t, [], h, AgreesRecords.refl t⟩

theorem Recorded.before {s t u : State} (h : AgreesRecords s t) (h' : Recorded t u) : Recorded s u := by
  obtain ⟨v, g, hv, hu⟩ := h'
  exact ⟨v, g, h.trans hv, hu⟩

theorem Recorded.after {s t u : State} (h : Recorded s t) (h' : AgreesRecords t u) : Recorded s u := by
  obtain ⟨v, g, hv, ht⟩ := h
  exact ⟨v, g, hv, ht.trans h'⟩

theorem recorded_hearForeign (s : State) (h : Hearing) : Recorded s (hearForeign s h) := by
  have screened (t : State) (ht : AgreesRecords s t) (a : Conditions) (creates : Bool) :
      Recorded s (hearForeignScreened t h a creates) := by
    unfold hearForeignScreened
    refine .before ht (.group ?_ _)
    exact agreesRecords_of_eq rfl rfl rfl
  have seen : AgreesRecords s (s.setMatcher { s.matcher with foreignSeen := bump s.matcher.foreignSeen }) :=
    agreesRecords_of_eq rfl rfl rfl
  unfold hearForeign
  simp only
  split
  · exact .none seen
  all_goals
    split
    · exact screened _ seen _ _
    · split
      · exact .none (seen.trans (agreesRecords_of_eq rfl rfl rfl))
      · exact screened _ seen _ _

theorem recorded_hearFirst (s : State) (e : Entry) (h : Hearing) (late : Bool) : Recorded s (hearFirst s e h late) := by
  unfold hearFirst
  refine .group (.trans ?_ (agreesRecords_notifySegment _ _ _)) _
  exact agreesRecords_of_eq rfl rfl rfl

theorem recorded_hearLater (s : State) (e : Entry) (h : Hearing) : Recorded s (hearLater s e h) := by
  have absorbed (r : Screening) (capped : Bool) : Recorded s (hearAbsorbed s e h r capped) := by
    unfold hearAbsorbed
    refine .group ?_ _
    exact agreesRecords_of_eq rfl rfl rfl
  unfold hearLater
  split
  · exact .none (agreesRecords_of_eq rfl rfl rfl)
  · simp only
    split
    · split
      · unfold hearRevision
        refine .group ?_ _
        exact agreesRecords_of_eq rfl rfl rfl
      · exact absorbed _ _
    · exact absorbed _ _

theorem recorded_hear (s : State) (h : Hearing) : Recorded s (hear s h) := by
  unfold hear
  split
  · split
    · exact recorded_hearForeign s h
    · unfold hearBook
      split
      · exact .none (agreesRecords_of_eq rfl rfl rfl)
      · split
        · exact .none (agreesRecords_of_eq rfl rfl rfl)
        · split
          · exact recorded_hearFirst s _ h false
          · exact recorded_hearFirst s _ h true
          all_goals exact recorded_hearLater s _ h
  · exact .none (agreesRecords_of_eq rfl rfl rfl)

theorem recorded_matcherTake (s : State) : Recorded s (matcherTake s) := by
  unfold matcherTake
  split
  · exact .none (AgreesRecords.refl s)
  · split
    · refine .before ?_ (recorded_hear _ _)
      exact agreesRecords_of_eq rfl rfl rfl
    · exact .none (AgreesRecords.refl s)

theorem recorded_handMissed (s : State) (n p : Nat) (w : WaitingMissed) : Recorded s (handMissed s n p w) := by
  unfold handMissed
  split
  · exact .group (agreesRecords_notifySegment _ _ _) _
  · exact .none (AgreesRecords.refl s)

theorem recorded_walkVisit (s : State) (n : Nat) : Recorded s (walkVisit s n) := by
  unfold walkVisit
  split
  · exact .none (AgreesRecords.refl s)
  · split
    · split
      · exact recorded_handMissed s n _ _
      · split
        · split
          · refine .before ?_ (recorded_handMissed _ n _ _)
            exact agreesRecords_of_eq rfl rfl rfl
          · exact .none (agreesRecords_of_eq rfl rfl rfl)
        · exact .none (agreesRecords_of_eq rfl rfl rfl)
    · exact .none (AgreesRecords.refl s)

theorem recorded_closeEnd (s : State) (n : Nat) : Recorded s (closeEnd s n) := by
  unfold closeEnd
  split
  · exact .none (AgreesRecords.refl s)
  · split
    · refine .after (.group ?_ _) (AgreesAll.records fun b => agrees_raiseEvent b _ _ _ _)
      exact agreesRecords_of_eq rfl rfl rfl
    · exact .none (AgreesRecords.refl s)

theorem recorded_routeEndRecord (s : State) : Recorded s (routeEndRecord s) := by
  unfold routeEndRecord
  split
  · refine .after (.group (AgreesRecords.refl s) [routeEndDraft s]) ?_
    exact agreesRecords_of_eq rfl rfl rfl
  · exact .none (AgreesRecords.refl s)

theorem recorded_judgeRouteStart (s : State) (hour : Nat) : Recorded s (judgeRouteStart s hour).state := by
  unfold judgeRouteStart
  split
  · exact .none (AgreesRecords.refl s)
  · split
    · exact .none (AgreesRecords.refl s)
    · refine .after ?_ (agreesRecords_changeRoute _ _)
      refine .group ?_ _
      exact agreesRecords_of_eq rfl rfl rfl

theorem recorded_serveRouteStart (k : Link) (s : State) : Recorded s (serveRouteStart k s) := by
  have linked (t : State) (p : LinkPort) : AgreesRecords t (t.setLink k p) :=
    AgreesAll.records fun b => agrees_setLink b t k p
  have kicked (t : State) : AgreesRecords t (kickBoth t) := AgreesAll.records fun b => agrees_kickBoth b t
  unfold serveRouteStart
  split
  · exact .none (AgreesRecords.refl s)
  · split
    · simp only
      split
      · exact .none ((linked s _).trans (linked _ _))
      · exact ((recorded_judgeRouteStart _ _).before (linked s _)).after ((linked _ _).trans (kicked _))
    · exact .none (AgreesRecords.refl s)

theorem recorded_executeRouteStart (k : Link) (s : State) : Recorded s (executeRouteStart k s) := by
  have linked (t : State) (p : LinkPort) : AgreesRecords t (t.setLink k p) :=
    AgreesAll.records fun b => agrees_setLink b t k p
  have kicked (t : State) : AgreesRecords t (kickBoth t) := AgreesAll.records fun b => agrees_kickBoth b t
  unfold executeRouteStart
  split
  · split
    · exact ((recorded_judgeRouteStart _ _).before (linked s _)).after ((linked _ _).trans (kicked _))
    · exact .none (AgreesRecords.refl s)
  all_goals exact .none (AgreesRecords.refl s)

/-! ## What every operation on the records keeps -/

/-- A change of the uploader that leaves its batches: it ends with none in flight alone, and only an IDLE one takes another
window, of at most 8 (R153, R155, R167). -/
structure KeepsBatches (u v : Uploader) : Prop where
  batches : v.batches = u.batches
  idle : v.state = .idle → u.state = .idle ∨ u.batches = []
  window : v.window = u.window ∨ u.state = .idle ∧ v.window ≤ 8

theorem openedUploader_window_le {u : Uploader} {mask : Nat} {batchSize window ackTimeout pacing : Option Nat}
    (h : uploadArgumentsGood mask batchSize window ackTimeout pacing = true) :
    (openedUploader u mask batchSize window ackTimeout pacing).window ≤ 8 := by
  cases window with
  | none => exact le_rfl
  | some w =>
    simp only [uploadArgumentsGood, settingInRange, Bool.and_eq_true, Option.all_some, decide_eq_true_eq] at h
    obtain ⟨⟨⟨-, -, hw⟩, -⟩, -⟩ := h
    exact hw

/-- A predicate that every operation on the records keeps (sections 8.2 to 8.6 and 9.5 to 9.8). -/
structure RecordInvariant (P : State → Prop) : Prop where
  agrees : ∀ {s t}, AgreesRecords s t → P s → P t
  draft : ∀ {s} d, P s → P (takeDraft s d)
  pass : ∀ {s}, P s → P (builderPass s)
  grant : ∀ {s}, P s → P (grantPort s)
  form : ∀ {s}, P s → P (tryForm s)
  written : ∀ {s r k}, s.store.port = some (.write r k) → P s → P (settleStore (writeDone s r k))
  failed : ∀ {s r k}, s.store.port = some (.write r k) → P s → P (settleStore (writeFailed s r))
  read : ∀ {s n b} ok, s.store.port = some (.read n b) → P s → P (settleStore (finishRead s n b ok))
  timedOut : ∀ {s n b}, waitingBatch s.uploader n = some b → P s → P (timeOutBatch s b)
  acknowledged : ∀ {s n b}, waitingBatch s.uploader n = some b → P s → P (acknowledge s b)
  refused : ∀ {s n b}, waitingBatch s.uploader n = some b → P s → P (refuseBatch s b)
  ended : ∀ {s} x, P s → P (endUpload s x)
  uploader : ∀ {s u}, KeepsBatches s.uploader u → P s → P (s.setUploader u)
  classSet : ∀ {s r a}, ownClassSet s r = some a → P s → P a.state
  cleared : ∀ {s} g, P s → P (clearGroup s g)

namespace RecordInvariant

variable {P : State → Prop} (hP : RecordInvariant P)
include hP

theorem all {s t : State} (h : AgreesAll s t) (hs : P s) : P t := hP.agrees h.records hs

theorem group {s : State} (g : List Draft) (hs : P s) : P (takeGroup s g) := by
  induction g generalizing s with
  | nil => exact hs
  | cons d rest ih => exact ih (hP.draft d hs)

theorem recorded {s t : State} (h : Recorded s t) (hs : P s) : P t := by
  obtain ⟨u, g, hu, ht⟩ := h
  exact hP.agrees ht (hP.group g (hP.agrees hu hs))

theorem settle {s : State} (hs : P s) : P (settleStore s) := by
  have drawn (n : Nat) : P (s.setFreeCounter n) := by
    refine hP.agrees ?_ hs
    exact agreesRecords_of_eq rfl rfl rfl
  unfold settleStore
  split
  · simp only
    split
    · exact hP.grant (hP.form (drawn _))
    · exact hP.grant (hP.form (hP.grant (drawn _)))
  · exact hP.grant (hP.form (hP.grant hs))

theorem changed {s : State} {u : Uploader} (hu : KeepsBatches s.uploader u) (hs : P s) : P (changeUpload s u) :=
  hP.all (fun b => agrees_raiseEvent b _ _ _ _) (hP.uploader hu hs)

theorem finished {s : State} (hs : P s) : P (finishIfDrained s) := by
  unfold finishIfDrained
  split
  · rename_i hd
    exact hP.changed ⟨rfl, fun _ => .inr hd.2, .inl rfl⟩ hs
  · exact hs

theorem lost {s : State} (hs : P s) : P (linkDown s) := by
  have down : P ((s.setDepotUp false).setDepot { s.depot with tx := none }) := by
    refine hP.agrees ?_ hs
    exact agreesRecords_of_eq rfl rfl rfl
  have upload {t : State} (ht : P t) : P (loseUpload t) := by
    unfold loseUpload
    split
    · exact ht
    · exact hP.ended _ ht
  have load {t : State} (ht : P t) : P (loseLoad t) := by
    unfold loseLoad
    split
    · obtain ⟨_, e⟩ := abandonLoad_shape t
      exact hP.agrees (by rw [e]; exact agreesRecords_of_eq rfl rfl rfl) ht
    · exact ht
  exact hP.settle (load (upload down))

/-! ### Commands -/

theorem openedUpload {k : Link} {s : State} {r : Request} {a : Answer} (h : ownUploadOpen k s r = some a) (hs : P s) :
    P a.state := by
  unfold ownUploadOpen at h
  split at h <;> cases h
  cases k
  · exact hs
  · simp only [onDepot]
    unfold judgeUploadOpen
    split
    · exact hs
    · rename_i hgood
      split
      · exact hs
      · rename_i hidle
        split
        · exact hs
        · have hidle : s.uploader.state = .idle := by simpa using hidle
          exact hP.settle (hP.changed ⟨rfl, fun _ => .inl hidle,
            .inr ⟨hidle, openedUploader_window_le (by simpa using hgood)⟩⟩ hs)

theorem pacedUpload {k : Link} {s : State} {r : Request} {a : Answer} (h : ownUploadPace k s r = some a) (hs : P s) :
    P a.state := by
  unfold ownUploadPace at h
  split at h <;> cases h
  cases k
  · exact hs
  · simp only [onDepot]
    unfold judgeUploadPace
    split
    · exact hs
    · split
      · exact hs
      · refine hP.settle ?_
        unfold repace
        simp only
        split
        · exact hP.changed ⟨rfl, by simp, .inl rfl⟩ hs
        · split
          · exact hP.changed ⟨rfl, by simp, .inl rfl⟩ hs
          · exact hP.uploader ⟨rfl, .inl, .inl rfl⟩ hs

theorem stoppedUpload {k : Link} {s : State} {r : Request} {a : Answer} (h : ownUploadStop k s r = some a) (hs : P s) :
    P a.state := by
  unfold ownUploadStop at h
  split at h <;> cases h
  cases k
  · exact hs
  · simp only [onDepot]
    unfold judgeUploadStop
    split
    · exact hs
    · exact hP.settle (hP.ended _ hs)

theorem drainedUpload {k : Link} {s : State} {r : Request} {a : Answer} (h : ownUploadFinish k s r = some a)
    (hs : P s) : P a.state := by
  unfold ownUploadFinish at h
  split at h <;> cases h
  cases k
  · exact hs
  · simp only [onDepot]
    unfold judgeUploadFinish
    split
    · exact hs
    · exact hP.finished (hP.changed ⟨rfl, by simp, .inl rfl⟩ hs)

theorem answeredBatch {f : State → Batch → State} {s : State} (number : Nat)
    (hf : ∀ b, waitingBatch s.uploader number = some b → P (f s b)) (hs : P s) : P (answerBatch number f s).state := by
  unfold answerBatch
  split
  · exact hs
  · split
    · exact hs
    · exact hP.settle (hP.finished (hf _ (by assumption)))

theorem ackedBatch {k : Link} {s : State} {r : Request} {a : Answer} (h : ownBatchAck k s r = some a) (hs : P s) :
    P a.state := by
  unfold ownBatchAck at h
  split at h <;> cases h
  cases k
  · exact hs
  · exact hP.answeredBatch _ (fun _ hb => hP.acknowledged hb hs) hs

theorem nakedBatch {k : Link} {s : State} {r : Request} {a : Answer} (h : ownBatchNak k s r = some a) (hs : P s) :
    P a.state := by
  unfold ownBatchNak at h
  split at h <;> cases h
  cases k
  · exact hs
  · exact hP.answeredBatch _ (fun _ hb => hP.refused hb hs) hs

theorem clearedCounters {s : State} {r : Request} {a : Answer} (h : ownCountersRead s r = some a) (hs : P s) :
    P a.state := by
  unfold ownCountersRead at h
  split at h <;> cases h
  unfold readCounters
  split
  · exact hs
  · split
    · exact hP.cleared _ hs
    · exact hs
    · exact hs

theorem timedOutBatch {s : State} (n : Nat) (hs : P s) : P (ackTimeout s n) := by
  unfold ackTimeout
  split
  · exact hs
  · rename_i b hb
    have timed : P (timeOutBatch s b) := hP.timedOut hb hs
    split
    · simp only
      split
      · exact hP.settle (hP.ended _ timed)
      · exact hP.settle (hP.finished timed)
    · exact hs

theorem writeCompleted {s : State} (ok : Bool) (hs : P s) : P (writeCompletion s ok) := by
  unfold writeCompletion
  split
  · rename_i hport
    cases ok
    · exact hP.failed hport hs
    · exact hP.written hport hs
  · exact hs

theorem readCompleted {s : State} (ok : Bool) (hs : P s) : P (readCompletion s ok) := by
  unfold readCompletion
  split
  · rename_i hport
    exact hP.read ok hport hs
  · exact hs

/-- Every command that brings no reset keeps what the operations on the records keep. -/
theorem exec {c : Instr} {s t : State} (hc : mayReset c = false) (h : exec c s = .next t) (hs : P s) : P t := by
  have hall (s t : State) (h : AgreesAll s t) : P s → P t := hP.all h
  cases hw : [Block.builder, Block.store, Block.uploader].any (writes c)
  · simp only [List.any_cons, List.any_nil, Bool.or_false, Bool.or_eq_false_iff] at hw
    obtain ⟨hb, hst, hu⟩ := hw
    exact hP.agrees ⟨exec_agrees h hb, exec_agrees h hst, exec_agrees h hu⟩ hs
  · cases c <;> simp [writes, mayReset] at hc hw
    case matcherTakeHearing => exact kickTrunk_keeps hall h (hP.recorded (recorded_matcherTake s) hs) hs
    case builderPassRecord => exact kickTrunk_keeps hall h (hP.pass hs) hs
    case writeCompletion ok =>
      exact kickBoth_keeps (f := fun s => writeCompletion s ok) hall h (hP.writeCompleted ok hs) hs
    case readCompletion ok =>
      exact kickBoth_keeps (f := fun s => readCompletion s ok) hall h (hP.readCompleted ok hs) hs
    case closeWalkVisit n =>
      exact kickTrunk_keeps (f := fun s => walkVisit s n) hall h (hP.recorded (recorded_walkVisit s n) hs) hs
    case closeEnd n =>
      exact kickTrunk_keeps (f := fun s => closeEnd s n) hall h (hP.recorded (recorded_closeEnd s n) hs) hs
    case routeEndRecord => exact kickTrunk_keeps hall h (hP.recorded (recorded_routeEndRecord s) hs) hs
    case pacingSlotOpen =>
      refine kickBoth_keeps hall h ?_ hs
      unfold pacingSlotOpen
      split
      · exact hP.settle hs
      · exact hs
    case ackTimeout n =>
      exact kickBoth_keeps (f := fun s => ackTimeout s n) hall h (hP.timedOutBatch n hs) hs
    case routeStart k => exact whenRunning_keeps h (hP.recorded (recorded_serveRouteStart k s) hs) hs
    case routeStartExecute k => exact whenRunning_keeps h (hP.recorded (recorded_executeRouteStart k s) hs) hs
    case countersRead k => exact serve_keeps hall (fun _ _ _ => hP.clearedCounters) h hs
    case classSet k => exact serve_keeps hall (fun _ _ _ => hP.classSet) h hs
    case uploadOpen k => exact serve_keeps hall (fun _ _ _ => hP.openedUpload) h hs
    case uploadPace k => exact serve_keeps hall (fun _ _ _ => hP.pacedUpload) h hs
    case uploadStop k => exact serve_keeps hall (fun _ _ _ => hP.stoppedUpload) h hs
    case uploadFinish k => exact serve_keeps hall (fun _ _ _ => hP.drainedUpload) h hs
    case batchAck k => exact serve_keeps hall (fun _ _ _ => hP.ackedBatch) h hs
    case batchNak k => exact serve_keeps hall (fun _ _ _ => hP.nakedBatch) h hs

/-- With both resets keeping it too, every step does. -/
theorem step (hwarm : ∀ s, P s → P (warmValues s)) (hcold : ∀ s, P s → P (coldValues s)) {s t : State} (hs : P s)
    (h : step s = .next t) : P t :=
  step_keeps_through_resets [.builder, .store, .uploader]
    (fun s t h => hP.agrees ⟨h _ (by simp), h _ (by simp), h _ (by simp)⟩) (by simp) (fun _ => hP.lost) hwarm hcold
    (fun _ _ _ hc _ => hP.exec hc) s t hs h

end RecordInvariant

end Sys2Proof.Machine
end

