-- ==== Sys2Proof/Proofs/RecordNumbers.lean ====
section
/-! SUPPORT. The next record number (R136, R137): it only rises, in its range, but for a cold reset; and the statements
about every step that need no more than the frame: the record memory and the step itself. -/

namespace Sys2Proof.Machine

/-! ## The next record number (R136, R137) -/

theorem nextNumber_passRecord (s : State) (r : Record) :
    (passRecord s r).builder.nextNumber = s.builder.nextNumber := by
  obtain ⟨_, _, _, e⟩ := passRecord_shape s r
  rw [e]

theorem builder_makeLiveCopy (s : State) (r : Record) (forced : Bool) :
    (makeLiveCopy s r forced).builder = s.builder := by
  obtain ⟨_, _, e⟩ := makeLiveCopy_shape s r forced
  rw [e]

/-- A record that is taken leaves the next number where it was, or one higher while there is a higher one. -/
theorem nextNumber_takeDraft (s : State) (d : Draft) :
    (takeDraft s d).builder.nextNumber = s.builder.nextNumber
      ∨ s.builder.nextNumber < 4294967295
        ∧ (takeDraft s d).builder.nextNumber = s.builder.nextNumber + 1 := by
  unfold takeDraft
  split
  · exact .inl rfl
  · simp only [nextNumber_passRecord, builder_makeLiveCopy]
    obtain ⟨hlt, _, e⟩ | ⟨-, _, _, _, e⟩ := giveNumber_cases s (recordOf s d).head.kind <;> rw [e]
    · exact .inr ⟨hlt, rfl⟩
    · exact .inl rfl

/-- The next record number is in its range and has not fallen below `low`. -/
def NumberFrom (low : Nat) (s : State) : Prop := NumbersInRange s ∧ low ≤ s.builder.nextNumber

theorem NumberFrom.of_eq {low : Nat} {s t : State} (h : NumberFrom low s)
    (e : t.builder.nextNumber = s.builder.nextNumber) : NumberFrom low t := by
  unfold NumberFrom NumbersInRange at *
  rw [e]
  exact h

theorem NumberFrom.of_agrees {low : Nat} {s t : State} (h : NumberFrom low s) (e : Agrees .builder s t) :
    NumberFrom low t := h.of_eq (by rw [show t.builder = s.builder from e])

theorem builder_writeFailed (s : State) (r : Record) : (writeFailed s r).builder = s.builder := by
  obtain ⟨_, _, _, e⟩ := writeFailed_shape s r
  rw [e]

theorem builder_finishRead (s : State) (n : Nat) (b : Option Nat) (ok : Bool) :
    (finishRead s n b ok).builder = s.builder := by
  obtain ⟨_, _, _, e⟩ := finishRead_shape s n b ok
  rw [e]

theorem recordInvariant_numberFrom (low : Nat) : RecordInvariant (NumberFrom low) where
  agrees h hs := hs.of_agrees h.1
  draft {s} d hs := by
    obtain e | ⟨hlt, e⟩ := nextNumber_takeDraft s d
    · exact hs.of_eq e
    · obtain ⟨⟨hlow, -⟩, hfrom⟩ := hs
      unfold NumberFrom NumbersInRange
      omega
  pass {s} hs := by
    obtain ⟨_, _, _, e⟩ := builderPass_shape s
    exact hs.of_eq (by rw [e])
  grant {s} hs := by
    obtain ⟨_, _, e⟩ := grantPort_shape s
    exact hs.of_eq (by rw [e])
  form {s} hs := by
    obtain ⟨_, _, e⟩ := tryForm_shape s
    exact hs.of_eq (by rw [e])
  written {s r k} _ hs :=
    NumberFrom.of_agrees (s := writeDone s r k) hs (agrees_settleStore (by simp) (by simp) _)
  failed {s r k} _ hs :=
    (hs.of_agrees (builder_writeFailed s r)).of_agrees (agrees_settleStore (by simp) (by simp) _)
  read {s n b} ok _ hs :=
    (hs.of_agrees (builder_finishRead s n b ok)).of_agrees (agrees_settleStore (by simp) (by simp) _)
  timedOut _ hs := hs
  acknowledged _ hs := hs.of_agrees (agrees_acknowledge (by simp) (by simp) _)
  refused _ hs := hs.of_agrees (agrees_refuseBatch (by simp) (by simp) _)
  ended _ hs := hs.of_agrees (agrees_endUpload (by simp) (by simp) _ _)
  uploader _ hs := hs
  classSet h hs := hs.of_agrees (agrees_ownClassSet (by simp) h)
  cleared g hs := by cases g <;> exact hs

/-- A command keeps the next number in its range and takes it no lower, but for a cold reset, which sets it to 1. -/
theorem exec_numberFrom {low : Nat} {c : Instr} {s t : State} (h : exec c s = .next t) (hs : NumberFrom low s) :
    NumberFrom low t ∨ (∃ strap, c = .coldReset strap) ∧ t.builder = {} := by
  cases hm : mayReset c
  · exact .inl ((recordInvariant_numberFrom low).exec hm h hs)
  · obtain ⟨u, hu, ht⟩ | ⟨hcold, ht⟩ := exec_mayReset_cases hm h
    · have hPu : NumberFrom low u := by
        obtain hu | ⟨v, hv, rfl⟩ := hu
        · exact hs.of_agrees (hu _)
        · exact (hs.of_agrees (hv _)).of_agrees (agrees_linkDown (by simp) (by simp) (by simp) v)
      obtain ht | ht := ht
      · exact .inl (hPu.of_agrees (ht _))
      · exact .inl (NumberFrom.of_agrees (s := warmValues u) hPu (ht _))
    · exact .inr ⟨hcold, ht .builder⟩

/-- Settles O31: every command but a cold reset keeps the number where it was or takes it higher. -/
theorem recordNumbersNeverFall : Obligations.RecordNumbersNeverFall := by
  intro s t hs hstep
  unfold step at hstep
  split at hstep
  · cases hstep
    exact ⟨hs, fun _ => le_rfl⟩
  · rename_i c rest hpending
    obtain ⟨hrange, hlow⟩ | ⟨⟨strap, rfl⟩, hreset⟩ :=
      exec_numberFrom hstep (low := s.builder.nextNumber) (s := s.setPending rest) ⟨hs, le_rfl⟩
    · exact ⟨hrange, fun _ => hlow⟩
    · refine ⟨?_, fun hcold => absurd hpending (hcold strap rest)⟩
      rw [NumbersInRange, hreset]
      decide

/-! ## The record memory (R188, log entry 14) -/

/-- Settles O29: a write completion writes one slot, which keeps the canonical form, and nothing else writes a byte. -/
theorem memoryStaysCanonical : Obligations.MemoryStaysCanonical := by
  have hP (s t : State) (h : ∀ b ∈ [Block.memory], Agrees b s t) (hs : MemoryCanonical s) : MemoryCanonical t := by
    have e : t.memory = s.memory := h .memory (by simp)
    rw [MemoryCanonical, e]
    exact hs
  refine step_keeps_through_resets [.memory] hP (by simp) (fun s hs => ?down) (fun _ hs => hs) (fun _ hs => hs) ?exec
  case down =>
    exact hP _ _ (by simpa using agrees_linkDown (by simp) (by simp) (by simp) s) hs
  case exec =>
    intro c s t hc hw h hs
    cases c <;> simp [writes, mayReset] at hc hw
    case writeCompletion ok =>
      refine kickBoth_keeps (f := fun s => writeCompletion s ok) (fun s t h => hP s t fun b _ => h b) h ?_ hs
      obtain ⟨_, _, _, _, _, e⟩ | ⟨r, slot, _, _, _, _, -, e⟩ := writeCompletion_shape s ok
      · rw [MemoryCanonical, e]
        exact hs
      · rw [MemoryCanonical, e]
        exact memoryWf_writeSlot _ hs _ _

/-- Writing a byte changes no read of another address, whatever the form of the memory. -/
theorem readByte_writeByte_of_ne (mem : List Host.Cell) {a b : Nat} (h : b ≠ a) (x : Byte) :
    readByte (writeByte mem a x) b = readByte mem b := by
  induction mem with
  | nil =>
    unfold writeByte
    split
    · rfl
    · simp [readByte, h.symm]
  | cons c rest ih =>
    obtain ⟨a', y⟩ := c
    unfold writeByte
    split
    · split
      · rfl
      · simp [readByte, h.symm]
    · split
      · rename_i heq
        subst heq
        split <;> simp [readByte, h.symm]
      · simp only [readByte, ih]

theorem readByte_writeBytes_outside (bytes : List Byte) (mem : List Host.Cell) {a b : Nat}
    (h : b < a ∨ a + bytes.length ≤ b) : readByte (writeBytes mem a bytes) b = readByte mem b := by
  induction bytes generalizing mem a with
  | nil => rfl
  | cons x rest ih =>
    simp only [List.length_cons] at h
    rw [writeBytes, ih _ (by omega), readByte_writeByte_of_ne _ (by omega)]

theorem readByte_writeSlot_of_outside (mem : List Host.Cell) (slot : Nat) (encoding : List Byte) {b : Nat}
    (h : b < slot * 64 ∨ slot * 64 + 64 ≤ b) : readByte (writeSlot mem slot encoding) b = readByte mem b := by
  unfold writeSlot
  split
  · refine readByte_writeBytes_outside _ _ ?_
    simp only [Config.slotBytes, List.length_take]
    omega
  · rfl

theorem memory_writeCompletion_fail (s : State) : (writeCompletion s false).memory = s.memory := by
  unfold writeCompletion
  split
  · rename_i r _ _
    obtain ⟨_, _, _, _, e⟩ := settleStore_shape (writeFailed s r)
    obtain ⟨_, _, _, e'⟩ := writeFailed_shape s r
    simp only [Bool.false_eq_true, if_false]
    rw [e, e']
  · rfl

/-- Settles O30: the frame leaves the memory to the write completion, and a slot's write to its 64 bytes. -/
theorem onlyAWriteChangesTheRecordMemory : Obligations.OnlyAWriteChangesTheRecordMemory := by
  intro c s t h
  have same (e : t.memory = s.memory) : ∀ a, readByte t.memory a = readByte s.memory a := fun a => by rw [e]
  cases hm : mayReset c
  · cases hw : writes c .memory
    · exact .inl (same (exec_agrees (b := .memory) h hw))
    · cases c <;> simp [writes, mayReset] at hm hw
      case writeCompletion ok =>
        have hnext : whenRunning s (fun s => kickBoth (writeCompletion s ok)) = .next t := h
        rw [whenRunning_next] at hnext
        cases hnext
        split
        · exact .inl fun _ => rfl
        · have hkick : (kickBoth (writeCompletion s ok)).memory = (writeCompletion s ok).memory :=
            agrees_kickBoth .memory _
          rw [hkick]
          cases ok
          · exact .inl fun a => by rw [memory_writeCompletion_fail]
          · obtain ⟨_, _, _, _, _, e⟩ | ⟨r, slot, _, _, _, _, hport, e⟩ := writeCompletion_shape s true
            · exact .inl fun a => by rw [e]
            · exact .inr ⟨rfl, r, slot, hport, fun a ha => by rw [e]; exact readByte_writeSlot_of_outside _ _ _ ha⟩
  · exact .inl (same (agrees_of_mayReset hm h (.inl rfl)))

/-! ## The step -/

/-- Settles O1: the two cases of `step`. -/
theorem stepRunsTheFrontCommandOrTicks : Obligations.StepRunsTheFrontCommandOrTicks := by
  refine ⟨fun c rest s => rfl, fun s hempty => ?_⟩
  have bumped : bump s.clock.value = min (s.clock.value + 1) 4294967295 := by
    by_cases h : s.clock.value < Config.max32
    · rw [bump_of_lt h]
      simp only [Config.max32] at h
      omega
    · rw [bump, if_neg h]
      simp only [Config.max32] at h ⊢
      omega
  calc step s = .next (tick s) := by rw [step, hempty]
    _ = _ := by
      rw [tick, bumped]
      rfl

end Sys2Proof.Machine
end

