-- ==== Sys2Proof/Proofs/ClassQuotas.lean ====
section
/-! SUPPORT. The quotas of the store's classes (R139, R140): they fit the slots, and no class outgrows its quota. -/

namespace Sys2Proof.Machine

/-! ## The store of `QuotasFit` -/

/-- `QuotasFit` of the store alone. -/
def StoreFits (st : Store) : Prop :=
  (st.classes.toList.map (·.quota)).sum ≤ 65536 ∧ ∀ c : Fin 4, classCount st c ≤ st.classes[c].quota

theorem quotasFit_iff (s : State) : QuotasFit s ↔ StoreFits s.store := Iff.rfl

theorem sum_quotas (v : Vector StoreClass 4) :
    (v.toList.map (·.quota)).sum
      = v[(0 : Fin 4)].quota + v[(1 : Fin 4)].quota + v[(2 : Fin 4)].quota + v[(3 : Fin 4)].quota := by
  obtain ⟨⟨l⟩, hl⟩ := v
  match l, hl with
  | [a, b, c, d], _ => simp [Nat.add_assoc]

/-- The store keeps every quota, and no class of it grows. -/
def Shrinks (st st' : Store) : Prop :=
  ∀ c : Fin 4, st'.classes[c].quota = st.classes[c].quota ∧ classCount st' c ≤ classCount st c

theorem Shrinks.refl (st : Store) : Shrinks st st := fun _ => ⟨rfl, le_rfl⟩

theorem Shrinks.trans {st st' st'' : Store} (h : Shrinks st st') (h' : Shrinks st' st'') : Shrinks st st'' := fun c =>
  ⟨(h' c).1.trans (h c).1, (h' c).2.trans (h c).2⟩

theorem StoreFits.of_shrinks {st st' : Store} (hst : StoreFits st) (h : Shrinks st st') : StoreFits st' := by
  obtain ⟨hsum, hcount⟩ := hst
  constructor
  · rw [sum_quotas] at hsum ⊢
    rw [(h 0).1, (h 1).1, (h 2).1, (h 3).1]
    exact hsum
  · intro c
    rw [(h c).1]
    exact (h c).2.trans (hcount c)

/-- A class record that keeps its quota changes no count. -/
theorem shrinks_setClass (s : State) (c : Fin 4) {k : StoreClass} (hk : k.quota = s.store.classes[c].quota) :
    Shrinks s.store (s.setClass c k).store := by
  intro d
  refine ⟨?_, le_rfl⟩
  by_cases hd : c = d
  · subst hd
    simp [State.setClass, hk]
  · simp [State.setClass, Fin.val_ne_of_ne hd]

theorem shrinks_rearmClass (s : State) (c : Fin 4) : Shrinks s.store (rearmClass s c).store := by
  unfold rearmClass
  split
  · exact shrinks_setClass s c rfl
  · exact Shrinks.refl _

/-- With the same classes and the port not writing, a store whose index holds no more of any class shrinks. -/
theorem shrinks_of_index {st st' : Store} (hclasses : st'.classes = st.classes)
    (hindex : ∀ c, st'.index.countP (fun r => decide (r.head.cls = c)) ≤ st.index.countP (fun r => decide (r.head.cls = c)))
    (hport : ∀ c, underWrite st' c ≤ underWrite st c) : Shrinks st st' := fun c =>
  ⟨by rw [hclasses], Nat.add_le_add (hindex c) (hport c)⟩

theorem countP_markRecords (index : List StoreRecord) (numbers : List Nat) (x : StoredState) (c : Fin 4) :
    (markRecords index numbers x).countP (fun r => decide (r.head.cls = c))
      = index.countP (fun r => decide (r.head.cls = c)) := by
  rw [markRecords, List.countP_map]
  refine List.countP_congr fun r _ => ?_
  simp only [Function.comp_apply]
  split <;> rfl

theorem shrinks_returnRecords (s : State) (numbers : List Nat) :
    Shrinks s.store (returnRecords s numbers).store :=
  shrinks_of_index rfl (fun c => (countP_markRecords _ _ _ c).le) fun _ => le_rfl

theorem shrinks_releaseRecords (s : State) (c : Fin 4) (numbers : List Nat) :
    Shrinks s.store (releaseRecords s c numbers).store := by
  refine Shrinks.trans ?_ (shrinks_rearmClass _ c)
  exact shrinks_of_index rfl (fun d => (List.filter_sublist.countP_le)) fun _ => le_rfl

/-! ## The port and the append queue (R141, R142) -/

theorem shrinks_refuseRecord (s : State) (r : Record) (x : RefuseCause) :
    Shrinks s.store (refuseRecord s r x).store ∧ (refuseRecord s r x).store.port = s.store.port := by
  have counted (k : StoreClass) : ({ countRefusal k x with fullArmed := false } : StoreClass).quota = k.quota := by
    cases x <;> rfl
  unfold refuseRecord
  simp only
  split <;> exact ⟨shrinks_setClass s _ (counted _), rfl⟩

/-- Taking out a record of a class makes room in it. -/
theorem countP_discard_lt {index : List StoreRecord} {x : StoreRecord} (hx : x ∈ index) :
    (index.filter (fun r => decide (r.head.number ≠ x.head.number))).countP (fun r => decide (r.head.cls = x.head.cls))
      < index.countP (fun r => decide (r.head.cls = x.head.cls)) := by
  rw [List.countP_eq_countP_filter_add index _ (fun r => decide (r.head.number ≠ x.head.number))]
  refine Nat.lt_add_of_pos_right (List.countP_pos_iff.2 ⟨x, ?_, by simp⟩)
  simp [hx]

theorem classCount_eq_of_free {st : Store} (hport : st.port = none) (c : Fin 4) :
    classCount st c = st.index.countP (fun r => decide (r.head.cls = c)) := by
  simp [classCount, underWrite, hport]

/-- A record that is placed counts in its class, which has room for it. -/
theorem storeFits_placeRecord {s : State} {r : Record} (hs : StoreFits s.store) (hport : s.store.port = none)
    (hroom : classCount s.store r.head.cls < s.store.classes[r.head.cls].quota) (rest : List Record) :
    StoreFits (placeRecord s r rest).store := by
  obtain ⟨hsum, hcount⟩ := hs
  refine ⟨hsum, fun c => ?_⟩
  have hc := hcount c
  rw [classCount_eq_of_free hport] at hc hroom
  show s.store.index.countP _ + (if r.head.cls = c then 1 else 0) ≤ _
  split
  · rename_i h
    subst h
    exact hroom
  · exact hc

theorem storeFits_discardRecord {s : State} {x : StoreRecord} {c : Fin 4} (hs : StoreFits s.store)
    (hport : s.store.port = none) (hx : x ∈ s.store.index) (hcls : x.head.cls = c) :
    StoreFits (discardRecord s c x.head.number).store
      ∧ (discardRecord s c x.head.number).store.port = none
      ∧ classCount (discardRecord s c x.head.number).store c
        < (discardRecord s c x.head.number).store.classes[c].quota := by
  have shrunk : Shrinks s.store (discardRecord s c x.head.number).store := by
    unfold discardRecord
    refine Shrinks.trans ?_ (shrinks_setClass _ _ rfl)
    exact shrinks_of_index rfl (fun _ => List.filter_sublist.countP_le) fun _ => le_rfl
  have hfree : (discardRecord s c x.head.number).store.port = none := hport
  refine ⟨hs.of_shrinks shrunk, hfree, ?_⟩
  rw [classCount_eq_of_free hfree, (shrunk _).1]
  have hcount := hs.2 c
  rw [classCount_eq_of_free hport] at hcount
  subst hcls
  exact (countP_discard_lt hx).trans_le hcount

/-- What an overwrite names: the class is full, and its oldest record is that one, STORED (R142). -/
theorem judgeClass_eq_overwrite {st : Store} {c : Fin 4} {number : Nat} (h : judgeClass st c = .overwrite number) :
    ∃ x ∈ st.index, x.head.cls = c ∧ x.state = .stored ∧ x.head.number = number := by
  unfold judgeClass at h
  split at h
  · cases h
  · split at h
    · cases h
    · split at h
      · cases h
      · split at h
        · rename_i x hx
          split at h
          · rename_i hstate
            cases h
            exact ⟨x, List.mem_of_find?_eq_some hx, by simpa using List.find?_some hx, hstate, rfl⟩
          · cases h
        · cases h

theorem judgeClass_eq_place {st : Store} {c : Fin 4} (h : judgeClass st c = .place) :
    classCount st c < st.classes[c].quota := by
  unfold judgeClass at h
  split at h
  · cases h
  · split at h
    · assumption
    · split at h
      · cases h
      · split at h
        · split at h <;> cases h
        · cases h

theorem storeFits_judgeQueue (rs : List Record) {s : State} (hs : StoreFits s.store) (hport : s.store.port = none) :
    StoreFits (judgeQueue rs s).store := by
  induction rs generalizing s with
  | nil => exact hs
  | cons r rest ih =>
    unfold judgeQueue
    split
    · rename_i h
      exact storeFits_placeRecord hs hport (judgeClass_eq_place h) rest
    · rename_i number h
      obtain ⟨x, hx, hcls, -, rfl⟩ := judgeClass_eq_overwrite h
      obtain ⟨hfits, hfree, hroom⟩ := storeFits_discardRecord hs hport hx hcls
      exact storeFits_placeRecord hfits hfree hroom rest
    · obtain ⟨shrunk, hsame⟩ := shrinks_refuseRecord s r _
      exact ih (hs.of_shrinks shrunk) (hsame.trans hport)

theorem storeFits_grantRead {s : State} (hs : StoreFits s.store) (hport : s.store.port = none) :
    StoreFits (grantRead s).store := by
  unfold grantRead
  split
  · refine hs.of_shrinks (shrinks_of_index rfl (fun _ => le_rfl) fun c => ?_)
    simp [underWrite, hport]
  · exact hs

theorem storeFits_grantPort {s : State} (hs : StoreFits s.store) : StoreFits (grantPort s).store := by
  unfold grantPort
  split
  · exact hs
  · rename_i hport
    have judged : StoreFits (if s.store.state = .normal then judgeQueue s.store.appendQueue s else s).store := by
      split
      · exact storeFits_judgeQueue _ hs hport
      · exact hs
    simp only
    split
    · exact judged
    · exact storeFits_grantRead judged (by assumption)

theorem storeFits_enqueueRecord {s : State} (hs : StoreFits s.store) (r : Record) :
    StoreFits (enqueueRecord s r).store :=
  storeFits_grantPort (s := s.setStore { s.store with appendQueue := s.store.appendQueue ++ [r] }) hs

theorem storeFits_passRecord {s : State} (hs : StoreFits s.store) (r : Record) : StoreFits (passRecord s r).store := by
  unfold passRecord
  split
  · exact hs
  · split
    · exact storeFits_enqueueRecord hs r
    · exact hs

theorem storeFits_builderPass {s : State} (hs : StoreFits s.store) : StoreFits (builderPass s).store := by
  unfold builderPass
  split
  · exact hs
  · simp only
    split
    · exact hs
    · split
      · rename_i rest _ _ _
        exact storeFits_enqueueRecord (s := s.setBuilder { s.builder with held := rest }) hs _
      · exact hs

theorem store_giveNumber (s : State) (k : RecordKind) : (giveNumber s k).store = s.store := by
  obtain ⟨-, _, e⟩ | ⟨-, _, _, _, e⟩ := giveNumber_cases s k <;> rw [e]

theorem store_makeLiveCopy (s : State) (r : Record) (forced : Bool) : (makeLiveCopy s r forced).store = s.store := by
  obtain ⟨_, _, e⟩ := makeLiveCopy_shape s r forced
  rw [e]

theorem storeFits_takeDraft {s : State} (hs : StoreFits s.store) (d : Draft) : StoreFits (takeDraft s d).store := by
  unfold takeDraft
  split
  · exact hs
  · refine storeFits_passRecord ?_ _
    rw [store_makeLiveCopy, store_giveNumber]
    exact hs

/-! ## Completions and the uploader (R143, R145) -/

/-- A record that was written counts in its class as before, no longer under write. -/
theorem shrinks_writeDone {s : State} {r : Record} {slot : Nat} (hport : s.store.port = some (.write r slot)) :
    Shrinks s.store (writeDone s r slot).store := by
  refine Shrinks.trans (st' := { s.store with
      index := s.store.index ++
        [{ head := r.head, slot := slot, length := (encodeRecord r).length, state := .stored }]
      port := none, failStreak := 0 }) ?_ (shrinks_setClass (s.setStore _) r.head.cls rfl)
  intro c
  refine ⟨rfl, ?_⟩
  simp [classCount, underWrite, hport, List.countP_append, List.countP_cons]

theorem shrinks_dropWrite (s : State) (c : Fin 4) : Shrinks s.store (dropWrite s c).store := by
  refine Shrinks.trans ?_ (shrinks_rearmClass _ c)
  exact shrinks_of_index rfl (fun _ => le_rfl) fun _ => Nat.zero_le _

/-- A strike changes neither the records nor the quotas. -/
theorem strikeWrite_store (s : State) (c : Fin 4) :
    (strikeWrite s c).store.classes = s.store.classes ∧ (strikeWrite s c).store.index = s.store.index
      ∧ (strikeWrite s c).store.port = s.store.port := by
  unfold strikeWrite
  simp only
  split
  · obtain ⟨_, _, e⟩ := raiseFault_shape (s.setStore { s.store with failStreak := bumpTo 4 s.store.failStreak })
      .storeHalt c.val
    unfold haltStore
    rw [e]
    exact ⟨rfl, rfl, rfl⟩
  · exact ⟨rfl, rfl, rfl⟩

theorem shrinks_strikeWrite (s : State) (c : Fin 4) : Shrinks s.store (strikeWrite s c).store := by
  obtain ⟨hclasses, hindex, hport⟩ := strikeWrite_store s c
  exact shrinks_of_index hclasses (fun _ => by rw [hindex]) fun _ => by simp [underWrite, hport]

theorem store_raiseFault (s : State) (x : FaultKind) (p : Nat) : (raiseFault s x p).store = s.store := rfl

theorem shrinks_writeFailed (s : State) (r : Record) : Shrinks s.store (writeFailed s r).store := by
  refine (shrinks_dropWrite s r.head.cls).trans ?_
  rw [← store_raiseFault (dropWrite s r.head.cls) .recordWriteFail r.head.number]
  exact shrinks_strikeWrite _ r.head.cls

theorem shrinks_finishRead (s : State) (n : Nat) (b : Option Nat) (ok : Bool) :
    Shrinks s.store (finishRead s n b ok).store := by
  cases ok <;> exact shrinks_of_index rfl (fun _ => le_rfl) fun _ => Nat.zero_le _

theorem shrinks_endUpload (s : State) (x : EndReason) : Shrinks s.store (endUpload s x).store := by
  refine (shrinks_returnRecords s (inFlightNumbers s.uploader)).trans ?_
  refine shrinks_of_index rfl (fun _ => le_rfl) fun c => ?_
  show underWrite { s.store with port := orphanRead s.store.port } c ≤ underWrite s.store c
  unfold underWrite orphanRead
  cases s.store.port with
  | none => exact le_rfl
  | some access => cases access <;> exact le_rfl

theorem storeFits_tryForm {s : State} (hs : StoreFits s.store) : StoreFits (tryForm s).store := by
  unfold tryForm
  split
  · split
    · exact hs.of_shrinks (shrinks_of_index rfl (fun c => (countP_markRecords _ _ _ c).le) fun _ => le_rfl)
    · exact hs
  · exact hs

theorem storeFits_settleStore {s : State} (hs : StoreFits s.store) : StoreFits (settleStore s).store := by
  unfold settleStore
  split
  · simp only
    split
    · exact storeFits_grantPort (storeFits_tryForm hs)
    · exact storeFits_grantPort (storeFits_tryForm (storeFits_grantPort hs))
  · exact storeFits_grantPort (storeFits_tryForm (storeFits_grantPort hs))

/-! ## CLASS_SET, COUNTERS_READ and the resets (R140, R177, R150, R151) -/

/-- The quotas sum to that of one class and those of the other three. -/
theorem sum_quotas_eq (st : Store) (c : Fin 4) :
    (st.classes.toList.map (·.quota)).sum = st.classes[c].quota + otherQuotas st c := by
  have others (d : Fin 4) : otherQuotas st d
      = (((List.finRange 4).filter (fun x => decide (x ≠ d))).map (fun x => st.classes[x].quota)).sum := rfl
  rw [sum_quotas, others]
  match c with
  | 0 | 1 | 2 | 3 =>
    simp [List.finRange_succ]
    omega

theorem otherQuotas_set (st : Store) (c : Fin 4) (k : StoreClass) :
    otherQuotas { st with classes := st.classes.set c k } c = otherQuotas st c := by
  unfold otherQuotas
  refine congrArg List.sum (List.map_congr_left fun d hd => ?_)
  have hd : d ≠ c := by simpa using (List.mem_filter.1 hd).2
  simp [Fin.val_ne_of_ne hd.symm]

/-- A quota that fits beside the other three, for a class that holds nothing. -/
theorem storeFits_writeClass {s : State} (hs : StoreFits s.store) (c : Fin 4) (quota : Nat) (policy : Policy)
    (priority : Nat) : StoreFits (writeClass s c quota policy priority).state.store := by
  unfold writeClass
  split
  · exact hs
  · rename_i hempty
    split
    · exact hs
    · rename_i hfits
      obtain ⟨hsum, hcount⟩ := hs
      constructor
      · show ((s.store.classes.set c _).toList.map (·.quota)).sum ≤ 65536
        have others := otherQuotas_set s.store c { s.store.classes[c] with
          quota := quota, policy := policy, priority := priority, fullArmed := true }
        rw [sum_quotas_eq ({ s.store with classes := s.store.classes.set c _ } : Store) c, others]
        simp only [Config.recordSlots] at hfits
        simp
        omega
      · intro d
        by_cases hd : c = d
        · subst hd
          have hzero : classCount s.store c = 0 := by omega
          exact hzero ▸ Nat.zero_le _
        · have kept : (s.store.classes.set c { s.store.classes[c] with
              quota := quota, policy := policy, priority := priority, fullArmed := true })[d] = s.store.classes[d] := by
            simp [Fin.val_ne_of_ne hd]
          show classCount s.store d ≤ (s.store.classes.set c _)[d].quota
          rw [kept]
          exact hcount d

theorem storeFits_of_ownClassSet {s : State} {r : Request} {a : Answer} (h : ownClassSet s r = some a)
    (hs : StoreFits s.store) : StoreFits a.state.store := by
  unfold ownClassSet at h
  split at h <;> cases h
  unfold setClassSettings
  split
  · split
    · exact storeFits_writeClass hs _ _ _ _
    · exact hs
  · exact hs

/-- Class records that are mapped with their quotas kept, over an index with the same classes. -/
theorem shrinks_of_map {st st' : Store} {f : StoreClass → StoreClass} (hf : ∀ k, (f k).quota = k.quota)
    (hclasses : st'.classes = st.classes.map f)
    (hcount : ∀ c, classCount st' c ≤ classCount st c) : Shrinks st st' := by
  refine fun c => ⟨?_, hcount c⟩
  rw [hclasses]
  simp [hf]

theorem shrinks_clearGroup (s : State) (g : CounterGroup) : Shrinks s.store (clearGroup s g).store := by
  cases g
  case store => exact shrinks_of_map (f := clearClassCounts) (fun _ => rfl) rfl fun _ => le_rfl
  all_goals exact Shrinks.refl _

theorem shrinks_warmValues (s : State) : Shrinks s.store (warmValues s).store := by
  refine shrinks_of_map (f := warmClass) (fun _ => rfl) rfl fun c => ?_
  show (s.store.index.map _).countP _ + 0 ≤ classCount s.store c
  rw [List.countP_map]
  exact Nat.le_add_right _ _

theorem storeFits_default : StoreFits {} := by
  refine ⟨by decide, fun c => ?_⟩
  show 0 ≤ _
  exact Nat.zero_le _

theorem recordInvariant_quotasFit : RecordInvariant QuotasFit where
  agrees h hs := by
    obtain ⟨-, hst, -⟩ := h
    rw [quotasFit_iff] at hs ⊢
    rw [show _ = _ from hst]
    exact hs
  draft d hs := storeFits_takeDraft hs d
  pass hs := storeFits_builderPass hs
  grant hs := storeFits_grantPort hs
  form hs := storeFits_tryForm hs
  written hport hs := storeFits_settleStore (StoreFits.of_shrinks hs (shrinks_writeDone hport))
  failed _ hs := storeFits_settleStore (StoreFits.of_shrinks hs (shrinks_writeFailed _ _))
  read ok _ hs := storeFits_settleStore (StoreFits.of_shrinks hs (shrinks_finishRead _ _ _ ok))
  timedOut _ hs := StoreFits.of_shrinks hs (shrinks_returnRecords _ _)
  acknowledged _ hs := StoreFits.of_shrinks hs (shrinks_releaseRecords _ _ _)
  refused _ hs := StoreFits.of_shrinks hs (shrinks_returnRecords _ _)
  ended x hs := StoreFits.of_shrinks hs (shrinks_endUpload _ x)
  uploader _ hs := hs
  classSet h hs := storeFits_of_ownClassSet h hs
  cleared g hs := StoreFits.of_shrinks hs (shrinks_clearGroup _ g)

/-- Settles O32: a record is placed only where its class has room, and an overwrite makes that room first. -/
theorem classesStayWithinTheirQuotas : Obligations.ClassesStayWithinTheirQuotas := fun _ _ =>
  recordInvariant_quotasFit.step (fun s hs => StoreFits.of_shrinks hs (shrinks_warmValues s))
    fun _ _ => storeFits_default

end Sys2Proof.Machine
end

