-- ==== Sys2Proof/Proofs/RecordOrder.lean ====
section
/-! SUPPORT. The order of the record numbers along the way to the store, and the IN_FLIGHT records of the batches (R136,
R137, R141, R145, R153, R157). -/

namespace Sys2Proof.Machine

/-! ## The numbers along the way (R136, R141) -/

/-- The number of the record under write. -/
def portNumbers : Option PortAccess → List Nat
  | some (.write r _) => [r.head.number]
  | _ => []

/-- The numbers in the store, under write and in the append queue, in this order. -/
def storeNumbers (st : Store) : List Nat :=
  st.index.map (·.head.number) ++ portNumbers st.port ++ st.appendQueue.map (·.head.number)

theorem recordNumbers_eq (s : State) :
    recordNumbers s = storeNumbers s.store ++ s.builder.held.map (·.head.number) := by
  unfold recordNumbers storeNumbers portNumbers
  rcases s.store.port with _ | _ | _ <;> rfl

/-- A list of record numbers rises, below the next number (R136, R137). -/
def NumbersRise (b : Builder) (l : List Nat) : Prop :=
  l.Pairwise (· < ·) ∧ ∀ n ∈ l, if b.limitFlag = true then n ≤ b.nextNumber else n < b.nextNumber

/-- The record numbers rise along the whole way. -/
def NumbersOrdered (s : State) : Prop := NumbersRise s.builder (recordNumbers s)

theorem NumbersRise.sublist {b : Builder} {l l' : List Nat} (h : NumbersRise b l) (hl : l'.Sublist l) :
    NumbersRise b l' := ⟨h.1.sublist hl, fun n hn => h.2 n (hl.subset hn)⟩

/-- The store keeps the order of its numbers and takes in no new one. -/
def Thins (st st' : Store) : Prop := (storeNumbers st').Sublist (storeNumbers st)

theorem NumbersOrdered.of_thins {s t : State} (hs : NumbersOrdered s) (hb : t.builder = s.builder)
    (hst : Thins s.store t.store) : NumbersOrdered t := by
  unfold NumbersOrdered at *
  rw [recordNumbers_eq] at hs ⊢
  rw [hb]
  exact hs.sublist (hst.append_right _)

theorem thins_of_index {st st' : Store} (hindex : (st'.index.map (·.head.number)).Sublist (st.index.map (·.head.number)))
    (hport : portNumbers st'.port = portNumbers st.port) (hqueue : st'.appendQueue = st.appendQueue) : Thins st st' := by
  unfold Thins storeNumbers
  rw [hport, hqueue]
  exact (hindex.append_right _).append_right _

theorem map_number_markRecords (index : List StoreRecord) (numbers : List Nat) (x : StoredState) :
    (markRecords index numbers x).map (·.head.number) = index.map (·.head.number) := by
  rw [markRecords, List.map_map]
  refine List.map_congr_left fun r _ => ?_
  simp only [Function.comp_apply]
  split <;> rfl

theorem refuseRecord_index (s : State) (r : Record) (x : RefuseCause) :
    (refuseRecord s r x).store.index = s.store.index ∧ (refuseRecord s r x).store.port = s.store.port := by
  unfold refuseRecord
  simp only
  split <;> exact ⟨rfl, rfl⟩

/-- Judging moves the head of the queue into the port or drops it. -/
theorem storeNumbers_judgeQueue (rs : List Record) {s : State} (hport : s.store.port = none) :
    (storeNumbers (judgeQueue rs s).store).Sublist
      (s.store.index.map (·.head.number) ++ rs.map (·.head.number)) := by
  induction rs generalizing s with
  | nil => simp [judgeQueue, storeNumbers, portNumbers, hport]
  | cons r rest ih =>
    unfold judgeQueue
    split
    · simp [placeRecord, storeNumbers, portNumbers]
    · simp only [placeRecord, discardRecord, State.setClass, storeNumbers, portNumbers, setStore_store, List.append_assoc,
        List.map_cons, List.singleton_append]
      exact (List.filter_sublist.map _).append_right _
    · rename_i x _
      obtain ⟨hindex, hsame⟩ := refuseRecord_index s r x
      have hrest := ih (s := refuseRecord s r x) (hsame.trans hport)
      rw [hindex] at hrest
      exact hrest.trans (List.Sublist.append_left (List.sublist_cons_self _ _) _)

theorem storeNumbers_of_free {st : Store} (hport : st.port = none) :
    storeNumbers st = st.index.map (·.head.number) ++ st.appendQueue.map (·.head.number) := by
  simp [storeNumbers, portNumbers, hport]

theorem thins_grantRead {s : State} (hport : s.store.port = none) : Thins s.store (grantRead s).store := by
  unfold grantRead
  split
  · exact thins_of_index (List.Sublist.refl _) (by simp [portNumbers, hport]) rfl
  · exact List.Sublist.refl _

theorem thins_grantPort (s : State) : Thins s.store (grantPort s).store := by
  unfold grantPort
  split
  · exact List.Sublist.refl _
  · rename_i hport
    have judged : Thins s.store (if s.store.state = .normal then judgeQueue s.store.appendQueue s else s).store := by
      split
      · rw [Thins, storeNumbers_of_free hport]
        exact storeNumbers_judgeQueue _ hport
      · exact List.Sublist.refl _
    simp only
    split
    · exact judged
    · exact (thins_grantRead (by assumption)).trans judged

theorem builder_grantPort (s : State) : (grantPort s).builder = s.builder := by
  obtain ⟨_, _, e⟩ := grantPort_shape s
  rw [e]

theorem numbersOrdered_grantPort {s : State} (hs : NumbersOrdered s) : NumbersOrdered (grantPort s) :=
  hs.of_thins (builder_grantPort s) (thins_grantPort s)

/-- A record that joins the append queue stands behind the store's own. -/
theorem recordNumbers_append (s : State) (r : Record) :
    recordNumbers (s.setStore { s.store with appendQueue := s.store.appendQueue ++ [r] })
      = storeNumbers s.store ++ [r.head.number] ++ s.builder.held.map (·.head.number) := by
  rw [recordNumbers_eq]
  simp [storeNumbers]

theorem numbersOrdered_enqueueRecord {s : State} {r : Record}
    (hs : NumbersRise s.builder (storeNumbers s.store ++ [r.head.number] ++ s.builder.held.map (·.head.number))) :
    NumbersOrdered (enqueueRecord s r) := by
  refine numbersOrdered_grantPort ?_
  rw [NumbersOrdered, recordNumbers_append]
  exact hs

/-- A record passed on comes behind all the others. -/
theorem numbersOrdered_passRecord {s : State} {r : Record}
    (hs : NumbersRise s.builder (recordNumbers s ++ [r.head.number])) : NumbersOrdered (passRecord s r) := by
  unfold passRecord
  split
  · exact hs.sublist (List.sublist_append_left _ _)
  · split
    · rename_i hfree
      have hheld : s.builder.held = [] := by simp_all
      refine numbersOrdered_enqueueRecord ?_
      rw [recordNumbers_eq] at hs
      simpa [hheld] using hs
    · have behind : recordNumbers (s.setBuilder { s.builder with held := s.builder.held ++ [r] })
          = recordNumbers s ++ [r.head.number] := by
        rw [recordNumbers_eq, recordNumbers_eq]
        simp
      rw [NumbersOrdered, behind]
      exact hs

/-- Giving a number makes room for one record of that number behind all the others. -/
theorem numbersRise_giveNumber {s : State} (hs : NumbersOrdered s) (hflag : s.builder.limitFlag = false)
    (k : RecordKind) :
    NumbersRise (giveNumber s k).builder (recordNumbers (giveNumber s k) ++ [s.builder.nextNumber]) := by
  obtain ⟨hrise, hbelow⟩ := hs
  have below : ∀ n ∈ recordNumbers s, n < s.builder.nextNumber := by simpa [hflag] using hbelow
  have snoc : (recordNumbers s ++ [s.builder.nextNumber]).Pairwise (· < ·) := by
    rw [List.pairwise_append]
    exact ⟨hrise, by simp, by simpa using below⟩
  obtain ⟨-, _, e⟩ | ⟨-, _, _, _, e⟩ := giveNumber_cases s k <;> rw [e]
  · refine ⟨snoc, fun n hn => ?_⟩
    have hn : n ∈ recordNumbers s ++ [s.builder.nextNumber] := hn
    rw [List.mem_append, List.mem_singleton] at hn
    simp only [hflag, Bool.false_eq_true, if_false]
    obtain hn | rfl := hn
    · exact (below n hn).trans (Nat.lt_succ_self _)
    · exact Nat.lt_succ_self _
  · refine ⟨snoc, fun n hn => ?_⟩
    have hn : n ∈ recordNumbers s ++ [s.builder.nextNumber] := hn
    rw [List.mem_append, List.mem_singleton] at hn
    simp only [if_true]
    obtain hn | rfl := hn
    · exact (below n hn).le
    · exact le_rfl

theorem recordNumbers_makeLiveCopy (s : State) (r : Record) (forced : Bool) :
    recordNumbers (makeLiveCopy s r forced) = recordNumbers s := by
  rw [recordNumbers_eq, recordNumbers_eq, store_makeLiveCopy, builder_makeLiveCopy]

theorem numbersOrdered_takeDraft {s : State} (hs : NumbersOrdered s) (d : Draft) : NumbersOrdered (takeDraft s d) := by
  unfold takeDraft
  split
  · exact hs
  · rename_i hflag
    refine numbersOrdered_passRecord ?_
    rw [recordNumbers_makeLiveCopy, builder_makeLiveCopy]
    exact numbersRise_giveNumber hs (by simpa using hflag) _

theorem numbersOrdered_builderPass {s : State} (hs : NumbersOrdered s) : NumbersOrdered (builderPass s) := by
  unfold builderPass
  split
  · exact hs
  · rename_i r rest hheld
    have hs' : NumbersRise s.builder (storeNumbers s.store ++ [r.head.number] ++ rest.map (·.head.number)) := by
      rw [NumbersOrdered, recordNumbers_eq, hheld] at hs
      simpa using hs
    simp only
    split
    · show NumbersRise s.builder _
      rw [recordNumbers_eq]
      refine hs'.sublist ?_
      simp [storeNumbers, refuseHalted]
    · split
      · exact numbersOrdered_enqueueRecord (s := s.setBuilder { s.builder with held := rest }) hs'
      · exact hs

/-! ## Completions, returns and releases (R143, R145) -/

theorem thins_rearmClass (s : State) (c : Fin 4) : Thins s.store (rearmClass s c).store := by
  unfold rearmClass
  split <;> exact List.Sublist.refl _

theorem thins_writeDone {s : State} {r : Record} {slot : Nat} (hport : s.store.port = some (.write r slot)) :
    Thins s.store (writeDone s r slot).store := by
  simp [Thins, writeDone, State.setClass, storeNumbers, portNumbers, hport]

theorem thins_dropWrite (s : State) (c : Fin 4) : Thins s.store (dropWrite s c).store := by
  refine (thins_rearmClass _ c).trans ?_
  simp [storeNumbers, portNumbers]

theorem thins_strikeWrite (s : State) (c : Fin 4) : Thins s.store (strikeWrite s c).store := by
  unfold strikeWrite
  simp only
  split
  · obtain ⟨_, _, e⟩ := raiseFault_shape (s.setStore { s.store with failStreak := bumpTo 4 s.store.failStreak })
      .storeHalt c.val
    unfold haltStore
    rw [e]
    simp [Thins, stopStore, refuseHalted, storeNumbers]
  · exact List.Sublist.refl _

theorem thins_writeFailed (s : State) (r : Record) : Thins s.store (writeFailed s r).store := by
  refine List.Sublist.trans ?_ (thins_dropWrite s r.head.cls)
  rw [← store_raiseFault (dropWrite s r.head.cls) .recordWriteFail r.head.number]
  exact thins_strikeWrite _ r.head.cls

theorem thins_finishRead {s : State} {n : Nat} {b : Option Nat} (ok : Bool) (hport : s.store.port = some (.read n b)) :
    Thins s.store (finishRead s n b ok).store := by
  cases ok <;> exact thins_of_index (List.Sublist.refl _) (by simp [finishRead, countRead, raiseFault, raiseEvent, portNumbers, hport]) rfl

theorem thins_returnRecords (s : State) (numbers : List Nat) : Thins s.store (returnRecords s numbers).store :=
  thins_of_index (by rw [returnRecords, setStore_store, map_number_markRecords]) rfl rfl

theorem thins_releaseRecords (s : State) (c : Fin 4) (numbers : List Nat) :
    Thins s.store (releaseRecords s c numbers).store :=
  (thins_rearmClass _ c).trans (thins_of_index (List.filter_sublist.map _) rfl rfl)

theorem portNumbers_orphanRead (p : Option PortAccess) : portNumbers (orphanRead p) = portNumbers p := by
  cases p with
  | none => rfl
  | some access => cases access <;> rfl

theorem thins_endUpload (s : State) (x : EndReason) : Thins s.store (endUpload s x).store := by
  have returned : Thins s.store (returnRecords (s.setDepot { s.depot with tx := cutBatch s.depot.tx })
      (inFlightNumbers s.uploader)).store := thins_returnRecords (s.setDepot _) _
  refine List.Sublist.trans ?_ returned
  exact thins_of_index (List.Sublist.refl _) (portNumbers_orphanRead _) rfl

theorem thins_tryForm (s : State) : Thins s.store (tryForm s).store := by
  unfold tryForm
  split
  · split
    · refine thins_of_index ?_ rfl rfl
      rw [formBatch, setUploader_store, selectRecords, setStore_store, map_number_markRecords]
    · exact List.Sublist.refl _
  · exact List.Sublist.refl _

theorem numbersOrdered_settleStore {s : State} (hs : NumbersOrdered s) : NumbersOrdered (settleStore s) := by
  have formed {t : State} (ht : NumbersOrdered t) : NumbersOrdered (tryForm t) := by
    obtain ⟨_, _, e⟩ := tryForm_shape t
    exact ht.of_thins (by rw [e]) (thins_tryForm t)
  unfold settleStore
  split
  · simp only
    split
    · exact numbersOrdered_grantPort (formed hs)
    · exact numbersOrdered_grantPort (formed (numbersOrdered_grantPort hs))
  · exact numbersOrdered_grantPort (formed (numbersOrdered_grantPort hs))

/-! ## A free port in NORMAL (R141) -/

/-- A free port in NORMAL leaves no record in the append queue. -/
def PortServes (s : State) : Prop := s.store.port = none → s.store.state = .normal → s.store.appendQueue = []

theorem PortServes.of_eq {s t : State} (hs : PortServes s) (hport : s.store.port = none ↔ t.store.port = none)
    (hstate : t.store.state = s.store.state) (hqueue : t.store.appendQueue = s.store.appendQueue) : PortServes t := by
  intro hp hn
  rw [hqueue]
  exact hs (hport.2 hp) (hstate ▸ hn)

theorem PortServes.of_store {s t : State} (hs : PortServes s) (h : t.store = s.store) : PortServes t :=
  hs.of_eq (by rw [h]) (by rw [h]) (by rw [h])

theorem judgeQueue_serves (rs : List Record) (s : State) :
    (judgeQueue rs s).store.port ≠ none ∨ (judgeQueue rs s).store.appendQueue = [] := by
  induction rs generalizing s with
  | nil => exact .inr rfl
  | cons r rest ih =>
    unfold judgeQueue
    split
    · exact .inl (by simp [placeRecord])
    · exact .inl (by simp [placeRecord])
    · exact ih _

theorem portServes_grantRead {s : State} (hs : PortServes s) : PortServes (grantRead s) := by
  unfold grantRead
  split
  · intro hp
    cases hp
  · exact hs

/-- A grant serves the append queue (R141). -/
theorem portServes_grantPort (s : State) : PortServes (grantPort s) := by
  unfold grantPort
  split
  · rename_i hport
    intro hp
    rw [hport] at hp
    cases hp
  · have judged : PortServes (if s.store.state = .normal then judgeQueue s.store.appendQueue s else s) := by
      split
      · intro hp _
        obtain hne | hqueue := judgeQueue_serves s.store.appendQueue s
        · exact absurd hp hne
        · exact hqueue
      · rename_i hnormal
        exact fun _ hn => absurd hn hnormal
    simp only
    split
    · exact judged
    · exact portServes_grantRead judged

theorem portServes_settleStore (s : State) : PortServes (settleStore s) := by
  unfold settleStore
  split
  · simp only
    split <;> exact portServes_grantPort _
  · exact portServes_grantPort _

theorem portServes_passRecord {s : State} (hs : PortServes s) (r : Record) : PortServes (passRecord s r) := by
  unfold passRecord
  split
  · exact hs
  · split
    · exact portServes_grantPort _
    · exact hs

theorem portServes_builderPass {s : State} (hs : PortServes s) : PortServes (builderPass s) := by
  unfold builderPass
  split
  · exact hs
  · simp only
    split
    · exact hs
    · split
      · exact portServes_grantPort _
      · exact hs

theorem portServes_takeDraft {s : State} (hs : PortServes s) (d : Draft) : PortServes (takeDraft s d) := by
  unfold takeDraft
  split
  · exact hs
  · exact portServes_passRecord (hs.of_store (by rw [store_makeLiveCopy, store_giveNumber])) _

theorem portServes_rearmClass {s : State} (hs : PortServes s) (c : Fin 4) : PortServes (rearmClass s c) := by
  unfold rearmClass
  split <;> exact hs

theorem portServes_releaseRecords {s : State} (hs : PortServes s) (c : Fin 4) (numbers : List Nat) :
    PortServes (releaseRecords s c numbers) := by
  refine portServes_rearmClass ?_ c
  exact PortServes.of_eq hs Iff.rfl rfl rfl

theorem portServes_tryForm {s : State} (hs : PortServes s) : PortServes (tryForm s) := by
  unfold tryForm
  split
  · split <;> exact hs
  · exact hs

theorem portServes_endUpload {s : State} (hs : PortServes s) (x : EndReason) : PortServes (endUpload s x) := by
  refine hs.of_eq ?_ rfl rfl
  show s.store.port = none ↔ orphanRead s.store.port = none
  rcases s.store.port with _ | _ | _ <;> simp [orphanRead]

theorem portServes_of_ownClassSet {s : State} {r : Request} {a : Answer} (h : ownClassSet s r = some a)
    (hs : PortServes s) : PortServes a.state := by
  unfold ownClassSet at h
  split at h <;> cases h
  unfold setClassSettings
  split
  · split
    · unfold writeClass
      split
      · exact hs
      · split <;> exact hs
    · exact hs
  · exact hs

theorem recordInvariant_portServes : RecordInvariant PortServes where
  agrees h hs := hs.of_store h.2.1
  draft d hs := portServes_takeDraft hs d
  pass hs := portServes_builderPass hs
  grant _ := portServes_grantPort _
  form hs := portServes_tryForm hs
  written _ _ := portServes_settleStore _
  failed _ _ := portServes_settleStore _
  read _ _ _ := portServes_settleStore _
  timedOut _ hs := PortServes.of_eq hs Iff.rfl rfl rfl
  acknowledged _ hs := PortServes.of_store (portServes_releaseRecords hs _ _) rfl
  refused _ hs := PortServes.of_eq hs Iff.rfl rfl rfl
  ended x hs := portServes_endUpload hs x
  uploader _ hs := PortServes.of_store hs rfl
  classSet h hs := portServes_of_ownClassSet h hs
  cleared g hs := by cases g <;> exact PortServes.of_eq hs Iff.rfl rfl rfl

/-! ## The order through every operation (R136, R141) -/

theorem numbersOrdered_of_ownClassSet {s : State} {r : Request} {a : Answer} (h : ownClassSet s r = some a)
    (hs : NumbersOrdered s) : NumbersOrdered a.state := by
  unfold ownClassSet at h
  split at h <;> cases h
  unfold setClassSettings
  split
  · split
    · unfold writeClass
      split
      · exact hs
      · split <;> exact hs
    · exact hs
  · exact hs

theorem recordInvariant_numbersOrdered : RecordInvariant NumbersOrdered where
  agrees h hs := by
    obtain ⟨hb, hst, -⟩ := h
    exact hs.of_thins hb (by rw [show _ = _ from hst]; exact List.Sublist.refl _)
  draft d hs := numbersOrdered_takeDraft hs d
  pass hs := numbersOrdered_builderPass hs
  grant hs := numbersOrdered_grantPort hs
  form {s} hs := by
    obtain ⟨_, _, e⟩ := tryForm_shape s
    exact hs.of_thins (by rw [e]) (thins_tryForm s)
  written hport hs := numbersOrdered_settleStore (hs.of_thins rfl (thins_writeDone hport))
  failed _ hs := numbersOrdered_settleStore (hs.of_thins (builder_writeFailed _ _) (thins_writeFailed _ _))
  read ok hport hs :=
    numbersOrdered_settleStore (hs.of_thins (builder_finishRead _ _ _ ok) (thins_finishRead ok hport))
  timedOut _ hs := NumbersOrdered.of_thins hs rfl (thins_returnRecords _ _)
  acknowledged {s n b} _ hs := by
    obtain ⟨_, e⟩ := releaseRecords_shape s b.cls b.records
    exact hs.of_thins (by rw [acknowledge, e]; rfl) (thins_releaseRecords s b.cls b.records)
  refused _ hs := NumbersOrdered.of_thins hs rfl (thins_returnRecords _ _)
  ended {s} x hs := by
    obtain ⟨_, _, _, _, e⟩ := endUpload_shape s x
    exact hs.of_thins (by rw [e]) (thins_endUpload s x)
  uploader _ hs := NumbersOrdered.of_thins hs rfl (List.Sublist.refl _)
  classSet h hs := numbersOrdered_of_ownClassSet h hs
  cleared {s} g hs := by
    cases g
    case store => exact ⟨hs.1, hs.2⟩
    all_goals exact NumbersOrdered.of_thins hs rfl (List.Sublist.refl _)

theorem RecordInvariant.and {P Q : State → Prop} (hP : RecordInvariant P) (hQ : RecordInvariant Q) :
    RecordInvariant (fun s => P s ∧ Q s) where
  agrees h hs := ⟨hP.agrees h hs.1, hQ.agrees h hs.2⟩
  draft d hs := ⟨hP.draft d hs.1, hQ.draft d hs.2⟩
  pass hs := ⟨hP.pass hs.1, hQ.pass hs.2⟩
  grant hs := ⟨hP.grant hs.1, hQ.grant hs.2⟩
  form hs := ⟨hP.form hs.1, hQ.form hs.2⟩
  written h hs := ⟨hP.written h hs.1, hQ.written h hs.2⟩
  failed h hs := ⟨hP.failed h hs.1, hQ.failed h hs.2⟩
  read ok h hs := ⟨hP.read ok h hs.1, hQ.read ok h hs.2⟩
  timedOut h hs := ⟨hP.timedOut h hs.1, hQ.timedOut h hs.2⟩
  acknowledged h hs := ⟨hP.acknowledged h hs.1, hQ.acknowledged h hs.2⟩
  refused h hs := ⟨hP.refused h hs.1, hQ.refused h hs.2⟩
  ended x hs := ⟨hP.ended x hs.1, hQ.ended x hs.2⟩
  uploader h hs := ⟨hP.uploader h hs.1, hQ.uploader h hs.2⟩
  classSet h hs := ⟨hP.classSet h hs.1, hQ.classSet h hs.2⟩
  cleared g hs := ⟨hP.cleared g hs.1, hQ.cleared g hs.2⟩

theorem numbersOrdered_warmValues {s : State} (hs : NumbersOrdered s) : NumbersOrdered (warmValues s) := by
  have kept : storeNumbers (warmValues s).store = s.store.index.map (·.head.number) := by
    show storeNumbers (warmStore s.store) = _
    simp [storeNumbers, warmStore, portNumbers]
  have held : (warmValues s).builder.held = [] := rfl
  have front : (s.store.index.map (·.head.number)).Sublist (recordNumbers s) := by
    rw [recordNumbers_eq, storeNumbers, List.append_assoc, List.append_assoc]
    exact List.sublist_append_left _ _
  rw [NumbersOrdered, recordNumbers_eq, kept, held, List.map_nil, List.append_nil]
  exact NumbersRise.sublist (b := s.builder) hs front

theorem recordsOrdered_iff (s : State) : RecordsOrdered s ↔ NumbersOrdered s ∧ PortServes s :=
  ⟨fun ⟨hrise, hbelow, hserves⟩ => ⟨⟨hrise, hbelow⟩, hserves⟩, fun ⟨⟨hrise, hbelow⟩, hserves⟩ => ⟨hrise, hbelow, hserves⟩⟩

theorem recordsOrdered_step {s t : State} (hs : RecordsOrdered s) (h : step s = .next t) : RecordsOrdered t := by
  rw [recordsOrdered_iff] at hs ⊢
  refine (recordInvariant_numbersOrdered.and recordInvariant_portServes).step (fun s hs => ?_) (fun s hs => ?_) hs h
  · exact ⟨numbersOrdered_warmValues hs.1, fun _ _ => rfl⟩
  · exact ⟨⟨List.Pairwise.nil, by simp [recordNumbers, coldValues]⟩, fun _ _ => rfl⟩

end Sys2Proof.Machine
end

