-- ==== Sys2Proof/Proofs/BatchAccount.lean ====
section
/-! SUPPORT. The account of the in-flight records (R145, R153, R157): the batches' records are the IN_FLIGHT ones of the
store, each in one batch and once. -/

namespace Sys2Proof.Machine

/-! ## The account of an index -/

/-- The IN_FLIGHT records of an index are those of a list of numbers, each once. -/
structure InFlight (index : List StoreRecord) (numbers : List Nat) : Prop where
  once : numbers.Nodup
  state : ∀ r ∈ index, r.state = .inFlight ↔ r.head.number ∈ numbers
  held : ∀ n ∈ numbers, n ∈ index.map (·.head.number)

theorem InFlight.stored {index : List StoreRecord} {numbers : List Nat} (h : InFlight index numbers) {r : StoreRecord}
    (hr : r ∈ index) (hs : r.state = .stored) : r.head.number ∉ numbers := fun hn => by
  have hflight := (h.state r hr).2 hn
  rw [hs] at hflight
  cases hflight

/-- Records that are not in flight may leave the index. -/
theorem InFlight.filter {index : List StoreRecord} {numbers gone : List Nat} (h : InFlight index numbers)
    (hgone : ∀ n ∈ gone, n ∉ numbers) : InFlight (index.filter (fun r => decide (r.head.number ∉ gone))) numbers := by
  refine ⟨h.once, fun r hr => h.state r (List.mem_of_mem_filter hr), fun n hn => ?_⟩
  obtain ⟨r, hr, rfl⟩ := List.mem_map.1 (h.held n hn)
  exact List.mem_map.2 ⟨r, List.mem_filter.2 ⟨hr, by simpa using fun hg => hgone _ hg hn⟩, rfl⟩

/-- A STORED record may join the index. -/
theorem InFlight.append {index : List StoreRecord} {numbers : List Nat} (h : InFlight index numbers) {r : StoreRecord}
    (hs : r.state = .stored) (hr : r.head.number ∉ numbers) : InFlight (index ++ [r]) numbers := by
  refine ⟨h.once, fun x hx => ?_, fun n hn => ?_⟩
  · obtain hx | hx := List.mem_append.1 hx
    · exact h.state x hx
    · rw [List.mem_singleton.1 hx, hs]
      simpa using hr
  · rw [List.map_append]
    exact List.mem_append_left _ (h.held n hn)

theorem mem_markRecords {index : List StoreRecord} {numbers : List Nat} {x : StoredState} {r : StoreRecord}
    (hr : r ∈ markRecords index numbers x) :
    ∃ q ∈ index, q.head = r.head ∧ (r.head.number ∈ numbers ∧ r.state = x ∨ r.head.number ∉ numbers ∧ r.state = q.state) := by
  obtain ⟨q, hq, rfl⟩ := List.mem_map.1 hr
  refine ⟨q, hq, ?_⟩
  split
  · rename_i hn
    exact ⟨rfl, .inl ⟨hn, rfl⟩⟩
  · rename_i hn
    exact ⟨rfl, .inr ⟨hn, rfl⟩⟩

/-- A select of STORED records, each once (R145). -/
theorem InFlight.select {index : List StoreRecord} {numbers chosen : List Nat} (h : InFlight index numbers)
    (honce : chosen.Nodup) (hchosen : ∀ n ∈ chosen, ∃ r ∈ index, r.head.number = n ∧ r.state = .stored) :
    InFlight (markRecords index chosen .inFlight) (numbers ++ chosen) := by
  refine ⟨List.Nodup.append h.once honce fun n hn hc => ?_, fun r hr => ?_, fun n hn => ?_⟩
  · obtain ⟨r, hr, rfl, hs⟩ := hchosen n hc
    exact h.stored hr hs hn
  · obtain ⟨q, hq, hhead, ⟨hn, hs⟩ | ⟨hn, hs⟩⟩ := mem_markRecords hr
    · simp [hn, hs]
    · rw [hs, h.state q hq, hhead]
      simp [hn]
  · rw [map_number_markRecords]
    obtain hn | hn := List.mem_append.1 hn
    · exact h.held n hn
    · obtain ⟨r, hr, rfl, -⟩ := hchosen n hn
      exact List.mem_map.2 ⟨r, hr, rfl⟩

theorem notMem_of_nodup_middle {pre gone post : List Nat} (h : (pre ++ gone ++ post).Nodup) :
    ∀ n ∈ gone, n ∉ pre ++ post := by
  intro n hg hn
  rw [List.nodup_append, List.nodup_append] at h
  obtain ⟨⟨-, -, hpre⟩, -, hpost⟩ := h
  obtain hn | hn := List.mem_append.1 hn
  · exact hpre n hn n hg rfl
  · exact hpost n (List.mem_append_right _ hg) n hn rfl

theorem sublist_without_middle (pre gone post : List Nat) : (pre ++ post).Sublist (pre ++ gone ++ post) :=
  (List.sublist_append_left pre gone).append_right post

/-- A return of some of the numbers (R145). -/
theorem InFlight.return {index : List StoreRecord} {pre gone post : List Nat} (h : InFlight index (pre ++ gone ++ post)) :
    InFlight (markRecords index gone .stored) (pre ++ post) := by
  refine ⟨h.once.sublist (sublist_without_middle _ _ _), fun r hr => ?_, fun n hn => ?_⟩
  · obtain ⟨q, hq, hhead, ⟨hg, hs⟩ | ⟨hg, hs⟩⟩ := mem_markRecords hr
    · simpa [hs] using notMem_of_nodup_middle h.once _ hg
    · rw [hs, h.state q hq, hhead]
      simp [hg]
  · rw [map_number_markRecords]
    exact h.held n ((sublist_without_middle _ _ _).subset hn)

/-- A release of some of the numbers (R145). -/
theorem InFlight.release {index : List StoreRecord} {pre gone post : List Nat} (h : InFlight index (pre ++ gone ++ post)) :
    InFlight (index.filter (fun r => decide (r.head.number ∉ gone))) (pre ++ post) := by
  refine ⟨h.once.sublist (sublist_without_middle _ _ _), fun r hr => ?_, fun n hn => ?_⟩
  · obtain ⟨hr, hg⟩ := List.mem_filter.1 hr
    have hg : r.head.number ∉ gone := by simpa using hg
    rw [h.state r hr]
    simp [hg]
  · obtain ⟨r, hr, rfl⟩ := List.mem_map.1 (h.held n ((sublist_without_middle _ _ _).subset hn))
    have hg : r.head.number ∉ gone := fun hg => notMem_of_nodup_middle h.once _ hg hn
    exact List.mem_map.2 ⟨r, List.mem_filter.2 ⟨hr, by simpa using hg⟩, rfl⟩

/-! ## The batches of the uploader -/

/-- The numbers of the records in flight. -/
def flightNumbers (u : Uploader) : List Nat := u.batches.flatMap (·.records)

/-- The in-flight list fits its window, which has at most 8 places, and in IDLE it is empty (R153). -/
structure BatchesFit (u : Uploader) : Prop where
  length : u.batches.length ≤ u.window
  window : u.window ≤ 8
  idle : u.state = .idle → u.batches = []

theorem batchesAccounted_iff (s : State) :
    BatchesAccounted s ↔ BatchesFit s.uploader ∧ InFlight s.store.index (flightNumbers s.uploader) :=
  ⟨fun ⟨hlen, hwin, hidle, honce, hstate, hheld⟩ => ⟨⟨hlen, hwin, hidle⟩, ⟨honce, hstate, hheld⟩⟩,
    fun ⟨⟨hlen, hwin, hidle⟩, ⟨honce, hstate, hheld⟩⟩ => ⟨hlen, hwin, hidle, honce, hstate, hheld⟩⟩

theorem flightNumbers_eq (u : Uploader) : flightNumbers u = (u.batches.map (·.records)).flatten := by
  rw [flightNumbers, List.flatMap_def]

theorem BatchesFit.of_agrees {s t : State} (h : Agrees .uploader s t) (hs : BatchesFit s.uploader) :
    BatchesFit t.uploader := by
  obtain ⟨hstate, hwindow, hrecords⟩ := h
  have hlen : t.uploader.batches.length = s.uploader.batches.length := by
    simpa using congrArg List.length hrecords
  refine ⟨by rw [hlen, hwindow]; exact hs.length, hwindow ▸ hs.window, fun hidle => ?_⟩
  rw [hstate] at hidle
  rw [← List.length_eq_zero_iff, hlen, hs.idle hidle, List.length_nil]

theorem flightNumbers_of_agrees {s t : State} (h : Agrees .uploader s t) :
    flightNumbers t.uploader = flightNumbers s.uploader := by
  rw [flightNumbers_eq, flightNumbers_eq, h.2.2]

/-- A change of the uploader that leaves its batches keeps the bounds. -/
theorem BatchesFit.of_keepsBatches {u v : Uploader} (h : KeepsBatches u v) (hu : BatchesFit u) : BatchesFit v := by
  have hidle : v.state = .idle → v.batches = [] := fun hv => by
    rw [h.batches]
    exact (h.idle hv).elim hu.idle id
  obtain hwindow | ⟨hidle', hwindow⟩ := h.window
  · exact ⟨by rw [h.batches, hwindow]; exact hu.length, hwindow ▸ hu.window, hidle⟩
  · exact ⟨by rw [h.batches, hu.idle hidle']; exact Nat.zero_le _, hwindow, hidle⟩

/-- A batch of the list stands between two parts of it, and the list without it is those two. -/
theorem withoutBatch_split {u : Uploader} {n : Nat} {b : Batch} (h : waitingBatch u n = some b) :
    ∃ pre post, u.batches = pre ++ b :: post ∧ (withoutBatch u b.number).batches = pre ++ post := by
  obtain ⟨hb, pre, post, hsplit, hpre⟩ := List.find?_eq_some_iff_append.1 h
  have hn : b.number = n := by
    simp only [waitsUnder, Bool.and_eq_true, decide_eq_true_eq] at hb
    exact hb.1
  refine ⟨pre, post, hsplit, ?_⟩
  have hpre' : ∀ x ∈ pre, ¬ waitsUnder n x = true := fun x hx => by simpa using hpre x hx
  simp only [withoutBatch, hn, hsplit]
  rw [List.eraseP_append_right _ hpre', List.eraseP_cons_of_pos hb]

theorem flightNumbers_split {u : Uploader} {pre post : List Batch} {b : Batch} (h : u.batches = pre ++ b :: post) :
    flightNumbers u = pre.flatMap (·.records) ++ b.records ++ post.flatMap (·.records) := by
  simp [flightNumbers, h]

/-- What the end of one batch leaves of the list. -/
theorem withoutBatch_cases {u : Uploader} {n : Nat} {b : Batch} (h : waitingBatch u n = some b) (hu : BatchesFit u) :
    ∃ pre post, flightNumbers u = pre ++ b.records ++ post
      ∧ flightNumbers (withoutBatch u b.number) = pre ++ post ∧ BatchesFit (withoutBatch u b.number) := by
  obtain ⟨pre, post, hsplit, hrest⟩ := withoutBatch_split h
  refine ⟨_, _, flightNumbers_split hsplit, by simp [flightNumbers, hrest], ?_, hu.window, fun hidle => ?_⟩
  · have hlen := hu.length
    rw [hsplit] at hlen
    rw [hrest]
    simp only [List.length_append, List.length_cons] at hlen ⊢
    show _ ≤ u.window
    omega
  · have hempty := hu.idle hidle
    rw [hsplit] at hempty
    simp at hempty

/-- The account of a state: its uploader's bounds, and the records in flight. -/
def Accounted (s : State) : Prop := BatchesFit s.uploader ∧ InFlight s.store.index (flightNumbers s.uploader)

theorem Accounted.of_eq {s t : State} (hs : Accounted s) (hindex : t.store.index = s.store.index)
    (hu : Agrees .uploader s t) : Accounted t := by
  refine ⟨hs.1.of_agrees hu, ?_⟩
  rw [hindex, flightNumbers_of_agrees hu]
  exact hs.2

theorem Accounted.of_same {s t : State} (hs : Accounted s) (hindex : t.store.index = s.store.index)
    (hu : t.uploader = s.uploader) : Accounted t := hs.of_eq hindex (by simp [Agrees, hu])

/-! ## The port, the queue and the builder (R141, R142) -/

theorem filter_ne_eq (index : List StoreRecord) (n : Nat) :
    index.filter (fun r => decide (r.head.number ≠ n)) = index.filter (fun r => decide (r.head.number ∉ [n])) := by
  simp

theorem inFlight_judgeQueue (rs : List Record) {s : State} {numbers : List Nat} (hs : InFlight s.store.index numbers) :
    InFlight (judgeQueue rs s).store.index numbers := by
  induction rs generalizing s with
  | nil => exact hs
  | cons r rest ih =>
    unfold judgeQueue
    split
    · exact hs
    · rename_i number hj
      obtain ⟨x, hx, -, hstored, rfl⟩ := judgeClass_eq_overwrite hj
      show InFlight (s.store.index.filter (fun r => decide (r.head.number ≠ x.head.number))) numbers
      rw [filter_ne_eq]
      exact hs.filter (by simpa using hs.stored hx hstored)
    · rename_i cause _
      refine ih ?_
      rw [(refuseRecord_index s r cause).1]
      exact hs

theorem uploader_judgeQueue (rs : List Record) (s : State) : (judgeQueue rs s).uploader = s.uploader := by
  obtain ⟨_, _, e⟩ := judgeQueue_shape rs s
  rw [e]

theorem accounted_grantRead {s : State} (hs : Accounted s) : Accounted (grantRead s) := by
  unfold grantRead
  split
  · exact hs.of_same rfl rfl
  · exact hs

theorem accounted_grantPort {s : State} (hs : Accounted s) : Accounted (grantPort s) := by
  unfold grantPort
  split
  · exact hs
  · have judged : Accounted (if s.store.state = .normal then judgeQueue s.store.appendQueue s else s) := by
      split
      · unfold Accounted
        rw [uploader_judgeQueue]
        exact ⟨hs.1, inFlight_judgeQueue _ hs.2⟩
      · exact hs
    simp only
    split
    · exact judged
    · exact accounted_grantRead judged

theorem accounted_passRecord {s : State} (hs : Accounted s) (r : Record) : Accounted (passRecord s r) := by
  unfold passRecord
  split
  · exact hs.of_same rfl rfl
  · split
    · refine accounted_grantPort ?_
      exact hs.of_same rfl rfl
    · exact hs.of_same rfl rfl

theorem accounted_builderPass {s : State} (hs : Accounted s) : Accounted (builderPass s) := by
  unfold builderPass
  split
  · exact hs
  · simp only
    split
    · exact hs.of_same rfl rfl
    · split
      · refine accounted_grantPort ?_
        exact hs.of_same rfl rfl
      · exact hs

theorem accounted_takeDraft {s : State} (hs : Accounted s) (d : Draft) : Accounted (takeDraft s d) := by
  unfold takeDraft
  split
  · exact hs
  · refine accounted_passRecord (hs.of_same ?_ ?_) _
    · rw [store_makeLiveCopy, store_giveNumber]
    · obtain ⟨_, _, e⟩ := makeLiveCopy_shape (giveNumber s (recordOf s d).head.kind) (recordOf s d) d.liveForced
      rw [e]
      obtain ⟨-, _, e⟩ | ⟨-, _, _, _, e⟩ := giveNumber_cases s (recordOf s d).head.kind <;> rw [e]

/-! ## Forming a batch (R145, R157) -/

/-- A select takes STORED records of the index, in its order. -/
theorem selectFrom_sublist (c : Fin 4) (index : List StoreRecord) (room used : Nat) :
    (selectFrom c index room used).Sublist
      ((index.filter (fun r => decide (r.state = .stored))).map (·.head.number)) := by
  induction index generalizing room used with
  | nil => cases room <;> exact List.Sublist.refl _
  | cons r rest ih =>
    cases room with
    | zero => exact List.nil_sublist _
    | succ room =>
      have skip {l : List Nat} (h : l.Sublist ((rest.filter (fun r => decide (r.state = .stored))).map (·.head.number))) :
          l.Sublist (((r :: rest).filter (fun r => decide (r.state = .stored))).map (·.head.number)) :=
        h.trans (((List.sublist_cons_self r rest).filter _).map _)
      unfold selectFrom
      split
      · rename_i hr
        split
        · rw [List.filter_cons_of_pos (by simpa using hr.2), List.map_cons]
          exact (ih _ _).cons_cons _
        · exact List.nil_sublist _
      · exact skip (ih _ _)

theorem mem_selectFrom {c : Fin 4} {index : List StoreRecord} {room used n : Nat} (h : n ∈ selectFrom c index room used) :
    ∃ r ∈ index, r.head.number = n ∧ r.state = .stored := by
  obtain ⟨r, hr, rfl⟩ := List.mem_map.1 ((selectFrom_sublist c index room used).subset h)
  obtain ⟨hr, hs⟩ := List.mem_filter.1 hr
  exact ⟨r, hr, rfl, by simpa using hs⟩

theorem nodup_index_of_ordered {s : State} (hs : NumbersOrdered s) : (s.store.index.map (·.head.number)).Nodup := by
  have hrise : (recordNumbers s).Pairwise (· < ·) := hs.1
  rw [recordNumbers_eq, storeNumbers, List.append_assoc, List.append_assoc] at hrise
  exact (hrise.sublist (List.sublist_append_left _ _)).imp fun h => ne_of_lt h

theorem accounted_formBatch {s : State} (hord : NumbersOrdered s) (hs : Accounted s) (hmay : mayForm s = true)
    (c : Fin 4) : Accounted (formBatch s c) := by
  obtain ⟨hfit, hflight⟩ := hs
  have honce : (selectFrom c s.store.index s.uploader.batchSize 3).Nodup :=
    ((nodup_index_of_ordered hord).sublist (List.filter_sublist.map _)).sublist (selectFrom_sublist _ _ _ _)
  simp only [mayForm, Bool.and_eq_true, decide_eq_true_eq] at hmay
  obtain ⟨⟨⟨⟨hrun, hroom⟩, -⟩, -⟩, -⟩ := hmay
  have numbers : flightNumbers (formBatch s c).uploader
      = flightNumbers s.uploader ++ selectFrom c s.store.index s.uploader.batchSize 3 := by
    simp [formBatch, flightNumbers, addBatch]
  refine ⟨⟨?_, hfit.window, fun hidle => ?_⟩, ?_⟩
  · show (s.uploader.batches ++ [_]).length ≤ s.uploader.window
    simpa using hroom
  · have hidle : s.uploader.state = .idle := hidle
    rw [hrun] at hidle
    cases hidle
  · rw [numbers]
    exact hflight.select honce fun n hn => mem_selectFrom hn

theorem accounted_tryForm {s : State} (hord : NumbersOrdered s) (hs : Accounted s) : Accounted (tryForm s) := by
  unfold tryForm
  split
  · split
    · exact accounted_formBatch hord hs (by assumption) _
    · exact hs
  · exact hs

/-! ## Completions (R143, R146) -/

/-- The record under write is newer than every record in flight. -/
theorem underWrite_notMem {s : State} (hord : NumbersOrdered s) (hs : Accounted s) {r : Record} {slot : Nat}
    (hport : s.store.port = some (.write r slot)) : r.head.number ∉ flightNumbers s.uploader := by
  intro hn
  have hrise : (recordNumbers s).Pairwise (· < ·) := hord.1
  rw [recordNumbers_eq, storeNumbers, List.append_assoc, List.append_assoc, List.pairwise_append] at hrise
  have hless := hrise.2.2 _ (hs.2.held _ hn) r.head.number (by simp [hport, portNumbers])
  exact Nat.lt_irrefl _ hless

theorem accounted_writeDone {s : State} (hord : NumbersOrdered s) (hs : Accounted s) {r : Record} {slot : Nat}
    (hport : s.store.port = some (.write r slot)) : Accounted (writeDone s r slot) := by
  refine ⟨hs.1, ?_⟩
  show InFlight (s.store.index ++ [_]) (flightNumbers s.uploader)
  exact hs.2.append rfl (underWrite_notMem hord hs hport)

theorem accounted_rearmClass {s : State} (hs : Accounted s) (c : Fin 4) : Accounted (rearmClass s c) := by
  unfold rearmClass
  split
  · exact hs.of_same rfl rfl
  · exact hs

theorem accounted_writeFailed {s : State} (hs : Accounted s) (r : Record) : Accounted (writeFailed s r) := by
  have dropped : Accounted (dropWrite s r.head.cls) := by
    refine accounted_rearmClass ?_ _
    exact hs.of_same rfl rfl
  have faulted : Accounted (raiseFault (dropWrite s r.head.cls) .recordWriteFail r.head.number) :=
    dropped.of_same rfl rfl
  refine faulted.of_same (strikeWrite_store _ _).2.1 ?_
  obtain ⟨_, _, _, e⟩ := strikeWrite_shape
    (raiseFault (dropWrite s r.head.cls) .recordWriteFail r.head.number) r.head.cls
  rw [writeFailed, e]

theorem records_deliverCopy (u : Uploader) (b : Option Nat) (copy : List Byte) :
    (deliverCopy u b copy).batches.map (·.records) = u.batches.map (·.records) := by
  rw [deliverCopy, List.map_map]
  refine List.map_congr_left fun x _ => ?_
  simp only [Function.comp_apply]
  split <;> rfl

theorem accounted_finishRead {s : State} (hs : Accounted s) (n : Nat) (b : Option Nat) (ok : Bool) :
    Accounted (finishRead s n b ok) := by
  refine hs.of_eq ?_ ⟨rfl, rfl, records_deliverCopy s.uploader b _⟩
  cases ok <;> rfl

/-! ## The ends of batches (R161 to R164) -/

theorem accounted_timeOutBatch {s : State} {n : Nat} {b : Batch} (h : waitingBatch s.uploader n = some b)
    (hs : Accounted s) : Accounted (timeOutBatch s b) := by
  obtain ⟨pre, post, hsplit, hrest, hfit⟩ := withoutBatch_cases h hs.1
  refine ⟨⟨hfit.length, hfit.window, hfit.idle⟩, ?_⟩
  show InFlight (markRecords s.store.index b.records .stored) (flightNumbers (withoutBatch s.uploader b.number))
  rw [hrest]
  exact InFlight.return (hsplit ▸ hs.2)

theorem accounted_refuseBatch {s : State} {n : Nat} {b : Batch} (h : waitingBatch s.uploader n = some b)
    (hs : Accounted s) : Accounted (refuseBatch s b) := by
  obtain ⟨pre, post, hsplit, hrest, hfit⟩ := withoutBatch_cases h hs.1
  refine ⟨hfit, ?_⟩
  show InFlight (markRecords s.store.index b.records .stored) (flightNumbers (withoutBatch s.uploader b.number))
  rw [hrest]
  exact InFlight.return (hsplit ▸ hs.2)

theorem index_releaseRecords (s : State) (c : Fin 4) (numbers : List Nat) :
    (releaseRecords s c numbers).store.index
      = s.store.index.filter (fun r => decide (r.head.number ∉ numbers)) := by
  unfold releaseRecords rearmClass
  split <;> rfl

theorem accounted_acknowledge {s : State} {n : Nat} {b : Batch} (h : waitingBatch s.uploader n = some b)
    (hs : Accounted s) : Accounted (acknowledge s b) := by
  obtain ⟨pre, post, hsplit, hrest, hfit⟩ := withoutBatch_cases h hs.1
  refine ⟨⟨hfit.length, hfit.window, hfit.idle⟩, ?_⟩
  show InFlight (releaseRecords s b.cls b.records).store.index (flightNumbers (withoutBatch s.uploader b.number))
  rw [hrest, index_releaseRecords]
  exact InFlight.release (hsplit ▸ hs.2)

theorem accounted_endUpload {s : State} (hs : Accounted s) (x : EndReason) : Accounted (endUpload s x) := by
  refine ⟨⟨Nat.zero_le _, hs.1.window, fun _ => rfl⟩, ?_⟩
  show InFlight (markRecords s.store.index (flightNumbers s.uploader) .stored) ([] ++ [])
  exact InFlight.return (by simpa using hs.2)

/-! ## The account through every operation -/

theorem accounted_of_ownClassSet {s : State} {r : Request} {a : Answer} (h : ownClassSet s r = some a)
    (hs : Accounted s) : Accounted a.state := by
  unfold ownClassSet at h
  split at h <;> cases h
  unfold setClassSettings
  split
  · split
    · unfold writeClass
      split
      · exact hs
      · split
        · exact hs
        · exact hs.of_same rfl rfl
    · exact hs
  · exact hs

/-- A state whose numbers are ordered and whose records in flight are accounted for. -/
def OrderedAccount (s : State) : Prop := NumbersOrdered s ∧ Accounted s

theorem orderedAccount_grantPort {s : State} (hs : OrderedAccount s) : OrderedAccount (grantPort s) :=
  ⟨recordInvariant_numbersOrdered.grant hs.1, accounted_grantPort hs.2⟩

theorem orderedAccount_tryForm {s : State} (hs : OrderedAccount s) : OrderedAccount (tryForm s) :=
  ⟨recordInvariant_numbersOrdered.form hs.1, accounted_tryForm hs.1 hs.2⟩

theorem orderedAccount_settleStore {s : State} (hs : OrderedAccount s) : OrderedAccount (settleStore s) := by
  have drawn (n : Nat) : OrderedAccount (s.setFreeCounter n) :=
    ⟨hs.1.of_thins rfl (List.Sublist.refl _), hs.2.of_same rfl rfl⟩
  unfold settleStore
  split
  · simp only
    split
    · exact orderedAccount_grantPort (orderedAccount_tryForm (drawn _))
    · exact orderedAccount_grantPort (orderedAccount_tryForm (orderedAccount_grantPort (drawn _)))
  · exact orderedAccount_grantPort (orderedAccount_tryForm (orderedAccount_grantPort hs))

theorem recordInvariant_orderedAccount : RecordInvariant OrderedAccount where
  agrees h hs := by
    refine ⟨recordInvariant_numbersOrdered.agrees h hs.1, ?_⟩
    obtain ⟨-, hst, hu⟩ := h
    exact hs.2.of_eq (by rw [show _ = _ from hst]) hu
  draft d hs := ⟨recordInvariant_numbersOrdered.draft d hs.1, accounted_takeDraft hs.2 d⟩
  pass hs := ⟨recordInvariant_numbersOrdered.pass hs.1, accounted_builderPass hs.2⟩
  grant hs := orderedAccount_grantPort hs
  form hs := orderedAccount_tryForm hs
  written hport hs :=
    orderedAccount_settleStore ⟨hs.1.of_thins rfl (thins_writeDone hport), accounted_writeDone hs.1 hs.2 hport⟩
  failed _ hs := orderedAccount_settleStore
    ⟨hs.1.of_thins (builder_writeFailed _ _) (thins_writeFailed _ _), accounted_writeFailed hs.2 _⟩
  read ok hport hs := orderedAccount_settleStore
    ⟨hs.1.of_thins (builder_finishRead _ _ _ ok) (thins_finishRead ok hport), accounted_finishRead hs.2 _ _ ok⟩
  timedOut h hs := ⟨recordInvariant_numbersOrdered.timedOut h hs.1, accounted_timeOutBatch h hs.2⟩
  acknowledged h hs := ⟨recordInvariant_numbersOrdered.acknowledged h hs.1, accounted_acknowledge h hs.2⟩
  refused h hs := ⟨recordInvariant_numbersOrdered.refused h hs.1, accounted_refuseBatch h hs.2⟩
  ended x hs := ⟨recordInvariant_numbersOrdered.ended x hs.1, accounted_endUpload hs.2 x⟩
  uploader {s u} h hs := by
    refine ⟨recordInvariant_numbersOrdered.uploader h hs.1, hs.2.1.of_keepsBatches h, ?_⟩
    show InFlight s.store.index (flightNumbers u)
    rw [flightNumbers, h.batches]
    exact hs.2.2
  classSet h hs := ⟨recordInvariant_numbersOrdered.classSet h hs.1, accounted_of_ownClassSet h hs.2⟩
  cleared {s} g hs := by
    refine ⟨recordInvariant_numbersOrdered.cleared g hs.1, ?_⟩
    cases g <;> exact hs.2.of_same rfl rfl

theorem accounted_warmValues (s : State) : Accounted (warmValues s) := by
  refine ⟨⟨Nat.zero_le _, Nat.le_refl 8, fun _ => rfl⟩, List.nodup_nil, fun r hr => ?_, by simp [flightNumbers, warmValues, warmUploader]⟩
  obtain ⟨q, -, rfl⟩ := List.mem_map.1 (show r ∈ s.store.index.map _ from hr)
  simp [flightNumbers, warmValues, warmUploader]

theorem accounted_coldValues (s : State) : Accounted (coldValues s) :=
  ⟨⟨Nat.zero_le _, Nat.le_refl 8, fun _ => rfl⟩, List.nodup_nil, by simp [coldValues], by simp [flightNumbers, coldValues]⟩

/-- Settles O33: the order through every operation on the way of a record, and on it the account of the batches. -/
theorem recordsAndBatchesStayAccountedFor : Obligations.RecordsAndBatchesStayAccountedFor := by
  refine ⟨fun s t hs h => recordsOrdered_step hs h, fun s t hord hs h => ?_⟩
  have hord : NumbersOrdered s := ((recordsOrdered_iff s).1 hord).1
  rw [batchesAccounted_iff] at hs ⊢
  exact (recordInvariant_orderedAccount.step
    (fun s hs => ⟨numbersOrdered_warmValues hs.1, accounted_warmValues s⟩)
    (fun s _ => ⟨⟨List.Pairwise.nil, by simp [recordNumbers, coldValues]⟩, accounted_coldValues s⟩)
    (⟨hord, hs⟩ : OrderedAccount s) h).2

end Sys2Proof.Machine
end

