-- ==== Sys2Proof/Proofs/SegmentTally.lean ====
section
/-! SUPPORT. The counts of a segment against the book (R57, R58, R64, R119, R120): what one entry and one segment do to
them, and every command that writes either. -/

namespace Sys2Proof.Machine

/-! ## One segment against the book (R120) -/

/-- The count of a segment for a hearing state. -/
def tally (g : Segment) : HearingState → Nat
  | .unheard => g.unheard
  | .heard => g.heard
  | .missed => g.missed
  | .late => g.late

/-- A segment's counts are those of its members in the book, and they sum to its member count. -/
structure Counted (book : List Entry) (n : Nat) (g : Segment) : Prop where
  tally : ∀ x, tally g x = memberCount book n x
  member : g.member = g.unheard + g.heard + g.missed + g.late

/-- What one entry adds to the count of a segment for a hearing state. -/
def shareOf (e : Entry) (n : Nat) (x : HearingState) : Nat :=
  if isMember e = true ∧ e.segment = n ∧ e.hearing = x then 1 else 0

theorem memberCount_cons (e : Entry) (book : List Entry) (n : Nat) (x : HearingState) :
    memberCount (e :: book) n x = memberCount book n x + shareOf e n x := by
  simp only [memberCount, List.countP_cons, shareOf, Bool.and_eq_true, decide_eq_true_eq, and_assoc]

theorem memberCount_append (pre post : List Entry) (n : Nat) (x : HearingState) :
    memberCount (pre ++ post) n x = memberCount pre n x + memberCount post n x := List.countP_append

theorem memberCount_split (pre post : List Entry) (e : Entry) (n : Nat) (x : HearingState) :
    memberCount (pre ++ e :: post) n x = memberCount pre n x + memberCount post n x + shareOf e n x := by
  rw [memberCount_append, memberCount_cons, Nat.add_assoc]

theorem shareOf_of_other {e : Entry} {n : Nat} (h : e.segment ≠ n) (x : HearingState) : shareOf e n x = 0 := by
  simp [shareOf, h]

theorem shareOf_of_hold {e : Entry} (h : hasHold e.options = true) (n : Nat) (x : HearingState) : shareOf e n x = 0 := by
  simp [shareOf, isMember, h]

theorem shareOf_of_member {e : Entry} (h : hasHold e.options = false) (x : HearingState) :
    shareOf e e.segment x = if e.hearing = x then 1 else 0 := by
  simp [shareOf, isMember, h]

/-- One entry of the book is replaced, and the segment's counts change by what it adds. -/
theorem Counted.replace {pre post : List Entry} {e e' : Entry} {n : Nat} {g g' : Segment}
    (hg : Counted (pre ++ e :: post) n g)
    (hshare : (∀ x, shareOf e n x ≤ Machine.tally g x) →
      ∀ x, Machine.tally g' x + shareOf e n x = Machine.tally g x + shareOf e' n x)
    (hmember : (∀ x, shareOf e n x ≤ Machine.tally g x) → g.member = g.unheard + g.heard + g.missed + g.late →
      g'.member = g'.unheard + g'.heard + g'.missed + g'.late) : Counted (pre ++ e' :: post) n g' := by
  have hle : ∀ x, shareOf e n x ≤ Machine.tally g x := fun x => by
    rw [hg.tally, memberCount_split]
    omega
  refine ⟨fun x => ?_, hmember hle hg.member⟩
  have hx := hshare hle x
  rw [hg.tally, memberCount_split] at hx
  rw [memberCount_split]
  omega

/-! ## Notices (R120, R123) -/

theorem recompute_eq (g : Segment) : ∃ d r, recompute g = { g with deadline := d, deadlineReason := r } := by
  unfold recompute
  simp only
  split
  · split <;> exact ⟨_, _, rfl⟩
  · exact ⟨_, _, rfl⟩

/-- The deadline is no part of the counts. -/
theorem Counted.recompute {book : List Entry} {n : Nat} {g : Segment} (h : Counted book n g) :
    Counted book n (recompute g) := by
  obtain ⟨d, r, e⟩ := recompute_eq g
  rw [e]
  exact ⟨fun x => by rw [← h.tally]; cases x <;> rfl, h.member⟩

theorem recompute_state (g : Segment) : (recompute g).state = g.state := by
  obtain ⟨_, _, e⟩ := recompute_eq g
  rw [e]

/-- Two segment records with the same counts. -/
theorem Counted.of_counts {book : List Entry} {n : Nat} {g g' : Segment} (h : Counted book n g)
    (hm : g'.member = g.member) (hu : g'.unheard = g.unheard) (hh : g'.heard = g.heard) (hmi : g'.missed = g.missed)
    (hl : g'.late = g.late) : Counted book n g' := by
  refine ⟨fun x => ?_, by rw [hm, hu, hh, hmi, hl, h.member]⟩
  rw [← h.tally]
  cases x <;> assumption

section
variable {pre post : List Entry} {e e' : Entry} {g : Segment}

/-- A member whose hearing state alone changes moves from one count to the other. -/
theorem counted_of_move {old new : HearingState} {g' : Segment} (hg : Counted (pre ++ e :: post) e.segment g)
    (hhold : hasHold e.options = false) (hold : e.hearing = old) (hnew : e'.hearing = new)
    (hoptions : e'.options = e.options) (hsegment : e'.segment = e.segment)
    (htally : ∀ x, 1 ≤ tally g old → tally g' x + (if old = x then 1 else 0) = tally g x + if new = x then 1 else 0)
    (hmember : 1 ≤ tally g old → g.member = g.unheard + g.heard + g.missed + g.late →
      g'.member = g'.unheard + g'.heard + g'.missed + g'.late) :
    Counted (pre ++ e' :: post) e.segment g' := by
  have share (x : HearingState) : shareOf e e.segment x = if old = x then 1 else 0 := by
    rw [shareOf_of_member hhold, hold]
  have share' (x : HearingState) : shareOf e' e.segment x = if new = x then 1 else 0 := by
    rw [← hsegment, shareOf_of_member (by rw [hoptions, hhold]), hnew]
  have some (h : ∀ x, shareOf e e.segment x ≤ tally g x) : 1 ≤ tally g old := by
    have := h old
    rwa [share, if_pos rfl] at this
  refine hg.replace (fun h x => ?_) (fun h => hmember (some h))
  rw [share, share']
  exact htally x (some h)

variable (hg : Counted (pre ++ e :: post) e.segment g) (hhold : hasHold e.options = false)
  (hoptions : e'.options = e.options) (hsegment : e'.segment = e.segment)
include hg hhold hoptions hsegment

theorem counted_noteFirst (hfrom : e.hearing = .unheard) (hto : e'.hearing = .heard) (tag : Nat) :
    Counted (pre ++ e' :: post) e.segment (noteFirst g tag) := by
  unfold noteFirst
  simp only
  split <;>
  · refine Counted.recompute (counted_of_move hg hhold hfrom hto hoptions hsegment (fun x h => ?_) fun h hm => ?_)
    · cases x <;> simp [tally] at h ⊢
      omega
    · simp only [tally] at h ⊢
      omega

theorem counted_noteLate (hfrom : e.hearing = .missed) (hto : e'.hearing = .late) (tag : Nat) :
    Counted (pre ++ e' :: post) e.segment (noteLate g tag) := by
  refine Counted.recompute (counted_of_move hg hhold hfrom hto hoptions hsegment (fun x h => ?_) fun h hm => ?_)
  · cases x <;> simp [tally] at h ⊢
    omega
  · simp only [tally] at h ⊢
    omega

theorem counted_noteMiss (hfrom : e.hearing = .unheard) (hto : e'.hearing = .missed) :
    Counted (pre ++ e' :: post) e.segment (noteMiss g) := by
  refine Counted.recompute (counted_of_move hg hhold hfrom hto hoptions hsegment (fun x h => ?_) fun h hm => ?_)
  · cases x <;> simp [tally] at h ⊢
    omega
  · simp only [tally] at h ⊢
    omega

end

/-- An entry that becomes a member joins its segment's counts. -/
theorem counted_noteJoin {pre post : List Entry} {e e' : Entry} {g : Segment}
    (hg : Counted (pre ++ e :: post) e.segment g) (hhold : hasHold e.options = true)
    (hhold' : hasHold e'.options = false) (hsegment : e'.segment = e.segment) :
    Counted (pre ++ e' :: post) e.segment (noteJoin g e'.hearing) := by
  have share' (x : HearingState) : shareOf e' e.segment x = if e'.hearing = x then 1 else 0 := by
    rw [← hsegment, shareOf_of_member hhold']
  refine Counted.recompute (hg.replace (fun _ x => ?_) fun _ hm => ?_)
  · rw [shareOf_of_hold hhold, share']
    cases e'.hearing <;> cases x <;> simp [tally]
  · cases e'.hearing <;> simp only <;> omega

/-- An entry that is no member any more leaves them. -/
theorem counted_noteLeave {pre post : List Entry} {e e' : Entry} {g : Segment}
    (hg : Counted (pre ++ e :: post) e.segment g) (hhold : hasHold e.options = false)
    (hhold' : hasHold e'.options = true) :
    Counted (pre ++ e' :: post) e.segment (noteLeave g e.hearing) := by
  have share (x : HearingState) : shareOf e e.segment x = if e.hearing = x then 1 else 0 := shareOf_of_member hhold x
  refine Counted.recompute (hg.replace (fun h x => ?_) fun h hm => ?_)
  · have := h e.hearing
    rw [shareOf_of_hold hhold', share]
    rw [share, if_pos rfl] at this
    generalize e.hearing = y at this ⊢
    cases y <;> cases x <;> simp [tally] at this ⊢ <;> omega
  · have := h e.hearing
    rw [share, if_pos rfl] at this
    generalize e.hearing = y at this ⊢
    cases y <;> simp only [tally] at this ⊢ <;> omega

/-! ## The book and the segment table -/

/-- `SegmentsCounted` of the route state, the book and the segment table. -/
structure Tracked (state : RouteState) (book : List Entry) (segments : List Segment) : Prop where
  meters : (book.map (·.meterId)).Nodup
  counted : ∀ n g, segments[n]? = some g → Counted book n g
  waiting : state = .loading ∨ state = .ready →
    (∀ e ∈ book, e.hearing = .unheard) ∧ ∀ g ∈ segments, g.state = .pending

theorem segmentsCounted_iff (s : State) : SegmentsCounted s ↔ Tracked s.route.state s.book s.segments := by
  constructor
  · rintro ⟨hmeters, hcounted, hwaiting⟩
    refine ⟨hmeters, fun n g hg => ?_, hwaiting⟩
    obtain ⟨hu, hh, hm, hl, hsum⟩ := hcounted (g, n) (List.mem_zipIdx_iff_getElem?.2 hg)
    refine ⟨fun x => ?_, hsum⟩
    cases x
    · exact hu
    · exact hh
    · exact hm
    · exact hl
  · intro h
    refine ⟨h.meters, fun x hx => ?_, h.waiting⟩
    have hc := h.counted x.2 x.1 (List.mem_zipIdx_iff_getElem?.1 hx)
    exact ⟨hc.tally .unheard, hc.tally .heard, hc.tally .missed, hc.tally .late, hc.member⟩

/-! ### One entry, one segment -/

/-- The search of a book with each meter once splits it at the entry. -/
theorem entryOf_split {s : State} {meter : Nat} {e : Entry} (h : entryOf s meter = some e) :
    e.meterId = meter ∧ ∃ pre post, s.book = pre ++ e :: post := by
  refine ⟨by simpa using List.find?_some h, List.append_of_mem (List.mem_of_find?_eq_some h)⟩

/-- In a book with each meter once, an update of a meter changes its entry alone. -/
theorem map_update_split {pre post : List Entry} {e : Entry} (hn : ((pre ++ e :: post).map (·.meterId)).Nodup)
    (f : Entry → Entry) :
    (pre ++ e :: post).map (fun x => if x.meterId = e.meterId then f x else x) = pre ++ f e :: post := by
  have hn' : (pre.map (·.meterId) ++ [e.meterId] ++ post.map (·.meterId)).Nodup := by simpa using hn
  have apart := notMem_of_nodup_middle hn' e.meterId (List.mem_singleton_self _)
  have others {l : List Entry} (hl : e.meterId ∉ l.map (·.meterId)) :
      l.map (fun x => if x.meterId = e.meterId then f x else x) = l :=
    (List.map_congr_left fun x hx => if_neg fun hc => hl (hc ▸ List.mem_map_of_mem hx)).trans (List.map_id l)
  rw [List.map_append, List.map_cons, others fun h => apart (List.mem_append_left _ h),
    others fun h => apart (List.mem_append_right _ h), if_pos rfl]

theorem set_eq_modify {segments : List Segment} {n : Nat} {g : Segment} (hg : segments[n]? = some g)
    (f : Segment → Segment) : segments.set n (f g) = segments.modify n f := by
  refine List.ext_getElem? fun i => ?_
  rw [List.getElem?_modify, List.getElem?_set]
  by_cases hi : n = i
  · subst hi
    rw [if_pos rfl, hg]
    simp [(List.getElem?_eq_some_iff.1 hg).1]
  · simp [hi]

theorem notifySegment_eq (s : State) (n : Nat) (f : Segment → Segment) :
    notifySegment s n f = s.setSegments (s.segments.modify n f) := by
  unfold notifySegment State.setSegment
  split
  · rename_i g hg
    rw [set_eq_modify hg]
  · rename_i hg
    have same : s.segments.modify n f = s.segments := by
      refine List.ext_getElem? fun i => ?_
      rw [List.getElem?_modify]
      by_cases hi : n = i
      · subst hi
        simp [hg]
      · simp [hi]
    rw [same]
    rfl

theorem setSegment_eq {s : State} {n : Nat} {g : Segment} (hg : s.segments[n]? = some g) (f : Segment → Segment) :
    s.setSegment n (f g) = s.setSegments (s.segments.modify n f) := by
  rw [State.setSegment, set_eq_modify hg]

namespace Tracked

variable {state : RouteState} {book : List Entry} {segments : List Segment}

/-- A segment record is replaced by one with the right counts. -/
theorem segment (h : Tracked state book segments) {n : Nat} {f : Segment → Segment}
    (hcounted : ∀ g, segments[n]? = some g → Counted book n g → Counted book n (f g))
    (hwaiting : state = .loading ∨ state = .ready → ∀ g, segments[n]? = some g → g.state = .pending →
      (f g).state = .pending) : Tracked state book (segments.modify n f) := by
  refine ⟨h.meters, fun i g hg => ?_, fun hw => ⟨(h.waiting hw).1, fun g hg => ?_⟩⟩
  · rw [List.getElem?_modify] at hg
    obtain ⟨q, hq, rfl⟩ := Option.map_eq_some_iff.1 hg
    split
    · rename_i hi
      subst hi
      exact hcounted q hq (h.counted _ q hq)
    · exact h.counted i q hq
  · obtain ⟨i, hi⟩ := List.mem_iff_getElem?.1 hg
    rw [List.getElem?_modify] at hi
    obtain ⟨q, hq, rfl⟩ := Option.map_eq_some_iff.1 hi
    have hpending := (h.waiting hw).2 q (List.mem_of_getElem? hq)
    split
    · rename_i hi
      subst hi
      exact hwaiting hw q hq hpending
    · exact hpending

/-- One entry is replaced, in its segment, with the notice its segment is given. -/
theorem entry {pre post : List Entry} {e e' : Entry} (h : Tracked state (pre ++ e :: post) segments)
    (hmeter : e'.meterId = e.meterId) (hsegment : e'.segment = e.segment) {f : Segment → Segment}
    (hcounted : ∀ g, segments[e.segment]? = some g → Counted (pre ++ e :: post) e.segment g →
      Counted (pre ++ e' :: post) e.segment (f g))
    (hwaiting : state = .loading ∨ state = .ready → (e.hearing = .unheard → e'.hearing = .unheard)
      ∧ ∀ g, segments[e.segment]? = some g → g.state = .pending → (f g).state = .pending) :
    Tracked state (pre ++ e' :: post) (segments.modify e.segment f) := by
  have same (n : Nat) (hn : n ≠ e.segment) (g : Segment) (hg : Counted (pre ++ e :: post) n g) :
      Counted (pre ++ e' :: post) n g := by
    refine ⟨fun x => ?_, hg.member⟩
    rw [hg.tally, memberCount_split, memberCount_split, shareOf_of_other hn.symm,
      shareOf_of_other (by rw [hsegment]; exact hn.symm)]
  refine ⟨?_, fun i g hg => ?_, fun hw => ⟨fun x hx => ?_, fun g hg => ?_⟩⟩
  · have hmeters := h.meters
    simp only [List.map_append, List.map_cons] at hmeters ⊢
    rw [hmeter]
    exact hmeters
  · rw [List.getElem?_modify] at hg
    obtain ⟨q, hq, rfl⟩ := Option.map_eq_some_iff.1 hg
    split
    · rename_i hi
      subst hi
      exact hcounted q hq (h.counted _ q hq)
    · rename_i hi
      exact same i (Ne.symm hi) q (h.counted i q hq)
  · have hbook := (h.waiting hw).1
    simp only [List.mem_append, List.mem_cons] at hx hbook
    obtain hx | rfl | hx := hx
    · exact hbook x (.inl hx)
    · exact (hwaiting hw).1 (hbook e (.inr (.inl rfl)))
    · exact hbook x (.inr (.inr hx))
  · obtain ⟨i, hi⟩ := List.mem_iff_getElem?.1 hg
    rw [List.getElem?_modify] at hi
    obtain ⟨q, hq, rfl⟩ := Option.map_eq_some_iff.1 hi
    have hpending := (h.waiting hw).2 q (List.mem_of_getElem? hq)
    split
    · rename_i hi
      subst hi
      exact (hwaiting hw).2 q hq hpending
    · exact hpending

/-- What the counts read of an entry stays: nothing is to be counted again. -/
theorem touch {pre post : List Entry} {e e' : Entry} (h : Tracked state (pre ++ e :: post) segments)
    (hmeter : e'.meterId = e.meterId) (hsegment : e'.segment = e.segment) (hoptions : e'.options = e.options)
    (hhearing : e'.hearing = e.hearing) : Tracked state (pre ++ e' :: post) segments := by
  have kept := h.entry hmeter hsegment (f := id) (fun g _ hg => ?_) (fun _ => ⟨fun hu => hhearing.trans hu, fun _ _ hp => hp⟩)
  · rwa [List.modify_id] at kept
  · refine hg.replace (fun _ x => ?_) fun _ hm => hm
    simp [shareOf, isMember, hsegment, hoptions, hhearing]

/-- The route state changes, but to no state before the start. -/
theorem toState (h : Tracked state book segments) {state' : RouteState} (hnot : state' ≠ .loading ∧ state' ≠ .ready) :
    Tracked state' book segments :=
  ⟨h.meters, h.counted, fun hw => hw.elim (fun hl => absurd hl hnot.1) fun hr => absurd hr hnot.2⟩

/-- An empty book with segments that have no members. -/
theorem empty (state : RouteState) {segments : List Segment}
    (h : ∀ g ∈ segments, g.state = .pending ∧ g.member = 0 ∧ ∀ x, Machine.tally g x = 0) :
    Tracked state [] segments := by
  refine ⟨List.nodup_nil, fun n g hg => ⟨fun x => ?_, ?_⟩, fun _ => ⟨by simp, fun g hg => (h g hg).1⟩⟩
  · exact (h g (List.mem_of_getElem? hg)).2.2 x
  · obtain ⟨-, hm, ht⟩ := h g (List.mem_of_getElem? hg)
    have hu := ht .unheard
    have hh := ht .heard
    have hmi := ht .missed
    have hl := ht .late
    simp only [Machine.tally] at hu hh hmi hl
    omega

end Tracked

end Sys2Proof.Machine
end

