-- ==== Sys2Proof/Proofs/SegmentCounts.lean ====
section
/-! SUPPORT. The segment counts through every command that writes the route, the book or the segment table (R62 to R73,
R88 to R95, R120 to R130). -/

namespace Sys2Proof.Machine

/-- `Tracked` of a state. -/
def TrackedState (s : State) : Prop := Tracked s.route.state s.book s.segments

theorem TrackedState.of_agrees {s t : State} (hs : TrackedState s) (h : Agrees .route s t) : TrackedState t := by
  obtain ⟨hstate, hbook, hsegments⟩ := h
  unfold TrackedState
  rw [hstate, hbook, hsegments]
  exact hs

theorem TrackedState.of_all {s t : State} (hs : TrackedState s) (h : AgreesAll s t) : TrackedState t :=
  hs.of_agrees (h .route)

theorem trackedState_takeGroup {s : State} (hs : TrackedState s) (g : List Draft) : TrackedState (takeGroup s g) :=
  hs.of_agrees (agrees_takeGroup s (by simp) (by simp) g)

section
variable {s : State} {pre post : List Entry} {e : Entry} (hs : TrackedState s) (hsplit : s.book = pre ++ e :: post)
include hs hsplit

theorem updateEntry_book_split (f : Entry → Entry) : (updateEntry s e.meterId f).book = pre ++ f e :: post := by
  show s.book.map _ = _
  rw [hsplit]
  exact map_update_split (hsplit ▸ hs.meters) f

theorem trackedState_updateEntry {f : Entry → Entry} (hmeter : (f e).meterId = e.meterId)
    (hsegment : (f e).segment = e.segment) (hoptions : (f e).options = e.options)
    (hhearing : (f e).hearing = e.hearing) : TrackedState (updateEntry s e.meterId f) := by
  unfold TrackedState
  rw [updateEntry_book_split hs hsplit f]
  exact Tracked.touch (hsplit ▸ hs) hmeter hsegment hoptions hhearing

theorem trackedState_notified {f : Entry → Entry} {k : Segment → Segment} (hmeter : (f e).meterId = e.meterId)
    (hsegment : (f e).segment = e.segment)
    (hcounted : ∀ g, Counted (pre ++ e :: post) e.segment g → Counted (pre ++ f e :: post) e.segment (k g))
    (hwaiting : s.route.state = .loading ∨ s.route.state = .ready → (e.hearing = .unheard → (f e).hearing = .unheard)
      ∧ ∀ g, g.state = .pending → (k g).state = .pending) :
    TrackedState (notifySegment (updateEntry s e.meterId f) e.segment k) := by
  unfold TrackedState
  rw [notifySegment_eq]
  show Tracked s.route.state (updateEntry s e.meterId f).book (s.segments.modify e.segment k)
  rw [updateEntry_book_split hs hsplit f]
  refine Tracked.entry (hsplit ▸ hs) hmeter hsegment (fun g _ => hcounted g) fun hw => ?_
  exact ⟨(hwaiting hw).1, fun g _ => (hwaiting hw).2 g⟩

end

/-! ## Hearings (R87 to R95) -/

section
variable {s : State} {pre post : List Entry} {e : Entry} {h : Hearing} (hs : TrackedState s)
  (hsplit : s.book = pre ++ e :: post) (hrun : s.route.state = .running ∨ s.route.state = .ending)
include hs hsplit hrun

omit hs hsplit in
theorem route_not_waiting : ¬ (s.route.state = .loading ∨ s.route.state = .ready) := by
  obtain h | h := hrun <;> simp [h]

theorem trackedState_hearFirst (hhold : hasHold e.options = false) (late : Bool)
    (hfrom : e.hearing = if late then .missed else .unheard) : TrackedState (hearFirst s e h late) := by
  unfold hearFirst
  simp only
  refine trackedState_takeGroup (trackedState_notified (s := countBook s _ _ _) hs hsplit rfl rfl (fun g hg => ?_)
    fun hw => absurd hw (route_not_waiting hrun)) _
  cases late
  · exact counted_noteFirst hg hhold (by rfl) (by rfl) hfrom (by rfl) h.timeTag
  · exact counted_noteLate hg hhold (by rfl) (by rfl) hfrom (by rfl) h.timeTag

omit hrun in
theorem trackedState_hearAbsorbed (r : Screening) (capped : Bool) : TrackedState (hearAbsorbed s e h r capped) := by
  unfold hearAbsorbed
  refine trackedState_takeGroup (trackedState_updateEntry (pre := pre) (post := post) ?_ ?_ ?_ ?_ ?_ ?_) _
  · exact hs
  · exact hsplit
  all_goals rfl

omit hrun in
theorem trackedState_hearLater : TrackedState (hearLater s e h) := by
  unfold hearLater
  split
  · exact trackedState_updateEntry hs hsplit (f := fun x => touchEntry x h) rfl rfl rfl rfl
  · simp only
    split
    · split
      · unfold hearRevision
        refine trackedState_takeGroup (trackedState_updateEntry (pre := pre) (post := post) ?_ ?_ ?_ ?_ ?_ ?_) _
        · exact hs
        · exact hsplit
        all_goals rfl
      · exact trackedState_hearAbsorbed hs hsplit _ _
    · exact trackedState_hearAbsorbed hs hsplit _ _

theorem trackedState_hearBook : TrackedState (hearBook s e h) := by
  unfold hearBook
  split
  · exact hs
  · split
    · exact trackedState_updateEntry hs hsplit (f := fun x => touchEntry x h) rfl rfl rfl rfl
    · rename_i hhold
      have hhold : hasHold e.options = false := by simpa using hhold
      split
      · exact trackedState_hearFirst hs hsplit hrun hhold false (by assumption)
      · exact trackedState_hearFirst hs hsplit hrun hhold true (by assumption)
      all_goals exact trackedState_hearLater hs hsplit

end

theorem trackedState_hearForeign {s : State} (hs : TrackedState s) (h : Hearing) : TrackedState (hearForeign s h) := by
  have screened {t : State} (ht : TrackedState t) (a : Conditions) (creates : Bool) :
      TrackedState (hearForeignScreened t h a creates) := by
    unfold hearForeignScreened
    refine trackedState_takeGroup ?_ _
    exact ht
  have seen : TrackedState (s.setMatcher { s.matcher with foreignSeen := bump s.matcher.foreignSeen }) := hs
  unfold hearForeign
  simp only
  split
  · exact hs
  all_goals
    split
    · exact screened seen _ _
    · split
      · exact hs
      · exact screened seen _ _

theorem trackedState_matcherTake {s : State} (hs : TrackedState s) : TrackedState (matcherTake s) := by
  unfold matcherTake
  split
  · exact hs
  · split
    · unfold hear
      split
      · rename_i hrun
        split
        · refine trackedState_hearForeign ?_ _
          exact hs
        · rename_i e he
          obtain ⟨-, pre, post, hsplit⟩ := entryOf_split he
          refine trackedState_hearBook ?_ hsplit hrun
          exact hs
      · exact hs
    · exact hs

/-! ## The close of a segment and the end of the route (R73, R123 to R127) -/

theorem counted_closeStart {book : List Entry} {n : Nat} {g : Segment} (h : Counted book n g) (all : List Entry)
    (reason : CloseReason) : Counted book n (closeStart all n reason g) := h.of_counts rfl rfl rfl rfl rfl

theorem trackedState_notifySegment {s : State} (hs : TrackedState s) {n : Nat} {f : Segment → Segment}
    (hcounted : ∀ g, s.segments[n]? = some g → Counted s.book n g → Counted s.book n (f g))
    (hwaiting : s.route.state = .loading ∨ s.route.state = .ready → ∀ g, s.segments[n]? = some g → g.state = .pending →
      (f g).state = .pending) : TrackedState (notifySegment s n f) := by
  rw [notifySegment_eq]
  exact Tracked.segment hs hcounted hwaiting

theorem trackedState_setSegment {s : State} (hs : TrackedState s) {n : Nat} {g : Segment}
    (hg : s.segments[n]? = some g) {f : Segment → Segment} (hcounted : Counted s.book n g → Counted s.book n (f g))
    (hwaiting : g.state = .pending → (f g).state = .pending) : TrackedState (s.setSegment n (f g)) := by
  rw [setSegment_eq hg]
  refine Tracked.segment hs (fun q hq hc => ?_) fun _ q hq hp => ?_
  · rw [hg] at hq
    cases hq
    exact hcounted hc
  · rw [hg] at hq
    cases hq
    exact hwaiting hp

/-- A close starts only where the route has started. -/
theorem trackedState_startClose {s : State} (hs : TrackedState s) {n : Nat}
    (hnot : ∀ g, s.segments[n]? = some g → s.route.state = .loading ∨ s.route.state = .ready → g.state ≠ .pending)
    (reason : CloseReason) : TrackedState (startClose s n reason) :=
  trackedState_notifySegment hs (fun _ _ hc => counted_closeStart hc _ _) fun hw g hg hp => absurd hp (hnot g hg hw)

theorem trackedState_deadlineExpiry {s : State} (hs : TrackedState s) (n : Nat) : TrackedState (deadlineExpiry s n) := by
  unfold deadlineExpiry
  split
  · rename_i g hg
    split
    · rename_i hactive _
      split
      · refine trackedState_startClose hs (fun q hq _ => ?_) _
        rw [hg] at hq
        cases hq
        simp [hactive]
      · exact hs
    · exact hs
  · exact hs

theorem counted_walkOn {book : List Entry} {n : Nat} {g : Segment} (h : Counted book n g) (all : List Entry) (p : Nat) :
    Counted book n (walkOn all n p g) := h.of_counts rfl rfl rfl rfl rfl

theorem trackedState_handMissed {s : State} (hs : TrackedState s) (n p : Nat) (w : WaitingMissed) :
    TrackedState (handMissed s n p w) := by
  unfold handMissed
  split
  · exact trackedState_takeGroup (trackedState_notifySegment hs (fun _ _ hc => counted_walkOn hc _ _) fun _ _ _ hp => hp) _
  · exact hs

/-- What the visit of an UNHEARD member tells its segment (R126). -/
def missNotice (w : WaitingMissed) (g : Segment) : Segment := { noteMiss g with waiting := some w }

/-- The visit of an UNHEARD member, in a segment that closes (R126). -/
theorem trackedState_missEntry {s : State} (hs : TrackedState s) {n p : Nat} {g : Segment} {e : Entry}
    (hg : s.segments[n]? = some g) (he : s.book[p]? = some e) (hclosing : g.state = .closing)
    (hmisses : walkMisses n e = true) : TrackedState (missEntry s n p g e) := by
  simp only [walkMisses, isMember, Bool.and_eq_true, Bool.not_eq_true', decide_eq_true_eq] at hmisses
  obtain ⟨⟨hhold, rfl⟩, hunheard⟩ := hmisses
  obtain ⟨hp, hget⟩ := List.getElem?_eq_some_iff.1 he
  have hsplit : s.book = s.book.take p ++ e :: s.book.drop (p + 1) := by
    rw [← hget, List.cons_getElem_drop_succ, List.take_append_drop]
  have hset : s.book.set p { e with hearing := .missed }
      = s.book.take p ++ { e with hearing := .missed } :: s.book.drop (p + 1) :=
    List.set_eq_take_append_cons_drop .. |>.trans (if_pos hp)
  have hs' : Tracked s.route.state (s.book.take p ++ e :: s.book.drop (p + 1)) s.segments := by
    rw [← hsplit]
    exact hs
  unfold missEntry
  refine trackedState_handMissed ?_ e.segment p _
  show Tracked s.route.state (s.book.set p { e with hearing := .missed })
    (s.segments.set e.segment
      (missNotice { meterId := e.meterId, pass := g.pass, timeTag := s.clock.value } g))
  rw [set_eq_modify hg (missNotice _)]
  rw [hset]
  refine Tracked.entry hs' (by rfl) (by rfl) (fun q _ hc => ?_) fun hw => ?_
  · exact (counted_noteMiss hc hhold (by rfl) (by rfl) hunheard (by rfl)).of_counts rfl rfl rfl rfl rfl
  · have hpending := (hs.waiting hw).2 g (List.mem_of_getElem? hg)
    rw [hclosing] at hpending
    cases hpending

theorem trackedState_walkVisit {s : State} (hs : TrackedState s) (n : Nat) : TrackedState (walkVisit s n) := by
  unfold walkVisit
  split
  · exact hs
  · rename_i g hg
    split
    · rename_i hclosing _
      have passed (p : Nat) : TrackedState (s.setSegment n (walkOn s.book n p g)) :=
        trackedState_setSegment hs hg (f := walkOn s.book n p) (fun hc => counted_walkOn hc _ _) id
      split
      · exact trackedState_handMissed hs n _ _
      · split
        · split
          · exact trackedState_missEntry hs hg (by assumption) hclosing (by assumption)
          · exact passed _
        · exact passed _
    · exact hs

theorem trackedState_closeEnd {s : State} (hs : TrackedState s) (n : Nat) : TrackedState (closeEnd s n) := by
  unfold closeEnd
  split
  · exact hs
  · rename_i g hg
    split
    · rename_i hend
      have closed : TrackedState (s.setSegment n { g with state := .closed, walkPosition := none }) := by
        refine trackedState_setSegment hs hg (f := fun q => { q with state := .closed, walkPosition := none })
          (fun hc => hc.of_counts rfl rfl rfl rfl rfl) fun hp => ?_
        rw [hend.1] at hp
        cases hp
      exact (trackedState_takeGroup closed _).of_all fun b => agrees_raiseEvent b _ _ _ _
    · exact hs

/-- A state of the route after its start needs no more than the counts. -/
theorem trackedState_changeRoute {s : State} (hs : TrackedState s) {r : Route}
    (hnot : r.state ≠ .loading ∧ r.state ≠ .ready) : TrackedState (changeRoute s r) := Tracked.toState hs hnot

theorem trackedState_routeEndRecord {s : State} (hs : TrackedState s) : TrackedState (routeEndRecord s) := by
  unfold routeEndRecord
  split
  · refine trackedState_changeRoute ?_ (by simp)
    exact trackedState_takeGroup hs _
  · exact hs

/-! ## The start of the route (R71) -/

theorem memberCount_of_unheard {book : List Entry} (h : ∀ e ∈ book, e.hearing = .unheard) (n : Nat)
    (x : HearingState) :
    memberCount book n x
      = if x = .unheard then book.countP (fun e => isMember e && decide (e.segment = n)) else 0 := by
  unfold memberCount
  split
  · rename_i hx
    subst hx
    refine List.countP_congr fun e he => ?_
    simp [h e he]
  · rename_i hx
    refine List.countP_eq_zero.2 fun e he => ?_
    simp [h e he, Ne.symm hx]

theorem counted_startSegment {book : List Entry} (h : ∀ e ∈ book, e.hearing = .unheard) (n : Nat) (g : Segment) :
    Counted book n (startSegment book n g) := by
  refine ⟨fun x => ?_, rfl⟩
  rw [memberCount_of_unheard h]
  cases x <;> rfl

theorem trackedState_judgeRouteStart {s : State} (hs : TrackedState s) (hour : Nat) :
    TrackedState (judgeRouteStart s hour).state := by
  unfold judgeRouteStart
  split
  · exact hs
  · rename_i hready
    split
    · exact hs
    · have hunheard := (hs.waiting (.inr (by simpa using hready))).1
      unfold startRoute
      refine trackedState_changeRoute (trackedState_takeGroup ?_ _) (by simp)
      refine ⟨hs.meters, fun n g hg => ?_, fun _ => ⟨hunheard, fun g hg => ?_⟩⟩
      · have hg : (s.segments.mapIdx (startSegment s.book))[n]? = some g := hg
        rw [List.getElem?_mapIdx] at hg
        obtain ⟨q, -, rfl⟩ := Option.map_eq_some_iff.1 hg
        exact counted_startSegment hunheard n q
      · have hg : g ∈ s.segments.mapIdx (startSegment s.book) := hg
        obtain ⟨i, hi, rfl⟩ := List.mem_mapIdx.1 hg
        rfl

theorem trackedState_serveRouteStart {s : State} (hs : TrackedState s) (k : Link) :
    TrackedState (serveRouteStart k s) := by
  have linked {t : State} (ht : TrackedState t) (p : LinkPort) : TrackedState (t.setLink k p) :=
    ht.of_all fun b => agrees_setLink b t k p
  unfold serveRouteStart
  split
  · exact hs
  · split
    · simp only
      split
      · exact linked (linked hs _) _
      · exact (linked (trackedState_judgeRouteStart (linked hs _) _) _).of_all fun b => agrees_kickBoth b _
    · exact hs

theorem trackedState_executeRouteStart {s : State} (hs : TrackedState s) (k : Link) :
    TrackedState (executeRouteStart k s) := by
  have linked {t : State} (ht : TrackedState t) (p : LinkPort) : TrackedState (t.setLink k p) :=
    ht.of_all fun b => agrees_setLink b t k p
  unfold executeRouteStart
  split
  · split
    · exact (linked (trackedState_judgeRouteStart (linked hs _) _) _).of_all fun b => agrees_kickBoth b _
    · exact hs
  all_goals exact hs

/-! ## Requests (R62 to R72, R129, R130, R132) -/

section
variable {s : State} {r : Request} {a : Answer} (hs : TrackedState s)
include hs

theorem trackedState_ownRouteEnd (h : ownRouteEnd s r = some a) : TrackedState a.state := by
  unfold ownRouteEnd at h
  split at h <;> cases h
  unfold endRoute
  split
  · exact hs
  · have ending : TrackedState (changeRoute s { s.route with state := .ending }) :=
      trackedState_changeRoute hs (by simp)
    refine ⟨hs.meters, fun n g hg => ?_, fun hw => absurd hw (by simp [closeAllOpen, changeRoute, raiseEvent, accept])⟩
    have hg : (s.segments.mapIdx (fun n g =>
        if g.state = .pending ∨ g.state = .active then closeStart s.book n .routeEnd g else g))[n]? = some g := hg
    rw [List.getElem?_mapIdx] at hg
    obtain ⟨q, hq, rfl⟩ := Option.map_eq_some_iff.1 hg
    have hc : Counted s.book n q := hs.counted n q hq
    show Counted s.book n _
    split
    · exact counted_closeStart hc _ _
    · exact hc

theorem trackedState_ownSegmentSet {k : Link} (h : ownSegmentSet k s r = some a) : TrackedState a.state := by
  unfold ownSegmentSet at h
  split at h <;> cases h
  have written (n autoClose quietTime minDwell : Nat) : TrackedState (writeSegment s n autoClose quietTime minDwell) := by
    refine trackedState_notifySegment hs (fun g _ hc => Counted.recompute (hc.of_counts rfl rfl rfl rfl rfl))
      fun _ g _ hp => ?_
    rw [recompute_state]
    exact hp
  unfold judgeSegmentSet
  split
  case h_1 | h_2 | h_3 => exact hs
  all_goals
    split
    · exact hs
    · split
      · exact hs
      · split
        · exact hs
        · exact written _ _ _ _

theorem trackedState_ownSegmentClose (h : ownSegmentClose s r = some a) : TrackedState a.state := by
  unfold ownSegmentClose at h
  split at h <;> cases h
  unfold judgeSegmentClose
  split
  · exact hs
  · rename_i hstate
    have hnot : ¬ (s.route.state = .loading ∨ s.route.state = .ready) := by
      rintro (hl | hl) <;> simp [hl] at hstate
    have closed (n : Nat) : TrackedState (startClose s n .request) :=
      trackedState_startClose hs (fun _ _ hw => absurd hw hnot) _
    split
    · exact hs
    · split
      · exact hs
      · split
        · exact hs
        · exact hs
        all_goals exact closed _

end

/-! ### SEGMENT_REOPEN (R130) -/

/-- What the reopening of a segment makes of a count of its members. -/
def reopenedCount (count : HearingState → Nat) : HearingState → Nat
  | .unheard => count .unheard + count .missed
  | .heard => count .heard
  | .missed => 0
  | .late => count .late

theorem shareOf_reopenEntry (n : Nat) (e : Entry) (m : Nat) (x : HearingState) :
    shareOf (reopenEntry n e) m x = if m = n then reopenedCount (shareOf e n) x else shareOf e m x := by
  unfold reopenEntry
  by_cases hmissed : isMember e = true ∧ e.segment = n ∧ e.hearing = .missed
  · obtain ⟨hmember, rfl, hhearing⟩ := hmissed
    have member' : isMember { e with hearing := HearingState.unheard } = true := hmember
    rw [if_pos ⟨hmember, rfl, hhearing⟩]
    by_cases hm : m = e.segment
    · subst hm
      rw [if_pos rfl]
      cases x <;> simp [shareOf, reopenedCount, member', hmember, hhearing]
    · rw [if_neg hm]
      simp [shareOf, Ne.symm hm]
  · rw [if_neg hmissed]
    split
    · rename_i hm
      subst hm
      have none : shareOf e m .missed = 0 := by simpa [shareOf] using hmissed
      cases x <;> simp [reopenedCount, none]
    · rfl

theorem memberCount_reopen (book : List Entry) (n m : Nat) (x : HearingState) :
    memberCount (book.map (reopenEntry n)) m x
      = if m = n then reopenedCount (memberCount book n) x else memberCount book m x := by
  induction book with
  | nil =>
    split
    · cases x <;> rfl
    · rfl
  | cons e rest ih =>
    rw [List.map_cons, memberCount_cons, ih, shareOf_reopenEntry]
    split
    · cases x <;> simp only [reopenedCount, memberCount_cons]
      omega
    · rw [memberCount_cons]

theorem reopenEntry_meterId (n : Nat) (e : Entry) : (reopenEntry n e).meterId = e.meterId := by
  unfold reopenEntry
  split <;> rfl

theorem counted_reopenSegment {book : List Entry} {n : Nat} {g : Segment} (h : Counted book n g) (now : Nat) :
    Counted (book.map (reopenEntry n)) n (reopenSegment now g) := by
  have hu := h.tally .unheard
  have hh := h.tally .heard
  have hm := h.tally .missed
  have hl := h.tally .late
  have hsum := h.member
  simp only [tally] at hu hh hm hl
  refine Counted.recompute ⟨fun x => ?_, ?_⟩
  · rw [memberCount_reopen, if_pos rfl]
    cases x <;> simp only [tally, reopenedCount]
    · rw [hu, hm]
    · exact hh
    · exact hl
  · simp only
    omega

theorem trackedState_reopen {s : State} (hs : TrackedState s) {n : Nat} {g : Segment} (hg : s.segments[n]? = some g)
    (hrun : s.route.state = .running) : TrackedState (reopen s n g).state := by
  show Tracked s.route.state (s.book.map (reopenEntry n)) (s.segments.set n (reopenSegment s.clock.value g))
  rw [set_eq_modify hg (reopenSegment s.clock.value)]
  refine ⟨?_, fun i q hq => ?_, fun hw => absurd hw (by simp [hrun])⟩
  · have meters : (s.book.map (reopenEntry n)).map (·.meterId) = s.book.map (·.meterId) := by
      rw [List.map_map]
      exact List.map_congr_left fun e _ => reopenEntry_meterId n e
    rw [meters]
    exact hs.meters
  · rw [List.getElem?_modify] at hq
    obtain ⟨x, hx, rfl⟩ := Option.map_eq_some_iff.1 hq
    have hc := hs.counted i x hx
    by_cases hi : n = i
    · subst hi
      rw [if_pos rfl]
      exact counted_reopenSegment hc _
    · rw [if_neg hi]
      exact ⟨fun y => by rw [hc.tally, memberCount_reopen, if_neg (Ne.symm hi)], hc.member⟩

theorem trackedState_ownSegmentReopen {s : State} {r : Request} {a : Answer} (hs : TrackedState s)
    (h : ownSegmentReopen s r = some a) : TrackedState a.state := by
  unfold ownSegmentReopen at h
  split at h <;> cases h
  unfold judgeSegmentReopen
  split
  · exact hs
  · rename_i hrun
    split
    · exact hs
    · split
      · exact hs
      · rename_i hg
        split
        case h_1 | h_2 | h_3 => exact hs
        split
        · exact hs
        · exact trackedState_reopen hs hg (by simpa using hrun)

/-! ### The load of the book (R62 to R65) -/

theorem trackedState_abandonLoad (s : State) : TrackedState (abandonLoad s) :=
  Tracked.empty (segments := []) _ (by simp)

theorem tracked_replicate (state : RouteState) (n autoClose quietTime minDwell : Nat) :
    Tracked state [] (List.replicate n (freshSegment autoClose quietTime minDwell)) := by
  refine Tracked.empty _ fun g hg => ?_
  rw [List.eq_of_mem_replicate hg]
  exact ⟨rfl, rfl, fun x => by cases x <;> rfl⟩

theorem trackedState_ownBookOpen {k : Link} {s : State} {r : Request} {a : Answer} (hs : TrackedState s)
    (h : ownBookOpen k s r = some a) : TrackedState a.state := by
  unfold ownBookOpen at h
  split at h <;> cases h
  unfold judgeBookOpen
  split
  · exact hs
  · exact hs
  · split <;> exact hs
  all_goals
    split
    · split
      · exact tracked_replicate _ _ _ _ _
      · exact hs
    · exact hs

theorem trackedState_closeBook {s : State} (hs : TrackedState s) (hloading : s.route.state = .loading) :
    TrackedState (closeBook s).state := by
  unfold closeBook
  split
  · exact hs
  · exact ⟨hs.meters, hs.counted, fun _ => hs.waiting (.inl hloading)⟩

theorem trackedState_asOwner {s : State} {k : Link} {f : State → Answer} (hs : TrackedState s)
    (hf : s.route.state = .loading → TrackedState (f s).state) : TrackedState (asOwner s k f).state := by
  unfold asOwner
  split
  · exact hs
  · split
    · exact hs
    · exact hf (by simp_all)

theorem trackedState_ownBookClose {k : Link} {s : State} {r : Request} {a : Answer} (hs : TrackedState s)
    (h : ownBookClose k s r = some a) : TrackedState a.state := by
  unfold ownBookClose at h
  split at h <;> cases h
  exact trackedState_asOwner hs (trackedState_closeBook hs)

theorem trackedState_ownBookAbort {k : Link} {s : State} {r : Request} {a : Answer} (hs : TrackedState s)
    (h : ownBookAbort k s r = some a) : TrackedState a.state := by
  unfold ownBookAbort at h
  split at h <;> cases h
  exact trackedState_asOwner hs fun _ => trackedState_abandonLoad s

/-- An entry of a new meter joins the book, and its segment's counts if it is a member (R64). -/
theorem trackedState_takeEntryIntoBook {s : State} (hs : TrackedState s) {e : Entry} (hunheard : e.hearing = .unheard)
    (hnew : ∀ x ∈ s.book, x.meterId ≠ e.meterId) : TrackedState (takeEntryIntoBook s e) := by
  have meters : ((s.book ++ [e]).map (·.meterId)).Nodup := by
    rw [List.map_append]
    refine List.Nodup.append hs.meters (by simp) ?_
    simpa using hnew
  have unheard (h : ∀ x ∈ s.book, x.hearing = .unheard) : ∀ x ∈ s.book ++ [e], x.hearing = .unheard := by
    intro x hx
    obtain hx | hx := List.mem_append.1 hx
    · exact h x hx
    · rw [List.mem_singleton.1 hx]
      exact hunheard
  have grown (n : Nat) (x : HearingState) :
      memberCount (s.book ++ [e]) n x = memberCount s.book n x + shareOf e n x := by
    rw [memberCount_append, memberCount_cons]
    show _ = _
    simp [memberCount]
  have other (n : Nat) (h : ∀ x, shareOf e n x = 0) {g : Segment} (hg : Counted s.book n g) :
      Counted (s.book ++ [e]) n g := ⟨fun x => by rw [hg.tally, grown, h, Nat.add_zero], hg.member⟩
  unfold takeEntryIntoBook
  simp only
  split
  · rename_i hmember
    have hhold : hasHold e.options = false := by simpa [isMember] using hmember
    rw [notifySegment_eq]
    refine ⟨meters, fun n g hg => ?_, fun hw => ⟨unheard (hs.waiting hw).1, fun g hg => ?_⟩⟩
    · have hg : (s.segments.modify e.segment (fun g => noteJoin g .unheard))[n]? = some g := hg
      rw [List.getElem?_modify] at hg
      obtain ⟨q, hq, rfl⟩ := Option.map_eq_some_iff.1 hg
      have hc := hs.counted n q hq
      by_cases hi : e.segment = n
      · subst hi
        rw [if_pos rfl]
        refine Counted.recompute ⟨fun x => ?_, ?_⟩
        · show _ = memberCount (s.book ++ [e]) e.segment x
          rw [grown, ← hc.tally, shareOf_of_member hhold, hunheard]
          cases x <;> simp [tally]
        · have := hc.member
          simp only
          omega
      · rw [if_neg hi]
        exact other n (shareOf_of_other hi) hc
    · have hg : g ∈ s.segments.modify e.segment (fun g => noteJoin g .unheard) := hg
      obtain ⟨i, hi⟩ := List.mem_iff_getElem?.1 hg
      rw [List.getElem?_modify] at hi
      obtain ⟨q, hq, rfl⟩ := Option.map_eq_some_iff.1 hi
      have hpending := (hs.waiting hw).2 q (List.mem_of_getElem? hq)
      split
      · rw [noteJoin, recompute_state]
        exact hpending
      · exact hpending
  · rename_i hmember
    have hhold : hasHold e.options = true := by simpa [isMember] using hmember
    refine ⟨meters, fun n g hg => other n (shareOf_of_hold hhold n) (hs.counted n g hg), fun hw => ?_⟩
    exact ⟨unheard (hs.waiting hw).1, (hs.waiting hw).2⟩

/-- What the checks of R64 make sure of in an entry they pass. -/
theorem judgeEntry_eq_ok {s : State} {e : RawEntry} {x : Entry} (h : judgeEntry s e = .ok x) :
    x.hearing = .unheard ∧ ∀ y ∈ s.book, y.meterId ≠ x.meterId := by
  unfold judgeEntry at h
  split at h
  · cases h
  · split at h
    · cases h
    · split at h
      · cases h
      · split at h
        · cases h
        · rename_i hnew
          cases h
          refine ⟨rfl, fun y hy hm => hnew ?_⟩
          exact (entryOf_isSome_iff s e.meterId).2 ⟨y, hy, hm⟩

theorem trackedState_takeRawEntries (es : List RawEntry) {s : State} (hs : TrackedState s) (taken : Nat) :
    TrackedState (takeRawEntries es s taken).1 := by
  induction es generalizing s taken with
  | nil => exact hs
  | cons e rest ih =>
    unfold takeRawEntries
    split
    · exact hs
    · rename_i x hx
      obtain ⟨hunheard, hnew⟩ := judgeEntry_eq_ok hx
      exact ih (trackedState_takeEntryIntoBook hs hunheard hnew) _

theorem trackedState_ownBookEntries {k : Link} {s : State} {r : Request} {a : Answer} (hs : TrackedState s)
    (h : ownBookEntries k s r = some a) : TrackedState a.state := by
  unfold ownBookEntries at h
  split at h <;> cases h
  have taken (es : List RawEntry) : TrackedState (takeRawEntries es s 0).1 := trackedState_takeRawEntries es hs 0
  unfold judgeBookEntries
  simp only
  split
  · exact hs
  · split
    · exact hs
    · split
      · exact hs
      · split
        · exact hs
        · split
          · exact hs
          · exact taken _

/-! ### ENTRY_MODIFY and SEGMENT_MODIFY (R67 to R69) -/

theorem noteJoin_state (g : Segment) (x : HearingState) : (noteJoin g x).state = g.state := by
  cases x <;> exact recompute_state _

theorem noteLeave_state (g : Segment) (x : HearingState) : (noteLeave g x).state = g.state := by
  cases x <;> exact recompute_state _

theorem admissionNotice_state (before after : Options) (x : HearingState) (g : Segment) :
    (admissionNotice before after x g).state = g.state := by
  unfold admissionNotice
  split
  · exact noteLeave_state g x
  · exact noteJoin_state g x
  · rfl

/-- A change of options moves the entry into or out of its segment's counts as its admission says (R68). -/
theorem counted_admissionNotice {pre post : List Entry} {e : Entry} {g : Segment}
    (hg : Counted (pre ++ e :: post) e.segment g) (o : Options) :
    Counted (pre ++ { e with options := o } :: post) e.segment (admissionNotice e.options o e.hearing g) := by
  unfold admissionNotice
  split
  · exact counted_noteLeave hg (by assumption) (by assumption)
  · exact counted_noteJoin hg (by assumption) (by assumption) (by rfl)
  · rename_i hjoin hleave
    have same : hasHold o = hasHold e.options := by
      cases h : hasHold e.options <;> cases h' : hasHold o <;> simp_all
    refine hg.replace (fun _ x => ?_) fun _ hm => hm
    simp [shareOf, isMember, same]

theorem trackedState_changeOptions {s : State} (hs : TrackedState s) {e : Entry} (he : e ∈ s.book) (clear set : Nat) :
    TrackedState (changeOptions clear set s e) := by
  obtain ⟨pre, post, hsplit⟩ := List.append_of_mem he
  unfold changeOptions
  refine trackedState_notified (f := fun x => { x with options := newOptions e.options clear set }) hs hsplit rfl rfl
    (fun g hg => counted_admissionNotice hg _) fun _ => ⟨id, fun g hp => ?_⟩
  rw [admissionNotice_state]
  exact hp

theorem trackedState_ownEntryModify {s : State} {r : Request} {a : Answer} (hs : TrackedState s)
    (h : ownEntryModify s r = some a) : TrackedState a.state := by
  unfold ownEntryModify at h
  split at h <;> cases h
  unfold judgeEntryModify
  split
  · exact hs
  · split
    · exact hs
    · split
      · exact hs
      · rename_i e he
        split
        · exact hs
        · exact trackedState_changeOptions hs (List.mem_of_find?_eq_some he) _ _

/-- A change of one entry's options leaves every entry of another meter in the book. -/
theorem mem_book_changeOptions {s : State} {e x : Entry} (hx : x ∈ s.book) (hne : x.meterId ≠ e.meterId)
    (clear set : Nat) : x ∈ (changeOptions clear set s e).book := by
  unfold changeOptions
  rw [notifySegment_eq]
  show x ∈ s.book.map _
  exact List.mem_map.2 ⟨x, hx, if_neg hne⟩

/-- The changes of several entries of the book, each of its own meter. -/
theorem trackedState_foldl_changeOptions (clear set : Nat) (es : List Entry) {s : State} (hs : TrackedState s)
    (hes : (es.map (·.meterId)).Nodup) (hbook : ∀ e ∈ es, e ∈ s.book) :
    TrackedState (es.foldl (changeOptions clear set) s) := by
  induction es generalizing s with
  | nil => exact hs
  | cons e rest ih =>
    rw [List.map_cons, List.nodup_cons] at hes
    refine ih (trackedState_changeOptions hs (hbook e (by simp)) clear set) hes.2 fun x hx => ?_
    refine mem_book_changeOptions (hbook x (by simp [hx])) (fun hm => hes.1 ?_) clear set
    rw [← hm]
    exact List.mem_map_of_mem hx

theorem trackedState_ownSegmentModify {s : State} {r : Request} {a : Answer} (hs : TrackedState s)
    (h : ownSegmentModify s r = some a) : TrackedState a.state := by
  unfold ownSegmentModify at h
  split at h <;> cases h
  have changed (n clear set : Nat) : TrackedState ((entriesOf s n).foldl (changeOptions clear set) s) :=
    trackedState_foldl_changeOptions clear set _ hs (hs.meters.sublist (List.filter_sublist.map _))
      fun e he => List.mem_of_mem_filter he
  unfold judgeSegmentModify
  simp only
  split
  · exact hs
  · split
    · exact hs
    · split
      · exact hs
      · exact changed _ _ _

/-! ## Every step -/

theorem trackedState_linkDown {s : State} (hs : TrackedState s) : TrackedState (linkDown s) := by
  have down : TrackedState ((s.setDepotUp false).setDepot { s.depot with tx := none }) := hs
  have upload {t : State} (ht : TrackedState t) : TrackedState (loseUpload t) := by
    unfold loseUpload
    split
    · exact ht
    · exact ht.of_agrees (agrees_endUpload (by simp) (by simp) t _)
  have load {t : State} (ht : TrackedState t) : TrackedState (loseLoad t) := by
    unfold loseLoad
    split
    · exact trackedState_abandonLoad t
    · exact ht
  exact (load (upload down)).of_agrees (agrees_settleStore (by simp) (by simp) _)

/-- Settles O34: every notice a segment is given is the change of the book that goes with it. -/
theorem segmentCountsAgreeWithTheBook : Obligations.SegmentCountsAgreeWithTheBook := by
  have hP (s t : State) (h : ∀ b ∈ [Block.route], Agrees b s t) (hs : TrackedState s) : TrackedState t :=
    hs.of_agrees (h .route (by simp))
  have hall (s t : State) (h : AgreesAll s t) (hs : TrackedState s) : TrackedState t := hs.of_all h
  have empty : Tracked RouteState.empty [] [] := Tracked.empty _ (by simp)
  intro s t hs h
  rw [segmentsCounted_iff] at hs ⊢
  refine step_keeps_through_resets (P := TrackedState) [.route] hP (by simp) (fun _ => trackedState_linkDown)
    (fun _ _ => empty) (fun _ _ => empty) (fun c s t hc hw h hs => ?_) s t hs h
  cases c <;> simp [writes, mayReset] at hc hw
  case matcherTakeHearing => exact kickTrunk_keeps hall h (trackedState_matcherTake hs) hs
  case segmentDeadlineExpiry n =>
    exact whenRunning_keeps (f := fun s => deadlineExpiry s n) h (trackedState_deadlineExpiry hs n) hs
  case closeWalkVisit n =>
    exact kickTrunk_keeps (f := fun s => walkVisit s n) hall h (trackedState_walkVisit hs n) hs
  case closeEnd n => exact kickTrunk_keeps (f := fun s => closeEnd s n) hall h (trackedState_closeEnd hs n) hs
  case routeEndRecord => exact kickTrunk_keeps hall h (trackedState_routeEndRecord hs) hs
  case routeStart k => exact whenRunning_keeps h (trackedState_serveRouteStart hs k) hs
  case routeStartExecute k => exact whenRunning_keeps h (trackedState_executeRouteStart hs k) hs
  case bookOpen k => exact serve_keeps hall (fun _ _ _ ha hu => trackedState_ownBookOpen hu ha) h hs
  case bookEntries k => exact serve_keeps hall (fun _ _ _ ha hu => trackedState_ownBookEntries hu ha) h hs
  case bookClose k => exact serve_keeps hall (fun _ _ _ ha hu => trackedState_ownBookClose hu ha) h hs
  case bookAbort k => exact serve_keeps hall (fun _ _ _ ha hu => trackedState_ownBookAbort hu ha) h hs
  case entryModify k => exact serve_keeps hall (fun _ _ _ ha hu => trackedState_ownEntryModify hu ha) h hs
  case segmentModify k => exact serve_keeps hall (fun _ _ _ ha hu => trackedState_ownSegmentModify hu ha) h hs
  case routeEnd k => exact serve_keeps hall (fun _ _ _ ha hu => trackedState_ownRouteEnd hu ha) h hs
  case segmentSet k => exact serve_keeps hall (fun _ _ _ ha hu => trackedState_ownSegmentSet hu ha) h hs
  case segmentClose k => exact serve_keeps hall (fun _ _ _ ha hu => trackedState_ownSegmentClose hu ha) h hs
  case segmentReopen k => exact serve_keeps hall (fun _ _ _ ha hu => trackedState_ownSegmentReopen hu ha) h hs

end Sys2Proof.Machine
end

