-- ==== Sys2Proof/Proofs/SettledSteps.lean ====
section
/-! SUPPORT. The transmitters' choice after every command (R160, R180): each command that can leave a frame waiting ends
with it. -/

namespace Sys2Proof.Machine

/-! ## What the choice reads -/

/-- Two states agree on what the depot transmitter's choice reads. -/
structure SameDepot (s t : State) : Prop where
  up : t.depotUp = s.depotUp
  depot : t.depot = s.depot
  batches : t.uploader.batches = s.uploader.batches

/-- Two states agree on what the trunk transmitter's choice reads. -/
structure SameTrunk (s t : State) : Prop where
  trunk : t.trunk = s.trunk
  events : t.events = s.events
  live : t.live = s.live

theorem depotIdle_of_same {s t : State} (hs : DepotIdle s) (h : SameDepot s t) : DepotIdle t := by
  unfold DepotIdle
  rw [h.up, h.depot, h.batches]
  exact hs

theorem trunkIdle_of_same {s t : State} (hs : TrunkIdle s) (h : SameTrunk s t) : TrunkIdle t := by
  unfold TrunkIdle
  rw [h.trunk, h.events, h.live]
  exact hs

theorem settled_of_same {s t : State} (hs : Settled s) (hd : SameDepot s t) (ht : SameTrunk s t) : Settled t :=
  settled_of_idle (depotIdle_of_same hs.2 hd) (trunkIdle_of_same hs.1 ht)

/-- The trunk's choice is enough after an operation that leaves the depot link alone. -/
theorem settled_kickTrunk_of_same {s t : State} (hs : Settled s) (h : SameDepot s t) : Settled (kickTrunk t) :=
  settled_of_idle (depotIdle_of_kickTrunk _ (depotIdle_of_same hs.2 h)) (trunkIdle_kickTrunk t)

/-! ## Commands -/

theorem settled_serve {s : State} (hs : Settled s) (k : Link) (owner : State → Request → Option Answer) :
    Settled (serve k owner s) := by
  obtain e | ⟨_, _, _, -, -, -, e⟩ := serve_cases k owner s <;> rw [e]
  · exact hs
  · exact settled_kickBoth _

/-- A dispatcher that holds a request has no frame to send for it. -/
theorem settled_setDispatcher {s : State} (hs : Settled s) (k : Link) (requests : List RequestFrame) (d : Dispatcher) :
    Settled ((s.setLink k { s.link k with requests := requests }).setLink k
      { (s.setLink k { s.link k with requests := requests }).link k with dispatcher := d }) := by
  cases k <;> exact hs

theorem settled_serveRouteStart {s : State} (hs : Settled s) (k : Link) : Settled (serveRouteStart k s) := by
  unfold serveRouteStart
  split
  · exact hs
  · split
    · simp only
      split
      · exact settled_setDispatcher hs k _ _
      · exact settled_kickBoth _
    · exact hs

theorem settled_executeRouteStart {s : State} (hs : Settled s) (k : Link) : Settled (executeRouteStart k s) := by
  unfold executeRouteStart
  split
  · split
    · exact settled_kickBoth _
    · exact hs
  all_goals exact hs

theorem settled_serveUnknown {s : State} (hs : Settled s) (k : Link) : Settled (serveUnknown k s) := by
  unfold serveUnknown
  split
  · exact hs
  · split
    · exact settled_kickBoth _
    · exact hs

/-! ## Resets and the ends of frames (R160, R180, R185) -/

theorem depotIdle_of_down {s : State} (h : s.depotUp = false) : DepotIdle s := fun hup => by
  rw [h] at hup
  cases hup

theorem settled_startPart {s : State} (h : DepotIdle s) (x : ResetKind) : Settled (startPart s x) :=
  settled_of_idle (depotIdle_of_kickTrunk _ (depotIdle_of_same h ⟨rfl, rfl, rfl⟩)) (trunkIdle_kickTrunk _)

theorem settled_warmResetRequest (s : State) : Settled (warmResetRequest s) :=
  settled_startPart (depotIdle_of_down rfl) _

theorem settled_trunkFrameEnd {s : State} (hs : Settled s) : Settled (trunkFrameEnd s) := by
  unfold trunkFrameEnd
  split
  · exact hs
  · simp only
    split
    · exact settled_warmResetRequest _
    · exact settled_kickTrunk_of_same hs ⟨rfl, rfl, rfl⟩

theorem settled_depotFrameEnd {s : State} (hs : Settled s) : Settled (depotFrameEnd s) := by
  unfold depotFrameEnd
  split
  · exact hs
  · simp only
    split
    · exact settled_warmResetRequest _
    · exact settled_kickBoth _

theorem settled_dockDeassert {s : State} (hs : Settled s) : Settled (dockDeassert s) := by
  unfold dockDeassert
  simp only
  split
  · split
    · unfold resetOnDown
      split
      · exact settled_warmResetRequest _
      · simp only
        split <;> exact settled_warmResetRequest _
    · exact settled_kickBoth _
  · rename_i hdown
    exact settled_of_idle (depotIdle_of_down (by simpa using hdown)) (trunkIdle_of_same hs.1 ⟨rfl, rfl, rfl⟩)

theorem settled_serveReset {s : State} (hs : Settled s) (k : Link) : Settled (serveReset k s) := by
  unfold serveReset
  split
  · exact settled_serve hs _ _
  · split
    · exact settled_serve hs _ _
    · unfold serveResetDown
      split
      · exact hs
      · split
        · rename_i r _
          cases r
          case reset => exact settled_warmResetRequest s
          all_goals exact hs
        all_goals exact hs

/-- Settles O36: a command either leaves alone what a transmitter's choice reads, or ends with the choice. -/
theorem transmittersNeverIdleOverAFrame : Obligations.TransmittersNeverIdleOverAFrame := by
  have exec_settled (c : Instr) (s t : State) (hs : Settled s) (h : exec c s = .next t) : Settled t := by
    have plain {f : State → State} (hd : SameDepot s (f s)) (ht : SameTrunk s (f s)) (h : whenRunning s f = .next t) :
        Settled t := whenRunning_keeps h (settled_of_same hs hd ht) hs
    have kicked {f : State → State} (hd : SameDepot s (f s))
        (h : whenRunning s (fun s => kickTrunk (f s)) = .next t) : Settled t :=
      whenRunning_keeps h (settled_kickTrunk_of_same hs hd) hs
    have both {f : State → State} (h : whenRunning s (fun s => kickBoth (f s)) = .next t) : Settled t :=
      whenRunning_keeps h (settled_kickBoth _) hs
    have served {k : Link} {owner : State → Request → Option Answer} (h : whenRunning s (serve k owner) = .next t) :
        Settled t := whenRunning_keeps h (settled_serve hs k owner) hs
    cases c
    case sync i r =>
      obtain ⟨_, _, e⟩ := takeSync_shape s i r.toNat
      exact plain (f := fun s => takeSync s i r.toNat) (by rw [e]; exact ⟨rfl, rfl, rfl⟩)
        (by rw [e]; exact ⟨rfl, rfl, rfl⟩) h
    case byte i v g =>
      obtain ⟨_, _, _, _, e⟩ := takeByte_shape s i v g
      exact kicked (f := fun s => takeByte s i v g) (by rw [e]; exact ⟨rfl, rfl, rfl⟩) h
    case drop i =>
      obtain ⟨_, _, e⟩ := takeDrop_shape s i
      exact plain (f := fun s => takeDrop s i) (by rw [e]; exact ⟨rfl, rfl, rfl⟩) (by rw [e]; exact ⟨rfl, rfl, rfl⟩) h
    case gapExpiry i =>
      obtain ⟨_, _, e⟩ := expireGap_shape s i
      refine whenRunning_keeps (f := fun s => if gapPassed s.lanes[i] s.timebase then expireGap s i else s) h ?_ hs
      split
      · rw [e]
        exact settled_of_same hs ⟨rfl, rfl, rfl⟩ ⟨rfl, rfl, rfl⟩
      · exact hs
    case decoderTake =>
      obtain ⟨_, _, _, e⟩ := decoderTake_shape s
      exact plain (by rw [e]; exact ⟨rfl, rfl, rfl⟩) (by rw [e]; exact ⟨rfl, rfl, rfl⟩) h
    case pairingTakeFrame =>
      obtain ⟨_, _, _, e⟩ := pairingTake_shape s
      exact plain (by rw [e]; exact ⟨rfl, rfl, rfl⟩) (by rw [e]; exact ⟨rfl, rfl, rfl⟩) h
    case pairTimeout m =>
      exact plain (f := fun s => s.setPairing (expirePairing s.pairing m s.timebase)) ⟨rfl, rfl, rfl⟩ ⟨rfl, rfl, rfl⟩ h
    case segmentDeadlineExpiry n =>
      obtain ⟨_, e⟩ := deadlineExpiry_shape s n
      exact plain (f := fun s => deadlineExpiry s n) (by rw [e]; exact ⟨rfl, rfl, rfl⟩)
        (by rw [e]; exact ⟨rfl, rfl, rfl⟩) h
    case matcherTakeHearing =>
      obtain ⟨_, _, _, _, _, _, _, _, _, _, _, e⟩ := matcherTake_shape s
      exact kicked (by rw [e]; exact ⟨rfl, rfl, rfl⟩) h
    case builderPassRecord =>
      obtain ⟨_, _, _, e⟩ := builderPass_shape s
      exact kicked (by rw [e]; exact ⟨rfl, rfl, rfl⟩) h
    case closeWalkVisit n =>
      obtain ⟨_, _, _, _, _, _, _, e⟩ := walkVisit_shape s n
      exact kicked (f := fun s => walkVisit s n) (by rw [e]; exact ⟨rfl, rfl, rfl⟩) h
    case closeEnd n =>
      obtain ⟨_, _, _, _, _, _, e⟩ := closeEnd_shape s n
      exact kicked (f := fun s => closeEnd s n) (by rw [e]; exact ⟨rfl, rfl, rfl⟩) h
    case routeEndRecord =>
      obtain ⟨_, _, _, _, _, _, _, e⟩ := routeEndRecord_shape s
      exact kicked (by rw [e]; exact ⟨rfl, rfl, rfl⟩) h
    case routeClockLimit =>
      obtain ⟨_, _, _, e⟩ := routeClockLimit_shape s
      exact kicked (by rw [e]; exact ⟨rfl, rfl, rfl⟩) h
    case writeCompletion ok => exact both (f := fun s => writeCompletion s ok) h
    case readCompletion ok => exact both (f := fun s => readCompletion s ok) h
    case pacingSlotOpen => exact both h
    case ackTimeout n => exact both (f := fun s => ackTimeout s n) h
    case linkByte k v => exact both (f := fun s => linkByte s k v) h
    case dockAssert =>
      cases h
      exact settled_of_same hs ⟨rfl, rfl, rfl⟩ ⟨rfl, rfl, rfl⟩
    case unknownRequest k => exact whenRunning_keeps h (settled_serveUnknown hs k) hs
    case routeStart k => exact whenRunning_keeps h (settled_serveRouteStart hs k) hs
    case routeStartExecute k => exact whenRunning_keeps h (settled_executeRouteStart hs k) hs
    case trunkTxFrameEnd => exact whenRunning_keeps h (settled_trunkFrameEnd hs) hs
    case depotTxFrameEnd => exact whenRunning_keeps h (settled_depotFrameEnd hs) hs
    case reset k => exact whenRunning_keeps h (settled_serveReset hs k) hs
    case dockDeassert =>
      have lowered : Settled (s.setPins { s.pins with dock := false }) :=
        settled_of_same hs ⟨rfl, rfl, rfl⟩ ⟨rfl, rfl, rfl⟩
      simp only [exec, execDockDeassert] at h
      cases h
      split
      · exact lowered
      · exact settled_dockDeassert lowered
    case resetLineAssert =>
      simp only [exec, execResetLineAssert] at h
      cases h
      split
      · exact hs
      · exact settled_of_idle (depotIdle_of_down rfl) fun _ => ⟨rfl, rfl, rfl⟩
    case resetLineRelease strap =>
      simp only [exec, execResetLineRelease] at h
      cases h
      split
      · refine settled_startPart (depotIdle_of_same hs.2 ?_) _
        exact ⟨rfl, rfl, rfl⟩
      · exact hs
    case coldReset strap =>
      simp only [exec, execColdReset] at h
      cases h
      split
      · exact settled_of_idle (depotIdle_of_down rfl) fun _ => ⟨rfl, rfl, rfl⟩
      · exact settled_startPart (depotIdle_of_down rfl) _
    all_goals exact served h
  intro s t hs h
  unfold step at h
  split at h
  · cases h
    exact settled_of_same hs ⟨rfl, rfl, rfl⟩ ⟨rfl, rfl, rfl⟩
  · refine exec_settled _ _ _ (settled_of_same hs ?_ ?_) h
    · exact ⟨rfl, rfl, rfl⟩
    · exact ⟨rfl, rfl, rfl⟩

end Sys2Proof.Machine
end

