-- ==== Sys2Proof/Proofs/QueueBounds.lean ====
section
/-! SUPPORT. The bounded queues (R141, R147, R172, R173, R174, R181): what each operation can add to them. -/

namespace Sys2Proof.Machine

/-! ## Operations that respect the queues -/

/-- The bound of a reply queue: one place is kept for a ROUTE_START that the dispatcher holds (R173, R174). -/
def replyPlaces : Dispatcher → Nat
  | .routeStart _ _ => 7
  | .idle | .resetting => 8

/-- A link's queues are within their places. -/
def PortBounded (p : LinkPort) : Prop := p.requests.length ≤ 8 ∧ p.replies.length ≤ replyPlaces p.dispatcher

/-- The event, live and append queues are within their places. -/
structure StoresBounded (s : State) : Prop where
  events : s.events.queue.length ≤ 64
  live : s.live.queue.length ≤ 128
  append : s.store.appendQueue.length ≤ 32

/-- `QueuesBounded` in parts. -/
structure Bounded (s : State) : Prop where
  stores : StoresBounded s
  trunk : PortBounded s.trunk
  depot : PortBounded s.depot

theorem queuesBounded_iff (s : State) : QueuesBounded s ↔ Bounded s := by
  have place (p : LinkPort) : (p.requests.length ≤ 8 ∧ p.replies.length ≤ (match p.dispatcher with
      | .routeStart _ _ => 7
      | .idle | .resetting => 8)) ↔ PortBounded p := by
    unfold PortBounded replyPlaces
    cases p.dispatcher <;> exact Iff.rfl
  constructor
  · rintro ⟨hev, hli, hap, hports⟩
    exact ⟨⟨hev, hli, hap⟩, (place _).1 (hports _ (by simp)), (place _).1 (hports _ (by simp))⟩
  · rintro ⟨⟨hev, hli, hap⟩, htrunk, hdepot⟩
    refine ⟨hev, hli, hap, fun p hp => (place p).2 ?_⟩
    simp only [List.mem_cons, List.not_mem_nil, or_false] at hp
    obtain rfl | rfl := hp
    · exact htrunk
    · exact hdepot

/-- A link's queues stay as they are, and its dispatcher may go RESETTING alone. -/
structure SamePort (p q : LinkPort) : Prop where
  requests : q.requests = p.requests
  replies : q.replies = p.replies
  dispatcher : q.dispatcher = p.dispatcher ∨ q.dispatcher = .resetting

theorem SamePort.refl (p : LinkPort) : SamePort p p := ⟨rfl, rfl, .inl rfl⟩

theorem SamePort.trans {p q r : LinkPort} (h : SamePort p q) (h' : SamePort q r) : SamePort p r := by
  refine ⟨h'.requests.trans h.requests, h'.replies.trans h.replies, ?_⟩
  obtain e | e := h'.dispatcher
  · rw [e]
    exact h.dispatcher
  · exact .inr e

theorem SamePort.bounded {p q : LinkPort} (h : SamePort p q) (hp : PortBounded p) : PortBounded q := by
  obtain ⟨hreq, hrep⟩ := hp
  refine ⟨h.requests ▸ hreq, ?_⟩
  rw [h.replies]
  obtain e | e := h.dispatcher
  · rw [e]
    exact hrep
  · rw [e]
    refine hrep.trans ?_
    unfold replyPlaces
    split <;> omega

/-- An operation that keeps the event, live and append queues within their places and leaves the links' queues. -/
structure QueueSafe (s t : State) : Prop where
  stores : StoresBounded s → StoresBounded t
  trunk : SamePort s.trunk t.trunk
  depot : SamePort s.depot t.depot

theorem QueueSafe.refl (s : State) : QueueSafe s s := ⟨id, SamePort.refl _, SamePort.refl _⟩

theorem QueueSafe.trans {s t u : State} (h : QueueSafe s t) (h' : QueueSafe t u) : QueueSafe s u :=
  ⟨h'.stores ∘ h.stores, h.trunk.trans h'.trunk, h.depot.trans h'.depot⟩

theorem QueueSafe.bounded {s t : State} (h : QueueSafe s t) (hs : Bounded s) : Bounded t :=
  ⟨h.stores hs.stores, h.trunk.bounded hs.trunk, h.depot.bounded hs.depot⟩

theorem QueueSafe.link {s t : State} (h : QueueSafe s t) (k : Link) : SamePort (s.link k) (t.link k) := by
  cases k
  · exact h.trunk
  · exact h.depot

/-- An operation that leaves the five queues. -/
theorem QueueSafe.of_same {s t : State} (hev : t.events.queue = s.events.queue) (hli : t.live.queue = s.live.queue)
    (hap : t.store.appendQueue = s.store.appendQueue) (htr : SamePort s.trunk t.trunk) (hde : SamePort s.depot t.depot) :
    QueueSafe s t :=
  ⟨fun h => ⟨hev ▸ h.events, hli ▸ h.live, hap ▸ h.append⟩, htr, hde⟩

/-- An operation that writes none of the five fields the queues stand in. -/
theorem QueueSafe.of_eq {s t : State} (hev : t.events = s.events) (hli : t.live = s.live) (hst : t.store = s.store)
    (htr : t.trunk = s.trunk) (hde : t.depot = s.depot) : QueueSafe s t :=
  .of_same (by rw [hev]) (by rw [hli]) (by rw [hst]) (htr ▸ SamePort.refl _) (hde ▸ SamePort.refl _)

theorem queueSafe_raiseEvent (s : State) (x : EventKind) (p d : Nat) : QueueSafe s (raiseEvent s x p d) :=
  ⟨fun h => ⟨postEvent_length _ _ h.events, h.live, h.append⟩, SamePort.refl _, SamePort.refl _⟩

theorem queueSafe_raiseFault (s : State) (x : FaultKind) (p : Nat) : QueueSafe s (raiseFault s x p) := by
  refine QueueSafe.trans ?_ (queueSafe_raiseEvent _ _ _ _)
  exact .of_eq rfl rfl rfl rfl rfl

theorem queueSafe_changeRoute (s : State) (r : Route) : QueueSafe s (changeRoute s r) := by
  refine QueueSafe.trans ?_ (queueSafe_raiseEvent _ _ _ _)
  exact .of_eq rfl rfl rfl rfl rfl

theorem queueSafe_changeUpload (s : State) (u : Uploader) : QueueSafe s (changeUpload s u) := by
  refine QueueSafe.trans ?_ (queueSafe_raiseEvent _ _ _ _)
  exact .of_eq rfl rfl rfl rfl rfl

theorem queueSafe_notifySegment (s : State) (n : Nat) (f : Segment → Segment) : QueueSafe s (notifySegment s n f) := by
  obtain ⟨_, e⟩ := notifySegment_shape s n f
  rw [e]
  exact .of_eq rfl rfl rfl rfl rfl

/-! ## Store and builder -/

theorem queueSafe_refuseRecord (s : State) (r : Record) (x : RefuseCause) : QueueSafe s (refuseRecord s r x) := by
  unfold refuseRecord
  simp only
  split
  · refine QueueSafe.trans ?_ (queueSafe_raiseEvent _ _ _ _)
    exact .of_same rfl rfl rfl (SamePort.refl _) (SamePort.refl _)
  · exact .of_same rfl rfl rfl (SamePort.refl _) (SamePort.refl _)

/-- Judging leaves no more of the append queue than it was given. -/
theorem queueSafe_judgeQueue (rs : List Record) (s : State) (hrs : rs.length ≤ s.store.appendQueue.length) :
    QueueSafe s (judgeQueue rs s) := by
  have shorter (t : State) (l : List Record) (p : Option PortAccess) (hl : l.length ≤ t.store.appendQueue.length) :
      QueueSafe t (t.setStore { t.store with appendQueue := l, port := p }) :=
    ⟨fun h => ⟨h.events, h.live, hl.trans h.append⟩, SamePort.refl _, SamePort.refl _⟩
  induction rs generalizing s with
  | nil => exact shorter s [] s.store.port (Nat.zero_le _)
  | cons r rest ih =>
    have hrest : rest.length ≤ s.store.appendQueue.length := (Nat.le_succ _).trans hrs
    unfold judgeQueue
    split
    · exact shorter s rest _ hrest
    · refine QueueSafe.trans ?_ (shorter (discardRecord s r.head.cls _) rest _ hrest)
      exact .of_same rfl rfl rfl (SamePort.refl _) (SamePort.refl _)
    · rename_i cause _
      refine (queueSafe_refuseRecord s r cause).trans (ih _ ?_)
      have same : (refuseRecord s r cause).store.appendQueue = s.store.appendQueue := by
        unfold refuseRecord
        simp only
        split <;> rfl
      rw [same]
      exact hrest

theorem queueSafe_grantPort (s : State) : QueueSafe s (grantPort s) := by
  have read (t : State) : QueueSafe t (grantRead t) := by
    unfold grantRead
    split
    · exact .of_same rfl rfl rfl (SamePort.refl _) (SamePort.refl _)
    · exact QueueSafe.refl t
  unfold grantPort
  split
  · exact QueueSafe.refl s
  · have judged : QueueSafe s (if s.store.state = .normal then judgeQueue s.store.appendQueue s else s) := by
      split
      · exact queueSafe_judgeQueue _ s le_rfl
      · exact QueueSafe.refl s
    simp only
    split
    · exact judged
    · exact judged.trans (read _)

theorem queueSafe_enqueueRecord (s : State) (r : Record) (hroom : s.store.appendQueue.length < 32) :
    QueueSafe s (enqueueRecord s r) := by
  refine QueueSafe.trans ?_ (queueSafe_grantPort _)
  exact ⟨fun h => ⟨h.events, h.live, by simpa using hroom⟩, SamePort.refl _, SamePort.refl _⟩

theorem queueSafe_passRecord (s : State) (r : Record) : QueueSafe s (passRecord s r) := by
  unfold passRecord
  split
  · exact .of_same rfl rfl rfl (SamePort.refl _) (SamePort.refl _)
  · split
    · rename_i h
      simp only [Bool.and_eq_true, decide_eq_true_eq] at h
      exact queueSafe_enqueueRecord s r h.2
    · exact .of_eq rfl rfl rfl rfl rfl

theorem queueSafe_builderPass (s : State) : QueueSafe s (builderPass s) := by
  unfold builderPass
  split
  · exact QueueSafe.refl s
  · simp only
    split
    · exact .of_same rfl rfl rfl (SamePort.refl _) (SamePort.refl _)
    · split
      · rename_i hroom
        refine QueueSafe.trans ?_ (queueSafe_enqueueRecord _ _ hroom)
        exact .of_eq rfl rfl rfl rfl rfl
      · exact QueueSafe.refl s

/-- A copy that arrives leaves the live queue within its places (R147). -/
theorem arriveLive_length (queue : List LiveCopy) (c : LiveCopy) (h : queue.length ≤ 128) :
    (arriveLive queue c).1.length ≤ 128 := by
  unfold arriveLive
  split
  · rename_i hroom
    simp only [Config.livePlaces] at hroom
    simp only [List.length_append, List.length_singleton]
    omega
  · split
    · split
      · rename_i lost hlost
        have hlen : (queue.eraseP (fun q => !q.priority)).length = queue.length - 1 :=
          List.length_eraseP_of_mem (List.mem_of_find?_eq_some hlost) (List.find?_some (p := fun q : LiveCopy => !q.priority) hlost)
        have hpos : 0 < queue.length := List.length_pos_of_mem (List.mem_of_find?_eq_some hlost)
        simp only [List.length_append, List.length_singleton, hlen]
        omega
      · exact h
    · exact h

theorem queueSafe_pushLive (s : State) (c : LiveCopy) : QueueSafe s (pushLive s c) := by
  have queued {q : LiveQueue} (hq : q.queue = (arriveLive s.live.queue c).1) : QueueSafe s (s.setLive q) :=
    ⟨fun h => ⟨h.events, by rw [setLive_live, hq]; exact arriveLive_length _ _ h.live, h.append⟩, SamePort.refl _,
      SamePort.refl _⟩
  unfold pushLive
  split
  · rename_i q ha
    exact queued (by rw [ha])
  · rename_i q n b ha
    simp only
    split
    · exact (queued (by rw [ha])).trans (queueSafe_raiseEvent _ _ _ _)
    · exact queued (by rw [ha])

theorem queueSafe_takeDraft (s : State) (d : Draft) : QueueSafe s (takeDraft s d) := by
  unfold takeDraft
  split
  · exact QueueSafe.refl s
  · have given (k : RecordKind) : QueueSafe s (giveNumber s k) := by
      unfold giveNumber
      simp only
      split
      · exact .of_eq rfl rfl rfl rfl rfl
      · refine QueueSafe.trans ?_ (queueSafe_raiseFault _ _ _)
        exact .of_eq rfl rfl rfl rfl rfl
    have copied (t : State) (r : Record) (forced : Bool) : QueueSafe t (makeLiveCopy t r forced) := by
      unfold makeLiveCopy
      split
      · exact queueSafe_pushLive t _
      · exact QueueSafe.refl t
    exact ((given _).trans (copied _ _ _)).trans (queueSafe_passRecord _ _)

theorem queueSafe_takeGroup (g : List Draft) (s : State) : QueueSafe s (takeGroup s g) := by
  induction g generalizing s with
  | nil => exact QueueSafe.refl s
  | cons d rest ih => exact (queueSafe_takeDraft s d).trans (ih _)

/-! ## Uploader -/

theorem queueSafe_settleStore (s : State) : QueueSafe s (settleStore s) := by
  have formed (t : State) : QueueSafe t (tryForm t) := by
    unfold tryForm
    split
    · split
      · exact .of_same rfl rfl rfl (SamePort.refl _) (SamePort.refl _)
      · exact QueueSafe.refl t
    · exact QueueSafe.refl t
  have drawn (n : Nat) : QueueSafe s (s.setFreeCounter n) := .of_eq rfl rfl rfl rfl rfl
  unfold settleStore
  split
  · simp only
    split
    · exact ((drawn _).trans (formed _)).trans (queueSafe_grantPort _)
    · exact (((drawn _).trans (queueSafe_grantPort _)).trans (formed _)).trans (queueSafe_grantPort _)
  · exact ((queueSafe_grantPort s).trans (formed _)).trans (queueSafe_grantPort _)

theorem queueSafe_endUpload (s : State) (x : EndReason) : QueueSafe s (endUpload s x) := by
  refine QueueSafe.trans ?_ (queueSafe_changeUpload _ _)
  exact .of_same rfl rfl rfl (SamePort.refl _) ⟨rfl, rfl, .inl rfl⟩

theorem queueSafe_finishIfDrained (s : State) : QueueSafe s (finishIfDrained s) := by
  unfold finishIfDrained
  split
  · exact queueSafe_changeUpload s _
  · exact QueueSafe.refl s

theorem queueSafe_rearmClass (s : State) (c : Fin 4) : QueueSafe s (rearmClass s c) := by
  unfold rearmClass
  split
  · exact .of_same rfl rfl rfl (SamePort.refl _) (SamePort.refl _)
  · exact QueueSafe.refl s

theorem queueSafe_ackTimeout (s : State) (n : Nat) : QueueSafe s (ackTimeout s n) := by
  unfold ackTimeout
  split
  · exact QueueSafe.refl s
  · rename_i b _
    have timed : QueueSafe s (timeOutBatch s b) := .of_same rfl rfl rfl (SamePort.refl _) (SamePort.refl _)
    split
    · simp only
      split
      · exact (timed.trans (queueSafe_endUpload _ _)).trans (queueSafe_settleStore _)
      · exact (timed.trans (queueSafe_finishIfDrained _)).trans (queueSafe_settleStore _)
    · exact QueueSafe.refl s

theorem queueSafe_haltStore (s : State) (c : Fin 4) : QueueSafe s (haltStore s c) := by
  have stopped (t : State) : QueueSafe t (stopStore t) :=
    ⟨fun h => ⟨h.events, h.live, Nat.zero_le _⟩, SamePort.refl _, SamePort.refl _⟩
  exact (queueSafe_raiseFault s _ _).trans (stopped _)

theorem queueSafe_strikeWrite (s : State) (c : Fin 4) : QueueSafe s (strikeWrite s c) := by
  have struck : QueueSafe s (s.setStore { s.store with failStreak := bumpTo 4 s.store.failStreak }) :=
    .of_same rfl rfl rfl (SamePort.refl _) (SamePort.refl _)
  unfold strikeWrite
  simp only
  split
  · exact struck.trans (queueSafe_haltStore _ c)
  · exact struck

theorem queueSafe_writeFailed (s : State) (r : Record) : QueueSafe s (writeFailed s r) := by
  have dropped : QueueSafe s (dropWrite s r.head.cls) := by
    refine QueueSafe.trans ?_ (queueSafe_rearmClass _ _)
    exact .of_same rfl rfl rfl (SamePort.refl _) (SamePort.refl _)
  exact (dropped.trans (queueSafe_raiseFault _ _ _)).trans (queueSafe_strikeWrite _ _)

theorem queueSafe_writeCompletion (s : State) (ok : Bool) : QueueSafe s (writeCompletion s ok) := by
  unfold writeCompletion
  split
  · cases ok
    · exact (queueSafe_writeFailed s _).trans (queueSafe_settleStore _)
    · refine QueueSafe.trans ?_ (queueSafe_settleStore _)
      exact .of_same rfl rfl rfl (SamePort.refl _) (SamePort.refl _)
  · exact QueueSafe.refl s

theorem queueSafe_finishRead (s : State) (n : Nat) (b : Option Nat) (ok : Bool) :
    QueueSafe s (finishRead s n b ok) := by
  have counted (t : State) : QueueSafe t (countRead t n ok) := by
    unfold countRead
    split
    · exact QueueSafe.refl t
    · refine QueueSafe.trans ?_ (queueSafe_raiseFault _ _ _)
      exact .of_same rfl rfl rfl (SamePort.refl _) (SamePort.refl _)
  have freed : QueueSafe s (s.setStore { s.store with port := none }) :=
    .of_same rfl rfl rfl (SamePort.refl _) (SamePort.refl _)
  have delivered (t : State) (u : Uploader) : QueueSafe t (t.setUploader u) := .of_eq rfl rfl rfl rfl rfl
  exact (freed.trans (counted _)).trans (delivered _ _)

theorem queueSafe_readCompletion (s : State) (ok : Bool) : QueueSafe s (readCompletion s ok) := by
  unfold readCompletion
  split
  · exact (queueSafe_finishRead s _ _ ok).trans (queueSafe_settleStore _)
  · exact QueueSafe.refl s

theorem queueSafe_linkDown (s : State) : QueueSafe s (linkDown s) := by
  have upload (t : State) : QueueSafe t (loseUpload t) := by
    unfold loseUpload
    split
    · exact QueueSafe.refl t
    · exact queueSafe_endUpload t _
  have load (t : State) : QueueSafe t (loseLoad t) := by
    unfold loseLoad
    split
    · refine QueueSafe.trans ?_ (queueSafe_changeRoute _ _)
      exact .of_eq rfl rfl rfl rfl rfl
    · exact QueueSafe.refl t
  have down : QueueSafe s ((s.setDepotUp false).setDepot { s.depot with tx := none }) :=
    .of_same rfl rfl rfl (SamePort.refl _) ⟨rfl, rfl, .inl rfl⟩
  exact ((down.trans (upload _)).trans (load _)).trans (queueSafe_settleStore _)

theorem queueSafe_pacingSlotOpen (s : State) : QueueSafe s (pacingSlotOpen s) := by
  unfold pacingSlotOpen
  split
  · exact queueSafe_settleStore s
  · exact QueueSafe.refl s

/-! ## Lanes, matcher and segments -/

/-- An operation of the lanes, the decoder or the pairing unit, which may raise events. -/
theorem queueSafe_takeByte (s : State) (i : Fin 8) (b : Byte) (good : Bool) : QueueSafe s (takeByte s i b good) := by
  have laned {t : State} (h : ∃ la po, t = { s with lanes := la, pool := po }) : QueueSafe s t := by
    obtain ⟨la, po, rfl⟩ := h
    exact .of_eq rfl rfl rfl rfl rfl
  unfold takeByte
  split
  · exact QueueSafe.refl s
  · exact QueueSafe.refl s
  · exact QueueSafe.refl s
  · unfold takeLengthByte
    simp only
    split
    · unfold startMessage
      split
      · unfold giveDescriptor
        simp only
        split
        · refine QueueSafe.trans ?_ (queueSafe_raiseEvent _ _ _ _)
          exact .of_eq rfl rfl rfl rfl rfl
        · exact .of_eq rfl rfl rfl rfl rfl
      · exact .of_eq rfl rfl rfl rfl rfl
    · exact .of_eq rfl rfl rfl rfl rfl
  · split
    · exact laned (takeBodyByte_shape s i b)
    · have closed := laned (closeFrame_shape s i .portError)
      have relaned (t : State) (l : Lane) : QueueSafe t (t.setLane i l) := .of_eq rfl rfl rfl rfl rfl
      unfold takePortError
      simp only
      split
      · exact closed.trans (relaned _ _)
      · exact (closed.trans (relaned _ _)).trans (queueSafe_raiseFault _ _ _)

theorem queueSafe_hear (s : State) (h : Hearing) : QueueSafe s (hear s h) := by
  have written {t : State} (ht : ∃ bk ma sc ro, t = { s with book := bk, matcher := ma, screening := sc, route := ro }) :
      QueueSafe s t := by
    obtain ⟨_, _, _, _, rfl⟩ := ht
    exact .of_eq rfl rfl rfl rfl rfl
  have first (e : Entry) (late : Bool) : QueueSafe s (hearFirst s e h late) := by
    refine QueueSafe.trans ?_ (queueSafe_takeGroup _ _)
    refine QueueSafe.trans ?_ (queueSafe_notifySegment _ _ _)
    exact .of_eq rfl rfl rfl rfl rfl
  have revised (e : Entry) (r : Screening) : QueueSafe s (hearRevision s e h r) := by
    refine QueueSafe.trans ?_ (queueSafe_takeGroup _ _)
    exact .of_eq rfl rfl rfl rfl rfl
  have absorbed (e : Entry) (r : Screening) (capped : Bool) : QueueSafe s (hearAbsorbed s e h r capped) := by
    refine QueueSafe.trans ?_ (queueSafe_takeGroup _ _)
    exact .of_eq rfl rfl rfl rfl rfl
  have foreign (t : State) (c : Conditions) (creates : Bool) : QueueSafe t (hearForeignScreened t h c creates) := by
    refine QueueSafe.trans ?_ (queueSafe_takeGroup _ _)
    exact .of_eq rfl rfl rfl rfl rfl
  unfold hear
  split
  · split
    · have seen : QueueSafe s (s.setMatcher { s.matcher with foreignSeen := bump s.matcher.foreignSeen }) :=
        .of_eq rfl rfl rfl rfl rfl
      unfold hearForeign
      simp only
      split
      · exact seen
      all_goals
        split
        · exact seen.trans (foreign _ _ _)
        · split
          · exact .of_eq rfl rfl rfl rfl rfl
          · exact seen.trans (foreign _ _ _)
    · unfold hearBook
      split
      · exact .of_eq rfl rfl rfl rfl rfl
      · split
        · exact .of_eq rfl rfl rfl rfl rfl
        · split
          · exact first _ _
          · exact first _ _
          all_goals
            unfold hearLater
            split
            · exact .of_eq rfl rfl rfl rfl rfl
            · simp only
              split
              · split
                · exact revised _ _
                · exact absorbed _ _ _
              · exact absorbed _ _ _
  · exact .of_eq rfl rfl rfl rfl rfl

theorem queueSafe_matcherTake (s : State) : QueueSafe s (matcherTake s) := by
  unfold matcherTake
  split
  · exact QueueSafe.refl s
  · split
    · refine QueueSafe.trans ?_ (queueSafe_hear _ _)
      exact .of_eq rfl rfl rfl rfl rfl
    · exact QueueSafe.refl s

theorem queueSafe_walkVisit (s : State) (n : Nat) : QueueSafe s (walkVisit s n) := by
  have handed (t : State) (p : Nat) (w : WaitingMissed) : QueueSafe t (handMissed t n p w) := by
    unfold handMissed
    split
    · exact (queueSafe_notifySegment t n _).trans (queueSafe_takeGroup _ _)
    · exact QueueSafe.refl t
  unfold walkVisit
  split
  · exact QueueSafe.refl s
  · split
    · split
      · exact handed s _ _
      · split
        · split
          · refine QueueSafe.trans ?_ (handed _ _ _)
            exact .of_eq rfl rfl rfl rfl rfl
          · exact .of_eq rfl rfl rfl rfl rfl
        · exact .of_eq rfl rfl rfl rfl rfl
    · exact QueueSafe.refl s

theorem queueSafe_closeEnd (s : State) (n : Nat) : QueueSafe s (closeEnd s n) := by
  unfold closeEnd
  split
  · exact QueueSafe.refl s
  · split
    · refine QueueSafe.trans (QueueSafe.trans ?_ (queueSafe_takeGroup _ _)) (queueSafe_raiseEvent _ _ _ _)
      exact .of_eq rfl rfl rfl rfl rfl
    · exact QueueSafe.refl s

theorem queueSafe_routeEndRecord (s : State) : QueueSafe s (routeEndRecord s) := by
  have stopped (t : State) (c : Clock) : QueueSafe t (t.setClock c) := .of_eq rfl rfl rfl rfl rfl
  unfold routeEndRecord
  split
  · exact ((queueSafe_takeGroup _ s).trans (stopped _ _)).trans (queueSafe_changeRoute _ _)
  · exact QueueSafe.refl s

theorem queueSafe_routeClockLimit (s : State) : QueueSafe s (routeClockLimit s) := by
  unfold routeClockLimit
  split
  · refine QueueSafe.trans ?_ (queueSafe_raiseFault _ _ _)
    exact .of_eq rfl rfl rfl rfl rfl
  · exact QueueSafe.refl s

end Sys2Proof.Machine
end

