-- ==== Sys2Proof/Proofs/QueueRequests.lean ====
section
/-! SUPPORT. The bounded queues (R141, R147, R172, R173, R174, R181): what the answer of each owning rule adds to them. -/

namespace Sys2Proof.Machine

section
variable {u : State} {r : Request} {a : Answer}

/-! ## Requests that write no queue -/

theorem queueSafe_ownIdentify {k : Link} (h : ownIdentify k u r = some a) : QueueSafe u a.state := by
  unfold ownIdentify at h
  split at h <;> cases h
  exact QueueSafe.refl u

theorem queueSafe_ownStatus (h : ownStatus u r = some a) : QueueSafe u a.state := by
  unfold ownStatus at h
  split at h <;> cases h
  unfold readStatus
  split <;> exact QueueSafe.refl u

theorem queueSafe_readEntryAt (i : Option Nat) : QueueSafe u (readEntryAt u i).state := by
  unfold readEntryAt
  split
  · exact QueueSafe.refl u
  · split
    · exact QueueSafe.refl u
    · split <;> exact QueueSafe.refl u

theorem queueSafe_ownEntryRead (h : ownEntryRead u r = some a) : QueueSafe u a.state := by
  unfold ownEntryRead at h
  split at h <;> cases h <;> exact queueSafe_readEntryAt _

theorem queueSafe_ownSegmentRead (h : ownSegmentRead u r = some a) : QueueSafe u a.state := by
  unfold ownSegmentRead at h
  split at h <;> cases h
  unfold readSegment
  split
  · exact QueueSafe.refl u
  · split <;> exact QueueSafe.refl u

theorem queueSafe_ownFaultClear (h : ownFaultClear u r = some a) : QueueSafe u a.state := by
  unfold ownFaultClear at h
  split at h <;> cases h
  exact .of_eq rfl rfl rfl rfl rfl

theorem queueSafe_ownLaneSet (h : ownLaneSet u r = some a) : QueueSafe u a.state := by
  unfold ownLaneSet at h
  split at h <;> cases h
  unfold setLaneSettings
  split
  · rename_i mask enable least length gap _
    obtain ⟨_, _, e⟩ := setLanesByMask_shape
      { enable := decide (enable = 1), minRssi := least, maxLength := length, gapLimit := gap } mask (List.finRange 8) u
    simp only [acceptWith]
    rw [e]
    exact .of_eq rfl rfl rfl rfl rfl
  · exact QueueSafe.refl u

theorem queueSafe_ownFamilySet (h : ownFamilySet u r = some a) : QueueSafe u a.state := by
  unfold ownFamilySet at h
  split at h <;> cases h
  unfold setFamily
  split
  · split
    · unfold writeFamily
      split
      · exact QueueSafe.refl u
      · split
        · exact QueueSafe.refl u
        · exact .of_eq rfl rfl rfl rfl rfl
    · exact QueueSafe.refl u
  · exact QueueSafe.refl u

theorem queueSafe_ownFamilyClear (h : ownFamilyClear u r = some a) : QueueSafe u a.state := by
  unfold ownFamilyClear at h
  split at h <;> cases h
  unfold clearFamily
  split
  · split
    · exact QueueSafe.refl u
    · split
      · exact QueueSafe.refl u
      · split
        · exact QueueSafe.refl u
        · exact .of_eq rfl rfl rfl rfl rfl
  · exact QueueSafe.refl u

theorem queueSafe_ownServiceSet (h : ownServiceSet u r = some a) : QueueSafe u a.state := by
  unfold ownServiceSet at h
  split at h <;> cases h
  · unfold setService
    split
    · split
      · exact QueueSafe.refl u
      · split
        · exact QueueSafe.refl u
        · exact .of_eq rfl rfl rfl rfl rfl
    · exact QueueSafe.refl u
  · unfold clearService
    split
    · exact .of_eq rfl rfl rfl rfl rfl
    · exact QueueSafe.refl u

theorem queueSafe_ownRulesSet (h : ownRulesSet u r = some a) : QueueSafe u a.state := by
  unfold ownRulesSet at h
  split at h <;> cases h
  · unfold setRuleSet
    split
    · exact .of_eq rfl rfl rfl rfl rfl
    · exact QueueSafe.refl u
  · exact .of_eq rfl rfl rfl rfl rfl

theorem queueSafe_ownRoutingSet (h : ownRoutingSet u r = some a) : QueueSafe u a.state := by
  unfold ownRoutingSet at h
  split at h <;> cases h
  · unfold setRouteRow
    split
    · split
      · exact .of_eq rfl rfl rfl rfl rfl
      · exact QueueSafe.refl u
    · exact QueueSafe.refl u
  · exact .of_eq rfl rfl rfl rfl rfl

theorem queueSafe_ownEventMask (h : ownEventMask u r = some a) : QueueSafe u a.state := by
  unfold ownEventMask at h
  split at h <;> cases h
  unfold writeEventMask
  split
  · exact QueueSafe.refl u
  · exact .of_same rfl rfl rfl (SamePort.refl _) (SamePort.refl _)

theorem queueSafe_ownClassSet (h : ownClassSet u r = some a) : QueueSafe u a.state := by
  unfold ownClassSet at h
  split at h <;> cases h
  unfold setClassSettings
  split
  · split
    · unfold writeClass
      split
      · exact QueueSafe.refl u
      · split
        · exact QueueSafe.refl u
        · exact .of_same rfl rfl rfl (SamePort.refl _) (SamePort.refl _)
    · exact QueueSafe.refl u
  · exact QueueSafe.refl u

theorem queueSafe_clearGroup (g : CounterGroup) : QueueSafe u (clearGroup u g) := by
  have counted (p : LinkPort) : SamePort p (clearPortCounts p) := ⟨rfl, rfl, .inl rfl⟩
  cases g
  case store => exact .of_same rfl rfl rfl (SamePort.refl _) (SamePort.refl _)
  case links => exact .of_same rfl rfl rfl (counted _) (counted _)
  all_goals exact .of_eq rfl rfl rfl rfl rfl

theorem queueSafe_ownCountersRead (h : ownCountersRead u r = some a) : QueueSafe u a.state := by
  unfold ownCountersRead at h
  split at h <;> cases h
  unfold readCounters
  split
  · exact QueueSafe.refl u
  · split
    · exact queueSafe_clearGroup _
    · exact QueueSafe.refl u
    · exact QueueSafe.refl u

/-- A RESET takes its dispatcher to RESETTING, which lets the reply queue have its eighth place. -/
theorem queueSafe_ownReset {k : Link} (h : ownReset k u r = some a) : QueueSafe u a.state := by
  unfold ownReset at h
  split at h <;> cases h
  cases k
  · exact .of_same rfl rfl rfl ⟨rfl, rfl, .inr rfl⟩ (SamePort.refl _)
  · exact .of_same rfl rfl rfl (SamePort.refl _) ⟨rfl, rfl, .inr rfl⟩

/-! ## The book and the route -/

theorem queueSafe_ownBookOpen {k : Link} (h : ownBookOpen k u r = some a) : QueueSafe u a.state := by
  have opened (x : Route) (g : Segment) : QueueSafe u (openBook u k x g) := by
    refine QueueSafe.trans ?_ (queueSafe_changeRoute _ _)
    exact .of_eq rfl rfl rfl rfl rfl
  unfold ownBookOpen at h
  split at h <;> cases h
  unfold judgeBookOpen
  split
  · exact QueueSafe.refl u
  · exact QueueSafe.refl u
  · split <;> exact QueueSafe.refl u
  all_goals
    split
    · split
      · exact opened _ _
      · exact QueueSafe.refl u
    · exact QueueSafe.refl u

theorem queueSafe_takeRawEntries (es : List RawEntry) (s : State) (n : Nat) :
    QueueSafe s (takeRawEntries es s n).1 := by
  have taken (t : State) (e : Entry) : QueueSafe t (takeEntryIntoBook t e) := by
    have booked (t : State) : QueueSafe t ((t.setBook (t.book ++ [e])).setRoute
        { t.route with loaded := t.route.loaded + 1 }) := .of_eq rfl rfl rfl rfl rfl
    unfold takeEntryIntoBook
    simp only
    split
    · exact (booked t).trans (queueSafe_notifySegment _ _ _)
    · exact booked t
  induction es generalizing s n with
  | nil => exact QueueSafe.refl s
  | cons e rest ih =>
    unfold takeRawEntries
    split
    · exact QueueSafe.refl s
    · exact (taken s _).trans (ih _ _)

theorem queueSafe_ownBookEntries {k : Link} (h : ownBookEntries k u r = some a) : QueueSafe u a.state := by
  unfold ownBookEntries at h
  split at h <;> cases h
  unfold judgeBookEntries
  split
  · exact QueueSafe.refl u
  · split
    · exact QueueSafe.refl u
    · split
      · exact QueueSafe.refl u
      · split
        · exact QueueSafe.refl u
        · split
          · exact QueueSafe.refl u
          · exact queueSafe_takeRawEntries _ u 0

theorem queueSafe_asOwner {k : Link} {f : State → Answer} (hf : QueueSafe u (f u).state) :
    QueueSafe u (asOwner u k f).state := by
  unfold asOwner
  split
  · exact QueueSafe.refl u
  · split
    · exact QueueSafe.refl u
    · exact hf

theorem queueSafe_ownBookClose {k : Link} (h : ownBookClose k u r = some a) : QueueSafe u a.state := by
  unfold ownBookClose at h
  split at h <;> cases h
  refine queueSafe_asOwner ?_
  unfold closeBook
  split
  · exact QueueSafe.refl u
  · exact queueSafe_changeRoute u _

theorem queueSafe_ownBookAbort {k : Link} (h : ownBookAbort k u r = some a) : QueueSafe u a.state := by
  unfold ownBookAbort at h
  split at h <;> cases h
  refine queueSafe_asOwner ?_
  refine QueueSafe.trans ?_ (queueSafe_changeRoute _ _)
  exact .of_eq rfl rfl rfl rfl rfl

theorem queueSafe_changeOptions (clear set : Nat) (s : State) (e : Entry) : QueueSafe s (changeOptions clear set s e) := by
  refine QueueSafe.trans ?_ (queueSafe_notifySegment _ _ _)
  exact .of_eq rfl rfl rfl rfl rfl

theorem queueSafe_ownEntryModify (h : ownEntryModify u r = some a) : QueueSafe u a.state := by
  unfold ownEntryModify at h
  split at h <;> cases h
  unfold judgeEntryModify
  split
  · exact QueueSafe.refl u
  · split
    · exact QueueSafe.refl u
    · split
      · exact QueueSafe.refl u
      · split
        · exact QueueSafe.refl u
        · exact queueSafe_changeOptions _ _ u _

theorem queueSafe_ownSegmentModify (h : ownSegmentModify u r = some a) : QueueSafe u a.state := by
  have folded (clear set : Nat) (es : List Entry) (s : State) : QueueSafe s (es.foldl (changeOptions clear set) s) := by
    induction es generalizing s with
    | nil => exact QueueSafe.refl s
    | cons e rest ih => exact (queueSafe_changeOptions clear set s e).trans (ih _)
  unfold ownSegmentModify at h
  split at h <;> cases h
  unfold judgeSegmentModify
  simp only
  split
  · exact QueueSafe.refl u
  · split
    · exact QueueSafe.refl u
    · split
      · exact QueueSafe.refl u
      · exact folded _ _ _ u

theorem queueSafe_ownRouteEnd (h : ownRouteEnd u r = some a) : QueueSafe u a.state := by
  have closing (t : State) : QueueSafe t (closeAllOpen t) := .of_eq rfl rfl rfl rfl rfl
  unfold ownRouteEnd at h
  split at h <;> cases h
  unfold endRoute
  split
  · exact QueueSafe.refl u
  · exact (queueSafe_changeRoute u _).trans (closing _)

theorem queueSafe_ownSegmentSet {k : Link} (h : ownSegmentSet k u r = some a) : QueueSafe u a.state := by
  unfold ownSegmentSet at h
  split at h <;> cases h
  unfold judgeSegmentSet
  split
  · exact QueueSafe.refl u
  · exact QueueSafe.refl u
  · exact QueueSafe.refl u
  all_goals
    split
    · exact QueueSafe.refl u
    · split
      · exact QueueSafe.refl u
      · split
        · exact QueueSafe.refl u
        · exact queueSafe_notifySegment u _ _

theorem queueSafe_ownSegmentClose (h : ownSegmentClose u r = some a) : QueueSafe u a.state := by
  unfold ownSegmentClose at h
  split at h <;> cases h
  unfold judgeSegmentClose
  split
  · exact QueueSafe.refl u
  · split
    · exact QueueSafe.refl u
    · split
      · exact QueueSafe.refl u
      · split
        · exact QueueSafe.refl u
        · exact QueueSafe.refl u
        all_goals exact queueSafe_notifySegment u _ _

theorem queueSafe_ownSegmentReopen (h : ownSegmentReopen u r = some a) : QueueSafe u a.state := by
  unfold ownSegmentReopen at h
  split at h <;> cases h
  unfold judgeSegmentReopen
  split
  · exact QueueSafe.refl u
  · split
    · exact QueueSafe.refl u
    · split
      · exact QueueSafe.refl u
      · split
        · exact QueueSafe.refl u
        · exact QueueSafe.refl u
        · exact QueueSafe.refl u
        · split
          · exact QueueSafe.refl u
          · exact .of_eq rfl rfl rfl rfl rfl

theorem queueSafe_judgeRouteStart (hour : Nat) : QueueSafe u (judgeRouteStart u hour).state := by
  unfold judgeRouteStart
  split
  · exact QueueSafe.refl u
  · split
    · exact QueueSafe.refl u
    · refine QueueSafe.trans (QueueSafe.trans ?_ (queueSafe_takeGroup _ _)) (queueSafe_changeRoute _ _)
      exact .of_eq rfl rfl rfl rfl rfl

/-! ## The upload requests -/

theorem queueSafe_onDepot {k : Link} {f : State → Answer} (hf : QueueSafe u (f u).state) :
    QueueSafe u (onDepot u k f).state := by
  cases k
  · exact QueueSafe.refl u
  · exact hf

theorem queueSafe_ownUploadOpen {k : Link} (h : ownUploadOpen k u r = some a) : QueueSafe u a.state := by
  unfold ownUploadOpen at h
  split at h <;> cases h
  refine queueSafe_onDepot ?_
  unfold judgeUploadOpen
  split
  · exact QueueSafe.refl u
  · split
    · exact QueueSafe.refl u
    · split
      · exact QueueSafe.refl u
      · exact (queueSafe_changeUpload u _).trans (queueSafe_settleStore _)

theorem queueSafe_ownUploadPace {k : Link} (h : ownUploadPace k u r = some a) : QueueSafe u a.state := by
  have repaced (n : Nat) : QueueSafe u (repace u n) := by
    unfold repace
    simp only
    split
    · exact queueSafe_changeUpload u _
    · split
      · exact queueSafe_changeUpload u _
      · exact .of_eq rfl rfl rfl rfl rfl
  unfold ownUploadPace at h
  split at h <;> cases h
  refine queueSafe_onDepot ?_
  unfold judgeUploadPace
  split
  · exact QueueSafe.refl u
  · split
    · exact QueueSafe.refl u
    · exact (repaced _).trans (queueSafe_settleStore _)

theorem queueSafe_ownUploadStop {k : Link} (h : ownUploadStop k u r = some a) : QueueSafe u a.state := by
  unfold ownUploadStop at h
  split at h <;> cases h
  refine queueSafe_onDepot ?_
  unfold judgeUploadStop
  split
  · exact QueueSafe.refl u
  · exact (queueSafe_endUpload u _).trans (queueSafe_settleStore _)

theorem queueSafe_ownUploadFinish {k : Link} (h : ownUploadFinish k u r = some a) : QueueSafe u a.state := by
  unfold ownUploadFinish at h
  split at h <;> cases h
  refine queueSafe_onDepot ?_
  unfold judgeUploadFinish
  split
  · exact QueueSafe.refl u
  · exact (queueSafe_changeUpload u _).trans (queueSafe_finishIfDrained _)

theorem queueSafe_answerBatch {f : State → Batch → State} (hf : ∀ b, QueueSafe u (f u b)) (n : Nat) :
    QueueSafe u (answerBatch n f u).state := by
  unfold answerBatch
  split
  · exact QueueSafe.refl u
  · split
    · exact QueueSafe.refl u
    · exact ((hf _).trans (queueSafe_finishIfDrained _)).trans (queueSafe_settleStore _)

theorem queueSafe_ownBatchAck {k : Link} (h : ownBatchAck k u r = some a) : QueueSafe u a.state := by
  unfold ownBatchAck at h
  split at h <;> cases h
  refine queueSafe_onDepot (queueSafe_answerBatch (fun b => ?_) _)
  have uploaded (t : State) (x : Uploader) : QueueSafe t (t.setUploader x) := .of_eq rfl rfl rfl rfl rfl
  refine QueueSafe.trans ?_ (uploaded _ _)
  refine QueueSafe.trans ?_ (queueSafe_rearmClass _ _)
  exact .of_same rfl rfl rfl (SamePort.refl _) (SamePort.refl _)

theorem queueSafe_ownBatchNak {k : Link} (h : ownBatchNak k u r = some a) : QueueSafe u a.state := by
  unfold ownBatchNak at h
  split at h <;> cases h
  refine queueSafe_onDepot (queueSafe_answerBatch (fun b => ?_) _)
  exact .of_same rfl rfl rfl (SamePort.refl _) (SamePort.refl _)

end

/-! ## Transmitters, links and dispatchers -/

theorem StoresBounded.of_eq {s t : State} (h : StoresBounded s) (hev : t.events = s.events) (hli : t.live = s.live)
    (hst : t.store = s.store) : StoresBounded t :=
  ⟨hev ▸ h.events, hli ▸ h.live, hst ▸ h.append⟩

/-- A state with the five fields of a bounded one. -/
theorem Bounded.of_eq {s t : State} (h : Bounded s) (hev : t.events = s.events) (hli : t.live = s.live)
    (hst : t.store = s.store) (htr : t.trunk = s.trunk) (hde : t.depot = s.depot) : Bounded t :=
  (QueueSafe.of_eq hev hli hst htr hde).bounded h

theorem bounded_setLink {s : State} (k : Link) {p : LinkPort} (hs : Bounded s) (hp : PortBounded p) :
    Bounded (s.setLink k p) := by
  cases k
  · exact ⟨hs.stores.of_eq rfl rfl rfl, hp, hs.depot⟩
  · exact ⟨hs.stores.of_eq rfl rfl rfl, hs.trunk, hp⟩

theorem Bounded.link {s : State} (hs : Bounded s) (k : Link) : PortBounded (s.link k) := by
  cases k
  · exact hs.trunk
  · exact hs.depot

/-- A port with no more requests and replies than a bounded one, of one dispatcher. -/
theorem PortBounded.of_le {p q : LinkPort} (hp : PortBounded p) (hreq : q.requests.length ≤ p.requests.length)
    (hrep : q.replies.length ≤ p.replies.length) (hd : q.dispatcher = p.dispatcher) : PortBounded q := by
  obtain ⟨hp1, hp2⟩ := hp
  exact ⟨hreq.trans hp1, hd ▸ hrep.trans hp2⟩

theorem takeEvent_length (u : EventUnit) (rest : List Event) (c : Nat) (h : rest.length ≤ 64) :
    (takeEvent u rest c).queue.length ≤ 64 := by
  unfold takeEvent
  simp only
  split
  · exact postEvent_length _ _ h
  · exact h

theorem bounded_kickTrunk {s : State} (hs : Bounded s) : Bounded (kickTrunk s) := by
  obtain ⟨hst, htr, hde⟩ := hs
  obtain ⟨-, e⟩ | ⟨-, r, rest, hr, e⟩ | ⟨-, -, x, rest, hx, e⟩ | ⟨-, -, -, c, rest, hc, e⟩ | ⟨-, -, -, -, e⟩ :=
    kickTrunk_cases s <;> rw [e]
  · exact ⟨hst, htr, hde⟩
  · exact ⟨hst.of_eq rfl rfl rfl, htr.of_le le_rfl (by rw [hr]; exact Nat.le_succ _) rfl, hde⟩
  · have hev := hst.events
    rw [hx] at hev
    exact ⟨⟨takeEvent_length _ _ _ ((Nat.le_succ _).trans hev), hst.live, hst.append⟩,
      htr.of_le le_rfl le_rfl rfl, hde⟩
  · have hli := hst.live
    rw [hc] at hli
    exact ⟨⟨hst.events, (Nat.le_succ _).trans hli, hst.append⟩, htr.of_le le_rfl le_rfl rfl, hde⟩
  · exact ⟨hst, htr, hde⟩

theorem bounded_kickDepot {s : State} (hs : Bounded s) : Bounded (kickDepot s) := by
  obtain ⟨hst, htr, hde⟩ := hs
  obtain e | ⟨-, -, r, rest, hr, e⟩ | ⟨-, -, -, b, -, e⟩ := kickDepot_cases s <;> rw [e]
  · exact ⟨hst, htr, hde⟩
  · exact ⟨hst.of_eq rfl rfl rfl, htr, hde.of_le le_rfl (by rw [hr]; exact Nat.le_succ _) rfl⟩
  · exact ⟨hst.of_eq rfl rfl rfl, htr, hde.of_le le_rfl le_rfl rfl⟩

theorem bounded_kickBoth {s : State} (hs : Bounded s) : Bounded (kickBoth s) :=
  bounded_kickTrunk (bounded_kickDepot hs)

theorem bounded_popRequest {s : State} (k : Link) (hs : Bounded s) : Bounded (popRequest s k) :=
  bounded_setLink k hs ((hs.link k).of_le (by simp) le_rfl rfl)

/-- A reply joins a queue that has a free place beside the one kept for a held ROUTE_START (R173, R174). -/
theorem bounded_pushReply {s : State} (k : Link) (r : Reply) (hs : Bounded s)
    (hroom : (s.link k).replies.length < 8) (hd : ∀ tag hour, (s.link k).dispatcher ≠ .routeStart tag hour) :
    Bounded (pushReply s k r) := by
  have hreq := (hs.link k).1
  refine bounded_setLink k hs ⟨hreq, ?_⟩
  simp only [List.length_append, List.length_singleton]
  cases he : (s.link k).dispatcher with
  | routeStart tag hour => exact absurd he (hd tag hour)
  | idle => exact hroom
  | resetting => exact hroom

/-- A request that is taken is answered within the places of its reply queue. -/
theorem bounded_finishRequest {s : State} {k : Link} {f : RequestFrame} {a : Answer} (hs : Bounded s)
    (ht : takable s k = some f) (ha : QueueSafe (popRequest s k) a.state) :
    Bounded (kickBoth (finishRequest k f a)) := by
  obtain ⟨hidle, hroom, -⟩ := takable_eq_some ht
  have popped : ((popRequest s k).link k).replies = (s.link k).replies
      ∧ ((popRequest s k).link k).dispatcher = .idle := by
    unfold popRequest
    rw [setLink_link]
    exact ⟨rfl, hidle⟩
  obtain ⟨-, hrep, hdisp⟩ := ha.link k
  rw [popped.1] at hrep
  rw [popped.2] at hdisp
  refine bounded_kickBoth (bounded_pushReply k _ (ha.bounded (bounded_popRequest k hs)) (hrep ▸ hroom) fun tag hour hc => ?_)
  obtain e | e := hdisp <;> rw [e] at hc <;> cases hc

theorem bounded_serve {k : Link} {owner : State → Request → Option Answer} {s : State}
    (ho : ∀ u r a, owner u r = some a → QueueSafe u a.state) (hs : Bounded s) : Bounded (serve k owner s) := by
  obtain e | ⟨f, r, a, ht, -, ha, e⟩ := serve_cases k owner s <;> rw [e]
  · exact hs
  · exact bounded_finishRequest hs ht (ho _ _ _ ha)

theorem bounded_serveUnknown {k : Link} {s : State} (hs : Bounded s) : Bounded (serveUnknown k s) := by
  unfold serveUnknown
  split
  · exact hs
  · rename_i f ht
    split
    · rename_i a ha
      refine bounded_finishRequest hs ht ?_
      unfold judgeUnknown at ha
      split at ha <;> cases ha <;> exact QueueSafe.refl _
    · exact hs

/-- A ROUTE_START that is held keeps its place in the reply queue (R173, R174). -/
theorem bounded_serveRouteStart {k : Link} {s : State} (hs : Bounded s) : Bounded (serveRouteStart k s) := by
  unfold serveRouteStart
  split
  · exact hs
  · rename_i f ht
    split
    · rename_i hour _
      simp only
      split
      · have hpop := bounded_popRequest k hs
        have hroom := (takable_eq_some ht).2.1
        refine bounded_setLink k hpop ⟨(hpop.link k).1, ?_⟩
        unfold popRequest
        rw [setLink_link]
        exact Nat.lt_succ_iff.1 hroom
      · exact bounded_finishRequest hs ht (queueSafe_judgeRouteStart hour)
    · exact hs

theorem bounded_executeRouteStart {k : Link} {s : State} (hs : Bounded s) : Bounded (executeRouteStart k s) := by
  unfold executeRouteStart
  split
  · rename_i tag hour hd
    split
    · obtain ⟨hreq, hrep⟩ := hs.link k
      rw [hd] at hrep
      have freed : Bounded (s.setLink k { s.link k with dispatcher := .idle }) :=
        bounded_setLink k hs ⟨hreq, Nat.le_succ_of_le hrep⟩
      have safe := queueSafe_judgeRouteStart (u := s.setLink k { s.link k with dispatcher := .idle }) hour
      obtain ⟨-, hsame, hdisp⟩ := safe.link k
      rw [setLink_link] at hsame hdisp
      refine bounded_kickBoth (bounded_pushReply k _ (safe.bounded freed) (hsame ▸ Nat.lt_succ_of_le hrep)
        fun tag' hour' hc => ?_)
      obtain e | e := hdisp <;> rw [e] at hc <;> cases hc
    · exact hs
  all_goals exact hs

/-! ## Receivers -/

theorem bounded_queueRequest {k : Link} {s : State} (f : RequestFrame) (rest : List Byte) (hs : Bounded s) :
    Bounded (queueRequest s k f rest) := by
  have hp := hs.link k
  unfold queueRequest
  simp only
  split
  · rename_i hroom
    exact bounded_setLink k hs ⟨by simpa [Config.linkPlaces] using hroom, hp.2⟩
  · exact (queueSafe_raiseFault _ _ _).bounded (bounded_setLink k hs hp)

theorem bounded_receive {k : Link} (n : Nat) {s : State} (hs : Bounded s) : Bounded (receive k n s) := by
  induction n generalizing s with
  | zero => exact hs
  | succ n ih =>
    have hp := hs.link k
    unfold receive
    simp only
    split
    · exact bounded_setLink k hs hp
    · split
      · exact bounded_setLink k hs hp
      · refine ih ((queueSafe_raiseFault _ _ _).bounded (bounded_setLink k hs ?_))
        rename_i cause _
        cases cause <;> exact hp
      · refine ih (bounded_queueRequest _ _ ?_)
        cases k <;> exact hs.of_eq rfl rfl rfl rfl rfl

theorem bounded_linkByte {k : Link} {s : State} (b : Byte) (hs : Bounded s) : Bounded (linkByte s k b) := by
  unfold linkByte
  split
  · exact bounded_receive _ (bounded_setLink k hs (hs.link k))
  · exact hs

/-! ## Resets, ends of frames and the DOCK line -/

/-- A part whose queues are empty starts with at most RESTART in them. -/
theorem bounded_startPart {s : State} (x : ResetKind) (hs : Bounded s) : Bounded (startPart s x) := by
  refine bounded_kickTrunk ((queueSafe_raiseEvent _ _ _ _).bounded ?_)
  exact hs.of_eq rfl rfl rfl rfl rfl

theorem bounded_of_empty {s : State} (hev : s.events.queue = []) (hli : s.live.queue = [])
    (hap : s.store.appendQueue = []) (htr : s.trunk = {}) (hde : s.depot = {}) : Bounded s := by
  refine ⟨⟨by simp [hev], by simp [hli], by simp [hap]⟩, ?_, ?_⟩
  · rw [htr]
    exact ⟨Nat.zero_le _, Nat.zero_le _⟩
  · rw [hde]
    exact ⟨Nat.zero_le _, Nat.zero_le _⟩

theorem bounded_warmValues (s : State) : Bounded (warmValues s) := bounded_of_empty rfl rfl rfl rfl rfl

theorem bounded_warmResetRequest (s : State) : Bounded (warmResetRequest s) :=
  bounded_startPart _ (bounded_warmValues s)

theorem bounded_trunkFrameEnd {s : State} (hs : Bounded s) : Bounded (trunkFrameEnd s) := by
  unfold trunkFrameEnd
  split
  · exact hs
  · simp only
    split
    · exact bounded_warmResetRequest _
    · exact bounded_kickTrunk (bounded_setLink .trunk hs hs.trunk)

theorem bounded_depotFrameEnd {s : State} (hs : Bounded s) : Bounded (depotFrameEnd s) := by
  unfold depotFrameEnd
  split
  · exact hs
  · rename_i f _
    simp only
    split
    · exact bounded_warmResetRequest _
    · refine bounded_kickBoth (Bounded.of_eq (bounded_setLink .depot (p := { s.depot with tx := none }) hs hs.depot)
        ?_ ?_ ?_ ?_ ?_) <;> cases f <;> rfl

theorem bounded_dockDeassert {s : State} (hs : Bounded s) : Bounded (dockDeassert s) := by
  have dropped : Bounded (s.setDepot { s.depot with rx := [] }) := bounded_setLink .depot hs hs.depot
  unfold dockDeassert
  simp only
  split
  · split
    · unfold resetOnDown
      split
      · exact bounded_warmResetRequest _
      · simp only
        split <;> exact bounded_warmResetRequest _
    · exact bounded_kickBoth ((queueSafe_linkDown _).bounded dropped)
  · exact dropped

theorem bounded_serveReset {k : Link} {s : State} (hs : Bounded s) : Bounded (serveReset k s) := by
  have served (k : Link) : Bounded (serve k (ownReset k) s) := bounded_serve (fun _ _ _ => queueSafe_ownReset) hs
  unfold serveReset
  split
  · exact served .trunk
  · split
    · exact served .depot
    · unfold serveResetDown
      split
      · exact hs
      · split
        · unfold ownResetDown
          split
          · exact bounded_warmResetRequest s
          · exact hs
        all_goals exact hs

/-! ## Every command -/

/-- A command that writes none of the fields that the queues stand in. -/
theorem exec_bounded {c : Instr} {s t : State} (h : exec c s = .next t) (hs : Bounded s) : Bounded t := by
  have plain {f : State → State} (hf : Bounded (f s)) (h : whenRunning s f = .next t) : Bounded t :=
    whenRunning_keeps h hf hs
  have kicked {f : State → State} (hf : QueueSafe s (f s)) (h : whenRunning s (fun s => kickTrunk (f s)) = .next t) :
      Bounded t := plain (f := fun s => kickTrunk (f s)) (bounded_kickTrunk (hf.bounded hs)) h
  have both {f : State → State} (hf : QueueSafe s (f s)) (h : whenRunning s (fun s => kickBoth (f s)) = .next t) :
      Bounded t := plain (f := fun s => kickBoth (f s)) (bounded_kickBoth (hf.bounded hs)) h
  have laned {f : State → State} (hf : ∃ la po, f s = { s with lanes := la, pool := po })
      (h : whenRunning s f = .next t) : Bounded t := by
    obtain ⟨_, _, e⟩ := hf
    exact plain (e ▸ (hs.of_eq rfl rfl rfl rfl rfl)) h
  have served {k : Link} {owner : State → Request → Option Answer} (h : whenRunning s (serve k owner) = .next t)
      (ho : ∀ u r a, owner u r = some a → QueueSafe u a.state) : Bounded t := plain (bounded_serve ho hs) h
  cases c with
  | sync i r => exact laned (f := fun s => takeSync s i r.toNat) (takeSync_shape s i r.toNat) h
  | byte i v g => exact kicked (f := fun s => takeByte s i v g) (queueSafe_takeByte s i v g) h
  | drop i => exact laned (f := fun s => takeDrop s i) (takeDrop_shape s i) h
  | gapExpiry i =>
    refine laned (f := fun s => if gapPassed s.lanes[i] s.timebase then expireGap s i else s) ?_ h
    split
    · exact expireGap_shape s i
    · exact ⟨s.lanes, s.pool, rfl⟩
  | decoderTake =>
    obtain ⟨_, _, _, e⟩ := decoderTake_shape s
    exact plain (f := decoderTake) (e ▸ (hs.of_eq rfl rfl rfl rfl rfl)) h
  | pairingTakeFrame =>
    obtain ⟨_, _, _, e⟩ := pairingTake_shape s
    exact plain (f := pairingTake) (e ▸ (hs.of_eq rfl rfl rfl rfl rfl)) h
  | pairTimeout m =>
    exact plain (f := fun s => s.setPairing (expirePairing s.pairing m s.timebase)) (hs.of_eq rfl rfl rfl rfl rfl) h
  | matcherTakeHearing => exact kicked (queueSafe_matcherTake s) h
  | builderPassRecord => exact kicked (queueSafe_builderPass s) h
  | writeCompletion ok => exact both (f := fun s => writeCompletion s ok) (queueSafe_writeCompletion s ok) h
  | readCompletion ok => exact both (f := fun s => readCompletion s ok) (queueSafe_readCompletion s ok) h
  | segmentDeadlineExpiry n =>
    obtain ⟨_, e⟩ := deadlineExpiry_shape s n
    exact plain (f := fun s => deadlineExpiry s n) (e ▸ (hs.of_eq rfl rfl rfl rfl rfl)) h
  | closeWalkVisit n => exact kicked (f := fun s => walkVisit s n) (queueSafe_walkVisit s n) h
  | closeEnd n => exact kicked (f := fun s => closeEnd s n) (queueSafe_closeEnd s n) h
  | routeEndRecord => exact kicked (queueSafe_routeEndRecord s) h
  | routeClockLimit => exact kicked (queueSafe_routeClockLimit s) h
  | pacingSlotOpen => exact both (queueSafe_pacingSlotOpen s) h
  | ackTimeout n => exact both (f := fun s => ackTimeout s n) (queueSafe_ackTimeout s n) h
  | dockAssert =>
    cases h
    exact hs.of_eq rfl rfl rfl rfl rfl
  | linkByte k v => exact plain (f := fun s => kickBoth (linkByte s k v)) (bounded_kickBoth (bounded_linkByte v hs)) h
  | unknownRequest k => exact plain (bounded_serveUnknown hs) h
  | routeStart k => exact plain (bounded_serveRouteStart hs) h
  | routeStartExecute k => exact plain (bounded_executeRouteStart hs) h
  | identify k => exact served h fun _ _ _ => queueSafe_ownIdentify
  | status k => exact served h fun _ _ _ => queueSafe_ownStatus
  | countersRead k => exact served h fun _ _ _ => queueSafe_ownCountersRead
  | entryRead k => exact served h fun _ _ _ => queueSafe_ownEntryRead
  | segmentRead k => exact served h fun _ _ _ => queueSafe_ownSegmentRead
  | eventMask k => exact served h fun _ _ _ => queueSafe_ownEventMask
  | faultClear k => exact served h fun _ _ _ => queueSafe_ownFaultClear
  | laneSet k => exact served h fun _ _ _ => queueSafe_ownLaneSet
  | familySet k => exact served h fun _ _ _ => queueSafe_ownFamilySet
  | familyClear k => exact served h fun _ _ _ => queueSafe_ownFamilyClear
  | serviceSet k => exact served h fun _ _ _ => queueSafe_ownServiceSet
  | bookOpen k => exact served h fun _ _ _ => queueSafe_ownBookOpen
  | bookEntries k => exact served h fun _ _ _ => queueSafe_ownBookEntries
  | bookClose k => exact served h fun _ _ _ => queueSafe_ownBookClose
  | bookAbort k => exact served h fun _ _ _ => queueSafe_ownBookAbort
  | entryModify k => exact served h fun _ _ _ => queueSafe_ownEntryModify
  | segmentModify k => exact served h fun _ _ _ => queueSafe_ownSegmentModify
  | routeEnd k => exact served h fun _ _ _ => queueSafe_ownRouteEnd
  | rulesSet k => exact served h fun _ _ _ => queueSafe_ownRulesSet
  | segmentSet k => exact served h fun _ _ _ => queueSafe_ownSegmentSet
  | segmentClose k => exact served h fun _ _ _ => queueSafe_ownSegmentClose
  | segmentReopen k => exact served h fun _ _ _ => queueSafe_ownSegmentReopen
  | classSet k => exact served h fun _ _ _ => queueSafe_ownClassSet
  | routingSet k => exact served h fun _ _ _ => queueSafe_ownRoutingSet
  | uploadOpen k => exact served h fun _ _ _ => queueSafe_ownUploadOpen
  | uploadPace k => exact served h fun _ _ _ => queueSafe_ownUploadPace
  | uploadStop k => exact served h fun _ _ _ => queueSafe_ownUploadStop
  | uploadFinish k => exact served h fun _ _ _ => queueSafe_ownUploadFinish
  | batchAck k => exact served h fun _ _ _ => queueSafe_ownBatchAck
  | batchNak k => exact served h fun _ _ _ => queueSafe_ownBatchNak
  | trunkTxFrameEnd => exact plain (bounded_trunkFrameEnd hs) h
  | depotTxFrameEnd => exact plain (bounded_depotFrameEnd hs) h
  | reset k => exact plain (bounded_serveReset hs) h
  | dockDeassert =>
    have lowered : Bounded (s.setPins { s.pins with dock := false }) := (hs.of_eq rfl rfl rfl rfl rfl)
    simp only [exec, execDockDeassert] at h
    cases h
    split
    · exact lowered
    · exact bounded_dockDeassert lowered
  | resetLineAssert =>
    simp only [exec, execResetLineAssert] at h
    cases h
    split
    · exact hs
    · exact bounded_of_empty rfl rfl rfl rfl rfl
  | resetLineRelease strap =>
    simp only [exec, execResetLineRelease] at h
    cases h
    split
    · exact bounded_startPart _ (hs.of_eq rfl rfl rfl rfl rfl)
    · exact hs
  | coldReset strap =>
    simp only [exec, execColdReset] at h
    cases h
    split
    · exact bounded_of_empty rfl rfl rfl rfl rfl
    · exact bounded_startPart _ (bounded_of_empty rfl rfl rfl rfl rfl)

/-- Every step keeps the bounded queues within their places. -/
theorem step_queuesBounded {s t : State} (hs : QueuesBounded s) (h : step s = .next t) : QueuesBounded t := by
  rw [queuesBounded_iff] at hs ⊢
  unfold step at h
  split at h
  · cases h
    exact hs.of_eq rfl rfl rfl rfl rfl
  · exact exec_bounded h (hs.of_eq rfl rfl rfl rfl rfl)

end Sys2Proof.Machine
end

