-- ==== Sys2Proof/Proofs/DescriptorPlaces.lean ====
section
/-! SUPPORT. Where each capture descriptor stands (R19 to R24), the moves between the places, and what each command of the
lanes and the decoder moves. Settles O35. -/

namespace Sys2Proof.Machine

/-! ## Places and moves -/

/-- What `DescriptorsPlaced` reads of a state: the close-order queue, the state of each descriptor, each lane's open
descriptor and whether the lane is in BODY, and the descriptor of the offered frame. -/
structure Places where
  queue : List (Fin 128)
  state : Fin 128 → DescriptorState
  opened : Fin 8 → Option (Fin 128)
  body : Fin 8 → Prop
  offered : Option (Fin 128)

/-- The places of a state. -/
def places (s : State) : Places :=
  { queue := s.pool.closeQueue
    state := fun d => s.pool.descriptors[d].state
    opened := fun i => s.lanes[i].openDescriptor
    body := fun i => s.lanes[i].state = .body
    offered := s.decoder.offer.map (·.descriptor) }

/-- Every descriptor has its holder. -/
structure Placed (p : Places) : Prop where
  nodup : p.queue.Nodup
  closed : ∀ d, d ∈ p.queue ↔ p.state d = .closed
  opened : ∀ d, p.state d = .opened ↔ ∃ i, p.opened i = some d
  distinct : ∀ i j, p.opened i ≠ none → p.opened i = p.opened j → i = j
  body : ∀ i, p.body i ↔ p.opened i ≠ none
  decoding : ∀ d, p.state d = .decoding ↔ p.offered = some d

theorem descriptorsPlaced_iff (s : State) : DescriptorsPlaced s ↔ Placed (places s) :=
  ⟨fun ⟨hn, hc, ho, hi, hb, hd⟩ => ⟨hn, hc, ho, hi, hb, hd⟩, fun ⟨hn, hc, ho, hi, hb, hd⟩ => ⟨hn, hc, ho, hi, hb, hd⟩⟩

/-- A lane in BODY closes its descriptor (R14, R21). -/
def Places.close (p : Places) (i : Fin 8) (d : Fin 128) : Places :=
  { p with
    queue := p.queue ++ [d]
    state := Function.update p.state d .closed
    opened := Function.update p.opened i none
    body := Function.update p.body i False }

/-- The pool gives a lane a descriptor (R20). -/
def Places.give (p : Places) (i : Fin 8) (d : Fin 128) : Places :=
  { p with
    state := Function.update p.state d .opened
    opened := Function.update p.opened i (some d)
    body := Function.update p.body i True }

/-- The idle decoder takes the head of the close-order queue, as for an offered frame (R23, R24). -/
def Places.take (p : Places) (d : Fin 128) (rest : List (Fin 128)) : Places :=
  { p with queue := rest, state := Function.update p.state d .decoding, offered := some d }

/-- The decoder frees the descriptor it holds (R23, R24). -/
def Places.free (p : Places) (d : Fin 128) : Places :=
  { p with state := Function.update p.state d .free, offered := none }

theorem Placed.close {p : Places} (h : Placed p) {i : Fin 8} {d : Fin 128} (hd : p.opened i = some d) :
    Placed (p.close i d) := by
  have open_d : p.state d = .opened := (h.opened d).2 ⟨i, hd⟩
  have outside : d ∉ p.queue := by
    rw [h.closed, open_d]
    simp
  have only (j : Fin 8) (hj : p.opened j = some d) : j = i := (h.distinct i j (by simp [hd]) (by rw [hd, hj])).symm
  refine ⟨?_, fun e => ?_, fun e => ?_, fun j k hj hjk => ?_, fun j => ?_, fun e => ?_⟩
  · exact List.nodup_append.2 ⟨h.nodup, List.nodup_singleton d, fun a ha b hb => by
      rw [List.mem_singleton] at hb
      rintro rfl
      exact outside (hb ▸ ha)⟩
  · by_cases he : e = d
    · simp [Places.close, he]
    · simp [Places.close, he, h.closed e]
  · by_cases he : e = d
    · subst he
      simp only [Places.close, Function.update_self]
      constructor
      · exact fun hc => by cases hc
      · rintro ⟨j, hj⟩
        by_cases hji : j = i
        · simp [hji] at hj
        · rw [Function.update_of_ne hji] at hj
          exact absurd (only j hj) hji
    · simp only [Places.close, Function.update_of_ne he, h.opened e]
      constructor
      · rintro ⟨j, hj⟩
        have hji : j ≠ i := by
          rintro rfl
          rw [hd] at hj
          cases hj
          exact he rfl
        exact ⟨j, by rw [Function.update_of_ne hji, hj]⟩
      · rintro ⟨j, hj⟩
        by_cases hji : j = i
        · simp [hji] at hj
        · exact ⟨j, by rwa [Function.update_of_ne hji] at hj⟩
  · have hji : j ≠ i := by
      rintro rfl
      simp [Places.close] at hj
    have hki : k ≠ i := by
      rintro rfl
      rw [hjk] at hj
      simp [Places.close] at hj
    simp only [Places.close, Function.update_of_ne hji, Function.update_of_ne hki] at hj hjk
    exact h.distinct j k hj hjk
  · by_cases hji : j = i
    · simp [Places.close, hji]
    · simp [Places.close, Function.update_of_ne hji, h.body j]
  · by_cases he : e = d
    · subst he
      have no : p.offered ≠ some e := fun hc => by
        have := (h.decoding e).2 hc
        rw [open_d] at this
        cases this
      simp [Places.close, no]
    · simp [Places.close, he, h.decoding e]

theorem Placed.give {p : Places} (h : Placed p) {i : Fin 8} {d : Fin 128} (hd : p.state d = .free)
    (hi : p.opened i = none) : Placed (p.give i d) := by
  have nobody (j : Fin 8) : p.opened j ≠ some d := fun hc => by
    have := (h.opened d).2 ⟨j, hc⟩
    rw [hd] at this
    cases this
  refine ⟨h.nodup, fun e => ?_, fun e => ?_, fun j k hj hjk => ?_, fun j => ?_, fun e => ?_⟩
  · by_cases he : e = d
    · subst he
      have : e ∉ p.queue := by
        rw [h.closed, hd]
        simp
      simp [Places.give, this]
    · simp [Places.give, he, h.closed e]
  · by_cases he : e = d
    · subst he
      simp only [Places.give, Function.update_self, true_iff]
      exact ⟨i, by simp⟩
    · simp only [Places.give, Function.update_of_ne he, h.opened e]
      constructor
      · rintro ⟨j, hj⟩
        have hji : j ≠ i := by
          rintro rfl
          simp [hi] at hj
        exact ⟨j, by rw [Function.update_of_ne hji, hj]⟩
      · rintro ⟨j, hj⟩
        by_cases hji : j = i
        · rw [hji, Function.update_self] at hj
          cases hj
          exact absurd rfl he
        · exact ⟨j, by rwa [Function.update_of_ne hji] at hj⟩
  · simp only [Places.give] at hj hjk
    by_cases hji : j = i
    · by_cases hki : k = i
      · rw [hji, hki]
      · rw [hji, Function.update_self, Function.update_of_ne hki] at hjk
        exact absurd hjk.symm (nobody k)
    · by_cases hki : k = i
      · rw [hki, Function.update_self, Function.update_of_ne hji] at hjk
        exact absurd hjk (nobody j)
      · rw [Function.update_of_ne hji] at hj
        rw [Function.update_of_ne hji, Function.update_of_ne hki] at hjk
        exact h.distinct j k hj hjk
  · by_cases hji : j = i
    · simp [Places.give, hji]
    · simp [Places.give, Function.update_of_ne hji, h.body j]
  · by_cases he : e = d
    · subst he
      have no : p.offered ≠ some e := fun hc => by
        have := (h.decoding e).2 hc
        rw [hd] at this
        cases this
      simp [Places.give, no]
    · simp [Places.give, he, h.decoding e]

theorem Placed.take {p : Places} (h : Placed p) {d : Fin 128} {rest : List (Fin 128)} (hq : p.queue = d :: rest)
    (ho : p.offered = none) : Placed (p.take d rest) := by
  have hn := h.nodup
  rw [hq, List.nodup_cons] at hn
  obtain ⟨hd, hrest⟩ := hn
  have closed_d : p.state d = .closed := (h.closed d).1 (by rw [hq]; exact List.mem_cons_self)
  refine ⟨hrest, fun e => ?_, fun e => ?_, h.distinct, h.body, fun e => ?_⟩
  · by_cases he : e = d
    · subst he
      simp [Places.take, hd]
    · have := h.closed e
      rw [hq, List.mem_cons] at this
      simpa [Places.take, he] using this
  · by_cases he : e = d
    · subst he
      have := h.opened e
      rw [closed_d] at this
      simpa [Places.take] using this
    · simp [Places.take, he, h.opened e]
  · by_cases he : e = d
    · subst he
      simp [Places.take]
    · have := h.decoding e
      rw [ho] at this
      simpa [Places.take, he, Ne.symm he] using this

theorem Placed.free {p : Places} (h : Placed p) {d : Fin 128} (ho : p.offered = some d) : Placed (p.free d) := by
  have decoding_d : p.state d = .decoding := (h.decoding d).2 ho
  refine ⟨h.nodup, fun e => ?_, fun e => ?_, h.distinct, h.body, fun e => ?_⟩
  · by_cases he : e = d
    · subst he
      have := h.closed e
      rw [decoding_d] at this
      simpa [Places.free] using this
    · simp [Places.free, he, h.closed e]
  · by_cases he : e = d
    · subst he
      have := h.opened e
      rw [decoding_d] at this
      simpa [Places.free] using this
    · simp [Places.free, he, h.opened e]
  · by_cases he : e = d
    · subst he
      simp [Places.free]
    · have := h.decoding e
      rw [ho] at this
      simpa [Places.free, he, Ne.symm he] using this

/-! ## Lanes -/

theorem vector_set_fin {α : Type} {n : Nat} (v : Vector α n) (i j : Fin n) (x : α) :
    (v.set i x)[j] = if j = i then x else v[j] := by
  simp only [Fin.getElem_fin, Vector.getElem_set, Fin.ext_iff, eq_comm (a := j.val)]

theorem setLane_lanes (s : State) (i j : Fin 8) (l : Lane) : (s.setLane i l).lanes[j] = if j = i then l else s.lanes[j] :=
  vector_set_fin s.lanes i j l

@[simp] theorem setLane_self (s : State) (i : Fin 8) (l : Lane) : (s.setLane i l).lanes[i] = l := by
  rw [setLane_lanes, if_pos rfl]

theorem setDescriptor_descriptors (s : State) (d e : Fin 128) (x : Descriptor) :
    (s.setDescriptor d x).pool.descriptors[e] = if e = d then x else s.pool.descriptors[e] :=
  vector_set_fin s.pool.descriptors d e x

/-- A lane that keeps its open descriptor and stays in or out of BODY. -/
theorem places_setLane (s : State) {i : Fin 8} {l : Lane} (ho : l.openDescriptor = s.lanes[i].openDescriptor)
    (hb : l.state = .body ↔ s.lanes[i].state = .body) : places (s.setLane i l) = places s := by
  unfold places
  congr 1
  · funext j
    rw [setLane_lanes]
    split
    · rename_i h
      rw [ho, h]
    · rfl
  · funext j
    rw [setLane_lanes]
    split
    · rename_i h
      rw [hb, h]
    · rfl

theorem placed_setLane {s : State} (h : Placed (places s)) {i : Fin 8} {l : Lane}
    (ho : l.openDescriptor = s.lanes[i].openDescriptor) (hb : l.state = .body ↔ s.lanes[i].state = .body) :
    Placed (places (s.setLane i l)) := by
  rwa [places_setLane s ho hb]

/-- A lane with no open descriptor is not in BODY. -/
theorem Placed.not_body {s : State} (h : Placed (places s)) {i : Fin 8} (hi : s.lanes[i].openDescriptor = none) :
    s.lanes[i].state ≠ .body := fun hb => (h.body i).1 hb hi

theorem Placed.no_open {s : State} (h : Placed (places s)) {i : Fin 8} (hi : s.lanes[i].state ≠ .body) :
    s.lanes[i].openDescriptor = none := by
  by_contra hc
  exact hi ((h.body i).2 hc)

/-- After a close the lane stands in HUNT with no descriptor. -/
theorem closeFrame_lane (s : State) (i : Fin 8) (o : CloseOutcome) :
    (closeFrame s i o).lanes[i] = afterClose s.lanes[i] o := by
  unfold closeFrame
  simp only
  split <;> exact setLane_self _ i _

theorem placed_closeFrame {s : State} (h : Placed (places s)) (i : Fin 8) (o : CloseOutcome) :
    Placed (places (closeFrame s i o)) := by
  unfold closeFrame
  simp only
  split
  · rename_i d hd
    have hp : places ((s.setPool (closeDescriptor s.pool d o s.clock.value)).setLane i (afterClose s.lanes[i] o))
        = (places s).close i d := by
      unfold places Places.close
      congr 1
      · funext e
        simp only [Function.update_apply]
        have := vector_set_fin s.pool.descriptors d e
          { s.pool.descriptors[d] with state := .closed, outcome := some o, closeTag := some s.clock.value }
        refine (congrArg (·.state) this).trans ?_
        split <;> rfl
      · funext j
        rw [setLane_lanes]
        simp only [Function.update_apply]
        split <;> rfl
      · funext j
        rw [setLane_lanes]
        simp only [Function.update_apply]
        split
        · simp [afterClose]
        · rfl
    rw [hp]
    exact h.close hd
  · rename_i hd
    exact placed_setLane h hd.symm (iff_of_false (by simp [afterClose]) (h.not_body hd))

/-- A lane out of BODY takes any settings and state out of BODY. -/
theorem placed_setLane_closed {s : State} (h : Placed (places s)) {i : Fin 8} {l : Lane}
    (hi : s.lanes[i].state ≠ .body) (ho : l.openDescriptor = s.lanes[i].openDescriptor) (hb : l.state ≠ .body) :
    Placed (places (s.setLane i l)) :=
  placed_setLane h ho (iff_of_false hb hi)

/-- A close, then another settings record for the lane, out of BODY and with no descriptor. -/
theorem placed_closeFrame_setLane {s : State} (h : Placed (places s)) {i : Fin 8} (o : CloseOutcome) {l : Lane}
    (ho : l.openDescriptor = none) (hb : l.state ≠ .body) : Placed (places ((closeFrame s i o).setLane i l)) := by
  refine placed_setLane_closed (placed_closeFrame h i o) ?_ ?_ hb
  · rw [closeFrame_lane]
    simp [afterClose]
  · rw [closeFrame_lane, ho]
    rfl

theorem judgeSync_out_of_body (l : Lane) (r t n : Nat) : (judgeSync l r t n).state ≠ .body := by
  unfold judgeSync
  simp only
  split <;> simp

theorem judgeSync_openDescriptor (l : Lane) (r t n : Nat) : (judgeSync l r t n).openDescriptor = l.openDescriptor := by
  unfold judgeSync
  simp only
  split <;> rfl

theorem placed_takeSync {s : State} (h : Placed (places s)) (i : Fin 8) (r : Nat) : Placed (places (takeSync s i r)) := by
  have judged (hi : s.lanes[i].state ≠ .body) :
      Placed (places (s.setLane i (judgeSync s.lanes[i] r s.clock.value s.timebase))) :=
    placed_setLane_closed h hi (judgeSync_openDescriptor _ _ _ _) (judgeSync_out_of_body _ _ _ _)
  unfold takeSync
  simp only
  split
  · exact h
  · exact h
  · rename_i hs
    exact judged (by rw [hs]; decide)
  · rename_i hs
    exact judged (by rw [hs]; decide)
  · refine placed_closeFrame_setLane h _ ?_ (judgeSync_out_of_body _ _ _ _)
    rw [judgeSync_openDescriptor, closeFrame_lane]
    rfl

theorem placed_toHunt {s : State} (h : Placed (places s)) {i : Fin 8} (hi : s.lanes[i].state ≠ .body) {l : Lane}
    (hl : l.openDescriptor = s.lanes[i].openDescriptor) (hs : l.state = .hunt) : Placed (places (s.setLane i l)) :=
  placed_setLane_closed h hi hl (by rw [hs]; decide)

theorem placed_expireGap {s : State} (h : Placed (places s)) (i : Fin 8) : Placed (places (expireGap s i)) := by
  unfold expireGap
  split
  · exact placed_closeFrame h i _
  · rename_i hs
    exact placed_toHunt h (by rw [hs]; decide) rfl rfl
  all_goals exact h

theorem placed_takeDrop {s : State} (h : Placed (places s)) (i : Fin 8) : Placed (places (takeDrop s i)) := by
  unfold takeDrop
  split
  · exact h
  · exact h
  · exact h
  · rename_i hs
    exact placed_toHunt h (by rw [hs]; decide) rfl rfl
  · exact placed_closeFrame h i _

theorem lowestFreeDescriptor_free {p : Pool} {d : Fin 128} (h : lowestFreeDescriptor p = some d) :
    p.descriptors[d].state = .free := by
  simpa using List.find?_some h

theorem placed_giveDescriptor {s : State} (h : Placed (places s)) {i : Fin 8} {d : Fin 128} (n : Nat)
    (hd : s.pool.descriptors[d].state = .free) (hi : s.lanes[i].state ≠ .body) :
    Placed (places (giveDescriptor s i d n)) := by
  have given {t : State} (ht : places t = (places s).give i d) : Placed (places t) := by
    rw [ht]
    exact h.give hd (h.no_open hi)
  have hp (x : Descriptor) (l : Lane) (hx : x.state = .opened) (hl : l.state = .body) (ho : l.openDescriptor = some d) :
      places ((s.setDescriptor d x).setLane i l) = (places s).give i d := by
    unfold places Places.give
    congr 1
    · funext e
      simp only [Function.update_apply]
      refine (congrArg (·.state) (setDescriptor_descriptors s d e x)).trans ?_
      split
      · exact hx
      · rfl
    · funext j
      rw [setLane_lanes]
      simp only [Function.update_apply]
      split
      · exact ho
      · rfl
    · funext j
      rw [setLane_lanes]
      simp only [Function.update_apply]
      split
      · simp [hl]
      · rfl
  unfold giveDescriptor
  simp only
  split
  · exact given (hp _ _ rfl rfl rfl)
  · exact given (hp _ _ rfl rfl rfl)

theorem placed_takeLengthByte {s : State} (h : Placed (places s)) (i : Fin 8) (b : Byte) (good : Bool)
    (hi : s.lanes[i].state ≠ .body) : Placed (places (takeLengthByte s i b good)) := by
  unfold takeLengthByte
  simp only
  split
  · unfold startMessage
    split
    · rename_i hd
      exact placed_giveDescriptor h _ (lowestFreeDescriptor_free hd) hi
    · exact placed_toHunt h hi rfl rfl
  · exact placed_toHunt h hi rfl rfl

theorem places_setDescriptor (s : State) {d : Fin 128} {x : Descriptor} (hx : x.state = s.pool.descriptors[d].state) :
    places (s.setDescriptor d x) = places s := by
  unfold places
  congr 1
  funext e
  refine (congrArg (·.state) (setDescriptor_descriptors s d e x)).trans ?_
  split
  · rename_i he
    rw [hx, he]
  · rfl

theorem placed_takeBodyByte {s : State} (h : Placed (places s)) (i : Fin 8) (b : Byte) :
    Placed (places (takeBodyByte s i b)) := by
  have received : Placed (places (s.setLane i
      { s.lanes[i] with bytesReceived := s.lanes[i].bytesReceived + 1,
                        gapDeadline := some (s.timebase + s.lanes[i].gapLimit) })) :=
    placed_setLane h rfl Iff.rfl
  have stored (t : State) (ht : Placed (places t)) (d : Fin 128) (x : Descriptor)
      (hx : x.state = t.pool.descriptors[d].state) : Placed (places (t.setDescriptor d x)) := by
    rwa [places_setDescriptor t hx]
  have kept (d : Fin 128) (n m : Nat) :
      (storeByte s.pool.descriptors[d] n m b).state = s.pool.descriptors[d].state := by
    unfold storeByte
    split <;> rfl
  unfold takeBodyByte
  simp only
  split
  · exact received
  · rename_i d _
    have held := stored _ received d _ (kept d s.lanes[i].bytesReceived (s.lanes[i].frameLength.getD 0))
    split
    · split
      · refine placed_closeFrame_setLane held _ ?_ ?_ <;> rw [closeFrame_lane] <;> simp [afterClose]
      · exact placed_closeFrame held i _
    · exact held

theorem placed_takePortError {s : State} (h : Placed (places s)) (i : Fin 8) :
    Placed (places (takePortError s i)) := by
  unfold takePortError
  simp only
  split
  · refine placed_closeFrame_setLane h _ ?_ ?_ <;> rw [closeFrame_lane] <;> simp [afterClose]
  · refine placed_closeFrame_setLane (l := { (closeFrame s i .portError).lanes[i] with streak := 32, state := .faulted })
      h _ ?_ (by simp)
    rw [closeFrame_lane]
    rfl

theorem placed_takeByte {s : State} (h : Placed (places s)) (i : Fin 8) (b : Byte) (good : Bool) :
    Placed (places (takeByte s i b good)) := by
  unfold takeByte
  split
  · exact h
  · exact h
  · exact h
  · rename_i hs
    exact placed_takeLengthByte h i b good (by rw [hs]; decide)
  · split
    · exact placed_takeBodyByte h i b
    · exact placed_takePortError h i

theorem placed_setOneLane {s : State} (h : Placed (places s)) (i : Fin 8) (n : LaneSettings) :
    Placed (places (setOneLane s i n).1) := by
  have applied (hi : s.lanes[i].state ≠ .body) {l : Lane} (ho : l.openDescriptor = s.lanes[i].openDescriptor)
      (hb : l.state ≠ .body) : Placed (places (s.setLane i l)) := placed_setLane_closed h hi ho hb
  have later : Placed (places (s.setLane i (applyNextFrame s.lanes[i] n))) := placed_setLane h rfl Iff.rfl
  have middle : Placed (places (if settingsEqual s.lanes[i] n then (s, LaneResult.unchanged)
      else
        let t := s.setLane i (applyNextFrame s.lanes[i] n)
        (if gapPassed t.lanes[i] t.timebase then expireGap t i else t, LaneResult.appliedNextFrame)).1) := by
    split
    · exact h
    · simp only
      split
      · exact placed_expireGap later i
      · exact later
  have aborted : Placed (places (abortFrame s i n)) := by
    unfold abortFrame
    split
    · simp only
      refine placed_closeFrame_setLane h _ ?_ (by simp [applySettings])
      rw [closeFrame_lane]
      rfl
    · rename_i hi
      have hunting : Placed (places (s.setLane i (toHunt s.lanes[i]))) := placed_toHunt h hi rfl rfl
      refine placed_setLane_closed hunting ?_ rfl (by simp [applySettings])
      rw [setLane_self]
      simp [toHunt]
  unfold setOneLane
  simp only
  split
  · rename_i hs _
    split
    · exact h
    · exact applied (by rw [hs]; decide) rfl (by simp [applySettings])
  · rename_i hs _
    exact applied (by rw [hs]; decide) rfl (by simp [applySettings])
  · rename_i hs _
    split
    · exact h
    · exact applied (by rw [hs]; decide) rfl (by simp [applySettings])
  · rename_i hs _
    exact applied (by rw [hs]; decide) rfl (by simp [applySettings])
  · exact middle
  · exact middle
  · exact aborted
  · exact aborted
  · rename_i hs _
    exact applied (by rw [hs]; decide) rfl (by simp [applySettings])
  · rename_i hs _
    exact applied (by rw [hs]; decide) rfl (by simp [applySettings])

theorem placed_setLanesByMask (n : LaneSettings) (mask : Nat) (is : List (Fin 8)) {s : State} (h : Placed (places s)) :
    Placed (places (setLanesByMask n mask is s).1) := by
  induction is generalizing s with
  | nil => exact h
  | cons i rest ih =>
    unfold setLanesByMask
    refine ih ?_
    split
    · exact placed_setOneLane h i n
    · exact h

/-! ## Decoder -/

/-- The decoder frees a descriptor and offers nothing. -/
theorem places_free (s t : State) (d : Fin 128) (hl : t.lanes = s.lanes) (hp : t.pool = freeDescriptor s.pool d)
    (ho : t.decoder.offer = none) : places t = (places s).free d := by
  unfold places Places.free
  rw [hl, hp, ho]
  congr 1
  funext e
  simp only [Function.update_apply]
  refine (congrArg (·.state) (vector_set_fin s.pool.descriptors d e _)).trans ?_
  split <;> rfl

/-- The decoder takes the head of the close-order queue and offers its frame. -/
theorem places_take (s t : State) (d : Fin 128) (rest : List (Fin 128)) (f : DecodedFrame) (hl : t.lanes = s.lanes)
    (hp : t.pool = ((s.setPool { s.pool with closeQueue := rest }).setDescriptor d
      { s.pool.descriptors[d] with state := .decoding }).pool)
    (ho : t.decoder.offer = some { descriptor := d, frame := f }) : places t = (places s).take d rest := by
  unfold places Places.take
  rw [hl, hp, ho]
  congr 1
  funext e
  simp only [Function.update_apply]
  refine (congrArg (·.state) (vector_set_fin s.pool.descriptors d e _)).trans ?_
  split <;> rfl

theorem placed_decoderTake {s : State} (h : Placed (places s)) : Placed (places (decoderTake s)) := by
  unfold decoderTake
  split
  · rename_i d rest hidle hq
    have taken : Placed ((places s).take d rest) := h.take hq (by simp [places, hidle])
    have freed (u v : State) (hu : places u = (places s).take d rest) (hl : v.lanes = u.lanes)
        (hp : v.pool = freeDescriptor u.pool d) (ho : v.decoder.offer = none) : Placed (places v) := by
      rw [places_free u v d hl hp ho, hu]
      exact taken.free rfl
    have offering (f : DecodedFrame) (c : DecoderCounters) :
        places (((s.setPool { s.pool with closeQueue := rest }).setDescriptor d
          { s.pool.descriptors[d] with state := .decoding }).setDecoder
            { offer := some { descriptor := d, frame := f }, counters := c }) = (places s).take d rest :=
      places_take s _ d rest f rfl rfl rfl
    have nothing (f : DecodedFrame) {v : State} (hl : v.lanes = s.lanes)
        (hp : v.pool = freeDescriptor ((s.setPool { s.pool with closeQueue := rest }).setDescriptor d
          { s.pool.descriptors[d] with state := .decoding }).pool d) (ho : v.decoder.offer = none) :
        Placed (places v) := freed _ v (offering f {}) hl hp ho
    have frame : DecodedFrame :=
      { head := { meterId := 0, familyIndex := 0, familyCode := 0, mode := .none, window := 0, sequence := 0,
                  closeTag := 0, rssi := 0, lane := 0 }, body := .extension none }
    simp only
    split
    · unfold decodeGood
      split
      · exact nothing frame rfl rfl hidle
      · exact nothing frame rfl rfl hidle
      · rw [offering]
        exact taken
    · exact nothing frame rfl rfl hidle
    · exact nothing frame rfl rfl hidle
  · exact h

theorem placed_pairingTake {s : State} (h : Placed (places s)) : Placed (places (pairingTake s)) := by
  unfold pairingTake
  split
  · rename_i o ho _
    rw [places_free s ((handOffer s o).setPairing _) o.descriptor rfl rfl rfl]
    exact h.free (by simp [places, ho])
  · exact h

/-! ## Every step -/

theorem places_of_agrees {s t : State} (h : Agrees .gathering s t) : places t = places s := by
  obtain ⟨hl, hp, hd⟩ := h
  unfold places
  rw [hl, hp, hd]

/-- A part whose lanes, pool and decoder stand at their reset values. -/
theorem placed_of_defaults {s : State} (hl : s.lanes = .replicate 8 {}) (hp : s.pool = {}) (hd : s.decoder = {}) :
    Placed (places s) := by
  have lane (i : Fin 8) : s.lanes[i] = {} := by
    rw [hl]
    exact Vector.getElem_replicate i.isLt
  have descriptor (d : Fin 128) : s.pool.descriptors[d] = {} := by
    rw [hp]
    exact Vector.getElem_replicate d.isLt
  refine ⟨?_, fun d => ?_, fun d => ?_, fun i j hi _ => ?_, fun i => ?_, fun d => ?_⟩
  · simp [places, hp]
  · simp only [places, descriptor]
    simp [hp]
  · simp only [places, descriptor, lane]
    simp
  · exact absurd (congrArg Lane.openDescriptor (lane i)) hi
  · simp only [places, lane]
    simp
  · simp only [places, descriptor]
    simp [hd]

theorem placed_clearGroup {s : State} (h : Placed (places s)) (g : CounterGroup) : Placed (places (clearGroup s g)) := by
  cases g
  case lanes =>
    have hp : places (clearGroup s .lanes) = places s := by
      have lane (i : Fin 8) : (s.lanes.map (fun l => { l with counters := {} }))[i] = { s.lanes[i] with counters := {} } :=
        Vector.getElem_map _ _
      unfold places clearGroup
      congr 1
      · funext i
        exact Eq.trans (congrArg Lane.openDescriptor (lane i)) rfl
      · funext i
        exact Eq.trans (congrArg (fun l : Lane => l.state = .body) (lane i)) rfl
    rwa [hp]
  all_goals exact h

theorem placed_ownLaneSet {u : State} {r : Request} {a : Answer} (h : ownLaneSet u r = some a)
    (hu : Placed (places u)) : Placed (places a.state) := by
  unfold ownLaneSet at h
  split at h <;> cases h
  unfold setLaneSettings
  split
  · exact placed_setLanesByMask _ _ _ hu
  · exact hu

theorem placed_ownCountersRead {u : State} {r : Request} {a : Answer} (h : ownCountersRead u r = some a)
    (hu : Placed (places u)) : Placed (places a.state) := by
  unfold ownCountersRead at h
  split at h <;> cases h
  unfold readCounters
  split
  · exact hu
  · split
    · exact placed_clearGroup hu _
    · exact hu
    · exact hu

/-- Every step keeps every descriptor with its holder. -/
theorem step_placed : ∀ s t : State, Placed (places s) → step s = .next t → Placed (places t) := by
  have same {s t : State} (h : Agrees .gathering s t) (hs : Placed (places s)) : Placed (places t) := by
    rwa [places_of_agrees h]
  refine step_keeps_through_resets (P := fun s => Placed (places s)) [.gathering] (fun s t h => same (h _ (by simp)))
    (by simp) (fun s => same (agrees_linkDown (by simp) (by simp) (by simp) s))
    (fun s _ => placed_of_defaults rfl rfl rfl) (fun s _ => placed_of_defaults rfl rfl rfl) ?_
  intro c s t hc hw h hs
  have all (u v : State) (huv : AgreesAll u v) : Placed (places u) → Placed (places v) := same (huv .gathering)
  cases c <;> simp [writes, mayReset] at hc hw
  case sync i r => exact whenRunning_keeps (P := fun s => Placed (places s)) (f := fun s => takeSync s i r.toNat) h (placed_takeSync hs i r.toNat) hs
  case byte i v g => exact kickTrunk_keeps (P := fun s => Placed (places s)) all (f := fun s => takeByte s i v g) h (placed_takeByte hs i v g) hs
  case drop i => exact whenRunning_keeps (P := fun s => Placed (places s)) (f := fun s => takeDrop s i) h (placed_takeDrop hs i) hs
  case gapExpiry i =>
    refine whenRunning_keeps (P := fun s => Placed (places s)) (f := fun s => if gapPassed s.lanes[i] s.timebase then expireGap s i else s) h ?_ hs
    split
    · exact placed_expireGap hs i
    · exact hs
  case decoderTake => exact whenRunning_keeps (P := fun s => Placed (places s)) h (placed_decoderTake hs) hs
  case pairingTakeFrame => exact whenRunning_keeps (P := fun s => Placed (places s)) h (placed_pairingTake hs) hs
  case laneSet k => exact serve_keeps (P := fun s => Placed (places s)) all (fun _ _ _ => placed_ownLaneSet) h hs
  case countersRead k => exact serve_keeps (P := fun s => Placed (places s)) all (fun _ _ _ => placed_ownCountersRead) h hs

/-- Settles O35: the queues by their places, the descriptors by their moves between holders; 128 numbers, each at most
once, are at most 128. -/
theorem queuesStayBounded : Obligations.QueuesStayBounded := by
  refine ⟨fun s t => step_queuesBounded, fun s t hs h => ?_, fun s hs => ?_⟩
  · rw [descriptorsPlaced_iff] at hs ⊢
    exact step_placed s t hs h
  · rw [descriptorsPlaced_iff] at hs
    calc s.pool.closeQueue.length ≤ Fintype.card (Fin 128) := hs.nodup.length_le_card
      _ = 128 := Fintype.card_fin 128

end Sys2Proof.Machine
end

