-- ==== Sys2Proof/Proofs/ResetValues.lean ====
section
/-! SUPPORT. The part right after a cold reset. Settles O3 and O37. -/

namespace Sys2Proof.Machine

theorem reset_lane (i : Fin 8) : State.reset.lanes[i] = {} := Vector.getElem_replicate i.isLt

theorem reset_descriptor (d : Fin 128) : State.reset.pool.descriptors[d] = {} := Vector.getElem_replicate d.isLt

theorem reset_family (i : Fin 16) : State.reset.families[i] = none := Vector.getElem_replicate i.isLt

theorem reset_service (i : Fin 16) : State.reset.services[i] = none := Vector.getElem_replicate i.isLt

theorem reset_eventEnabled (k : EventKind) : eventEnabled State.reset.events k = true := by cases k <;> rfl

/-- Settles O3: the tables place by place, every other field as it stands in `State.reset`. -/
theorem resetLeavesDefaults : Obligations.ResetLeavesDefaults := by
  refine ⟨reset_lane, fun d => ?_, rfl, rfl, fun i => ⟨reset_family i, reset_service i⟩, rfl, rfl, rfl, rfl, rfl, rfl,
    rfl, rfl, rfl, rfl, rfl, rfl, rfl, rfl, rfl, rfl, rfl, rfl, rfl, rfl, rfl, rfl, rfl, rfl, rfl, rfl,
    reset_eventEnabled, rfl, rfl, rfl, rfl⟩
  rw [reset_descriptor]

theorem reset_quotasFit : QuotasFit State.reset := ⟨by decide, by decide⟩

theorem reset_queuesBounded : QueuesBounded State.reset :=
  (queuesBounded_iff _).2 ⟨⟨Nat.zero_le _, Nat.zero_le _, Nat.zero_le _⟩, ⟨Nat.zero_le _, Nat.zero_le _⟩,
    ⟨Nat.zero_le _, Nat.zero_le _⟩⟩

theorem reset_recordsOrdered : RecordsOrdered State.reset :=
  ⟨List.Pairwise.nil, fun _ h => absurd h List.not_mem_nil, fun _ _ => rfl⟩

theorem reset_batchesAccounted : BatchesAccounted State.reset :=
  ⟨by decide, by decide, fun _ => rfl, List.Pairwise.nil, fun _ h => absurd h List.not_mem_nil,
    fun _ h => absurd h List.not_mem_nil⟩

theorem reset_segmentsCounted : SegmentsCounted State.reset :=
  ⟨List.Pairwise.nil, fun _ h => absurd h List.not_mem_nil,
    fun _ => ⟨fun _ h => absurd h List.not_mem_nil, fun _ h => absurd h List.not_mem_nil⟩⟩

theorem reset_settled : Settled State.reset := ⟨nofun, nofun⟩

/-- Settles O37: each invariant speaks of queues and tables that are empty at reset, the quotas being R139's. -/
theorem invariantsHoldAtReset : Obligations.InvariantsHoldAtReset :=
  ⟨rfl, ⟨by decide, by decide, List.Pairwise.nil⟩, reset_quotasFit, reset_queuesBounded,
    (descriptorsPlaced_iff _).2 (placed_of_defaults rfl rfl rfl), ⟨by decide, by decide⟩, reset_recordsOrdered,
    reset_batchesAccounted, reset_segmentsCounted, reset_settled⟩

end Sys2Proof.Machine
end

