-- ==== Sys2Proof/Proofs/LaneSteps.lean ====
section
/-! SUPPORT. The lane port (R1 to R15): SYNC, BYTE, DROP and the gap expiry in each lane state. Settles O4, O5, O6 and
O7. -/

namespace Sys2Proof.Machine

/-! ## The commands while the part runs -/

section
variable {s : State} (hrun : Running s) (i : Fin 8)
include hrun

theorem exec_sync_of_running (rssi : Byte) : exec (.sync i rssi) s = .next (takeSync s i rssi.toNat) :=
  whenRunning_of_running hrun (fun s => takeSync s i rssi.toNat)

theorem exec_byte_of_running (b : Byte) (good : Bool) :
    exec (.byte i b good) s = .next (kickTrunk (takeByte s i b good)) :=
  whenRunning_of_running hrun (fun s => kickTrunk (takeByte s i b good))

theorem exec_drop_of_running : exec (.drop i) s = .next (takeDrop s i) :=
  whenRunning_of_running hrun (fun s => takeDrop s i)

theorem exec_gapExpiry_of_running :
    exec (.gapExpiry i) s = .next (if gapPassed s.lanes[i] s.timebase then expireGap s i else s) :=
  whenRunning_of_running hrun (fun s => if gapPassed s.lanes[i] s.timebase then expireGap s i else s)

/-- A BYTE after which the transmitters have nothing new to choose. -/
theorem exec_byte_of_settled {b : Byte} {good : Bool} {t : State} (h : takeByte s i b good = t) (ht : Settled t) :
    exec (.byte i b good) s = .next t := by
  rw [exec_byte_of_running hrun, h, kickTrunk_of_settled ht]

end

/-- `Settled` reads nothing of the lanes and the pool. -/
theorem settled_of_gathering {s : State} (h : Settled s) (la : Vector Lane 8) (po : Pool) :
    Settled { s with lanes := la, pool := po } := h

/-! ## Equations of one lane -/

theorem expireGap_eq_takeDrop (s : State) (i : Fin 8) : expireGap s i = takeDrop s i := by
  unfold expireGap takeDrop
  cases s.lanes[i].state <;> rfl

theorem gapPassed_of_le {l : Lane} {m now : Nat} (h : l.gapDeadline = some m) (hle : m ≤ now) :
    gapPassed l now = true := by
  simp [gapPassed, h, hle]

theorem gapPassed_of_lt {l : Lane} {now : Nat} (h : ∀ m, l.gapDeadline = some m → now < m) : gapPassed l now = false := by
  unfold gapPassed
  split
  · rename_i m hm
    exact decide_eq_false (Nat.not_le.2 (h m hm))
  · rfl

theorem setLane_setLane (s : State) (i : Fin 8) (l m : Lane) : (s.setLane i l).setLane i m = s.setLane i m := by
  simp [State.setLane, State.setLanes, Vector.set_set]

/-- A lane in BODY closes its descriptor, which joins the close-order queue (R14, R21). -/
theorem closeFrame_of_open {s : State} {i : Fin 8} {d : Fin 128} (h : s.lanes[i].openDescriptor = some d)
    (o : CloseOutcome) :
    closeFrame s i o = (s.setPool (closeDescriptor s.pool d o s.clock.value)).setLane i (afterClose s.lanes[i] o) := by
  unfold closeFrame
  simp only [h]

/-! ## OFF, FAULTED and HUNT -/

theorem takeSync_of_off {s : State} {i : Fin 8} (h : s.lanes[i].state = .off ∨ s.lanes[i].state = .faulted) (r : Nat) :
    takeSync s i r = s := by
  unfold takeSync
  obtain h | h := h <;> simp only [h]

theorem takeByte_of_deaf {s : State} {i : Fin 8}
    (h : s.lanes[i].state = .off ∨ s.lanes[i].state = .faulted ∨ s.lanes[i].state = .hunt) (b : Byte) (good : Bool) :
    takeByte s i b good = s := by
  unfold takeByte
  obtain h | h | h := h <;> simp only [h]

theorem takeDrop_of_deaf {s : State} {i : Fin 8}
    (h : s.lanes[i].state = .off ∨ s.lanes[i].state = .faulted ∨ s.lanes[i].state = .hunt) : takeDrop s i = s := by
  unfold takeDrop
  obtain h | h | h := h <;> simp only [h]

theorem takeDrop_of_length {s : State} {i : Fin 8} (h : s.lanes[i].state = .length) :
    takeDrop s i = s.setLane i (toHunt s.lanes[i]) := by
  unfold takeDrop
  simp only [h]

theorem takeDrop_of_body {s : State} {i : Fin 8} (h : s.lanes[i].state = .body) :
    takeDrop s i = closeFrame s i .short := by
  unfold takeDrop
  simp only [h]

/-- Settles O4: DROP and a due gap expiry have one effect, state by state. -/
theorem offAndFaultedLanesIgnoreTheirPortAndDropEndsTheFrame :
    Obligations.OffAndFaultedLanesIgnoreTheirPortAndDropEndsTheFrame := by
  refine ⟨fun s i hrun hset h => ?_, fun s i hrun hset h => ?_, fun s i hrun h => ?_, fun s i c hrun hc => ?_⟩
  · have deaf : s.lanes[i].state = .off ∨ s.lanes[i].state = .faulted ∨ s.lanes[i].state = .hunt := by
      rw [← or_assoc]
      exact .inl h
    refine ⟨fun rssi => ?_, fun b good => exec_byte_of_settled hrun i (takeByte_of_deaf deaf b good) hset, ?_⟩
    · rw [exec_sync_of_running hrun, takeSync_of_off h]
    · rw [exec_drop_of_running hrun, takeDrop_of_deaf deaf]
  · refine ⟨fun b good => exec_byte_of_settled hrun i (takeByte_of_deaf (.inr (.inr h)) b good) hset, ?_⟩
    rw [exec_drop_of_running hrun, takeDrop_of_deaf (.inr (.inr h))]
  · rw [exec_gapExpiry_of_running hrun, gapPassed_of_lt h]
    rfl
  · have dropped : exec c s = .next (takeDrop s i) := by
      obtain rfl | ⟨rfl, m, hm, hle⟩ := hc
      · exact exec_drop_of_running hrun i
      · rw [exec_gapExpiry_of_running hrun, if_pos (gapPassed_of_le hm hle), expireGap_eq_takeDrop]
    refine ⟨fun h => ?_, fun d h hd => ?_⟩
    · rw [dropped, takeDrop_of_length h]
      rfl
    · rw [dropped, takeDrop_of_body h, closeFrame_of_open hd]
      rfl

/-! ## SYNC -/

/-- Settles O5: the SYNC is judged on the lane as it stands, or as closing its frame leaves it. -/
theorem syncIsJudgedUnderSettledSettings : Obligations.SyncIsJudgedUnderSettledSettings := by
  intro s i rssi hrun
  refine ⟨fun h => ?_, fun d h hd => ?_⟩
  · have judged : takeSync s i rssi.toNat = s.setLane i (judgeSync s.lanes[i] rssi.toNat s.clock.value s.timebase) := by
      unfold takeSync
      obtain h | h := h <;> simp only [h]
    rw [exec_sync_of_running hrun, judged]
    rfl
  · have judged : takeSync s i rssi.toNat = (s.setPool (closeDescriptor s.pool d .superseded s.clock.value)).setLane i
        (judgeSync (afterClose s.lanes[i] .superseded) rssi.toNat s.clock.value s.timebase) := by
      unfold takeSync
      simp only [h, closeFrame_lane]
      rw [closeFrame_of_open hd, setLane_setLane]
    rw [exec_sync_of_running hrun, judged]
    rfl

/-! ## The length byte -/

theorem lowestFreeDescriptor_of_none {p : Pool} (h : ∀ d : Fin 128, p.descriptors[d].state ≠ .free) :
    lowestFreeDescriptor p = none := by
  refine List.find?_eq_none.2 fun d _ => ?_
  simpa using h d

theorem lowestFreeDescriptor_of_first {p : Pool} {d : Fin 128} (hd : p.descriptors[d].state = .free)
    (hfirst : ∀ e < d, p.descriptors[e].state ≠ .free) : lowestFreeDescriptor p = some d := by
  refine List.find?_eq_some_iff_getElem.2 ⟨by simpa using hd, d.val, by simp, by simp, fun j hj => ?_⟩
  simpa using hfirst ⟨j, hj.trans d.isLt⟩ hj

theorem descriptorCount_eq_zero_iff (p : Pool) (x : DescriptorState) :
    descriptorCount p x = 0 ↔ ∀ d : Fin 128, p.descriptors[d].state ≠ x := by
  unfold descriptorCount
  rw [List.countP_eq_zero]
  constructor
  · intro h d
    simpa using h p.descriptors[d] (by simp)
  · intro h a ha
    obtain ⟨k, hk, rfl⟩ := List.getElem_of_mem ha
    simpa using h ⟨k, by simpa using hk⟩

/-- Replacing a descriptor that is in neither case counted leaves the count. -/
theorem countP_set_descriptor {v : Vector Descriptor 128} {d : Fin 128} {x : Descriptor} {st : DescriptorState}
    (hold : v[d].state ≠ st) (hnew : x.state ≠ st) :
    (v.set d x).toList.countP (fun y => decide (y.state = st)) = v.toList.countP (fun y => decide (y.state = st)) := by
  rw [Vector.toList_set, List.countP_set (by simp)]
  have old : decide ((v.toList[d.val]'(by simp)).state = st) = false := by simpa using hold
  rw [old, decide_eq_false hnew]
  rfl

/-- The lane that starts a message, and the pool that gives it a descriptor (R7, R20). -/
def messageStarted (s : State) (i : Fin 8) (d : Fin 128) (length : Nat) : State :=
  (s.setDescriptor d
    { state := .opened, lane := i, syncTag := s.lanes[i].syncTag, rssi := s.lanes[i].syncRssi, length := length,
      content := [], crc := [], outcome := none, closeTag := none }).setLane i
    { s.lanes[i] with
      state := .body, openDescriptor := some d, frameLength := some length, bytesReceived := 0,
      gapDeadline := some (s.timebase + s.lanes[i].gapLimit) }

theorem messageStarted_free_iff (s : State) (i : Fin 8) (d : Fin 128) (length : Nat) :
    descriptorCount (messageStarted s i d length).pool .free = 0
      ↔ ∀ e : Fin 128, e ≠ d → s.pool.descriptors[e].state ≠ .free := by
  have at_ (e : Fin 128) : (messageStarted s i d length).pool.descriptors[e].state
      = if e = d then .opened else s.pool.descriptors[e].state := by
    refine (congrArg (·.state) (setDescriptor_descriptors s d e _)).trans ?_
    split <;> rfl
  rw [descriptorCount_eq_zero_iff]
  refine forall_congr' fun e => ?_
  rw [at_]
  by_cases he : e = d <;> simp [he]

/-- SOM without CAPTURE_FULL (R7, R20, R22). -/
theorem giveDescriptor_of_room {s : State} {i : Fin 8} {d : Fin 128} {length : Nat}
    (h : s.pool.fullArmed = false ∨ ∃ e, e ≠ d ∧ s.pool.descriptors[e].state = .free) :
    giveDescriptor s i d length = messageStarted s i d length := by
  have : (s.pool.fullArmed && decide (descriptorCount (messageStarted s i d length).pool .free = 0)) = false := by
    obtain h | ⟨e, he, hfree⟩ := h
    · rw [h, Bool.false_and]
    · have : ¬ descriptorCount (messageStarted s i d length).pool .free = 0 := fun hc =>
        (messageStarted_free_iff s i d length).1 hc e he hfree
      rw [decide_eq_false this, Bool.and_false]
  exact if_neg (Bool.eq_false_iff.1 this)

/-- SOM with the last FREE descriptor and the flag armed (R22). -/
theorem giveDescriptor_of_last {s : State} {i : Fin 8} {d : Fin 128} {length : Nat} (harmed : s.pool.fullArmed = true)
    (hlast : ∀ e, e ≠ d → s.pool.descriptors[e].state ≠ .free) :
    giveDescriptor s i d length =
      raiseEvent ((messageStarted s i d length).setPool { (messageStarted s i d length).pool with fullArmed := false })
        .captureFull (descriptorCount (messageStarted s i d length).pool .closed) i.val := by
  have : (s.pool.fullArmed && decide (descriptorCount (messageStarted s i d length).pool .free = 0)) = true := by
    rw [harmed, decide_eq_true ((messageStarted_free_iff s i d length).2 hlast)]
    rfl
  exact if_pos this

theorem takeByte_of_length {s : State} {i : Fin 8} (h : s.lanes[i].state = .length) (b : Byte) (good : Bool) :
    takeByte s i b good = takeLengthByte s i b good := by
  unfold takeByte
  simp only [h]

/-- Settles O6: the byte's judging, then whether a descriptor is FREE, then whether it was the last. -/
theorem lengthByteStartsMessage : Obligations.LengthByteStartsMessage := by
  intro s i b good hrun hset hlen
  refine ⟨fun hbad => ?_, fun hgood hmin hmax => ⟨fun hnone => ?_, fun d hfree hfirst => ⟨fun hroom => ?_, ?_⟩⟩⟩
  · refine exec_byte_of_settled hrun i ?_ (settled_of_gathering hset _ s.pool)
    rw [takeByte_of_length hlen]
    refine if_neg ?_
    simp only [Bool.and_eq_true, decide_eq_true_eq, not_and]
    intro ⟨hg, h10⟩ hle
    obtain h | h | h := hbad
    · rw [hg] at h
      cases h
    · omega
    · omega
  all_goals
    have started : takeByte s i b good = startMessage s i b.toNat := by
      rw [takeByte_of_length hlen]
      exact if_pos (by rw [hgood, decide_eq_true hmin, decide_eq_true hmax]; rfl)
  · refine exec_byte_of_settled hrun i ?_ (settled_of_gathering hset _ s.pool)
    rw [started, startMessage, lowestFreeDescriptor_of_none hnone]
    rfl
  · refine exec_byte_of_settled hrun i ?_ (settled_of_gathering hset _ _)
    rw [started, startMessage, lowestFreeDescriptor_of_first hfree hfirst]
    exact giveDescriptor_of_room hroom
  · intro harmed hlast
    have closed : descriptorCount (messageStarted s i d b.toNat).pool .closed
        = s.pool.descriptors.toList.countP (fun x => decide (x.state = .closed)) :=
      countP_set_descriptor (by rw [hfree]; decide) nofun
    rw [exec_byte_of_running hrun, started, startMessage, lowestFreeDescriptor_of_first hfree hfirst]
    simp only
    rw [giveDescriptor_of_last harmed hlast, closed]
    rfl

/-! ## The body -/

theorem takeByte_of_body_good {s : State} {i : Fin 8} (h : s.lanes[i].state = .body) (b : Byte) :
    takeByte s i b true = takeBodyByte s i b := by
  unfold takeByte
  simp only [h, if_true]

theorem takeByte_of_body_bad {s : State} {i : Fin 8} (h : s.lanes[i].state = .body) (b : Byte) :
    takeByte s i b false = takePortError s i := by
  unfold takeByte
  simp only [h, Bool.false_eq_true, if_false]

/-- The lane after a body byte (R9). -/
def byteReceived (s : State) (i : Fin 8) : Lane :=
  { s.lanes[i] with
    bytesReceived := s.lanes[i].bytesReceived + 1, gapDeadline := some (s.timebase + s.lanes[i].gapLimit) }

/-- A body byte as its descriptor has taken it (R9). -/
def byteStored (s : State) (i : Fin 8) (d : Fin 128) (x : Descriptor) : State :=
  (s.setLane i (byteReceived s i)).setDescriptor d x

theorem takeBodyByte_of_open {s : State} {i : Fin 8} {d : Fin 128} {n : Nat} (hd : s.lanes[i].openDescriptor = some d)
    (hn : s.lanes[i].frameLength = some n) (b : Byte) :
    takeBodyByte s i b =
      let x := storeByte s.pool.descriptors[d] s.lanes[i].bytesReceived n b
      if s.lanes[i].bytesReceived + 1 = n + 2 then
        (if frameCrcGood x then closeGood (byteStored s i d x) i else closeFrame (byteStored s i d x) i .badCrc)
      else byteStored s i d x := by
  have hlen : s.lanes[i].frameLength.getD 0 = n := by rw [hn, Option.getD_some]
  unfold takeBodyByte
  simp only
  split
  · rename_i h
    rw [hd] at h
    cases h
  · rename_i h
    rw [hd] at h
    cases h
    rw [hlen]
    rfl

theorem byteStored_lane (s : State) (i : Fin 8) (d : Fin 128) (x : Descriptor) :
    (byteStored s i d x).lanes[i] = byteReceived s i := setLane_self s i _

theorem setDescriptor_set (s : State) (d : Fin 128) (x : Descriptor) :
    (s.setDescriptor d x).pool.descriptors[d] = x := by
  rw [setDescriptor_descriptors, if_pos rfl]

/-- The frame of a body byte closes: the descriptor with the byte in it becomes CLOSED (R9, R14, R21). -/
theorem closeFrame_byteStored {s : State} {i : Fin 8} {d : Fin 128} (hd : s.lanes[i].openDescriptor = some d)
    (x : Descriptor) (o : CloseOutcome) :
    closeFrame (byteStored s i d x) i o =
      { s with
        lanes := s.lanes.set i (afterClose (byteReceived s i) o)
        pool := { s.pool with
          descriptors := s.pool.descriptors.set d
            { x with state := .closed, outcome := some o, closeTag := some s.clock.value }
          closeQueue := s.pool.closeQueue ++ [d] } } := by
  have hopen : (byteStored s i d x).lanes[i].openDescriptor = some d := by
    rw [byteStored_lane]
    exact hd
  have held : (byteStored s i d x).pool.descriptors[d] = x := setDescriptor_set _ d x
  rw [closeFrame_of_open hopen, byteStored_lane, closeDescriptor, held]
  simp [byteStored, State.setDescriptor, State.setLane, State.setLanes, State.setPool, Vector.set_set]

theorem closeGood_byteStored {s : State} {i : Fin 8} {d : Fin 128} (hd : s.lanes[i].openDescriptor = some d)
    (x : Descriptor) :
    closeGood (byteStored s i d x) i =
      { s with
        lanes := s.lanes.set i { afterClose (byteReceived s i) .good with streak := 0 }
        pool := { s.pool with
          descriptors := s.pool.descriptors.set d
            { x with state := .closed, outcome := some .good, closeTag := some s.clock.value }
          closeQueue := s.pool.closeQueue ++ [d] } } := by
  unfold closeGood
  simp only [closeFrame_lane]
  rw [closeFrame_byteStored hd, byteStored_lane]
  simp [State.setLane, State.setLanes, Vector.set_set]

theorem takePortError_of_open {s : State} {i : Fin 8} {d : Fin 128} (hd : s.lanes[i].openDescriptor = some d) :
    takePortError s i =
      let t := s.setPool (closeDescriptor s.pool d .portError s.clock.value)
      let l := afterClose s.lanes[i] .portError
      if s.lanes[i].streak + 1 < 32 then t.setLane i { l with streak := s.lanes[i].streak + 1 }
      else raiseFault (t.setLane i { l with streak := 32, state := .faulted }) .laneFaulted i.val := by
  unfold takePortError
  simp only [closeFrame_lane]
  rw [closeFrame_of_open hd]
  simp only [setLane_setLane]
  rfl

/-- The CRC register after the first `k` bits of a byte, the highest bit first (R10). -/
def crcAfter (reg : BitVec 16) (b : Byte) (k : Nat) : BitVec 16 :=
  ([7, 6, 5, 4, 3, 2, 1, 0].take k).foldl (fun r j => crcBit r (b.getLsbD j)) reg

theorem crcAfter_succ (reg : BitVec 16) (b : Byte) {k : Nat} (hk : k < 8) :
    crcAfter reg b (k + 1) = crcBit (crcAfter reg b k) (b.getLsbD (7 - k)) := by
  interval_cases k <;> rfl

theorem crcBit_eq (reg : BitVec 16) (bit : Bool) :
    crcBit reg bit = if bit = reg.getLsbD 15 then reg <<< 1 else (reg <<< 1) ^^^ 0x1021 := by
  unfold crcBit
  rw [BitVec.msb_eq_getLsbD_last]
  cases bit <;> cases reg.getLsbD (16 - 1) <;> rfl

/-- Settles O7: the byte stored, then EOM and the CRC; the port error by its streak; the CRC bit by bit. -/
theorem bodyBytesAreStoredAndTheFrameJudged : Obligations.BodyBytesAreStoredAndTheFrameJudged := by
  refine ⟨fun s i b d n hrun hset hbody hd hn => ?_,
    fun s i b d hrun hset hbody hd hstreak => ⟨fun hlow => ?_, fun hlast => ?_⟩, rfl, fun bytes b => ?_⟩
  · intro l x y closed
    have stored : storeByte s.pool.descriptors[d] s.lanes[i].bytesReceived n b = y := rfl
    have received : takeByte s i b true = if l.bytesReceived + 1 = n + 2 then
        (if frameCrcGood y then closeGood (byteStored s i d y) i else closeFrame (byteStored s i d y) i .badCrc)
        else byteStored s i d y := by
      rw [takeByte_of_body_good hbody, takeBodyByte_of_open hd hn, stored]
    have verdict : decide (y.crc = bigEndian 2 (crc16 (BitVec.ofNat 8 x.length :: y.content)).toNat)
        = frameCrcGood y := by
      have length_kept : y.length = x.length := by
        simp only [y]
        split <;> rfl
      rw [← length_kept]
      exact decide_eq_decide.2 eq_comm
    refine ⟨fun hmore => ?_, fun hend => ?_⟩
    · exact exec_byte_of_settled hrun i (received.trans (if_neg hmore)) (settled_of_gathering hset _ _)
    · refine exec_byte_of_settled hrun i ?_ (settled_of_gathering hset _ _)
      rw [received, if_pos hend, verdict]
      cases frameCrcGood y
      · exact closeFrame_byteStored hd y .badCrc
      · exact closeGood_byteStored hd y
  · refine exec_byte_of_settled hrun i ?_ (settled_of_gathering hset _ _)
    rw [takeByte_of_body_bad hbody, takePortError_of_open hd]
    exact if_pos (by omega)
  · rw [exec_byte_of_running hrun, takeByte_of_body_bad hbody, takePortError_of_open hd]
    simp only
    rw [if_neg (by omega), hlast]
    rfl
  · refine ⟨crcAfter (crc16 bytes) b, rfl, ?_, fun k hk => ?_⟩
    · rw [crc16, List.foldl_append]
      rfl
    · rw [crcAfter_succ _ _ hk, crcBit_eq]

end Sys2Proof.Machine
end

