-- ==== Sys2Proof/Proofs/LaneSettingsRequest.lean ====
section
/-! SUPPORT. LANE_SET (R16, R17): the lanes of the mask in lane order, and one selected lane state by state. Settles
O8. -/

namespace Sys2Proof.Machine

/-! ## The lanes of the mask -/

/-- One lane of LANE_SET, as it acts and reports in one byte. -/
def laneTurn (n : LaneSettings) (mask : Nat) (acc : State × List Byte) (i : Fin 8) : State × List Byte :=
  if mask.testBit i.val then
    ((setOneLane acc.1 i n).1, acc.2 ++ [BitVec.ofNat 8 (laneResultCode (setOneLane acc.1 i n).2)])
  else (acc.1, acc.2 ++ [0])

/-- Going through the lanes with the results in one byte each is `setLanesByMask` with its results coded. -/
theorem foldl_laneTurn (n : LaneSettings) (mask : Nat) (is : List (Fin 8)) (s : State) (bytes : List Byte) :
    is.foldl (laneTurn n mask) (s, bytes) =
      ((setLanesByMask n mask is s).1,
        bytes ++ (setLanesByMask n mask is s).2.flatMap (fun r => bigEndian 1 (laneResultCode r))) := by
  induction is generalizing s bytes with
  | nil => simp [setLanesByMask]
  | cons i rest ih =>
    rw [List.foldl_cons, setLanesByMask]
    by_cases h : mask.testBit i.val = true
    · rw [laneTurn, if_pos h, if_pos h, ih]
      simp [bigEndian_one]
    · rw [laneTurn, if_neg h, if_neg h, ih]
      simp [bigEndian_one, laneResultCode]

theorem setLaneSettings_of_range {s : State} {mask enable least length gap : Nat}
    (h : enable ≤ 1 ∧ 10 ≤ length ∧ length ≤ 60 ∧ 1 ≤ gap ∧ gap ≤ 20) :
    setLaneSettings s mask enable least length gap =
      let out := (List.finRange 8).foldl (laneTurn
        { enable := decide (enable = 1), minRssi := least, maxLength := length, gapLimit := gap } mask) (s, [])
      acceptWith out.1 out.2 := by
  rw [foldl_laneTurn, setLaneSettings, if_pos h]
  rfl

theorem setLaneSettings_out_of_range {s : State} {mask enable least length gap : Nat}
    (h : ¬ (enable ≤ 1 ∧ 10 ≤ length ∧ length ≤ 60 ∧ 1 ≤ gap ∧ gap ≤ 20)) :
    setLaneSettings s mask enable least length gap = refuse s .badArgument := if_neg h

/-! ## One selected lane -/

theorem settingsEqual_iff (l : Lane) (n : LaneSettings) :
    settingsEqual l n = true ↔ n.enable = l.enable ∧ n.minRssi = l.pendingMinRssi.getD l.minRssi
      ∧ n.maxLength = l.pendingMaxLength.getD l.maxLength ∧ n.gapLimit = l.gapLimit := by
  simp [settingsEqual, and_assoc]

section
variable {s : State} {i : Fin 8} {n : LaneSettings}

/-- A lane whose settings stand already (R17). -/
theorem setOneLane_of_equal (he : settingsEqual s.lanes[i] n = true)
    (h : s.lanes[i].state = .off ∧ n.enable = false
      ∨ n.enable = true ∧ (s.lanes[i].state = .hunt ∨ s.lanes[i].state = .length ∨ s.lanes[i].state = .body)) :
    setOneLane s i n = (s, .unchanged) := by
  unfold setOneLane
  obtain ⟨hs, hn⟩ | ⟨hn, hs | hs | hs⟩ := h <;> simp only [hs, hn, he, if_true]

theorem setOneLane_of_off_disabled (hs : s.lanes[i].state = .off) (hn : n.enable = false)
    (hne : settingsEqual s.lanes[i] n = false) :
    setOneLane s i n = (s.setLane i (applySettings s.lanes[i] n .off), .applied) := by
  unfold setOneLane
  simp only [hs, hn, hne, Bool.false_eq_true, if_false]

theorem setOneLane_of_off_enabled (hs : s.lanes[i].state = .off) (hn : n.enable = true) :
    setOneLane s i n = (s.setLane i (applySettings s.lanes[i] n .hunt), .applied) := by
  unfold setOneLane
  simp only [hs, hn]

theorem setOneLane_of_hunt_enabled (hs : s.lanes[i].state = .hunt) (hn : n.enable = true)
    (hne : settingsEqual s.lanes[i] n = false) :
    setOneLane s i n = (s.setLane i (applySettings s.lanes[i] n .hunt), .applied) := by
  unfold setOneLane
  simp only [hs, hn, hne, Bool.false_eq_true, if_false]

theorem setOneLane_of_hunt_disabled (hs : s.lanes[i].state = .hunt) (hn : n.enable = false) :
    setOneLane s i n = (s.setLane i (applySettings s.lanes[i] n .off), .applied) := by
  unfold setOneLane
  simp only [hs, hn]

theorem setOneLane_of_faulted_enabled (hs : s.lanes[i].state = .faulted) (hn : n.enable = true) :
    setOneLane s i n = (s.setLane i { applySettings s.lanes[i] n .hunt with streak := 0 }, .rearmed) := by
  unfold setOneLane
  simp only [hs, hn]

theorem setOneLane_of_faulted_disabled (hs : s.lanes[i].state = .faulted) (hn : n.enable = false) :
    setOneLane s i n = (s.setLane i { applySettings s.lanes[i] n .off with streak := 0 }, .applied) := by
  unfold setOneLane
  simp only [hs, hn]

end

/-- A lane in the middle of a frame takes new settings (R17). -/
theorem setOneLane_of_frame {s : State} {i : Fin 8} {n : LaneSettings}
    (hs : s.lanes[i].state = .length ∨ s.lanes[i].state = .body) (hn : n.enable = true)
    (hne : settingsEqual s.lanes[i] n = false) :
    setOneLane s i n =
      (if gapPassed (applyNextFrame s.lanes[i] n) s.timebase then expireGap (s.setLane i (applyNextFrame s.lanes[i] n)) i
        else s.setLane i (applyNextFrame s.lanes[i] n), .appliedNextFrame) := by
  have passed : gapPassed (s.setLane i (applyNextFrame s.lanes[i] n)).lanes[i] s.timebase
      = gapPassed (applyNextFrame s.lanes[i] n) s.timebase := by rw [setLane_self]
  unfold setOneLane
  obtain hs | hs := hs <;> simp only [hs, hn, hne, Bool.false_eq_true, if_false] <;> rw [← passed] <;> rfl

/-- A disabled lane in the middle of a frame gives the frame up (R17). -/
theorem setOneLane_of_abort {s : State} {i : Fin 8} {n : LaneSettings}
    (hs : s.lanes[i].state = .length ∨ s.lanes[i].state = .body) (hn : n.enable = false) :
    setOneLane s i n = (abortFrame s i n, .frameAborted) := by
  unfold setOneLane
  obtain hs | hs := hs <;> simp only [hs, hn]

theorem applyNextFrame_deadline {l : Lane} {n : LaneSettings} {m : Nat} (h : l.gapDeadline = some m) :
    (applyNextFrame l n).gapDeadline = some (m - l.gapLimit + n.gapLimit) := by
  rw [applyNextFrame, h]
  rfl

theorem expireGap_setLane_of_length {s : State} {i : Fin 8} {l : Lane} (h : l.state = .length) :
    expireGap (s.setLane i l) i = s.setLane i (toHunt l) := by
  have h' : (s.setLane i l).lanes[i].state = .length := by rw [setLane_self, h]
  rw [expireGap_eq_takeDrop, takeDrop_of_length h', setLane_self, setLane_setLane]

theorem expireGap_setLane_of_body {s : State} {i : Fin 8} {l : Lane} {d : Fin 128} (h : l.state = .body)
    (hd : l.openDescriptor = some d) :
    expireGap (s.setLane i l) i =
      (s.setPool (closeDescriptor s.pool d .short s.clock.value)).setLane i (afterClose l .short) := by
  have h' : (s.setLane i l).lanes[i].state = .body := by rw [setLane_self, h]
  have hd' : (s.setLane i l).lanes[i].openDescriptor = some d := by rw [setLane_self, hd]
  rw [expireGap_eq_takeDrop, takeDrop_of_body h', closeFrame_of_open hd', setLane_self]
  exact setLane_setLane (s.setPool (closeDescriptor s.pool d .short s.clock.value)) i l _

theorem abortFrame_of_length {s : State} {i : Fin 8} {n : LaneSettings} (h : s.lanes[i].state = .length) :
    abortFrame s i n = s.setLane i (applySettings (toHunt s.lanes[i]) n .off) := by
  unfold abortFrame
  rw [if_neg (by rw [h]; decide)]
  simp only [setLane_self, setLane_setLane]

theorem abortFrame_of_body {s : State} {i : Fin 8} {n : LaneSettings} {d : Fin 128} (h : s.lanes[i].state = .body)
    (hd : s.lanes[i].openDescriptor = some d) :
    abortFrame s i n = (s.setPool (closeDescriptor s.pool d .aborted s.clock.value)).setLane i
      (applySettings (afterClose s.lanes[i] .aborted) n .off) := by
  unfold abortFrame
  rw [if_pos h]
  simp only [closeFrame_lane]
  rw [closeFrame_of_open hd, setLane_setLane]

/-- Settles O8: the request by its ranges; one lane by its state, its settings and its moved deadline. -/
theorem laneSetActsOnTheLanesOfItsMaskByTheirStates : Obligations.LaneSetActsOnTheLanesOfItsMaskByTheirStates := by
  constructor
  · intro s k f rest mask enable least length gap ht u n out
    have answered : exec (.laneSet k) s = .next (replied k f (setLaneSettings u mask enable least length gap).status
        (setLaneSettings u mask enable least length gap).results
        (setLaneSettings u mask enable least length gap).state) := ht.serve (owner := ownLaneSet) rfl
    refine ⟨fun hbad => ?_, fun h1 h2 h3 h4 h5 => ?_⟩
    · rw [answered, setLaneSettings_out_of_range (by omega)]
      rfl
    · rw [answered, setLaneSettings_of_range ⟨h1, h2, h3, h4, h5⟩]
      rfl
  · intro s i n l equal current put
    have unequal (h : ¬ equal) : settingsEqual s.lanes[i] n = false := by
      rw [Bool.eq_false_iff, ne_eq, settingsEqual_iff]
      exact h
    refine ⟨fun he h => ?_, fun he hs hn => ?_, fun hs hn => ?_, fun he hs hn => ?_, fun hs hn => ?_,
      fun he hs hn m hm hlt => ?_, fun he hn m hm hle => ⟨fun hs => ?_, fun hs d hd => ?_⟩, fun hs hn => ?_,
      fun hs hn d hd => ?_, fun hs hn => ?_, fun hs hn => ?_⟩
    case refine_1 =>
      have he : settingsEqual s.lanes[i] n = true := (settingsEqual_iff l n).2 he
      obtain ⟨hs, hn⟩ | ⟨hn, hs | hs | hs⟩ := h <;> exact setOneLane_of_equal he (by simp_all [l])
    case refine_2 => exact setOneLane_of_off_disabled hs hn (unequal he)
    case refine_3 => exact setOneLane_of_off_enabled hs hn
    case refine_4 => exact setOneLane_of_hunt_enabled hs hn (unequal he)
    case refine_5 => exact setOneLane_of_hunt_disabled hs hn
    case refine_6 =>
      have moved : gapPassed (applyNextFrame s.lanes[i] n) s.timebase = false := by
        refine gapPassed_of_lt fun x hx => ?_
        rw [applyNextFrame_deadline hm] at hx
        cases hx
        exact hlt
      rw [setOneLane_of_frame hs hn (unequal he), moved, applyNextFrame, hm]
      rfl
    case refine_7 =>
      have hs : s.lanes[i].state = .length := hs
      have moved : gapPassed (applyNextFrame s.lanes[i] n) s.timebase = true :=
        gapPassed_of_le (applyNextFrame_deadline hm) hle
      rw [setOneLane_of_frame (.inl hs) hn (unequal he), moved, if_pos rfl,
        expireGap_setLane_of_length (l := applyNextFrame s.lanes[i] n) hs]
      rfl
    case refine_8 =>
      have hs : s.lanes[i].state = .body := hs
      have moved : gapPassed (applyNextFrame s.lanes[i] n) s.timebase = true :=
        gapPassed_of_le (applyNextFrame_deadline hm) hle
      rw [setOneLane_of_frame (.inr hs) hn (unequal he), moved, if_pos rfl,
        expireGap_setLane_of_body (l := applyNextFrame s.lanes[i] n) hs hd]
      rfl
    case refine_9 =>
      rw [setOneLane_of_abort (.inl hs) hn, abortFrame_of_length hs]
      simp [put, current, State.setLane, State.setLanes, applySettings, toHunt, l, hn]
    case refine_10 =>
      rw [setOneLane_of_abort (.inr hs) hn, abortFrame_of_body hs hd]
      rfl
    case refine_11 => exact setOneLane_of_faulted_enabled hs hn
    case refine_12 => exact setOneLane_of_faulted_disabled hs hn

end Sys2Proof.Machine
end

