-- ==== Sys2Proof/Proofs/DecoderSteps.lean ====
section
/-! SUPPORT. DECODER_TAKE (R23, R24, R28 to R35): what the decoder reads from a body, how it judges a GOOD descriptor, and
what it does with it. Settles O9. -/

namespace Sys2Proof.Machine

/-! ## Reading a body -/

theorem numberAt_one (bytes : List Byte) (o : Nat) : numberAt bytes o 1 = (bytes.getD o 0).toNat := by
  rw [numberAt_succ, numberAt_zero, Nat.zero_mul, Nat.zero_add, Nat.add_zero]

theorem numberAt_two (bytes : List Byte) (o : Nat) :
    numberAt bytes o 2 = (bytes.getD o 0).toNat * 256 + (bytes.getD (o + 1) 0).toNat := by
  rw [numberAt_succ, numberAt_one]

theorem fieldEnd_le_iff (offset : Option Nat) (width n : Nat) :
    fieldEnd offset width ≤ n ↔ ∀ o ∈ offset, o + width ≤ n := by
  cases offset <;> simp [fieldEnd]

theorem readingNeed_le_iff (p : Profile) (n : Nat) :
    readingNeed p ≤ n ↔ p.registerOffset + registerWidth p ≤ n ∧ (∀ o ∈ p.flagOffset, o + 1 ≤ n)
      ∧ (∀ o ∈ p.serviceOffset, o + 1 ≤ n) := by
  rw [readingNeed, max_le_iff, max_le_iff, fieldEnd_le_iff, fieldEnd_le_iff]

theorem extensionNeed_le_iff (p : Profile) (n : Nat) :
    extensionNeed p ≤ n ↔
      (p.mode = .extended → (∀ o ∈ p.extTamperOffset, o + 1 ≤ n) ∧ (∀ o ∈ p.extReverseOffset, o + 2 ≤ n)) := by
  unfold extensionNeed
  cases p.mode with
  | none => simp
  | extended => rw [max_le_iff, fieldEnd_le_iff, fieldEnd_le_iff, forall_prop_of_true rfl]

theorem getLsbD_setBit {w j k : Nat} (hk : k < w) (b : Bool) : (setBit w j b).getLsbD k = (b && decide (j = k)) := by
  unfold setBit
  cases b
  · simp
  · simp [hk, eq_comm]

theorem flagPresent_iff (position : Option Nat) (f : Byte) :
    flagPresent position f = true ↔ ∃ m, f.getLsbD m = true ∧ position = some m := by
  cases position <;> simp [flagPresent]

/-- A canonical flag is the bit that the map gives it in the flag byte (R31). -/
theorem readFlags_getLsbD (p : Profile) (body : List Byte) {k : Nat} (hk : k < 6) :
    (readFlags p body).getLsbD k = true ↔
      ∃ o m, p.flagOffset = some o ∧ (body.getD o 0).getLsbD m = true
        ∧ [p.flagMap.magnet, p.flagMap.tilt, p.flagMap.cover, p.flagMap.meterReverse, p.flagMap.leak,
            p.flagMap.lowbat][k]? = some (some m) := by
  unfold readFlags
  cases ho : p.flagOffset with
  | none => simp
  | some o =>
    simp only [BitVec.getLsbD_or, getLsbD_setBit hk, Option.some.injEq, exists_eq_left', exists_and_left]
    interval_cases k <;> simp [flagPresent_iff]

theorem readExtension_of_none {p : Profile} (h : p.mode = .none) (body : List Byte) : readExtension p body = none := by
  unfold readExtension
  simp only [h]

theorem readExtension_of_extended {p : Profile} {t r : Nat} (h : p.mode = .extended) (ht : p.extTamperOffset = some t)
    (hr : p.extReverseOffset = some r) (body : List Byte) :
    readExtension p body = some { tamperCount := numberAt body t 1, reverseVolume := numberAt body r 2 } := by
  unfold readExtension
  simp only [h, ht, hr]

theorem serviceCodeOf_iff (p : Profile) (body : List Byte) (n : Nat) :
    serviceCodeOf p body = some n ↔ ∃ o, p.serviceOffset = some o ∧ n = (body.getD o 0).toNat ∧ n ≠ 0 := by
  unfold serviceCodeOf
  cases p.serviceOffset with
  | none => simp
  | some o =>
    simp only [numberAt_one, Option.some.injEq, exists_eq_left']
    split
    · rename_i h
      simp only [reduceCtorEq, false_iff, not_and, not_not]
      rintro rfl
      exact h
    · rename_i h
      rw [Option.some_inj]
      exact ⟨fun e => ⟨e.symm, e ▸ h⟩, fun e => e.1.symm⟩

/-! ## The service table -/

theorem serviceOf_eq_none_iff (t : Vector (Option ServiceEntry) 16) (code : Nat) :
    serviceOf t code = none ↔ ∀ j : Fin 16, t[j].map (·.code) ≠ some code := by
  simp [serviceOf, List.find?_eq_none]

theorem serviceOf_eq_some_of_first {t : Vector (Option ServiceEntry) 16} {code : Nat} {i : Fin 16}
    (hat : t[i].map (·.code) = some code) (hfirst : ∀ j < i, t[j].map (·.code) ≠ some code) :
    serviceOf t code = some i := by
  refine List.find?_eq_some_iff_getElem.2 ⟨by simpa using hat, i.val, by simp, by simp, fun j hj => ?_⟩
  simpa using hfirst ⟨j, hj.trans i.isLt⟩ hj

theorem lookupService_of_unlisted {t : Vector (Option ServiceEntry) 16} {code : Nat}
    (h : ∀ j : Fin 16, t[j].map (·.code) ≠ some code) :
    lookupService t code = .inr ({ code := code, action := .note }, true) := by
  unfold lookupService
  rw [(serviceOf_eq_none_iff t code).2 h]

/-- What the entry of a listed code asks for (R35). -/
theorem lookupService_of_listed {t : Vector (Option ServiceEntry) 16} {code : Nat} {j : Fin 16} {e : ServiceEntry}
    (hj : t[j] = some e) (hcode : e.code = code) (hfirst : ∀ q < j, t[q].map (·.code) ≠ some code) :
    lookupService t code =
      match e.action with
      | .discard => .inl j
      | .note => .inr ({ code := code, action := .note }, false)
      | .weight => .inr ({ code := code, action := .weight e.weight }, false) := by
  unfold lookupService
  rw [serviceOf_eq_some_of_first (by rw [hj, Option.map_some, hcode]) hfirst]
  simp only [hj] <;> rfl

/-! ## Judging -/

section
variable {p : Profile} {services : Vector (Option ServiceEntry) 16} {head : FrameHead} {body : List Byte}

theorem judgeReading_of_bad_register (h : readRegister p body = none) :
    judgeReading p services head body = .fails .badRegister := by
  unfold judgeReading
  rw [h]

theorem judgeReading_of_no_code {v : Nat} (h : readRegister p body = some v) (hc : serviceCodeOf p body = none) :
    judgeReading p services head body =
      .offers { head := head, body := .reading { register := v, flags := readFlags p body, service := none } } false := by
  unfold judgeReading
  simp only [h, hc]

theorem judgeReading_of_discard {v n : Nat} {j : Fin 16} (h : readRegister p body = some v)
    (hc : serviceCodeOf p body = some n) (hl : lookupService services n = .inl j) :
    judgeReading p services head body = .discards j := by
  unfold judgeReading
  simp only [h, hc, hl]

theorem judgeReading_of_mark {v n : Nat} {m : ServiceMark} {unlisted : Bool} (h : readRegister p body = some v)
    (hc : serviceCodeOf p body = some n) (hl : lookupService services n = .inr (m, unlisted)) :
    judgeReading p services head body =
      .offers { head := head, body := .reading { register := v, flags := readFlags p body, service := some m } }
        unlisted := by
  unfold judgeReading
  simp only [h, hc, hl]

end

/-- The head of the frame that a descriptor holds for a family (R33). -/
def headOf (d : Descriptor) (i : Fin 16) (p : Profile) : FrameHead :=
  { meterId := numberAt d.content 1 4, familyIndex := i, familyCode := numberAt d.content 0 1, mode := p.mode,
    window := p.window, sequence := (d.content.getD 5 0).toNat / 16, closeTag := d.closeTag.getD 0, rssi := d.rssi,
    lane := d.lane }

section
variable {families : Vector (Option Profile) 16} {services : Vector (Option ServiceEntry) 16} {d : Descriptor}

theorem judgeDescriptor_of_bad_id (h : numberAt d.content 1 4 = 0 ∨ numberAt d.content 1 4 = 0xFFFFFFFF) :
    judgeDescriptor families services d = .fails .badId := if_pos h

theorem judgeDescriptor_of_unknown_family (h0 : numberAt d.content 1 4 ≠ 0) (h1 : numberAt d.content 1 4 ≠ 0xFFFFFFFF)
    (hf : ∀ i : Fin 16, families[i].map (·.familyCode) ≠ some (numberAt d.content 0 1)) :
    judgeDescriptor families services d = .fails .unknownFamily := by
  have hnone : familyOf families (numberAt d.content 0 1) = none := by
    rw [familyOf_eq_none_iff]
    exact hf
  unfold judgeDescriptor
  simp only
  rw [if_neg (not_or.2 ⟨h0, h1⟩), hnone]

variable (h0 : numberAt d.content 1 4 ≠ 0) (h1 : numberAt d.content 1 4 ≠ 0xFFFFFFFF) {i : Fin 16} {p : Profile}
  (hf : familyOf families (numberAt d.content 0 1) = some i) (hp : families[i] = some p)
include h0 h1 hf hp

theorem judgeDescriptor_of_other_kind (hk : 2 ≤ (d.content.getD 5 0).toNat % 4) :
    judgeDescriptor families services d = .fails .frameKind := by
  unfold judgeDescriptor
  simp only [if_neg (not_or.2 ⟨h0, h1⟩), hf, hp]
  split
  · omega
  · omega
  · rfl

theorem judgeDescriptor_of_reading (hk : (d.content.getD 5 0).toNat % 4 = 0) :
    judgeDescriptor families services d =
      if (d.content.drop 6).length < readingNeed p then .fails .shortBody
      else judgeReading p services (headOf d i p) (d.content.drop 6) := by
  unfold judgeDescriptor
  simp only [if_neg (not_or.2 ⟨h0, h1⟩), hf, hp, hk]
  rfl

theorem judgeDescriptor_of_extension (hk : (d.content.getD 5 0).toNat % 4 = 1) :
    judgeDescriptor families services d =
      if (d.content.drop 6).length < extensionNeed p then .fails .shortBody
      else .offers { head := headOf d i p, body := .extension (readExtension p (d.content.drop 6)) } false := by
  unfold judgeDescriptor
  simp only [if_neg (not_or.2 ⟨h0, h1⟩), hf, hp, hk]
  rfl

end

/-! ## Taking a descriptor -/

/-- The decoder has taken the head of the close-order queue (R23). -/
def descriptorTaken (s : State) (d : Fin 128) (rest : List (Fin 128)) : State :=
  (s.setPool { s.pool with closeQueue := rest }).setDescriptor d { s.pool.descriptors[d] with state := .decoding }

/-- Freeing a descriptor that has just been taken leaves no trace of its being taken. -/
theorem freeDescriptor_descriptorTaken (s : State) (d : Fin 128) (rest : List (Fin 128)) :
    freeDescriptor (descriptorTaken s d rest).pool d = freeDescriptor { s.pool with closeQueue := rest } d := by
  have held : (descriptorTaken s d rest).pool.descriptors[d] = { s.pool.descriptors[d] with state := .decoding } :=
    setDescriptor_set _ d _
  unfold freeDescriptor
  rw [held]
  simp only [descriptorTaken, State.setDescriptor, setPool_pool, Vector.set_set]

/-- The descriptor is judged as it was closed: the decoder's own state of it is not read. -/
theorem judge_descriptorTaken {s : State} {d : Fin 128} {rest : List (Fin 128)} {x : Judgement}
    (hj : judgeDescriptor s.families s.services s.pool.descriptors[d] = x) :
    judgeDescriptor (descriptorTaken s d rest).families (descriptorTaken s d rest).services
      (descriptorTaken s d rest).pool.descriptors[d] = x := by
  have held : (descriptorTaken s d rest).pool.descriptors[d] = { s.pool.descriptors[d] with state := .decoding } :=
    setDescriptor_set _ d _
  rw [held]
  exact hj

/-- The idle decoder goes by the outcome of the head of the close-order queue (R23). -/
theorem decoderTake_of_queue {s : State} {d : Fin 128} {rest : List (Fin 128)} (hidle : s.decoder.offer = none)
    (hq : s.pool.closeQueue = d :: rest) :
    decoderTake s =
      match s.pool.descriptors[d].outcome with
      | some .good => decodeGood (descriptorTaken s d rest) d
      | some o => ((descriptorTaken s d rest).setPool
          (freeDescriptor (descriptorTaken s d rest).pool d)).setDecoderCounters (countRaw s.decoder.counters o)
      | none => (descriptorTaken s d rest).setPool (freeDescriptor (descriptorTaken s d rest).pool d) := by
  unfold decoderTake
  simp only [hidle, hq]
  rfl

section
variable {s : State} {d : Fin 128} {rest : List (Fin 128)} (hrun : Running s) (hidle : s.decoder.offer = none)
  (hq : s.pool.closeQueue = d :: rest)
include hrun hidle hq

/-- A descriptor that is not GOOD is counted and freed (R23). -/
theorem exec_decoderTake_of_raw {o : CloseOutcome} (ho : s.pool.descriptors[d].outcome = some o) (hgood : o ≠ .good) :
    exec .decoderTake s = .next ((s.setPool (freeDescriptor { s.pool with closeQueue := rest } d)).setDecoderCounters
      (countRaw s.decoder.counters o)) := by
  have taken : decoderTake s = ((descriptorTaken s d rest).setPool
      (freeDescriptor (descriptorTaken s d rest).pool d)).setDecoderCounters (countRaw s.decoder.counters o) := by
    rw [decoderTake_of_queue hidle hq, ho]
    cases o <;> first | exact absurd rfl hgood | rfl
  rw [exec, execDecoderTake, whenRunning_of_running hrun, taken, freeDescriptor_descriptorTaken]
  rfl

variable (hgood : s.pool.descriptors[d].outcome = some .good)
include hgood

theorem exec_decoderTake_of_good : exec .decoderTake s = .next (decodeGood (descriptorTaken s d rest) d) := by
  have taken : decoderTake s = decodeGood (descriptorTaken s d rest) d := by
    rw [decoderTake_of_queue hidle hq, hgood]
  rw [exec, execDecoderTake, whenRunning_of_running hrun, taken]

theorem exec_decoderTake_of_fails {check : DecodeFailure}
    (hj : judgeDescriptor s.families s.services s.pool.descriptors[d] = .fails check) :
    exec .decoderTake s = .next { s with
      pool := freeDescriptor { s.pool with closeQueue := rest } d
      decoder := { s.decoder with counters := countFailure s.decoder.counters check } } := by
  rw [exec_decoderTake_of_good hrun hidle hq hgood, decodeGood, judge_descriptorTaken hj]
  simp only [freeDescriptor_descriptorTaken]
  rfl

theorem exec_decoderTake_of_discards {j : Fin 16}
    (hj : judgeDescriptor s.families s.services s.pool.descriptors[d] = .discards j) :
    exec .decoderTake s = .next { s with
      pool := freeDescriptor { s.pool with closeQueue := rest } d
      services := countDiscard s.services j
      decoder := { s.decoder with
        counters := { s.decoder.counters with decodedReading := bump s.decoder.counters.decodedReading } } } := by
  rw [exec_decoderTake_of_good hrun hidle hq hgood, decodeGood, judge_descriptorTaken hj]
  simp only [freeDescriptor_descriptorTaken]
  rfl

theorem exec_decoderTake_of_offers {f : DecodedFrame} {unlisted : Bool}
    (hj : judgeDescriptor s.families s.services s.pool.descriptors[d] = .offers f unlisted) :
    exec .decoderTake s = .next { s with
      pool := { s.pool with
        closeQueue := rest
        descriptors := s.pool.descriptors.set d { s.pool.descriptors[d] with state := .decoding } }
      decoder :=
        { offer := some { descriptor := d, frame := f }, counters := countOffer s.decoder.counters f unlisted } } := by
  rw [exec_decoderTake_of_good hrun hidle hq hgood, decodeGood, judge_descriptorTaken hj]
  rfl

end

theorem countDiscard_of_entry {t : Vector (Option ServiceEntry) 16} {j : Fin 16} {e : ServiceEntry} (h : t[j] = some e) :
    countDiscard t j = t.set j (some { e with discards := bump e.discards }) := by
  rw [countDiscard, h]
  rfl

/-- Settles O9: the outcome that is not GOOD, the judging of a GOOD one check by check, and the readers. -/
theorem decoderTakesAClosedDescriptor : Obligations.DecoderTakesAClosedDescriptor := by
  refine ⟨fun s d rest o hrun hidle hq ho hgood => ?raw, fun s d rest hrun hidle hq hgood => ?good,
    fun p body => ?readers⟩
  case raw =>
    rw [exec_decoderTake_of_raw hrun hidle hq ho hgood]
    cases o <;> first | exact absurd rfl hgood | rfl
  case readers =>
    refine ⟨fun n => readingNeed_le_iff p n, fun n => extensionNeed_le_iff p n, fun k hk => readFlags_getLsbD p body hk,
      fun h => readExtension_of_none h body, fun t r h ht hr => ?_, fun n => serviceCodeOf_iff p body n⟩
    rw [readExtension_of_extended h ht hr, numberAt_one, numberAt_two]
  case good =>
    intro x body code meter control c freed offered
    refine ⟨fun hid => exec_decoderTake_of_fails hrun hidle hq hgood (judgeDescriptor_of_bad_id hid),
      fun h0 h1 => ⟨fun hf => exec_decoderTake_of_fails hrun hidle hq hgood (judgeDescriptor_of_unknown_family h0 h1 hf),
        fun i p hp hcode hfirst => ?_⟩⟩
    have hf : familyOf s.families code = some i := familyOf_eq_some_of_first (by rw [hp, Option.map_some, hcode]) hfirst
    intro head
    refine ⟨fun hk => ?_, fun hk hshort => ?_, fun hk hshort => ?_, fun hk hlong => ?_, fun hk hlong => ?_⟩
    · exact exec_decoderTake_of_fails hrun hidle hq hgood (judgeDescriptor_of_other_kind h0 h1 hf hp hk)
    · exact exec_decoderTake_of_fails hrun hidle hq hgood
        ((judgeDescriptor_of_reading h0 h1 hf hp hk).trans (if_pos hshort))
    · exact exec_decoderTake_of_fails hrun hidle hq hgood
        ((judgeDescriptor_of_extension h0 h1 hf hp hk).trans (if_pos hshort))
    · exact exec_decoderTake_of_offers hrun hidle hq hgood
        ((judgeDescriptor_of_extension h0 h1 hf hp hk).trans (if_neg (Nat.not_lt.2 hlong)))
    · have judged : judgeDescriptor s.families s.services x = judgeReading p s.services (headOf x i p) body :=
        (judgeDescriptor_of_reading h0 h1 hf hp hk).trans (if_neg (Nat.not_lt.2 hlong))
      refine ⟨fun hr => ?_, fun v hr => ⟨fun hn => ?_, fun n hn hlist => ?_, fun n j e hn hj hcode hfirst => ?_⟩⟩
      · exact exec_decoderTake_of_fails hrun hidle hq hgood (judged.trans (judgeReading_of_bad_register hr))
      · exact exec_decoderTake_of_offers hrun hidle hq hgood (judged.trans (judgeReading_of_no_code hr hn))
      · exact exec_decoderTake_of_offers hrun hidle hq hgood
          (judged.trans (judgeReading_of_mark hr hn (lookupService_of_unlisted hlist)))
      · have looked := lookupService_of_listed hj hcode hfirst
        refine ⟨fun ha => ?_, fun ha => ?_, fun ha => ?_⟩ <;> rw [ha] at looked
        · rw [exec_decoderTake_of_discards hrun hidle hq hgood (judged.trans (judgeReading_of_discard hr hn looked)),
            countDiscard_of_entry hj]
        · exact exec_decoderTake_of_offers hrun hidle hq hgood (judged.trans (judgeReading_of_mark hr hn looked))
        · exact exec_decoderTake_of_offers hrun hidle hq hgood (judged.trans (judgeReading_of_mark hr hn looked))

end Sys2Proof.Machine
end

