-- ==== Sys2Proof/Proofs/MatcherSteps.lean ====
section
/-! SUPPORT. The matcher (R80 to R97): a hearing without a record, a first and a late one, a later one, and a foreign
meter. Settles O15, O16, O18 and O19. -/

namespace Sys2Proof.Machine

/-! ## Taking a hearing -/

theorem builderReady_of {s : State} (hheld : s.builder.held = []) (hlimit : s.builder.limitFlag = false) :
    builderReady s = true := by
  simp [builderReady, hheld, hlimit]

theorem exec_matcherTakeHearing {s : State} {h : Hearing} {rest : List Hearing} (hrun : Running s)
    (hhearings : s.pairing.hearings = h :: rest) (hheld : s.builder.held = []) (hlimit : s.builder.limitFlag = false) :
    exec .matcherTakeHearing s =
      .next (kickTrunk (hear (s.setPairing { s.pairing with hearings := rest }) h)) := by
  have takes : matcherTake s = hear (s.setPairing { s.pairing with hearings := rest }) h := by
    simp only [matcherTake, hhearings, builderReady_of hheld hlimit, if_true]
  rw [← takes]
  exact whenRunning_of_running hrun (fun s => kickTrunk (matcherTake s))

/-! ## The entry of a meter -/

section
variable {s : State} {m : Nat} {pre post : List Entry} {e : Entry} (hbook : s.book = pre ++ e :: post)
  (hmeter : e.meterId = m) (hothers : ∀ x ∈ pre ++ post, x.meterId ≠ m)
include hbook hmeter hothers

theorem entryOf_of_split : entryOf s m = some e := by
  have before : pre.find? (fun x => decide (x.meterId = m)) = none :=
    List.find?_eq_none.2 fun x hx => by simpa using hothers x (List.mem_append_left _ hx)
  rw [entryOf, hbook, List.find?_append, before, Option.none_or, List.find?_cons_of_pos (by simpa using hmeter)]

/-- A book that holds a meter once changes at its entry alone. -/
theorem updateEntry_of_split (f : Entry → Entry) : updateEntry s m f = s.setBook (pre ++ f e :: post) := by
  have same {l : List Entry} (hl : ∀ x ∈ l, x.meterId ≠ m) : l.map (fun x => if x.meterId = m then f x else x) = l :=
    (List.map_congr_left fun x hx => if_neg (hl x hx)).trans (List.map_id l)
  rw [updateEntry, hbook, List.map_append, List.map_cons, if_pos hmeter,
    same fun x hx => hothers x (List.mem_append_left _ hx), same fun x hx => hothers x (List.mem_append_right _ hx)]

theorem hear_of_entry (hroute : s.route.state = .running ∨ s.route.state = .ending) {h : Hearing}
    (hm : h.meterId = m) : hear s h = hearBook s e h := by
  rw [hear, if_pos hroute, hm, entryOf_of_split hbook hmeter hothers]

end

theorem hear_of_foreign {s : State} {h : Hearing} (hroute : s.route.state = .running ∨ s.route.state = .ending)
    (hnone : ∀ e ∈ s.book, e.meterId ≠ h.meterId) : hear s h = hearForeign s h := by
  have absent : entryOf s h.meterId = none := List.find?_eq_none.2 fun e he => by simpa using hnone e he
  rw [hear, if_pos hroute, absent]

section
variable {s : State} {e : Entry} {h : Hearing}

theorem hearBook_of_hold (hfamily : e.familyIndex = h.familyIndex) (hhold : e.options.getLsbD 1 = true) :
    hearBook s e h = hearHeld s e h := by
  rw [hearBook, if_neg (not_not.2 hfamily), hasHold, if_pos hhold]

variable (hfamily : e.familyIndex = h.familyIndex) (hfree : e.options.getLsbD 1 = false)
include hfamily hfree

theorem hearBook_of_first (hstate : e.hearing = .unheard ∨ e.hearing = .missed) :
    hearBook s e h = hearFirst s e h (decide (e.hearing = .missed)) := by
  rw [hearBook, if_neg (not_not.2 hfamily), hasHold, if_neg (Bool.eq_false_iff.1 hfree)]
  rcases hstate with hstate | hstate <;> rw [hstate] <;> rfl

theorem hearBook_of_later (hstate : e.hearing = .heard ∨ e.hearing = .late) : hearBook s e h = hearLater s e h := by
  rw [hearBook, if_neg (not_not.2 hfamily), hasHold, if_neg (Bool.eq_false_iff.1 hfree)]
  rcases hstate with hstate | hstate <;> rw [hstate]

end

theorem repeatsCurrent_of_current {e : Entry} {h : Hearing} {c : CurrentFields} (hc : e.current = some c) :
    repeatsCurrent e h = true ↔ c.register = h.register ∧ c.flags = h.flags ∧ c.ext = h.ext := by
  simp only [repeatsCurrent, hc, Bool.and_eq_true, decide_eq_true_iff, and_assoc]
  exact and_congr eq_comm (and_congr eq_comm eq_comm)

/-! ## Hearings without a record (R81) -/

theorem bumpTo_of_le {limit n : Nat} (h : n ≤ limit) : bumpTo limit n = min (n + 1) limit := by
  unfold bumpTo
  split <;> omega

theorem touchEntry_of_le {e : Entry} (he : e.heardCount ≤ 255) (h : Hearing) : touchEntry e h =
    { e with heardCount := min (e.heardCount + 1) 255, bestRssi := max e.bestRssi h.rssi } := by
  rw [touchEntry, bumpTo_of_le he]

/-- A hearing after which the transmitters have nothing new to choose. -/
theorem exec_matcherTakeHearing_of_settled {s t : State} {h : Hearing} {rest : List Hearing} (hrun : Running s)
    (hhearings : s.pairing.hearings = h :: rest) (hheld : s.builder.held = []) (hlimit : s.builder.limitFlag = false)
    (heq : hear (s.setPairing { s.pairing with hearings := rest }) h = t) (ht : Settled t) :
    exec .matcherTakeHearing s = .next t := by
  rw [exec_matcherTakeHearing hrun hhearings hheld hlimit, heq, kickTrunk_of_settled ht]

/-- Settles O15: R81's cases in their order, each a write of the matcher's counters and the entry. -/
theorem hearingsWithoutARecord : Obligations.HearingsWithoutARecord := by
  intro s h rest hrun hset hhearings hheld hlimit base m touched
  have takes {t : State} (heq : hear base h = t) (ht : Settled t) : exec .matcherTakeHearing s = .next t :=
    exec_matcherTakeHearing_of_settled hrun hhearings hheld hlimit heq ht
  refine ⟨fun hr he => takes ?_ hset, fun hroute => ⟨fun hnone hpolicy => takes ?_ hset,
    fun pre e post hbook hmeter hothers => ?_⟩⟩
  · rw [hear, if_neg (not_or.2 ⟨hr, he⟩)]
    rfl
  · rw [hear_of_foreign (s := base) hroute hnone, hearForeign]
    simp only [show base.route.policy = .ignore from hpolicy]
    rfl
  · have hears : hear base h = hearBook base e h := hear_of_entry (s := base) hbook hmeter hothers hroute rfl
    have writes (f : Entry → Entry) : updateEntry base e.meterId f = base.setBook (pre ++ f e :: post) :=
      updateEntry_of_split (s := base) hbook rfl (hmeter ▸ hothers) f
    refine ⟨fun hfamily => takes ?_ hset, fun hfamily hhold hcount => takes ?_ hset,
      fun hfamily hfree hcount hstate ⟨c, hc, hsame⟩ => takes ?_ hset⟩
    · rw [hears, hearBook, if_pos hfamily]
      rfl
    · rw [hears, hearBook_of_hold hfamily hhold, hearHeld, writes, touchEntry_of_le hcount]
      rfl
    · rw [hears, hearBook_of_later hfamily hfree hstate, hearLater, if_pos ((repeatsCurrent_of_current hc).2 hsame),
        writes, touchEntry_of_le hcount]
      rfl

/-! ## The decision of a screened hearing (R116) -/

theorem holdsNew_eq_false_iff (c old : Conditions) : holdsNew c old = false ↔ c &&& ~~~old = 0 := by
  simp [holdsNew]

theorem countScreening_eq (c : ScreeningCounters) (r : Screening) (threshold : Nat) (alerted : Conditions) :
    countScreening c r threshold alerted =
      { c with
        alertCreated :=
          if decide (threshold ≤ r.score) && decide (r.conditions &&& ~~~alerted ≠ 0) then bump c.alertCreated
          else c.alertCreated
        alertRepeated :=
          if threshold ≤ r.score ∧ r.conditions &&& ~~~alerted = 0 then bump c.alertRepeated else c.alertRepeated
        rateSaturated := if r.saturated then bump c.rateSaturated else c.rateSaturated } := by
  simp only [countScreening, holdsNew_eq_false_iff]
  rfl

/-- The threshold of an entry that is not held is that of its watch option (R59, R116). -/
theorem thresholdOf_of_free {o : Options} (hfree : o.getLsbD 1 = false) (rules : RuleSet) :
    thresholdOf rules o = if o.getLsbD 0 then rules.watchThreshold else rules.alertThreshold := by
  rw [thresholdOf, admissionOf, hasHold, if_neg (Bool.eq_false_iff.1 hfree), hasWatch]
  cases o.getLsbD 0 <;> rfl

theorem screenFor_of_place {s : State} {h : Hearing} {p : Profile} (hp : s.families[h.familyIndex] = some p) (e : Entry)
    (cur : Option CurrentFields) : screenFor s e cur h =
      screen s.rules p (min (s.route.startHour + h.timeTag / 3600000) 16777215) e.reference cur h := by
  rw [screenFor, profileOf_of_place hp]
  rfl

/-! ## First and late hearings (R88 to R90) -/

/-- What a first hearing and a late one do to the segment's record (R120, R122). -/
theorem heardSegment_eq (g : Segment) (tag : Nat) (late : Bool) :
    (if late then noteLate g tag else noteFirst g tag) =
      recompute
        (if late then { g with missed := g.missed - 1, late := g.late + 1, lastHeard := laterHeard g.lastHeard tag }
        else if g.state = .pending then
          { g with unheard := g.unheard - 1, heard := g.heard + 1, state := .active, activation := some tag,
                   lastHeard := some tag }
        else { g with unheard := g.unheard - 1, heard := g.heard + 1, lastHeard := laterHeard g.lastHeard tag }) := by
  cases late
  · rw [if_neg Bool.false_ne_true, if_neg Bool.false_ne_true, apply_ite recompute]
    rfl
  · rfl

theorem notifySegment_of_record {s : State} {n : Nat} {g : Segment} (hg : s.segments[n]? = some g)
    (f : Segment → Segment) : notifySegment s n f = s.setSegments (s.segments.set n (f g)) := by
  rw [notifySegment, hg]
  rfl

/-- What a first hearing and a late one hand to the builder, the entry and the segment's record in their places (R88 to
R90). -/
theorem hearFirst_of_split {s : State} {h : Hearing} {pre post : List Entry} {e : Entry} {g : Segment} {r : Screening}
    {threshold : Nat} (hbook : s.book = pre ++ e :: post) (hothers : ∀ x ∈ pre ++ post, x.meterId ≠ e.meterId)
    (hg : s.segments[e.segment]? = some g) (hr : screenFor s e none h = r)
    (hthreshold : thresholdOf s.rules e.options = threshold) (late : Bool) :
    hearFirst s e h late = takeGroup { s with
      book := pre ++
        { screenEntry e h r threshold with
          hearing := if late then .late else .heard
          reported := some { register := h.register, flags := h.flags, conditions := r.conditions }
          recordNumber := some s.builder.nextNumber } :: post
      segments := s.segments.set e.segment (if late then noteLate g h.timeTag else noteFirst g h.timeTag)
      screening :=
        { countScreening s.screening r threshold e.alerted with screenedBook := bump s.screening.screenedBook } }
      ({ body := .reading (readingBody e h r), timeTag := h.timeTag,
         marks := hearingMarks h r ||| (if late then markLate else 0), liveForced := liveForcedBy e.options }
        :: alertDrafts h r threshold e.alerted (some s.builder.nextNumber)) := by
  simp only [hearFirst, hr, hthreshold]
  rw [updateEntry_of_split (s := countBook s r threshold e.alerted) hbook rfl hothers,
    notifySegment_of_record (s := (countBook s r threshold e.alerted).setBook _) hg]
  rfl

/-- Settles O16: `hearFirst` writes the entry, the segment and the counters, and the builder takes its group. -/
theorem firstAndLateHearings : Obligations.FirstAndLateHearings := by
  intro s h rest p pre post e g hrun hhearings hheld hlimit hroute hbook hmeter hothers hfamily hfree hp hg late hour r
    threshold alert n heard lastHeard counted marks reading alerting hstate
  let u := s.setPairing { s.pairing with hearings := rest }
  have hears : hear u h = hearFirst u e h late :=
    (hear_of_entry (s := u) hbook hmeter hothers hroute rfl).trans (hearBook_of_first hfamily hfree hstate)
  have hr : screenFor u e none h = r := screenFor_of_place (s := u) hp e none
  have hthreshold : thresholdOf u.rules e.options = threshold := thresholdOf_of_free hfree s.rules
  have hcounted : (if late then noteLate g h.timeTag else noteFirst g h.timeTag) = recompute counted := by
    rw [heardSegment_eq]
    simp only [counted, lastHeard]
    cases g.lastHeard <;> rfl
  have hmarks : hearingMarks h r ||| (if late then markLate else 0) = reading.marks := by
    show _ = if late then marks ||| BitVec.twoPow 8 0 else marks
    cases late
    · exact BitVec.or_zero
    · rfl
  have hdrafts (d : Draft) :
      d :: alertDrafts h r threshold e.alerted (some u.builder.nextNumber) = if alert then [d, alerting] else [d] :=
    apply_ite (d :: ·) (alert = true) [alerting] []
  rw [exec_matcherTakeHearing hrun hhearings hheld hlimit, hears,
    hearFirst_of_split (s := u) hbook (hmeter ▸ hothers) hg hr hthreshold, hcounted, hmarks, countScreening_eq, hdrafts]
  rfl

/-! ## Later hearings (R92 to R95) -/

section
variable {s : State} {h : Hearing} {pre post : List Entry} {e : Entry} {r : Screening} {threshold : Nat}
  (hbook : s.book = pre ++ e :: post) (hothers : ∀ x ∈ pre ++ post, x.meterId ≠ e.meterId)
  (hthreshold : thresholdOf s.rules e.options = threshold)
include hbook hothers hthreshold

theorem hearRevision_of_split {first : Nat} (hfirst : e.recordNumber = some first) :
    hearRevision s e h r = takeGroup { s with
      book := pre ++
        { screenEntry e h r threshold with
          revisions := e.revisions + 1
          reported := some { register := h.register, flags := h.flags, conditions := r.conditions } } :: post
      screening :=
        { countScreening s.screening r threshold e.alerted with screenedBook := bump s.screening.screenedBook } }
      ({ body := .revision (readingBody e h r) first, timeTag := h.timeTag, marks := hearingMarks h r,
         liveForced := liveForcedBy e.options }
        :: alertDrafts h r threshold e.alerted (some s.builder.nextNumber)) := by
  simp only [hearRevision, hthreshold, hfirst, Option.getD_some]
  rw [updateEntry_of_split (s := countBook s r threshold e.alerted) hbook rfl hothers]
  rfl

theorem hearAbsorbed_of_split (capped : Bool) :
    hearAbsorbed s e h r capped = takeGroup { s with
      book := pre ++ screenEntry e h r threshold :: post
      matcher := { s.matcher with
        absorbed := bump s.matcher.absorbed
        revisionCap := if capped then bump s.matcher.revisionCap else s.matcher.revisionCap }
      screening :=
        { countScreening s.screening r threshold e.alerted with screenedBook := bump s.screening.screenedBook } }
      (alertDrafts h r threshold e.alerted none) := by
  simp only [hearAbsorbed, hthreshold]
  rw [updateEntry_of_split (s := (countBook s r threshold e.alerted).setMatcher _) hbook rfl hothers]
  rfl

end

theorem triggered_of_reported {s : State} {e : Entry} {h : Hearing} {p : Profile} {rep : ReportedFields}
    (hp : s.families[h.familyIndex] = some p) (hrep : e.reported = some rep) (r : Screening) :
    triggered s e h r = revisionTrigger p h r rep := by
  simp only [triggered, hrep, profileOf_of_place hp]

/-- Settles O18: with a trigger and room below the cap `hearRevision`, and `hearAbsorbed` otherwise. -/
theorem laterHearingsReviseOrAreAbsorbed : Obligations.LaterHearingsReviseOrAreAbsorbed := by
  intro s h rest p pre post e c rep first hrun hhearings hheld hlimit hroute hbook hmeter hothers hfamily hfree hp hstate
    hcurrent hdiffers hreported hfirst hour r threshold alert trigger revises marks heard revision alerting
  let u := s.setPairing { s.pairing with hearings := rest }
  have hr : screenFor u e e.current h = r := by
    rw [hcurrent]
    exact screenFor_of_place (s := u) hp e (some c)
  have hthreshold : thresholdOf u.rules e.options = threshold := thresholdOf_of_free hfree s.rules
  have htrigger : triggered u e h r = trigger := triggered_of_reported (s := u) hp hreported r
  have differs : ¬ repeatsCurrent e h = true := by
    rw [repeatsCurrent_of_current hcurrent]
    tauto
  have hothers' : ∀ x ∈ pre ++ post, x.meterId ≠ e.meterId := hmeter ▸ hothers
  have hears : hear u h =
      if trigger then (if e.revisions < 15 then hearRevision u e h r else hearAbsorbed u e h r true)
      else hearAbsorbed u e h r false := by
    rw [hear_of_entry (s := u) hbook hmeter hothers hroute rfl, hearBook_of_later hfamily hfree hstate, hearLater,
      if_neg differs]
    simp only [hr, htrigger]
  have hrevises : revises = (trigger && decide (e.revisions < 15)) := rfl
  rw [exec_matcherTakeHearing hrun hhearings hheld hlimit, hears]
  clear_value trigger revises
  cases htrig : trigger with
  | false =>
    obtain rfl : revises = false := by rw [hrevises, htrig]; rfl
    rw [if_neg Bool.false_ne_true, hearAbsorbed_of_split (s := u) hbook hothers' hthreshold, countScreening_eq]
    rfl
  | true =>
    rw [if_pos rfl]
    by_cases hcap : e.revisions < 15
    · obtain rfl : revises = true := by rw [hrevises, htrig, decide_eq_true hcap]; rfl
      rw [if_pos hcap, hearRevision_of_split (s := u) hbook hothers' hthreshold hfirst, countScreening_eq]
      rfl
    · obtain rfl : revises = false := by rw [hrevises, htrig, decide_eq_false hcap]; rfl
      rw [if_neg hcap, hearAbsorbed_of_split (s := u) hbook hothers' hthreshold, countScreening_eq]
      rfl

/-! ## Foreign meters (R82 to R85) -/

section
variable {s : State} {h : Hearing} (hpolicy : s.route.policy ≠ .ignore)
include hpolicy

theorem hearForeign_of_new (hnew : ∀ c ∈ s.matcher.cache, c.meterId ≠ h.meterId) :
    hearForeign s h =
      hearForeignScreened (s.setMatcher { s.matcher with foreignSeen := bump s.matcher.foreignSeen }) h 0 true := by
  have absent : s.matcher.cache.find? (fun c => decide (c.meterId = h.meterId)) = none :=
    List.find?_eq_none.2 fun c hc => by simpa using hnew c hc
  rw [hearForeign]
  cases hp : s.route.policy with
  | ignore => exact absurd hp hpolicy
  | first | changes => rw [absent]

theorem hearForeign_of_cached {pre post : List ForeignEntry} {c : ForeignEntry}
    (hcache : s.matcher.cache = pre ++ c :: post) (hmeter : c.meterId = h.meterId)
    (hbefore : ∀ x ∈ pre, x.meterId ≠ h.meterId) :
    hearForeign s h =
      let t := s.setMatcher { s.matcher with foreignSeen := bump s.matcher.foreignSeen }
      if c.register = h.register ∧ c.flags = h.flags then
        t.setMatcher { t.matcher with cache := cacheNewest t.matcher.cache c }
      else hearForeignScreened t h c.alerted (decide (s.route.policy = .changes)) := by
  have first : pre.find? (fun c => decide (c.meterId = h.meterId)) = none :=
    List.find?_eq_none.2 fun x hx => by simpa using hbefore x hx
  have found : s.matcher.cache.find? (fun c => decide (c.meterId = h.meterId)) = some c := by
    rw [hcache, List.find?_append, first, Option.none_or, List.find?_cons_of_pos (by simpa using hmeter)]
  rw [hearForeign]
  cases hp : s.route.policy with
  | ignore => exact absurd hp hpolicy
  | first | changes => rw [found]

end

theorem hearForeignScreened_of_place {s : State} {h : Hearing} {p : Profile} {r : Screening} {threshold : Nat}
    (hp : s.families[h.familyIndex] = some p) (hr : screen s.rules p 0 none none h = r)
    (hthreshold : s.rules.alertThreshold = threshold) (alerted : Conditions) (creates : Bool) :
    hearForeignScreened s h alerted creates = takeGroup { s with
      matcher := { s.matcher with
        cache := cacheNewest s.matcher.cache
          { meterId := h.meterId, register := h.register, flags := h.flags, alerted := alertedAfter r threshold alerted } }
      screening :=
        { countScreening s.screening r threshold alerted with screenedForeign := bump s.screening.screenedForeign } }
      ((if creates then [foreignDraft h r] else [])
        ++ alertDrafts h r threshold alerted (if creates then some s.builder.nextNumber else none)) := by
  simp only [hearForeignScreened, profileOf_of_place hp, hr, hthreshold]
  rfl

/-- Settles O19: a new meter and a changed one are screened, an unchanged one moves to the newest place. -/
theorem foreignMetersAreCachedAndRecorded : Obligations.ForeignMetersAreCachedAndRecorded := by
  intro s h rest p hrun hhearings hheld hlimit hroute hnone hpolicy hp r threshold alert newest marks record alerting
    screened
  let u := s.setPairing { s.pairing with hearings := rest }
  let v := u.setMatcher { u.matcher with foreignSeen := bump u.matcher.foreignSeen }
  have takes {t : State} (heq : hearForeign u h = t) : exec .matcherTakeHearing s = .next (kickTrunk t) := by
    rw [exec_matcherTakeHearing hrun hhearings hheld hlimit, hear_of_foreign (s := u) hroute hnone, heq]
  have screens (alerted : Conditions) (creates : Bool) :
      hearForeignScreened v h alerted creates = screened alerted creates := by
    rw [hearForeignScreened_of_place (s := v) (r := r) (threshold := threshold) hp rfl rfl, countScreening_eq]
    rfl
  refine ⟨fun hnew => takes ?_, fun pre c post hcache hmeter hbefore =>
    ⟨fun hregister hflags => takes ?_, fun hchanged => takes ?_⟩⟩
  · exact (hearForeign_of_new (s := u) hpolicy hnew).trans (screens 0 true)
  · rw [hearForeign_of_cached (s := u) hpolicy hcache hmeter hbefore, if_pos ⟨hregister, hflags⟩]
    have newest_eq : cacheNewest s.matcher.cache c = newest c := by
      rw [cacheNewest, hmeter]
      rfl
    rw [← newest_eq]
    rfl
  · rw [hearForeign_of_cached (s := u) hpolicy hcache hmeter hbefore, if_neg (by tauto)]
    exact screens c.alerted (decide (s.route.policy = .changes))

end Sys2Proof.Machine
end

