-- ==== Sys2Proof/Proofs/ScreeningStages.lean ====
section
/-! SUPPORT. Tamper screening (R100 to R114): the advance, the conditions bit by bit, and the score. Settles O20. -/

namespace Sys2Proof.Machine

/-! ## Stage 2 (R103, R104) -/

theorem rolloverPlausible_iff (p : Profile) (elapsed : Option Nat) (wrapped : Nat) :
    rolloverPlausible p elapsed wrapped = true ↔ ∃ e, elapsed = some e ∧ wrapped * 16 ≤ e * p.highRate := by
  cases elapsed <;> simp [rolloverPlausible]

section
variable (p : Profile) (elapsed : Option Nat) {new ref : Nat}

theorem advanceOf_of_forward (h : ref ≤ new) :
    advanceOf p elapsed new ref = { amount := new - ref, mark := none, reverse := none } := if_pos h

theorem advanceOf_of_minor (hdrop : new < ref) (hwithin : ref - new ≤ p.reverseTolerance) :
    advanceOf p elapsed new ref = { amount := 0, mark := some .minorReverse, reverse := none } := by
  rw [advanceOf, if_neg hdrop.not_ge, if_pos hwithin]

theorem advanceOf_of_beyond (hdrop : new < ref) (hbeyond : p.reverseTolerance < ref - new) :
    advanceOf p elapsed new ref =
      if rolloverPlausible p elapsed (new + 10 ^ p.digits - ref) then
        { amount := new + 10 ^ p.digits - ref, mark := some .rollover, reverse := none }
      else { amount := 0, mark := none, reverse := some (ref - new) } := by
  rw [advanceOf, if_neg hdrop.not_ge, if_neg hbeyond.not_ge]
  rfl

end

/-! ## The conditions of a screening, bit by bit -/

theorem getLsbD_condIf {j : Nat} (hj : j < 14) (b : Bool) (k : Nat) :
    (condIf b (BitVec.twoPow 14 j)).getLsbD k = (b && decide (k = j)) := by
  cases b with
  | false => exact BitVec.getLsbD_zero
  | true =>
    rw [condIf, if_pos rfl, BitVec.getLsbD_twoPow, Bool.true_and]
    by_cases h : k = j
    · simp [h, hj]
    · simp [h, Ne.symm h]

theorem getLsbD_referenceStages (p : Profile) (new hour : Nat) (x : Reference) (k : Nat) :
    (referenceStages p new hour x).conditions.getLsbD k =
      let e := elapsedHours hour x.hour
      let a := advanceOf p e new x.reading
      (e.isNone && decide (k = 3) || a.reverse.isSome && decide (k = 0) ||
        excessOf p (rateOf e a.amount) && decide (k = 1) || stagnantOf p e a && decide (k = 2)) := by
  simp only [referenceStages, BitVec.getLsbD_or, condClockSkew, condReverse, condExcess, condStagnant,
    getLsbD_condIf (show 0 < 14 by decide), getLsbD_condIf (show 1 < 14 by decide),
    getLsbD_condIf (show 2 < 14 by decide), getLsbD_condIf (show 3 < 14 by decide)]

theorem getLsbD_flagConditions (f : Flags) {k : Nat} (hk : k < 6) :
    (flagConditions f).getLsbD (5 + k) = f.getLsbD k := by
  rw [flagConditions, BitVec.getLsbD_shiftLeft, BitVec.getLsbD_setWidth]
  simp [show 5 + k < 14 by omega, show k < 14 by omega]

theorem getLsbD_flagConditions_of_outside (f : Flags) {k : Nat} (hk : k < 5 ∨ 11 ≤ k) :
    (flagConditions f).getLsbD k = false := by
  rw [flagConditions, BitVec.getLsbD_shiftLeft, BitVec.getLsbD_setWidth]
  rcases hk with hk | hk
  · simp [hk]
  · simp [BitVec.getLsbD_of_ge f (k - 5) (by omega)]

theorem getLsbD_extConditions (ext : Option ExtFields) (k : Nat) :
    (extConditions ext).getLsbD k =
      (ext.any (fun x => decide (0 < x.tamperCount)) && decide (k = 11)
        || ext.any (fun x => decide (0 < x.reverseVolume)) && decide (k = 12)) := by
  cases ext with
  | none => exact BitVec.getLsbD_zero
  | some x =>
    simp only [extConditions, BitVec.getLsbD_or, condHistory, condExtReverse, getLsbD_condIf (show 11 < 14 by decide),
      getLsbD_condIf (show 12 < 14 by decide), Option.any_some]

theorem getLsbD_frameConditions (h : Hearing) (k : Nat) :
    (frameConditions h).getLsbD k =
      ((flagConditions h.flags).getLsbD k || (extConditions h.ext).getLsbD k || h.service.isSome && decide (k = 13)) := by
  rw [frameConditions, BitVec.getLsbD_or, BitVec.getLsbD_or, condService, getLsbD_condIf (by decide)]

section
variable (rules : RuleSet) (p : Profile) (hour : Nat) (ref : Option Reference) (cur : Option CurrentFields) (h : Hearing)

/-- The stages each set bits of their own. -/
theorem getLsbD_screen (k : Nat) :
    (screen rules p hour ref cur h).conditions.getLsbD k =
      (ref.any (fun x => (referenceStages p h.register hour x).conditions.getLsbD k)
        || cur.any (fun c => disagrees p h.register h.timeTag c.register c.timeTag && decide (k = 4))
        || (frameConditions h).getLsbD k) := by
  have early : (screen rules p hour ref cur h).conditions =
      (ref.elim 0 fun x => (referenceStages p h.register hour x).conditions)
        ||| (cur.elim 0 fun c => condIf (disagrees p h.register h.timeTag c.register c.timeTag) condDisagree)
        ||| frameConditions h := by
    cases ref <;> cases cur <;> rfl
  rw [early, BitVec.getLsbD_or, BitVec.getLsbD_or]
  congr 2
  · cases ref
    · exact BitVec.getLsbD_zero
    · rfl
  · cases cur
    · exact BitVec.getLsbD_zero
    · exact getLsbD_condIf (by decide) _ k

/-- Stages 1 to 5 alone set the first four bits. -/
theorem getLsbD_screen_of_early {k : Nat} (hk : k < 4) : (screen rules p hour ref cur h).conditions.getLsbD k =
    ref.any (fun x => (referenceStages p h.register hour x).conditions.getLsbD k) := by
  have no_current : decide (k = 4) = false := by simp; omega
  have no_frame : (frameConditions h).getLsbD k = false := by
    rw [getLsbD_frameConditions, getLsbD_flagConditions_of_outside _ (by omega), getLsbD_extConditions]
    simp
    omega
  rw [getLsbD_screen, no_frame]
  simp [no_current]

/-- Stages 1 to 5 set none of the other bits. -/
theorem getLsbD_screen_of_later {k : Nat} (hk : 4 ≤ k) : (screen rules p hour ref cur h).conditions.getLsbD k =
    (cur.any (fun c => disagrees p h.register h.timeTag c.register c.timeTag && decide (k = 4))
      || (frameConditions h).getLsbD k) := by
  have no_early (x : Reference) : (referenceStages p h.register hour x).conditions.getLsbD k = false := by
    rw [getLsbD_referenceStages]
    simp
    omega
  rw [getLsbD_screen]
  simp [no_early]

theorem getLsbD_screen_of_frame {k : Nat} (hk : 5 ≤ k) :
    (screen rules p hour ref cur h).conditions.getLsbD k = (frameConditions h).getLsbD k := by
  have no_current : decide (k = 4) = false := by simp; omega
  rw [getLsbD_screen_of_later rules p hour ref cur h (by omega)]
  simp [no_current]

end

/-- Stage 6 in signed numbers: a wrapped amount below 0 exceeds no rate (R108). -/
theorem disagrees_iff (p : Profile) (new tagNew cur tagCur : Nat) :
    disagrees p new tagNew cur tagCur = true ↔ new < cur ∧ p.reverseTolerance < cur - new
      ∧ (max 1 ((tagNew - tagCur) / 3600000) : Int) * p.highRate < ((new : Int) + 10 ^ p.digits - cur) * 16 := by
  have hours : (max 1 ((tagNew - tagCur) / 3600000) : Int) = ((max 1 ((tagNew - tagCur) / 3600000) : Nat) : Int) := by
    omega
  have modulus : ((registerModulus p : Nat) : Int) = 10 ^ p.digits := Nat.cast_pow 10 p.digits
  rw [hours, ← modulus, ← Nat.cast_mul, disagrees]
  generalize max 1 ((tagNew - tagCur) / 3600000) * p.highRate = bound
  split
  · simp
    omega
  split
  · simp
    omega
  · rw [decide_eq_true_iff]
    omega

/-! ## The score (R114) -/

theorem weightSum_map (c : Conditions) (w : Nat → Nat) (n k : Nat) :
    weightSum c k ((List.range' k n).map w) = (((List.range' k n).filter fun j => c.getLsbD j).map w).sum := by
  induction n generalizing k with
  | zero => rfl
  | succ n ih =>
    rw [List.range'_succ, List.map_cons, weightSum, ih, List.filter_cons]
    cases c.getLsbD k <;> simp

theorem weightsOf_eq_map {rules : RuleSet} {service : Option ServiceMark} {w : Nat → Nat}
    (hlisted : ∀ n v, service = some ⟨n, .weight v⟩ → w 13 = v)
    (hother : (∀ n v, service ≠ some ⟨n, .weight v⟩) → w 13 = rules.service)
    (hrules : [w 0, w 1, w 2, w 3, w 4, w 5, w 6, w 7, w 8, w 9, w 10, w 11, w 12] =
      [rules.reverse, rules.excess, rules.stagnant, rules.clockSkew, rules.disagree, rules.magnet, rules.tilt,
       rules.cover, rules.meterReverse, rules.leak, rules.lowbat, rules.history, rules.extReverse]) :
    weightsOf rules service = (List.range' 0 14).map w := by
  have last : serviceWeight rules service = w 13 := by
    unfold serviceWeight
    split
    · rename_i n v
      exact (hlisted n v rfl).symm
    · rename_i hno
      exact (hother hno).symm
  have split_last : (List.range' 0 14).map w =
      [w 0, w 1, w 2, w 3, w 4, w 5, w 6, w 7, w 8, w 9, w 10, w 11, w 12] ++ [w 13] := rfl
  rw [split_last, hrules, ← last]
  rfl

/-! ## The whole screening -/

theorem rateSaturates_iff (elapsed : Option Nat) (advance : Nat) :
    rateSaturates elapsed advance = true ↔ ∃ e, elapsed = some e ∧ 16777215 < advance * 16 / e := by
  cases elapsed with
  | none => simp [rateSaturates, rateQuotient]
  | some e => exact decide_eq_true_iff.trans (by simp [Config.max24])

theorem excessOf_iff (p : Profile) (rate : Option Nat) :
    excessOf p rate = true ↔ ∃ q, rate = some q ∧ p.highRate < q := by
  cases rate <;> simp [excessOf]

theorem stagnantOf_iff (p : Profile) (elapsed : Option Nat) (a : Advance) :
    stagnantOf p elapsed a = true ↔ 0 < p.stagnationHours ∧ a.amount = 0 ∧ a.reverse = none
      ∧ ∃ e, elapsed = some e ∧ p.stagnationHours ≤ e := by
  cases elapsed <;> simp [stagnantOf, and_assoc]

/-- Settles O20: `advanceOf` branch by branch, each condition by its bit, and the score as the sum over the bits set. -/
theorem screeningFollowsItsStages : Obligations.ScreeningFollowsItsStages := by
  refine ⟨fun p elapsed new ref hnew href => ?advance, fun rules p hour ref cur h => ?stages⟩
  case advance =>
    intro d w a plausible
    have modulus : ((10 ^ p.digits : Nat) : Int) = 10 ^ p.digits := Nat.cast_pow 10 p.digits
    have hd : d = (new : Int) - ref := rfl
    have hw : w = d + 10 ^ p.digits := rfl
    refine ⟨fun hup => ?_, fun hdown hwithin => ?_, fun hdown hbeyond => ?_⟩
    · have ha : a = _ := advanceOf_of_forward p elapsed (by omega)
      rw [ha]
      exact ⟨by simp only; omega, rfl, rfl⟩
    · have ha : a = _ := advanceOf_of_minor p elapsed (by omega) (by omega)
      rw [ha]
      exact ⟨rfl, rfl, rfl⟩
    · have ha : a = _ := advanceOf_of_beyond p elapsed (by omega) (by omega)
      have wrapped : ((new + 10 ^ p.digits - ref : Nat) : Int) = w := by omega
      have agrees : rolloverPlausible p elapsed (new + 10 ^ p.digits - ref) = true ↔ plausible := by
        rw [rolloverPlausible_iff]
        refine exists_congr fun e => and_congr_right fun _ => ?_
        rw [← wrapped]
        exact_mod_cast Iff.rfl
      refine ⟨fun hp => ?_, fun hp => ?_⟩
      · rw [ha, if_pos (agrees.2 hp)]
        exact ⟨wrapped, rfl, rfl⟩
      · rw [ha, if_neg (mt agrees.1 hp)]
        exact ⟨rfl, rfl, _, rfl, by omega⟩
  case stages =>
    intro r has
    refine ⟨fun x hx => ?reference, fun hnone => ?_, ?current, fun k hk => ?flags, ?history, ?extReverse, ?service,
      fun w hlisted hother hrules => ?score⟩
    case reference =>
      intro elapsed a
      subst hx
      have bit {k : Nat} (hk : k < 4) : has k ↔ _ :=
        Eq.congr_left ((getLsbD_screen_of_early rules p hour (some x) cur h hk).trans
          (getLsbD_referenceStages p h.register hour x k))
      have rate_eq : r.rate = rateOf elapsed a.amount := rfl
      refine ⟨rfl, rfl, rfl, ?_, rateSaturates_iff elapsed a.amount, ?_, ?_, ?_, ?_⟩
      · rw [rate_eq, rateOf, rateQuotient, Option.map_map]
        rfl
      · rw [bit (by decide), ← Option.isSome_iff_exists]
        simp
        rfl
      · rw [bit (by decide), rate_eq, ← excessOf_iff]
        simp
        rfl
      · rw [bit (by decide), ← stagnantOf_iff]
        simp
        rfl
      · rw [bit (by decide)]
        simp [elapsedHours]
    · subst hnone
      refine ⟨rfl, rfl, rfl, rfl, rfl, fun k hk => Bool.eq_false_iff.1 ?_⟩
      exact getLsbD_screen_of_early rules p hour none cur h hk
    case current =>
      have no_frame : (frameConditions h).getLsbD 4 = false := by
        rw [getLsbD_frameConditions, getLsbD_flagConditions_of_outside _ (by omega), getLsbD_extConditions]
        simp
      have bit : has 4 ↔ _ := Eq.congr_left (getLsbD_screen_of_later rules p hour ref cur h le_rfl)
      rw [bit, no_frame]
      simp [Option.any_eq_true, disagrees_iff]
    all_goals have bit {k : Nat} (hk : 5 ≤ k) : has k ↔ _ :=
      Eq.congr_left ((getLsbD_screen_of_frame rules p hour ref cur h hk).trans (getLsbD_frameConditions h k))
    case flags =>
      rw [bit (by omega), getLsbD_flagConditions _ hk, getLsbD_extConditions]
      simp [show 5 + k ≠ 11 by omega, show 5 + k ≠ 12 by omega, show 5 + k ≠ 13 by omega]
    case history =>
      rw [bit (by decide), getLsbD_flagConditions_of_outside _ (by decide), getLsbD_extConditions]
      simp [Option.any_eq_true]
    case extReverse =>
      rw [bit (by decide), getLsbD_flagConditions_of_outside _ (by decide), getLsbD_extConditions]
      simp [Option.any_eq_true]
    case service =>
      rw [bit (by decide), getLsbD_flagConditions_of_outside _ (by decide), getLsbD_extConditions]
      simp [Option.isSome_iff_exists]
    case score =>
      show scoreOf rules h.service r.conditions = _
      rw [scoreOf, weightsOf_eq_map hlisted hother hrules, weightSum_map, List.range_eq_range']

end Sys2Proof.Machine
end

