-- ==== Sys2Proof/Proofs/RecordPassing.lean ====
section
/-! SUPPORT. The way of a record (R136 to R148): the builder's numbering, the live queue, and what a free port grants.
Settles O21, O22 and O23. -/

namespace Sys2Proof.Machine

/-! ## The live queue (R147, R148) -/

/-- What a lost copy leaves: it is counted, and with LIVE_DROP armed sends it and clears the flag (R148). -/
theorem pushLive_of_lost {s : State} {c : LiveCopy} {queue : List LiveCopy} {number : Nat} {onArrival : Bool}
    (h : arriveLive s.live.queue c = (queue, some (number, onArrival))) :
    pushLive s c = { s with
      live := { s.live with queue := queue, dropped := bump s.live.dropped, dropArmed := false }
      events :=
        if s.live.dropArmed then
          postEvent s.events
            { kind := .liveDrop, timeTag := s.clock.value, parameter := number, detail := onArrival.toNat }
        else s.events } := by
  unfold pushLive
  simp only [h]
  cases s.live.dropArmed <;> rfl

theorem pushLive_of_room {s : State} {c : LiveCopy} (h : s.live.queue.length < 128) :
    pushLive s c = { s with live := { s.live with queue := s.live.queue ++ [c] } } := by
  have arrives : arriveLive s.live.queue c = (s.live.queue ++ [c], none) := if_pos h
  unfold pushLive
  simp only [arrives]
  rfl

section
variable {queue : List LiveCopy} (hfull : 128 ≤ queue.length)
include hfull

theorem arriveLive_of_dropped {c : LiveCopy} (h : c.priority = false ∨ ∀ x ∈ queue, x.priority = true) :
    arriveLive queue c = (queue, some (c.record.head.number, true)) := by
  rw [arriveLive, if_neg (show ¬ queue.length < Config.livePlaces from hfull.not_gt)]
  rcases h with h | h
  · rw [if_neg (by simp [h])]
  · have no_ordinary : queue.find? (fun q => !q.priority) = none :=
      List.find?_eq_none.2 fun x hx => by simp [h x hx]
    rw [no_ordinary, ite_self]

theorem arriveLive_of_displaced {c x : LiveCopy} {pre post : List LiveCopy} (hc : c.priority = true)
    (hqueue : queue = pre ++ x :: post) (hpre : ∀ y ∈ pre, y.priority = true) (hx : x.priority = false) :
    arriveLive queue c = (pre ++ post ++ [c], some (x.record.head.number, false)) := by
  have no_earlier : pre.find? (fun q => !q.priority) = none := List.find?_eq_none.2 fun y hy => by simp [hpre y hy]
  have found : queue.find? (fun q => !q.priority) = some x := by
    rw [hqueue, List.find?_append, no_earlier, Option.none_or, List.find?_cons_of_pos (by simp [hx])]
  have erased : queue.eraseP (fun q => !q.priority) = pre ++ post := by
    rw [hqueue, List.eraseP_append_right _ (fun y hy => by simp [hpre y hy]), List.eraseP_cons_of_pos (by simp [hx])]
  rw [arriveLive, if_neg (show ¬ queue.length < Config.livePlaces from hfull.not_gt), if_pos hc, found, erased]

end

/-- Settles O23: the three ways of a copy at the live queue. -/
theorem liveQueueArrivals : Obligations.LiveQueueArrivals := by
  intro s c q lost
  refine ⟨pushLive_of_room, fun hfull => ⟨fun h => ?_, fun hc pre x post hqueue hpre hx => ?_⟩⟩
  · exact pushLive_of_lost (arriveLive_of_dropped hfull h)
  · exact pushLive_of_lost (arriveLive_of_displaced hfull hc hqueue hpre hx)

/-! ## The builder (R136, R137) -/

theorem giveNumber_eq (s : State) (k : RecordKind) : giveNumber s k =
    if s.builder.nextNumber < 4294967295 then
      { s with builder := { s.builder with
          nextNumber := s.builder.nextNumber + 1, created := bumpCreated s.builder.created k } }
    else raiseFault
      { s with builder := { s.builder with limitFlag := true, created := bumpCreated s.builder.created k } }
      .recordNumberLimit s.route.id := rfl

theorem routing_giveNumber (s : State) (k : RecordKind) : (giveNumber s k).routing = s.routing := by
  obtain ⟨-, _, e⟩ | ⟨-, _, _, _, e⟩ := giveNumber_cases s k <;> rw [e]

theorem makeLiveCopy_eq (s : State) (r : Record) (forced : Bool) : makeLiveCopy s r forced =
    if (routingRow s.routing r.head.kind).live = true ∨ forced = true then
      pushLive s { record := r, priority := forced || decide (r.head.kind = .alert) }
    else s := by
  simp only [makeLiveCopy, Bool.or_eq_true]

theorem held_giveNumber (s : State) (k : RecordKind) : (giveNumber s k).builder.held = s.builder.held := by
  obtain ⟨-, _, e⟩ | ⟨-, _, _, _, e⟩ := giveNumber_cases s k <;> rw [e]

theorem limitFlag_giveNumber (s : State) (k : RecordKind) : (giveNumber s k).builder.limitFlag =
    if s.builder.nextNumber < 4294967295 then s.builder.limitFlag else true := by
  rw [giveNumber_eq]
  split <;> rfl

theorem nextNumber_giveNumber {s : State} (h : s.builder.nextNumber < 4294967295) (k : RecordKind) :
    (giveNumber s k).builder.nextNumber = s.builder.nextNumber + 1 := by
  rw [giveNumber_eq, if_pos h]

theorem limitFlag_passRecord (s : State) (r : Record) : (passRecord s r).builder.limitFlag = s.builder.limitFlag := by
  obtain ⟨_, _, _, e⟩ := passRecord_shape s r
  rw [e]

section
variable {s : State} (hflag : s.builder.limitFlag = false) (d : Draft)
include hflag

theorem takeDraft_of_ready :
    takeDraft s d =
      passRecord (makeLiveCopy (giveNumber s (kindOf d.body)) (recordOf s d) d.liveForced) (recordOf s d) := by
  rw [takeDraft, if_neg (by simp [hflag])]
  rfl

theorem limitFlag_takeDraft : (takeDraft s d).builder.limitFlag =
    if s.builder.nextNumber < 4294967295 then false else true := by
  rw [takeDraft_of_ready hflag, limitFlag_passRecord, builder_makeLiveCopy, limitFlag_giveNumber, hflag]

end

/-- What is left of a group after the last number gets none (R137). -/
theorem takeGroup_of_limit {s : State} (h : s.builder.limitFlag = true) (group : List Draft) : takeGroup s group = s := by
  induction group with
  | nil => rfl
  | cons d rest ih =>
    have passed_over : takeDraft s d = s := if_pos h
    rw [takeGroup, List.foldl_cons, passed_over]
    exact ih

/-! ## Passing a record on (R136, R141, R143) -/

section
variable {s : State} (r : Record)

theorem passRecord_of_halted (h : s.store.state = .halted) : passRecord s r = refuseHalted s 1 := if_pos h

theorem passRecord_of_room (hstate : s.store.state = .normal) (hheld : s.builder.held = [])
    (hroom : s.store.appendQueue.length < 32) : passRecord s r = enqueueRecord s r := by
  rw [passRecord, if_neg (by simp [hstate]), if_pos]
  simp [hheld, Config.appendPlaces, hroom]

theorem passRecord_of_waiting (hstate : s.store.state = .normal)
    (hfull : s.builder.held ≠ [] ∨ 32 ≤ s.store.appendQueue.length) :
    passRecord s r = s.setBuilder { s.builder with held := s.builder.held ++ [r] } := by
  rw [passRecord, if_neg (by simp [hstate]), if_neg]
  rw [Bool.and_eq_true, List.isEmpty_iff, decide_eq_true_iff]
  exact fun ⟨hheld, hroom⟩ => hfull.elim (· hheld) (hroom.not_ge ·)

end

theorem builderPass_of_held {s : State} {r : Record} {rest : List Record} (h : s.builder.held = r :: rest) :
    builderPass s =
      if s.store.state = .halted then refuseHalted (s.setBuilder { s.builder with held := rest }) 1
      else if s.store.appendQueue.length < 32 then enqueueRecord (s.setBuilder { s.builder with held := rest }) r
      else s := by
  simp only [builderPass, h]
  rfl

/-- Settles O21: number, live copy and the three ways on, and the first held record alone. -/
theorem builderNumbersAndPassesRecords : Obligations.BuilderNumbersAndPassesRecords := by
  refine ⟨fun s d more row hflag hrow => ?takes, fun s r rest hrun hset hheld => ?passes⟩
  case takes =>
    intro n r created t u
    have numbered : giveNumber s (kindOf d.body) = t := giveNumber_eq s (kindOf d.body)
    have copied : makeLiveCopy (giveNumber s (kindOf d.body)) (recordOf s d) d.liveForced = u := by
      subst hrow
      rw [makeLiveCopy_eq, routing_giveNumber, numbered]
      rfl
    have taken : takeGroup s [d] = passRecord u r := by
      subst hrow
      rw [← copied]
      exact takeDraft_of_ready hflag d
    have same_store : u.store = s.store := by rw [← copied, store_makeLiveCopy, store_giveNumber]
    have same_held : u.builder.held = s.builder.held := by rw [← copied, builder_makeLiveCopy, held_giveNumber]
    rw [taken, ← same_store, ← same_held]
    refine ⟨passRecord_of_halted r, passRecord_of_room r, passRecord_of_waiting r, fun hn => ⟨?_, ?_, ?_⟩, fun hn => ?_⟩
    · rw [← taken]
      rfl
    · rw [nextNumber_passRecord, ← copied, builder_makeLiveCopy, nextNumber_giveNumber hn]
    · rw [← taken]
      exact (limitFlag_takeDraft hflag d).trans (if_pos hn)
    · have limited : (takeGroup s [d]).builder.limitFlag = true :=
        (limitFlag_takeDraft hflag d).trans (if_neg hn.not_gt)
      rw [← taken]
      exact takeGroup_of_limit limited more
  case passes =>
    intro t
    have passes {v : State} (h : builderPass s = v) : exec .builderPassRecord s = .next (kickTrunk v) := by
      rw [← h]
      exact whenRunning_of_running hrun (fun s => kickTrunk (builderPass s))
    have pass := builderPass_of_held hheld
    refine ⟨fun hhalted => ?_, fun hstate hroom => passes ?_, fun hstate hfull => ?_⟩
    · rw [passes (pass.trans (if_pos hhalted))]
      exact congrArg _ (kickTrunk_of_settled (s := refuseHalted t 1) hset)
    · exact pass.trans ((if_neg (by simp [hstate])).trans (if_pos hroom))
    · rw [passes (pass.trans ((if_neg (by simp [hstate])).trans (if_neg hfull.not_gt)))]
      exact congrArg _ (kickTrunk_of_settled hset)

/-! ## Judging (R142) -/

theorem judgeClass_of_zero {st : Store} {c : Fin 4} (h : st.classes[c].quota = 0) :
    judgeClass st c = .refuse .full := if_pos h

theorem judgeClass_of_room {st : Store} {c : Fin 4} (h : classCount st c < st.classes[c].quota) :
    judgeClass st c = .place := by
  rw [judgeClass, if_neg (by omega), if_pos h]

theorem judgeClass_of_linear {st : Store} {c : Fin 4} (hfull : st.classes[c].quota ≤ classCount st c)
    (hpolicy : st.classes[c].policy = .linear) : judgeClass st c = .refuse .full := by
  rw [judgeClass, if_neg hfull.not_gt, hpolicy, ite_self]

theorem judgeClass_of_ring {st : Store} {c : Fin 4} {x : StoreRecord} (hquota : 0 < st.classes[c].quota)
    (hfull : st.classes[c].quota ≤ classCount st c) (hpolicy : st.classes[c].policy = .ring)
    (hold : oldestOf st c = some x) :
    judgeClass st c = if x.state = .stored then .overwrite x.head.number else .refuse .inFlight := by
  rw [judgeClass, if_neg (by omega), if_neg hfull.not_gt, hpolicy, hold]
  cases hx : x.state <;> simp [hx]

theorem oldestOf_of_split {st : Store} {c : Fin 4} {pre post : List StoreRecord} {x : StoreRecord}
    (hindex : st.index = pre ++ x :: post) (hx : x.head.cls = c) (hpre : ∀ y ∈ pre, y.head.cls ≠ c) :
    oldestOf st c = some x := by
  have no_older : pre.find? (fun r => decide (r.head.cls = c)) = none :=
    List.find?_eq_none.2 fun y hy => by simpa using hpre y hy
  rw [oldestOf, hindex, List.find?_append, no_older, Option.none_or, List.find?_cons_of_pos (by simpa using hx)]

/-! ## The lowest-numbered free slot (R142) -/

theorem lowestUnused_eq {used : List Nat} {slot : Nat} (hfree : slot ∉ used) :
    ∀ fuel k, k ≤ slot → slot ≤ k + fuel → (∀ j, k ≤ j → j < slot → j ∈ used) → lowestUnused used fuel k = slot
  | 0, k, hk, hfuel, _ => by rw [lowestUnused]; omega
  | fuel + 1, k, hk, hfuel, hused => by
    rcases hk.eq_or_lt with rfl | hlt
    · exact if_neg hfree
    · rw [lowestUnused, if_pos (hused k le_rfl hlt)]
      exact lowestUnused_eq hfree fuel (k + 1) hlt (by omega) fun j hj => hused j (by omega)

/-- A free port holds no slot, and no more slots can stand before a free one than are in use. -/
theorem lowestFreeSlot_of_first {st : Store} {slot : Nat} (hport : st.port = none)
    (hfree : ∀ x ∈ st.index, x.slot ≠ slot) (hbelow : ∀ j < slot, ∃ x ∈ st.index, x.slot = j) :
    lowestFreeSlot st = slot := by
  have used : usedSlots st = st.index.map (·.slot) := by simp [usedSlots, hport]
  have free : slot ∉ usedSlots st := by
    rw [used, List.mem_map]
    exact fun ⟨x, hx, e⟩ => hfree x hx e
  have taken {j : Nat} (hj : j < slot) : j ∈ usedSlots st := by
    rw [used, List.mem_map]
    exact hbelow j hj
  have enough : slot ≤ (usedSlots st).length := by
    have within : List.range slot ⊆ usedSlots st := fun j hj => taken (List.mem_range.1 hj)
    simpa using (List.nodup_range.subperm within).length_le
  exact lowestUnused_eq free _ 0 (Nat.zero_le _) (by omega) fun j _ hj => taken hj

/-! ## What a free port grants (R141, R159) -/

theorem grantPort_of_busy {s : State} (h : s.store.port ≠ none) : grantPort s = s := by
  unfold grantPort
  cases hp : s.store.port with
  | none => exact absurd hp h
  | some => rfl

theorem grantPort_of_free {s : State} (hport : s.store.port = none) (hstate : s.store.state = .normal) :
    grantPort s =
      if (judgeQueue s.store.appendQueue s).store.port.isSome then judgeQueue s.store.appendQueue s
      else grantRead (judgeQueue s.store.appendQueue s) := by
  unfold grantPort
  simp only [hport, hstate, if_true]
  cases (judgeQueue s.store.appendQueue s).store.port <;> rfl

/-- A refusal by judging: counted, and CLASS_FULL with its flag armed (R142, R144). -/
theorem refuseRecord_eq (s : State) (r : Record) (cause : RefuseCause) : refuseRecord s r cause =
    { s with
      store := { s.store with
        classes := s.store.classes.set r.head.cls
          { countRefusal s.store.classes[r.head.cls] cause with fullArmed := false } }
      events :=
        if s.store.classes[r.head.cls].fullArmed then
          postEvent s.events
            { kind := .classFull, timeTag := s.clock.value, parameter := r.head.number,
              detail := r.head.cls.val * 16 + causeCode cause }
        else s.events } := by
  unfold refuseRecord
  by_cases h : s.store.classes[r.head.cls].fullArmed = true
  · rw [if_pos h, if_pos h]
    rfl
  · rw [if_neg h, if_neg h]
    rfl

/-- Judging reads nothing of the append queue but the records it is given. -/
theorem judgeQueue_setAppendQueue (rs q : List Record) (s : State) :
    judgeQueue rs (s.setStore { s.store with appendQueue := q }) = judgeQueue rs s := by
  induction rs generalizing s with
  | nil => rfl
  | cons r rest ih =>
    have same : judgeClass (s.setStore { s.store with appendQueue := q }).store r.head.cls =
      judgeClass s.store r.head.cls := rfl
    have refusal (cause : RefuseCause) : refuseRecord (s.setStore { s.store with appendQueue := q }) r cause =
        (refuseRecord s r cause).setStore { (refuseRecord s r cause).store with appendQueue := q } := by
      rw [refuseRecord_eq, refuseRecord_eq]
      rfl
    rw [judgeQueue, judgeQueue, same]
    cases judgeClass s.store r.head.cls with
    | place => rfl
    | overwrite number => rfl
    | refuse cause => exact (congrArg (judgeQueue rest) (refusal cause)).trans (ih _)

section
variable {s : State} {r : Record} {rest : List Record} (hport : s.store.port = none)
  (hstate : s.store.state = .normal) (hqueue : s.store.appendQueue = r :: rest)
include hport hstate hqueue

/-- A record that is placed takes the port. -/
theorem grantPort_of_placed {t : State} (hjudged : judgeQueue (r :: rest) s = placeRecord t r rest) :
    grantPort s = placeRecord t r rest := by
  rw [grantPort_of_free hport hstate, hqueue, hjudged]
  exact if_pos rfl

/-- After a refusal the next record is judged at once. -/
theorem grantPort_of_refused {cause : RefuseCause} (hjudged : judgeClass s.store r.head.cls = .refuse cause) :
    grantPort s =
      grantPort ((refuseRecord s r cause).setStore { (refuseRecord s r cause).store with appendQueue := rest }) := by
  have judged : judgeQueue (r :: rest) s = judgeQueue rest (refuseRecord s r cause) := by rw [judgeQueue, hjudged]
  have freed : (refuseRecord s r cause).store.port = none ∧ (refuseRecord s r cause).store.state = .normal := by
    rw [refuseRecord_eq]
    exact ⟨hport, hstate⟩
  generalize refuseRecord s r cause = u at judged freed
  have left : grantPort (u.setStore { u.store with appendQueue := rest }) = _ := grantPort_of_free freed.1 freed.2
  rw [grantPort_of_free hport hstate, hqueue, judged, left, setStore_store, judgeQueue_setAppendQueue]

end

/-- An overwrite discards its record alone. -/
theorem discardRecord_of_split {s : State} {pre post : List StoreRecord} {x : StoreRecord}
    (hindex : s.store.index = pre ++ x :: post) (hother : ∀ y ∈ pre ++ post, y.head.number ≠ x.head.number) (c : Fin 4) :
    discardRecord s c x.head.number = { s with
      store := { s.store with
        index := pre ++ post
        classes := s.store.classes.set c
          { s.store.classes[c] with overwritten := bump s.store.classes[c].overwritten } } } := by
  have kept : s.store.index.filter (fun r => decide (r.head.number ≠ x.head.number)) = pre ++ post := by
    rw [hindex, List.filter_append, List.filter_cons_of_neg (by simp), ← List.filter_append,
      List.filter_eq_self.2 fun y hy => by simpa using hother y hy]
  unfold discardRecord
  simp only [kept]
  rfl

theorem waitingRead_of_none {u : Uploader} (h : ∀ b ∈ u.batches, b.stage ≠ .reading) : waitingRead u = none := by
  have absent : u.batches.find? (fun b => decide (b.stage = .reading)) = none :=
    List.find?_eq_none.2 fun b hb => by simpa using h b hb
  rw [waitingRead, absent]

theorem waitingRead_of_first {u : Uploader} {pre post : List Batch} {b : Batch} {n : Nat}
    (hbatches : u.batches = pre ++ b :: post) (hpre : ∀ x ∈ pre, x.stage ≠ .reading) (hb : b.stage = .reading)
    (hn : b.records[b.copies.length]? = some n) : waitingRead u = some (n, b.number) := by
  have no_earlier : pre.find? (fun b => decide (b.stage = .reading)) = none :=
    List.find?_eq_none.2 fun x hx => by simpa using hpre x hx
  have found : u.batches.find? (fun b => decide (b.stage = .reading)) = some b := by
    rw [hbatches, List.find?_append, no_earlier, Option.none_or, List.find?_cons_of_pos (by simpa using hb)]
  rw [waitingRead, found]
  simp only [hn, Option.map_some]

/-- With no record to judge the port turns to the uploader's read. -/
theorem grantPort_eq_grantRead {s : State} (hport : s.store.port = none)
    (h : s.store.appendQueue = [] ∨ s.store.state = .halted) : grantPort s = grantRead s := by
  cases hstate : s.store.state with
  | halted =>
    unfold grantPort
    simp only [hport, hstate, reduceCtorEq, if_false]
  | normal =>
    have hempty : s.store.appendQueue = [] := h.resolve_right (by simp [hstate])
    have same : judgeQueue s.store.appendQueue s = s := by
      rw [hempty]
      show s.setStore { s.store with appendQueue := [] } = s
      rw [← hempty]
      rfl
    rw [grantPort_of_free hport hstate, same, hport]
    rfl

/-- Settles O22: the head is refused, placed or overwrites, by the table of R142; else the waiting read is granted. -/
theorem freePortJudgesTheAppendQueueAndGrants : Obligations.FreePortJudgesTheAppendQueueAndGrants := by
  refine ⟨fun s r rest hport hstate hqueue => ?judges, fun s hport hidle => ⟨fun hnone => ?_,
    fun pre b post n hbatches hpre hb hn => ?_⟩, fun s => grantPort_of_busy⟩
  case judges =>
    intro c k full lowestFree refused
    have hcount : classCount s.store c = s.store.index.countP (fun x => decide (x.head.cls = c)) :=
      classCount_eq_of_free hport c
    have refuses {cause : RefuseCause} (h : judgeClass s.store c = .refuse cause) :
        grantPort s = grantPort (refused (causeCode cause) (countRefusal k cause)) := by
      rw [grantPort_of_refused hport hstate hqueue h, refuseRecord_eq]
      rfl
    have oldest {pre post : List StoreRecord} {x : StoreRecord} (hindex : s.store.index = pre ++ x :: post)
        (hx : x.head.cls = c) (hpre : ∀ y ∈ pre, y.head.cls ≠ c) (hquota : 0 < k.quota) (hfull : full)
        (hring : k.policy = .ring) :
        judgeClass s.store c = if x.state = .stored then .overwrite x.head.number else .refuse .inFlight :=
      judgeClass_of_ring hquota (hcount ▸ hfull) hring (oldestOf_of_split hindex hx hpre)
    refine ⟨fun h => ?_, fun hroom slot hslot => ?_, fun hquota hfull hring pre x post hindex hx hpre =>
      ⟨fun hflight => ?_, fun hstored hother slot hslot => ?_⟩⟩
    · refine refuses (cause := .full) ?_
      rcases h with hzero | ⟨hfull, hlinear⟩
      · exact judgeClass_of_zero hzero
      · exact judgeClass_of_linear (hcount ▸ hfull) hlinear
    · have place : judgeClass s.store c = .place := judgeClass_of_room (hcount ▸ Nat.lt_of_not_le hroom)
      rw [grantPort_of_placed hport hstate hqueue (t := s) (by rw [judgeQueue, place]), placeRecord,
        lowestFreeSlot_of_first hport hslot.1 hslot.2]
      rfl
    · exact refuses ((oldest hindex hx hpre hquota hfull hring).trans (if_neg (by simp [hflight])))
    · have overwrite : judgeClass s.store c = .overwrite x.head.number :=
        (oldest hindex hx hpre hquota hfull hring).trans (if_pos hstored)
      rw [grantPort_of_placed hport hstate hqueue (t := discardRecord s c x.head.number) (by rw [judgeQueue, overwrite]),
        discardRecord_of_split hindex hother, placeRecord,
        lowestFreeSlot_of_first (st := { s.store with index := pre ++ post, classes := _ }) hport hslot.1 hslot.2]
      rfl
  · rw [grantPort_eq_grantRead hport hidle, grantRead, waitingRead_of_none hnone]
  · rw [grantPort_eq_grantRead hport hidle, grantRead, waitingRead_of_first hbatches hpre hb hn]
    rfl

end Sys2Proof.Machine
end

