-- ==== Sys2Proof/Proofs/SegmentSteps.lean ====
section
/-! SUPPORT. The segment tracker and the end of the route (R73, R76, R123 to R127): deadline, close walk and the two
closing records. Settles O24, O25 and O26. -/

namespace Sys2Proof.Machine

/-! ## The deadline (R123) -/

theorem recompute_of_none {g : Segment} (h : g.state ≠ .active ∨ g.autoClose = false) :
    recompute g = { g with deadline := none, deadlineReason := none } := by
  refine if_neg ?_
  rintro ⟨hactive, hauto⟩
  exact h.elim (· hactive) fun hoff => by simp [hoff] at hauto

section
variable {g : Segment} (hactive : g.state = .active) (hauto : g.autoClose = true)
include hactive hauto

theorem recompute_of_unheard (hunheard : 0 < g.unheard) : recompute g = { g with
    deadline := some (max (g.lastHeard.getD 0 + g.quietTime * 1000) (g.activation.getD 0 + g.minDwell * 1000))
    deadlineReason := some .auto } := by
  rw [recompute, if_pos ⟨hactive, hauto⟩]
  exact if_pos hunheard

theorem recompute_of_complete (hcomplete : g.unheard = 0) : recompute g = { g with
    deadline := some (g.activation.getD 0 + g.minDwell * 1000), deadlineReason := some .complete } := by
  rw [recompute, if_pos ⟨hactive, hauto⟩]
  exact if_neg (by omega)

end

/-! ## The entries of a walk (R125, R126) -/

theorem entryFrom_zero (n : Nat) (l : List Entry) (i : Nat) :
    entryFrom n 0 l i = (l.findIdx? fun e => decide (e.segment = n)).map (· + i) := by
  induction l generalizing i with
  | nil => rfl
  | cons e rest ih =>
    by_cases h : e.segment = n
    · simp [entryFrom, List.findIdx?_cons, h]
    · simp [entryFrom, List.findIdx?_cons, h, ih, Function.comp_def, Nat.add_assoc, Nat.add_comm 1 i]

/-- The next entry of a segment is the first index from the start on whose entry belongs to it. -/
theorem entryFrom_eq_find (n start : Nat) (l : List Entry) (i : Nat) :
    entryFrom n start l i = (List.range' i l.length).find? fun q =>
      decide (start ≤ q) && decide (l[q - i]?.map (·.segment) = some n) := by
  induction l generalizing i with
  | nil => rfl
  | cons e rest ih =>
    have later : (List.range' (i + 1) rest.length).find?
          (fun q => decide (start ≤ q) && decide (rest[q - (i + 1)]?.map (·.segment) = some n)) =
        (List.range' (i + 1) rest.length).find?
          (fun q => decide (start ≤ q) && decide ((e :: rest)[q - i]?.map (·.segment) = some n)) := by
      refine List.find?_congr fun q hq => ?_
      have hq' : i + 1 ≤ q := (List.mem_range'_1.1 hq).1
      rw [show q - i = q - (i + 1) + 1 by omega, List.getElem?_cons_succ]
    rw [entryFrom, ih, later, List.length_cons, List.range'_succ, List.find?_cons]
    by_cases h : start ≤ i ∧ e.segment = n
    · simp [h]
    · rw [if_neg h]
      have : (decide (start ≤ i) && decide ((e :: rest)[i - i]?.map (·.segment) = some n)) = false := by
        simpa using h
      rw [this]

theorem entryFrom_onward (n p : Nat) (l : List Entry) :
    entryFrom n (p + 1) l 0 = (List.range l.length).find? fun q =>
      decide (p < q) && decide (l[q]?.map (·.segment) = some n) := by
  rw [entryFrom_eq_find, List.range_eq_range']
  rfl

/-- The walk reads nothing of an entry but its segment. -/
theorem entryFrom_set {l : List Entry} {p : Nat} {e x : Entry} (he : l[p]? = some e) (hx : x.segment = e.segment)
    (n start : Nat) : entryFrom n start (l.set p x) 0 = entryFrom n start l 0 := by
  rw [entryFrom_eq_find, entryFrom_eq_find, List.length_set]
  refine List.find?_congr fun q _ => ?_
  rw [Nat.sub_zero, List.getElem?_set]
  split
  · rename_i heq
    subst heq
    obtain ⟨hp, -⟩ := List.getElem?_eq_some_iff.1 he
    rw [if_pos hp, he, Option.map_some, Option.map_some, hx]
  · rfl

/-! ## SEGMENT_DEADLINE_EXPIRY (R124, R125) -/

/-- Settles O24: `recompute` by its branches, and the start of a close at the deadline. -/
theorem segmentDeadlineAndItsExpiry : Obligations.SegmentDeadlineAndItsExpiry := by
  refine ⟨fun g => ?_, fun s n d g reason hrun hg hactive hdeadline hreason => ?_⟩
  · intro dwell
    refine ⟨recompute_of_none, fun a h hactive hauto ha hh => ⟨fun hunheard => ?_, fun hcomplete => ?_⟩⟩
    · rw [recompute_of_unheard hactive hauto hunheard, ha, hh]
      rfl
    · rw [recompute_of_complete hactive hauto hcomplete, ha]
      rfl
  · have expires : exec (.segmentDeadlineExpiry n) s =
        .next (if d ≤ s.clock.value then startClose s n reason else s) := by
      have reads : deadlineExpiry s n = if d ≤ s.clock.value then startClose s n reason else s := by
        simp only [deadlineExpiry, hg, hactive, hdeadline, hreason, Option.getD_some]
      rw [← reads]
      exact whenRunning_of_running hrun (fun s => deadlineExpiry s n)
    have walk : entryFrom n 0 s.book 0 = s.book.findIdx? fun e => decide (e.segment = n) := by
      rw [entryFrom_zero]
      simp
    refine ⟨fun hdue => ?_, fun hearly => expires.trans (congrArg _ (if_neg hearly.not_ge))⟩
    rw [expires, if_pos hdue, startClose, notifySegment_of_record hg, closeStart, walk]
    rfl

/-! ## CLOSE_WALK_VISIT (R126) -/

theorem builderReady_iff (s : State) : builderReady s = true ↔ s.builder.held = [] ∧ s.builder.limitFlag = false := by
  simp [builderReady]

theorem handMissed_of_ready {s : State} {n p : Nat} {g : Segment} (hready : builderReady s = true)
    (hg : s.segments[n]? = some g) (w : WaitingMissed) :
    handMissed s n p w =
      takeGroup (s.setSegments (s.segments.set n (walkOn s.book n p g))) [missedDraft n w] := by
  rw [handMissed, if_pos hready, notifySegment_of_record hg]

theorem handMissed_of_waiting {s : State} (hready : ¬ builderReady s = true) (n p : Nat) (w : WaitingMissed) :
    handMissed s n p w = s := if_neg hready

section
variable {s : State} {n p : Nat} {g : Segment} (hg : s.segments[n]? = some g) (hclosing : g.state = .closing)
  (hwalk : g.walkPosition = some p)
include hg hclosing hwalk

theorem walkVisit_of_waiting {w : WaitingMissed} (hw : g.waiting = some w) : walkVisit s n = handMissed s n p w := by
  simp only [walkVisit, hg, hclosing, hwalk, hw]

theorem walkVisit_of_entry {e : Entry} (hw : g.waiting = none) (he : s.book[p]? = some e) :
    walkVisit s n = if walkMisses n e then missEntry s n p g e else s.setSegment n (walkOn s.book n p g) := by
  simp only [walkVisit, hg, hclosing, hwalk, hw, he]

end

theorem noteMiss_of_closing {g : Segment} (h : g.state = .closing) : noteMiss g =
    { g with unheard := g.unheard - 1, missed := g.missed + 1, deadline := none, deadlineReason := none } :=
  recompute_of_none (g := { g with unheard := g.unheard - 1, missed := g.missed + 1 }) (.inl (by simp [h]))

/-- Settles O25: a visit by its three ways, and the end of the close. -/
theorem closeWalkVisitsItsEntriesAndEnds : Obligations.CloseWalkVisitsItsEntriesAndEnds := by
  refine ⟨fun s n p g hrun hset hg hclosing hwalk => ?visits, fun s n g reason hrun hg hclosing hwalk hreason hheld
    hlimit => ?ends, fun s n hrun hset hnot => ?waits⟩
  case visits =>
    intro onward ready missed
    have hready : ready ↔ builderReady s = true := (builderReady_iff s).symm
    have visit {t : State} (h : walkVisit s n = t) : exec (.closeWalkVisit n) s = .next (kickTrunk t) := by
      rw [← h]
      exact whenRunning_of_running hrun (fun s => kickTrunk (walkVisit s n))
    have moved : walkOn s.book n p g = { g with walkPosition := onward, waiting := none } := by
      rw [walkOn, entryFrom_onward]
    refine ⟨fun w hw => ?_, fun e hw he hsegment => ⟨fun hpassed => ?_, fun hmember hunheard => ?_⟩⟩
    · have hvisit := walkVisit_of_waiting hg hclosing hwalk hw
      refine ⟨fun hr => visit ?_, fun hr => ?_⟩
      · rw [hvisit, handMissed_of_ready (hready.1 hr) hg, moved]
        rfl
      · rw [visit (hvisit.trans (handMissed_of_waiting (mt hready.2 hr) n p w)), kickTrunk_of_settled hset]
    · have passes : walkMisses n e = false := by
        simp only [walkMisses, isMember, hasHold]
        rcases hpassed with h | h <;> simp [h]
      rw [visit ((walkVisit_of_entry hg hclosing hwalk hw he).trans (if_neg (by simp [passes]))), moved]
      exact congrArg _ (kickTrunk_of_settled (s := s.setSegments _) hset)
    · intro w counted book
      have misses : walkMisses n e = true := by
        rw [walkMisses, isMember, hasHold, hmember, hsegment, hunheard]
        simp
      have hvisit : walkVisit s n = handMissed
          ((s.setBook book).setSegments (s.segments.set n { counted with waiting := some w })) n p w := by
        rw [walkVisit_of_entry hg hclosing hwalk hw he, if_pos misses, missEntry, noteMiss_of_closing hclosing]
        rfl
      generalize ht : (s.setBook book).setSegments (s.segments.set n { counted with waiting := some w }) = t at hvisit
      have tready : builderReady t = builderReady s := by rw [← ht]; rfl
      have tsegment : t.segments[n]? = some { counted with waiting := some w } := by
        rw [← ht]
        exact List.getElem?_set_self (List.getElem?_eq_some_iff.1 hg).1
      have tbook : entryFrom n (p + 1) t.book 0 = onward := by
        rw [← ht]
        exact (entryFrom_set (x := { e with hearing := .missed }) he rfl n (p + 1)).trans (entryFrom_onward n p s.book)
      refine ⟨fun hr => visit ?_, fun hr => ?_⟩
      · rw [hvisit, handMissed_of_ready (tready.trans (hready.1 hr)) tsegment, walkOn, tbook, ← ht]
        simp only [setSegments_segments, List.set_set]
        rfl
      · rw [visit (hvisit.trans (handMissed_of_waiting (tready ▸ mt hready.2 hr) n p w)), ← ht]
        exact congrArg _ (kickTrunk_of_settled (s := (s.setBook book).setSegments _) hset)
  case ends =>
    have ended : closeEnd s n = sendSegmentClosed
        (takeGroup (s.setSegment n { g with state := .closed, walkPosition := none }) [segmentDraft n g s.clock.value])
        n g := by
      rw [closeEnd, hg]
      exact if_pos ⟨hclosing, hwalk, builderReady_of hheld hlimit⟩
    have command : exec (.closeEnd n) s = .next (kickTrunk (closeEnd s n)) :=
      whenRunning_of_running hrun (fun s => kickTrunk (closeEnd s n))
    rw [command, ended, sendSegmentClosed, segmentDraft, hreason, ← hwalk]
    rfl
  case waits =>
    have not_ready : ¬ builderReady s = true := by
      rw [builderReady_iff]
      rintro ⟨hheld, hlimit⟩
      exact hnot.elim (· hheld) fun h => by simp [hlimit] at h
    have stays : closeEnd s n = s := by
      rw [closeEnd]
      split
      · rfl
      · exact if_neg fun h => not_ready h.2.2
    have command : exec (.closeEnd n) s = .next (kickTrunk (closeEnd s n)) :=
      whenRunning_of_running hrun (fun s => kickTrunk (closeEnd s n))
    rw [command, stays, kickTrunk_of_settled hset]

/-! ## ROUTE_END_RECORD and ROUTE_CLOCK_LIMIT (R73, R76) -/

theorem route_takeGroup (s : State) (group : List Draft) : (takeGroup s group).route = s.route := by
  obtain ⟨_, _, _, _, _, e⟩ := takeGroup_shape group s
  rw [e]

/-- Settles O26: the ROUTE record, then the clock and the route state; and CLOCK_LIMIT once for a route. -/
theorem routeEndAndClockLimit : Obligations.RouteEndAndClockLimit := by
  refine ⟨fun s hrun hending hclosed hheld hlimit => ?_, fun s hrun hset => ⟨fun hrunning hvalue hraised => ?_,
    fun hraised => ?_⟩⟩
  · intro members t
    have all : allClosed s = true := by simpa [allClosed] using hclosed
    have ended : routeEndRecord s =
        changeRoute (t.setClock { s.clock with running := false }) { t.route with state := .ended } :=
      if_pos ⟨hending, all, builderReady_of hheld hlimit⟩
    have command : exec .routeEndRecord s = .next (kickTrunk (routeEndRecord s)) :=
      whenRunning_of_running hrun (fun s => kickTrunk (routeEndRecord s))
    have same_route : t.route = s.route := route_takeGroup s _
    rw [command, ended, changeRoute, same_route]
    rfl
  · have raised : routeClockLimit s =
        raiseFault (s.setRoute { s.route with clockLimitRaised := true }) .clockLimit s.route.id :=
      if_pos ⟨hrunning, hvalue, hraised⟩
    have command : exec .routeClockLimit s = .next (kickTrunk (routeClockLimit s)) :=
      whenRunning_of_running hrun (fun s => kickTrunk (routeClockLimit s))
    rw [command, raised]
    rfl
  · have stays : routeClockLimit s = s := if_neg fun h => by simp [hraised] at h
    have command : exec .routeClockLimit s = .next (kickTrunk (routeClockLimit s)) :=
      whenRunning_of_running hrun (fun s => kickTrunk (routeClockLimit s))
    rw [command, stays, kickTrunk_of_settled hset]

end Sys2Proof.Machine
end

