-- ==== Sys2Proof/Proofs/StoreCompletions.lean ====
section
/-! SUPPORT. The completions of the record memory port (R143, R146, R159): a write stored or lost, and a read that gives
its copy. Settles O27 and O28. -/

namespace Sys2Proof.Machine

/-! ## Shapes -/

theorem raiseFault_setStore (s : State) (x : Store) (k : FaultKind) (p : Nat) :
    (raiseFault s k p).setStore x = raiseFault (s.setStore x) k p := rfl

theorem bumpTo_of_lt {limit n : Nat} (h : n < limit) : bumpTo limit n = n + 1 := if_pos h

theorem stopStore_eq (s : State) : stopStore s = { s with
    store := { s.store with
      state := .halted, appendQueue := []
      refusedHalted := min (s.store.refusedHalted + s.store.appendQueue.length) 4294967295 } } := rfl

theorem rearmClass_eq (s : State) (c : Fin 4) : rearmClass s c = { s with
    store := { s.store with
      classes :=
        if classCount s.store c * 8 < s.store.classes[c].quota * 7 then
          s.store.classes.set c { s.store.classes[c] with fullArmed := true }
        else s.store.classes } } := by
  rw [rearmClass]
  by_cases h : classCount s.store c * 8 < s.store.classes[c].quota * 7
  · rw [if_pos h, if_pos h]
    rfl
  · rw [if_neg h, if_neg h]

/-! ## WRITE_COMPLETION (R143, R144) -/

theorem writeDone_eq (s : State) (r : Record) (slot : Nat) : writeDone s r slot = { s with
    memory := writeSlot s.memory slot (encodeRecord r)
    store := { s.store with
      index := s.store.index ++ [{ head := r.head, slot := slot, length := (encodeRecord r).length, state := .stored }]
      port := none
      failStreak := 0
      classes := s.store.classes.set r.head.cls
        { s.store.classes[r.head.cls] with appended := bump s.store.classes[r.head.cls].appended } } } := rfl

/-- The freed slot counts in no class (R139), so the flag is armed by the store's records alone. -/
theorem dropWrite_eq (s : State) (c : Fin 4) : dropWrite s c = { s with
    store := { s.store with
      port := none
      writeFail := bump s.store.writeFail
      classes :=
        if s.store.index.countP (fun x => decide (x.head.cls = c)) * 8 < s.store.classes[c].quota * 7 then
          s.store.classes.set c { s.store.classes[c] with fullArmed := true }
        else s.store.classes } } := by
  rw [dropWrite, rearmClass_eq, classCount_eq_of_free rfl]
  rfl

/-- A failure below the fourth in a row leaves the store as it is. -/
theorem strikeWrite_of_lt {s : State} (h : s.store.failStreak < 3) (c : Fin 4) :
    strikeWrite s c = s.setStore { s.store with failStreak := s.store.failStreak + 1 } := by
  have rises : bumpTo 4 s.store.failStreak = s.store.failStreak + 1 := bumpTo_of_lt (by omega)
  rw [strikeWrite, rises]
  exact if_neg fun hfour => absurd hfour.1 (show s.store.failStreak + 1 ≠ 4 by omega)

theorem strikeWrite_of_third {s : State} (h : s.store.failStreak = 3) (hstate : s.store.state = .normal) (c : Fin 4) :
    strikeWrite s c = haltStore (s.setStore { s.store with failStreak := 4 }) c := by
  have rises : bumpTo 4 s.store.failStreak = 4 := by rw [h]; rfl
  rw [strikeWrite, rises]
  exact if_pos ⟨rfl, hstate⟩

theorem exec_writeCompletion {s : State} {r : Record} {slot : Nat} (hrun : Running s)
    (hport : s.store.port = some (.write r slot)) (ok : Bool) :
    exec (.writeCompletion ok) s =
      .next (kickBoth (settleStore (if ok then writeDone s r slot else writeFailed s r))) := by
  have completes : writeCompletion s ok = settleStore (if ok then writeDone s r slot else writeFailed s r) := by
    simp only [writeCompletion, hport]
  rw [← completes]
  exact whenRunning_of_running hrun (fun s => kickBoth (writeCompletion s ok))

/-- Settles O27: the record stored, or dropped with its fault and the streak, whose fourth failure halts the store. -/
theorem writeCompletionStoresOrLosesTheRecord : Obligations.WriteCompletionStoresOrLosesTheRecord := by
  refine ⟨fun s r slot hrun hport => ?_, fun s r slot hrun hport hstate hstreak => ?_⟩
  · intro c
    rw [exec_writeCompletion hrun hport, if_pos rfl, writeDone_eq]
  · intro c k count lost
    have struck {v : State} (h : strikeWrite (raiseFault (dropWrite s c) .recordWriteFail r.head.number) c = v) :
        exec (.writeCompletion false) s = .next (kickBoth (settleStore v)) := by
      rw [exec_writeCompletion hrun hport, if_neg Bool.false_ne_true, writeFailed, h]
    have dropped : (dropWrite s c).store.failStreak = s.store.failStreak ∧ (dropWrite s c).store.state = .normal := by
      rw [dropWrite_eq]
      exact ⟨rfl, hstate⟩
    have losing (streak : Nat) :
        (raiseFault (dropWrite s c) .recordWriteFail r.head.number).setStore
          { (dropWrite s c).store with failStreak := streak } = lost streak := by
      rw [raiseFault_setStore, dropWrite_eq]
      rfl
    refine ⟨fun hlow => struck ?_, fun hthird => ?_⟩
    · rw [strikeWrite_of_lt (by rw [store_raiseFault, dropped.1]; exact hlow), store_raiseFault, losing, dropped.1]
    · intro halted
      refine struck ?_
      rw [strikeWrite_of_third (by rw [store_raiseFault, dropped.1]; exact hthird)
        (by rw [store_raiseFault]; exact dropped.2), store_raiseFault, losing, haltStore, stopStore_eq]
      rfl

/-! ## READ_COMPLETION (R146, R159) -/

theorem exec_readCompletion {s : State} {number : Nat} {batch : Option Nat} (hrun : Running s)
    (hport : s.store.port = some (.read number batch)) (ok : Bool) :
    exec (.readCompletion ok) s = .next (kickBoth (settleStore (finishRead s number batch ok))) := by
  have completes : readCompletion s ok = settleStore (finishRead s number batch ok) := by
    simp only [readCompletion, hport]
  rw [← completes]
  exact whenRunning_of_running hrun (fun s => kickBoth (readCompletion s ok))

theorem finishRead_true (s : State) (number : Nat) (batch : Option Nat) : finishRead s number batch true = { s with
    store := { s.store with port := none }
    uploader := deliverCopy s.uploader batch (copyOf s number true) } := rfl

theorem finishRead_false (s : State) (number : Nat) (batch : Option Nat) : finishRead s number batch false =
    { raiseFault { s with store := { s.store with port := none, readFail := bump s.store.readFail } }
        .recordReadFail number with
      uploader := deliverCopy s.uploader batch (copyOf s number false) } := rfl

theorem copyOf_of_found {s : State} {number : Nat} {x : StoreRecord}
    (h : s.store.index.find? (fun y => decide (y.head.number = number)) = some x) (ok : Bool) :
    copyOf s number ok = if ok then readSlot s.memory x.slot x.length else encodeDamaged x.head := by
  simp only [copyOf, h]

theorem encodeDamaged_eq (h : RecordHead) :
    encodeDamaged h = 14 :: encodeHead { h with marks := h.marks ||| BitVec.twoPow 8 7 } := by
  rw [encodeDamaged, bigEndian_one]
  rfl

/-- The copy goes to the one batch in READING of that number (R159). -/
theorem deliverCopy_of_split {u : Uploader} {pre post : List Batch} {b : Batch} (hbatches : u.batches = pre ++ b :: post)
    (hother : ∀ y ∈ pre ++ post, y.number = b.number → y.stage ≠ .reading) (hb : b.stage = .reading)
    (copy : List Byte) : deliverCopy u (some b.number) copy = { u with
      batches := pre ++ { b with
        copies := b.copies ++ [copy]
        stage := if b.copies.length + 1 = b.records.length then .ready else .reading } :: post } := by
  have same {l : List Batch} (hl : ∀ y ∈ l, y.number = b.number → y.stage ≠ .reading) :
      l.map (fun y => if some y.number = some b.number ∧ y.stage = .reading then addCopy y copy else y) = l :=
    (List.map_congr_left fun y hy => if_neg fun h => hl y hy (Option.some.inj h.1) h.2).trans (List.map_id l)
  rw [deliverCopy, hbatches, List.map_append, List.map_cons, if_pos ⟨rfl, hb⟩,
    same fun y hy => hother y (List.mem_append_left _ hy), same fun y hy => hother y (List.mem_append_right _ hy),
    addCopy, hb]

theorem deliverCopy_none (u : Uploader) (copy : List Byte) : deliverCopy u none copy = u := by
  have same : u.batches.map (fun b => if some b.number = none ∧ b.stage = .reading then addCopy b copy else b) =
      u.batches :=
    (List.map_congr_left fun b _ => if_neg fun h => by simp at h).trans (List.map_id _)
  rw [deliverCopy, same]

/-- Settles O28: the port freed, the copy with its batch, and an uncorrectable read counted. -/
theorem readCompletionGivesTheBatchItsCopy : Obligations.ReadCompletionGivesTheBatchItsCopy := by
  refine ⟨fun s number x pre post b hrun hport hbatches hother hb hfound => ?_, fun s number hrun hport => ?_⟩
  · intro given u
    have delivers (copy : List Byte) : deliverCopy s.uploader (some b.number) copy = u copy :=
      deliverCopy_of_split hbatches hother hb copy
    rw [exec_readCompletion hrun hport, exec_readCompletion hrun hport, finishRead_true, finishRead_false, delivers,
      delivers, copyOf_of_found hfound, copyOf_of_found hfound, if_pos rfl, if_neg Bool.false_ne_true, encodeDamaged_eq]
    exact ⟨rfl, rfl⟩
  · rw [exec_readCompletion hrun hport, exec_readCompletion hrun hport, finishRead_true, finishRead_false,
      deliverCopy_none, deliverCopy_none]
    exact ⟨rfl, rfl⟩

end Sys2Proof.Machine
end

