-- ==== Sys2Proof/Proofs/BatchFormation.lean ====
section
/-! SUPPORT. The depot uploader's select and the formation of a batch (R145, R156 to R158). Settles O38. -/

namespace Sys2Proof.Machine

/-! ## select (R145, R158) -/

theorem selectFrom_of_fits {c : Fin 4} {r : StoreRecord} {rest : List StoreRecord} {room used : Nat}
    (h : r.head.cls = c ∧ r.state = .stored) (hfits : used + r.length ≤ 1400) :
    selectFrom c (r :: rest) (room + 1) used = r.head.number :: selectFrom c rest room (used + r.length) := by
  rw [selectFrom, if_pos h]
  exact if_pos hfits

theorem selectFrom_of_large {c : Fin 4} {r : StoreRecord} {rest : List StoreRecord} {room used : Nat}
    (h : r.head.cls = c ∧ r.state = .stored) (hlarge : 1400 < used + r.length) :
    selectFrom c (r :: rest) (room + 1) used = [] := by
  rw [selectFrom, if_pos h]
  exact if_neg hlarge.not_ge

theorem selectFrom_of_other {c : Fin 4} {r : StoreRecord} {rest : List StoreRecord} {room used : Nat}
    (h : ¬ (r.head.cls = c ∧ r.state = .stored)) :
    selectFrom c (r :: rest) (room + 1) used = selectFrom c rest (room + 1) used := by
  rw [selectFrom, if_neg h]

/-- The records a select takes are the longest run from the oldest on that fits the payload. -/
theorem selectFrom_eq_take (c : Fin 4) (index : List StoreRecord) (room used : Nat) :
    let all := (index.filter (fun r => decide (r.head.cls = c) && decide (r.state = .stored))).take room
    let size (m : Nat) : Nat := used + ((all.take m).map (·.length)).sum
    ∃ m ≤ all.length, selectFrom c index room used = (all.take m).map (·.head.number)
      ∧ (0 < m → size m ≤ 1400) ∧ (m < all.length → 1400 < size (m + 1)) := by
  induction index generalizing room used with
  | nil => exact ⟨0, Nat.zero_le _, rfl, nofun, by simp⟩
  | cons r rest ih =>
    cases room with
    | zero => exact ⟨0, Nat.zero_le _, rfl, nofun, by simp⟩
    | succ room =>
      by_cases h : r.head.cls = c ∧ r.state = .stored
      · rw [List.filter_cons_of_pos (by simpa using h), List.take_succ_cons]
        by_cases hfits : used + r.length ≤ 1400
        · obtain ⟨m, hm, hselect, hsize, hlast⟩ := ih room (used + r.length)
          have size_succ (l : List StoreRecord) (m : Nat) : used + (((r :: l).take (m + 1)).map (·.length)).sum =
              used + r.length + ((l.take m).map (·.length)).sum := by
            rw [List.take_succ_cons, List.map_cons, List.sum_cons, Nat.add_assoc]
          refine ⟨m + 1, Nat.succ_le_succ hm, ?_, fun _ => ?_, fun hlt => ?_⟩
          · rw [selectFrom_of_fits h hfits, hselect, List.take_succ_cons, List.map_cons]
          · rcases Nat.eq_zero_or_pos m with rfl | hpos
            · simpa using hfits
            · exact (size_succ _ m).trans_le (hsize hpos)
          · exact (hlast (Nat.lt_of_succ_lt_succ hlt)).trans_eq (size_succ _ (m + 1)).symm
        · exact ⟨0, Nat.zero_le _, selectFrom_of_large h (by omega), nofun, fun _ => by simpa using hfits⟩
      · rw [List.filter_cons_of_neg (by simpa using h), selectFrom_of_other h]
        exact ih (room + 1) used

/-! ## The formation of a batch (R156, R157) -/

theorem slotOpen_of_interval {u : Uploader} {now : Nat} (hpacing : 0 < u.pacing)
    (h : ∀ t, u.lastStart = some t → t * u.pacing + 1000 ≤ now * u.pacing) : slotOpen u now = true := by
  unfold slotOpen
  split
  · rfl
  · rename_i t ht
    rw [decide_eq_true_iff, slotInterval]
    obtain ⟨k, rfl⟩ := Nat.exists_eq_add_of_le (Nat.le_of_mul_le_mul_right (Nat.le_of_add_right_le (h t ht)) hpacing)
    have apart := h t ht
    rw [Nat.add_mul] at apart
    have within : (1000 + u.pacing - 1) / u.pacing < k + 1 := by
      rw [Nat.div_lt_iff_lt_mul hpacing, Nat.add_mul]
      omega
    omega

theorem servable_iff (s : State) (c : Fin 4) : servable s c = true ↔
    s.uploader.classMask.getLsbD c.val = true ∧ ∃ r ∈ s.store.index, r.head.cls = c ∧ r.state = .stored := by
  simp [servable, stateCount, List.countP_pos_iff]

/-- The first of the classes with the highest priority stays the choice. -/
theorem foldl_betterClass {st : Store} {pre post : List (Fin 4)} {c : Fin 4}
    (hpre : ∀ d ∈ pre, st.classes[d].priority < st.classes[c].priority)
    (hpost : ∀ d ∈ post, st.classes[d].priority ≤ st.classes[c].priority) :
    (pre ++ c :: post).foldl (betterClass st) none = some c := by
  have before : ∀ (l : List (Fin 4)) (best : Option (Fin 4)),
      (∀ d ∈ l, st.classes[d].priority < st.classes[c].priority) →
      (∀ b, best = some b → st.classes[b].priority < st.classes[c].priority) →
      ∀ b, l.foldl (betterClass st) best = some b → st.classes[b].priority < st.classes[c].priority := by
    intro l
    induction l with
    | nil => exact fun _ _ hbest => hbest
    | cons d rest ih =>
      intro best hl hbest
      refine ih _ (fun x hx => hl x (List.mem_cons_of_mem _ hx)) fun b hb => ?_
      unfold betterClass at hb
      split at hb
      · cases hb
        exact hl d List.mem_cons_self
      · split at hb <;> cases hb
        · exact hl d List.mem_cons_self
        · exact hbest _ rfl
  have chosen : betterClass st (pre.foldl (betterClass st) none) c = some c := by
    have lower := before pre none hpre nofun
    unfold betterClass
    split
    · rfl
    · rename_i b hb
      exact if_pos (lower b hb)
  have after : ∀ l : List (Fin 4), (∀ d ∈ l, st.classes[d].priority ≤ st.classes[c].priority) →
      l.foldl (betterClass st) (some c) = some c := by
    intro l
    induction l with
    | nil => exact fun _ => rfl
    | cons d rest ih =>
      intro hl
      rw [List.foldl_cons, betterClass, if_neg (hl d List.mem_cons_self).not_gt]
      exact ih fun x hx => hl x (List.mem_cons_of_mem _ hx)
  rw [List.foldl_append, List.foldl_cons, chosen]
  exact after post hpost

theorem chooseClass_of_best {s : State} {c : Fin 4} (hc : servable s c = true)
    (hbest : ∀ d, servable s d = true → s.store.classes[d].priority < s.store.classes[c].priority
      ∨ (s.store.classes[d].priority = s.store.classes[c].priority ∧ c ≤ d)) : chooseClass s = some c := by
  have mem : c ∈ (List.finRange 4).filter (servable s) := List.mem_filter.2 ⟨List.mem_finRange c, hc⟩
  have sorted : ((List.finRange 4).filter (servable s)).Pairwise (· < ·) :=
    (List.pairwise_lt_finRange 4).filter _
  have all (d : Fin 4) (hd : d ∈ (List.finRange 4).filter (servable s)) : servable s d = true :=
    (List.mem_filter.1 hd).2
  unfold chooseClass
  obtain ⟨pre, post, hsplit⟩ := List.append_of_mem mem
  rw [hsplit] at sorted all ⊢
  obtain ⟨-, -, hlt⟩ := List.pairwise_append.1 sorted
  refine foldl_betterClass (fun d hd => ?_) fun d hd => ?_
  · have below : d < c := hlt d hd c List.mem_cons_self
    exact (hbest d (all d (List.mem_append_left _ hd))).resolve_right fun h => absurd h.2 below.not_ge
  · have := hbest d (all d (List.mem_append_right _ (List.mem_cons_of_mem _ hd)))
    omega

theorem mayForm_of {s : State} (hstate : s.uploader.state = .running)
    (hwindow : s.uploader.batches.length < s.uploader.window)
    (hreading : ∀ b ∈ s.uploader.batches, b.stage ≠ .reading) (hpacing : 0 < s.uploader.pacing)
    (hslot : slotOpen s.uploader s.timebase = true) : mayForm s = true := by
  simp only [mayForm, hstate, hwindow, hpacing, hslot, decide_true, Bool.and_true, Bool.true_and, List.all_eq_true,
    decide_eq_true_iff]
  exact hreading

/-- No judging is due where the port is busy or no record waits, so the open order is not reached (log entry 15). -/
theorem settleStore_of_no_judging {s : State} (h : s.store.port ≠ none ∨ s.store.appendQueue = []) :
    settleStore s = grantPort (tryForm (grantPort s)) := by
  have apart : ¬ selectMeetsJudging s = true := by
    rcases h with h | h
    · cases hp : s.store.port with
      | none => exact absurd hp h
      | some => simp [selectMeetsJudging, hp]
    · simp [selectMeetsJudging, h]
  rw [settleStore, if_neg apart]

/-- The new batch is the one in READING, and its first read waits. -/
theorem waitingRead_addBatch {u : Uploader} (h : ∀ b ∈ u.batches, b.stage ≠ .reading) (c : Fin 4) (numbers : List Nat)
    (now : Nat) :
    waitingRead (addBatch u c numbers now) = numbers.head?.map (fun number => (number, u.nextNumber)) := by
  have no_earlier : u.batches.find? (fun b => decide (b.stage = .reading)) = none :=
    List.find?_eq_none.2 fun b hb => by simpa using h b hb
  rw [waitingRead, addBatch, List.find?_append, no_earlier, List.head?_eq_getElem?]
  rfl

theorem next_batch_number (n : Nat) : (n + 1) % 256 = if n = 255 then 0 else (n + 1) % 256 := by
  split
  · rename_i h
    rw [h]
  · rfl

theorem grantRead_of_none {s : State} (h : waitingRead s.uploader = none) : grantRead s = s := by
  rw [grantRead, h]

theorem grantRead_of_some {s : State} {number batch : Nat} (h : waitingRead s.uploader = some (number, batch)) :
    grantRead s = s.setStore { s.store with port := some (.read number (some batch)) } := by
  rw [grantRead, h]

/-- Settles O38: `selectFrom_eq_take`, and the formation with the port's grant. -/
theorem batchIsSelectedWhenTheSlotOpens : Obligations.BatchIsSelectedWhenTheSlotOpens := by
  refine ⟨selectFrom_eq_take, fun s c hrun hset hport hstate hwindow hreading hpacing hslot => ?_⟩
  intro servable hc hbest numbers n
  have open_slot : slotOpen s.uploader s.timebase = true := slotOpen_of_interval hpacing hslot
  have chosen : chooseClass s = some c :=
    chooseClass_of_best ((servable_iff s c).2 hc) fun d hd => hbest d ((servable_iff s d).1 hd)
  have forms : tryForm s = formBatch s c := by
    rw [tryForm, if_pos (mayForm_of hstate hwindow hreading hpacing open_slot), chosen]
  have grants_nothing : grantPort s = s := by
    rcases hport with hbusy | hempty
    · exact grantPort_of_busy hbusy
    · cases hp : s.store.port with
      | some => exact grantPort_of_busy (by simp [hp])
      | none => rw [grantPort_eq_grantRead hp (.inl hempty), grantRead, waitingRead_of_none hreading]
  have settles : pacingSlotOpen s = grantPort (formBatch s c) := by
    rw [pacingSlotOpen, if_pos open_slot, settleStore_of_no_judging hport, grants_nothing, forms]
  have reads := waitingRead_addBatch hreading c numbers s.timebase
  have command : exec .pacingSlotOpen s = .next (kickBoth (pacingSlotOpen s)) :=
    whenRunning_of_running hrun (fun s => kickBoth (pacingSlotOpen s))
  have stays {t : State} (hup : t.depotUp = s.depotUp) (hdepot : t.depot = s.depot)
      (hbatches : t.uploader = addBatch s.uploader c numbers s.timebase) (htrunk : SameTrunk s t) : kickBoth t = t := by
    refine (settled_iff t).1 (settled_of_idle (fun h htx => ?_) (trunkIdle_of_same hset.1 htrunk))
    rw [hup] at h
    rw [hdepot] at htx ⊢
    obtain ⟨hreplies, hready⟩ := hset.2 h htx
    refine ⟨hreplies, fun b hb => ?_⟩
    rw [hbatches] at hb
    rcases List.mem_append.1 hb with hb | hb
    · exact hready b hb
    · rw [List.mem_singleton.1 hb]
      nofun
  have formed {x : Option PortAccess} (hx : s.store.port = x) : formBatch s c = { s with
      store := { s.store with index := markRecords s.store.index numbers .inFlight, port := x }
      uploader := addBatch s.uploader c numbers s.timebase } := by
    subst hx
    rfl
  rw [command, settles, ← next_batch_number]
  cases hp : s.store.port with
  | some x =>
    rw [grantPort_of_busy (by rw [show (formBatch s c).store.port = s.store.port from rfl, hp]; nofun),
      stays (t := formBatch s c) rfl rfl rfl ⟨rfl, rfl, rfl⟩, formed hp]
    rfl
  | none =>
    rw [grantPort_eq_grantRead (s := formBatch s c) hp (.inl (hport.resolve_left (not_not.2 hp)))]
    cases hhead : numbers.head? with
    | none =>
      rw [hhead] at reads
      rw [grantRead_of_none (s := formBatch s c) reads, stays (t := formBatch s c) rfl rfl rfl ⟨rfl, rfl, rfl⟩, formed hp]
      rfl
    | some number =>
      rw [hhead] at reads
      rw [grantRead_of_some (s := formBatch s c) reads, stays (t := (formBatch s c).setStore _) rfl rfl rfl ⟨rfl, rfl, rfl⟩]
      rfl

end Sys2Proof.Machine
end

