-- ==== Sys2Proof/Proofs/BatchEnds.lean ====
section
/-! SUPPORT. How a batch and an upload end (R160 to R167): the end of a depot frame, the ack timeout, the two answers to
a batch, and UPLOAD_STOP and UPLOAD_FINISH. Settles O39, O40, O42 and O43. -/

namespace Sys2Proof.Machine

/-! ## DEPOT_TX_FRAME_END (R160) -/

section
variable {s : State} (hrun : Running s)
include hrun

theorem exec_depotTxFrameEnd_of_frame {f : TxFrame} (htx : s.depot.tx = some f) (hf : isResetReply f = false) :
    exec .depotTxFrameEnd s = .next (kickBoth (afterDepotFrame (s.setDepot { s.depot with tx := none }) f)) := by
  have ends : depotFrameEnd s = kickBoth (afterDepotFrame (s.setDepot { s.depot with tx := none }) f) := by
    simp only [depotFrameEnd, htx, hf, Bool.false_eq_true, if_false]
  rw [← ends]
  exact whenRunning_of_running hrun depotFrameEnd

theorem exec_depotTxFrameEnd_of_none (htx : s.depot.tx = none) : exec .depotTxFrameEnd s = .next s := by
  have ends : depotFrameEnd s = s := by simp only [depotFrameEnd, htx]
  exact (whenRunning_of_running hrun depotFrameEnd).trans (congrArg _ ends)

end

theorem kickDepot_of_down {s : State} (h : s.depotUp = false) : kickDepot s = s := by
  rw [kickDepot, if_neg (by simp [h])]

section
variable {s : State} (hup : s.depotUp = true) (htx : s.depot.tx = none)
include hup htx

theorem kickDepot_of_reply {r : Reply} {rest : List Reply} (hreplies : s.depot.replies = r :: rest) :
    kickDepot s = s.setDepot { s.depot with replies := rest, tx := some (.reply r) } := by
  rw [kickDepot, if_pos hup]
  simp only [htx, hreplies]

variable (hreplies : s.depot.replies = [])
include hreplies

theorem kickDepot_of_ready {pre post : List Batch} {b : Batch} (hbatches : s.uploader.batches = pre ++ b :: post)
    (hpre : ∀ x ∈ pre, x.stage ≠ .ready) (hb : b.stage = .ready) :
    kickDepot s = (s.setDepot { s.depot with tx := some (.batch b.number (batchPayload b)) }).setUploader
      { s.uploader with batches := pre ++ { b with stage := .sending } :: post } := by
  have no_earlier : pre.find? (fun b => decide (b.stage = .ready)) = none :=
    List.find?_eq_none.2 fun x hx => by simpa using hpre x hx
  have found : s.uploader.batches.find? (fun b => decide (b.stage = .ready)) = some b := by
    rw [hbatches, List.find?_append, no_earlier, Option.none_or, List.find?_cons_of_pos (by simpa using hb)]
  have starts (l : List Batch) (hl : ∀ x ∈ l, x.stage ≠ .ready) :
      startSending (l ++ b :: post) = l ++ { b with stage := .sending } :: post := by
    induction l with
    | nil => exact if_pos hb
    | cons x l ih =>
      rw [List.cons_append, startSending, if_neg (hl x List.mem_cons_self), ih fun y hy => hl y (List.mem_cons_of_mem _ hy)]
      rfl
  rw [kickDepot, if_pos hup]
  simp only [htx, hreplies, found]
  rw [hbatches, starts pre hpre]

end

/-- The trunk has nothing new to choose where only the depot link and the uploader changed. -/
theorem kickBoth_of_same {s t u : State} (hs : Settled s) (h : kickDepot t = u) (hu : SameTrunk s u) :
    kickBoth t = u := by
  rw [kickBoth, h]
  exact kickTrunk_of_idle (trunkIdle_of_same hs.1 hu)

theorem batchSent_of_split {u : Uploader} {pre post : List Batch} {b : Batch} (hbatches : u.batches = pre ++ b :: post)
    (hother : ∀ y ∈ pre ++ post, y.number = b.number → y.stage ≠ .sending) (hb : b.stage = .sending) (now : Nat) :
    batchSent u b.number now = { u with
      sent := bump u.sent
      batches := pre ++ { b with stage := .waiting, ackDeadline := some (now + u.ackTimeout) } :: post } := by
  have same {l : List Batch} (hl : ∀ y ∈ l, y.number = b.number → y.stage ≠ .sending) :
      l.map (fun y => if y.number = b.number ∧ y.stage = .sending then
        { y with stage := .waiting, ackDeadline := some (now + u.ackTimeout) } else y) = l :=
    (List.map_congr_left fun y hy => if_neg fun h => hl y hy h.1 h.2).trans (List.map_id l)
  rw [batchSent, hbatches, List.map_append, List.map_cons, if_pos ⟨rfl, hb⟩,
    same fun y hy => hother y (List.mem_append_left _ hy), same fun y hy => hother y (List.mem_append_right _ hy)]

/-- Settles O39: what the sent frame does to its batch, then the depot transmitter's choice. -/
theorem depotFrameEndStartsTheAckTimeout : Obligations.DepotFrameEndStartsTheAckTimeout := by
  intro s hrun hset goesOn
  have goes (u : Uploader) (h : exec .depotTxFrameEnd s =
      .next (kickBoth ((s.setDepot { s.depot with tx := none }).setUploader u))) : goesOn u := by
    let t := (s.setDepot { s.depot with tx := none }).setUploader u
    have settles {v : State} (hv : kickDepot t = v) (htrunk : SameTrunk s v) : exec .depotTxFrameEnd s = .next v :=
      h.trans (congrArg _ (kickBoth_of_same hset hv htrunk))
    refine ⟨fun hdown => settles (kickDepot_of_down (s := t) hdown) ⟨rfl, rfl, rfl⟩, fun hup => ⟨fun r rest hreplies => ?_,
      fun hnone => ⟨fun pre b post hbatches hpre hb => ?_, fun hready => ?_⟩⟩⟩
    · exact settles (kickDepot_of_reply (s := t) hup rfl hreplies) ⟨rfl, rfl, rfl⟩
    · exact settles (kickDepot_of_ready (s := t) hup rfl hnone hbatches hpre hb) ⟨rfl, rfl, rfl⟩
    · exact settles (kickDepot_of_idle (s := t) fun _ _ => ⟨hnone, hready⟩) ⟨rfl, rfl, rfl⟩
  refine ⟨fun b payload pre post htx hbatches hother hb => goes _ ?_, fun r htx hr => goes _ ?_,
    exec_depotTxFrameEnd_of_none hrun⟩
  · rw [exec_depotTxFrameEnd_of_frame hrun htx rfl, ← batchSent_of_split hbatches hother hb s.timebase]
    rfl
  · have not_reset : isResetReply (.reply r) = false := by
      rw [isResetReply, Bool.and_eq_false_iff, decide_eq_false_iff_not, decide_eq_false_iff_not]
      exact hr
    exact exec_depotTxFrameEnd_of_frame hrun htx not_reset

/-! ## The waiting batch of a number (R161) -/

theorem waitsUnder_eq_false {number : Nat} {b : Batch} (h : b.number = number → b.stage ≠ .waiting) :
    waitsUnder number b = false := by
  simp only [waitsUnder, Bool.and_eq_false_iff, decide_eq_false_iff_not]
  exact not_and_or.1 fun e => h e.1 e.2

theorem waitingBatch_of_none {u : Uploader} {number : Nat}
    (h : ∀ b ∈ u.batches, b.number = number → b.stage ≠ .waiting) : waitingBatch u number = none :=
  List.find?_eq_none.2 fun b hb => Bool.eq_false_iff.1 (waitsUnder_eq_false (h b hb))

section
variable {u : Uploader} {number : Nat} {pre post : List Batch} {b : Batch} (hbatches : u.batches = pre ++ b :: post)
  (hpre : ∀ y ∈ pre, y.number = number → y.stage ≠ .waiting) (hnumber : b.number = number) (hb : b.stage = .waiting)
include hbatches hpre hnumber hb

theorem waitingBatch_of_first : waitingBatch u number = some b := by
  have no_earlier : pre.find? (waitsUnder number) = none :=
    List.find?_eq_none.2 fun y hy => Bool.eq_false_iff.1 (waitsUnder_eq_false (hpre y hy))
  rw [waitingBatch, hbatches, List.find?_append, no_earlier, Option.none_or,
    List.find?_cons_of_pos (by simp [waitsUnder, hnumber, hb])]

theorem withoutBatch_of_first : withoutBatch u b.number = { u with batches := pre ++ post } := by
  rw [hnumber, withoutBatch, hbatches,
    List.eraseP_append_right _ fun y hy => Bool.eq_false_iff.1 (waitsUnder_eq_false (hpre y hy)),
    List.eraseP_cons_of_pos (by simp [waitsUnder, hnumber, hb])]

end

/-! ## The end of an upload (R164, R167) -/

theorem markRecords_markRecords (index : List StoreRecord) (first second : List Nat) (x : StoredState) :
    markRecords (markRecords index first x) second x = markRecords index (first ++ second) x := by
  unfold markRecords
  rw [List.map_map]
  refine List.map_congr_left fun r _ => ?_
  by_cases h1 : r.head.number ∈ first <;> by_cases h2 : r.head.number ∈ second <;> simp [h1, h2]

theorem finishIfDrained_of_open {s : State} (h : s.uploader.state ≠ .draining ∨ s.uploader.batches ≠ []) :
    finishIfDrained s = s := if_neg fun e => h.elim (· e.1) (· e.2)

theorem finishIfDrained_of_drained {s : State} (hstate : s.uploader.state = .draining)
    (hbatches : s.uploader.batches = []) : finishIfDrained s =
      raiseEvent { s with uploader := { s.uploader with state := .idle, lastEnd := some .finished } }
        .uploadState s.uploader.released 1 := if_pos ⟨hstate, hbatches⟩

theorem endUpload_eq (s : State) (reason : EndReason) : endUpload s reason = raiseEvent { s with
    depot := { s.depot with tx := cutBatch s.depot.tx }
    store := { s.store with
      index := markRecords s.store.index (inFlightNumbers s.uploader) .stored
      port := orphanRead s.store.port }
    uploader := { s.uploader with batches := [], streak := 0, state := .idle, lastEnd := some reason } }
    .uploadState s.uploader.released (0 * 16 + endReasonCode reason) := rfl

/-! ## ACK_TIMEOUT (R163) -/

theorem ackPassed_of_deadline {b : Batch} {m now : Nat} (h : b.ackDeadline = some m) :
    ackPassed b now = decide (m ≤ now) := by
  simp only [ackPassed, h]

theorem exec_ackTimeout {s : State} (hrun : Running s) (number : Nat) :
    exec (.ackTimeout number) s = .next (kickBoth (ackTimeout s number)) :=
  whenRunning_of_running hrun (fun s => kickBoth (ackTimeout s number))

/-- Settles O40: the batch returned with its streak, whose third ends the upload. -/
theorem ackTimeoutReturnsTheBatch : Obligations.AckTimeoutReturnsTheBatch := by
  intro s b m pre post hrun hset hbatches hpre hb hdeadline hstreak returned u
  have found : waitingBatch s.uploader b.number = some b := waitingBatch_of_first hbatches hpre rfl hb
  have times : ackTimeout s b.number =
      if decide (m ≤ s.timebase) then
        if 3 ≤ (timeOutBatch s b).uploader.streak then settleStore (endUpload (timeOutBatch s b) .depotSilent)
        else settleStore (finishIfDrained (timeOutBatch s b))
      else s := by
    simp only [ackTimeout, found, ackPassed_of_deadline hdeadline]
  have timed : timeOutBatch s b = { s with
      store := { s.store with index := returned b.records }, uploader := u } := by
    rw [timeOutBatch, withoutBatch_of_first hbatches hpre rfl hb]
    simp only [bumpTo_of_lt hstreak]
    rfl
  refine ⟨fun hearly => ?_, fun hdue hlow => ?_, fun hdue hthird => ?_⟩
  · rw [exec_ackTimeout hrun, times, if_neg (by simpa using hearly), (settled_iff s).1 hset]
  · have goes_on : ackTimeout s b.number = settleStore (finishIfDrained (timeOutBatch s b)) := by
      rw [times, if_pos (by simpa using hdue), if_neg]
      rw [timed]
      show ¬ 3 ≤ s.uploader.streak + 1
      omega
    rw [exec_ackTimeout hrun, goes_on, timed]
    refine ⟨fun hopen => ?_, fun hdraining hempty => ?_⟩
    · rw [finishIfDrained_of_open]
      exact hopen
    · rw [finishIfDrained_of_drained (s := { s with store := _, uploader := u }) hdraining hempty]
  · have ends : ackTimeout s b.number = settleStore (endUpload (timeOutBatch s b) .depotSilent) := by
      rw [times, if_pos (by simpa using hdue), if_pos]
      rw [timed]
      show 3 ≤ s.uploader.streak + 1
      omega
    have marks : markRecords (returned b.records) ((pre ++ post).flatMap (·.records)) .stored =
        returned (b.records ++ (pre ++ post).flatMap (·.records)) := markRecords_markRecords _ _ _ _
    rw [exec_ackTimeout hrun, ends, endUpload_eq, timed, ← marks]
    rfl

/-! ## UPLOAD_STOP and UPLOAD_FINISH (R166, R167) -/

/-- Settles O42: the refusals in their order, the end of the upload, and the draining of one with no batch in flight. -/
theorem uploadStopAndFinish : Obligations.UploadStopAndFinish := by
  intro s k f rest u v numbers
  have same_uploader : u.uploader = s.uploader := withRequests_uploader s k rest
  have same_store : u.store = s.store := withRequests_store s k rest
  refine ⟨fun htakes => ?stop, fun htakes => ?finish⟩
  case stop =>
    have hasks : ownUploadStop k u .uploadStop = some (onDepot u k judgeUploadStop) := rfl
    refine ⟨serve_onDepot_of_trunk htakes hasks, fun hlink hidle => serve_onDepot_of_depot htakes hasks hlink
      (a := refuse u .wrongState) (if_pos (same_uploader ▸ hidle)), fun hlink hopen => ?_⟩
    have judged : judgeUploadStop u =
        acceptWith (settleStore (endUpload u .stopped)) (bigEndian 2 (inFlightNumbers u.uploader).length) :=
      if_neg (same_uploader ▸ hopen)
    refine (serve_onDepot_of_depot htakes hasks hlink judged).trans ?_
    subst hlink
    rw [endUpload_eq]
    rfl
  case finish =>
    have hasks : ownUploadFinish k u .uploadFinish = some (onDepot u k judgeUploadFinish) := rfl
    have closed : uploadClosed u = true ↔ v.state = .idle ∨ v.state = .draining ∨ s.depotUp = false := by
      rw [uploadClosed_iff, same_uploader, show u.depotUp = s.depotUp from withRequests_depotUp s k rest]
    refine ⟨serve_onDepot_of_trunk htakes hasks, fun hlink hclosed => serve_onDepot_of_depot htakes hasks hlink
      (a := refuse u .wrongState) (if_pos (closed.2 hclosed)), fun hlink hstate hup => ?_⟩
    intro drains
    have not_closed : ¬ uploadClosed u = true := by
      rw [closed]
      rcases hstate with h | h <;> simp [h, hup]
    have drained : changeUpload u { u.uploader with state := .draining } = drains := by
      rw [changeUpload_of_not_idle u (by simp), same_uploader]
      rfl
    have judged : judgeUploadFinish u =
        acceptWith (finishIfDrained drains) (bigEndian 1 v.batches.length) := by
      rw [judgeUploadFinish, if_neg not_closed, drained, same_uploader]
    refine ⟨fun hflight => ?_, fun hempty => ?_⟩
    · rw [finishIfDrained_of_open (s := drains) (.inr hflight)] at judged
      exact serve_onDepot_of_depot htakes hasks hlink judged
    · rw [finishIfDrained_of_drained (s := drains) rfl hempty, hempty] at judged
      exact serve_onDepot_of_depot htakes hasks hlink judged

/-! ## BATCH_ACK and BATCH_NAK (R161, R162) -/

theorem answerBatch_of_none {number : Nat} {s : State} (hnumber : number < 256)
    (h : ∀ b ∈ s.uploader.batches, b.number = number → b.stage ≠ .waiting) (g : State → Batch → State) :
    answerBatch number g s = refuse s .noSuchBatch := by
  rw [answerBatch, if_neg (by omega), waitingBatch_of_none h]

theorem answerBatch_of_first {number : Nat} {s : State} {pre post : List Batch} {b : Batch} (hlow : number < 256)
    (hbatches : s.uploader.batches = pre ++ b :: post) (hpre : ∀ y ∈ pre, y.number = number → y.stage ≠ .waiting)
    (hnumber : b.number = number) (hb : b.stage = .waiting) (g : State → Batch → State) :
    answerBatch number g s = acceptWith (settleStore (finishIfDrained (g s b))) (bigEndian 1 b.records.length) := by
  rw [answerBatch, if_neg (by omega), waitingBatch_of_first hbatches hpre hnumber hb]

theorem refuseBatch_eq {s : State} {b : Batch} {u : Uploader} (h : withoutBatch s.uploader b.number = u) :
    refuseBatch s b = { s with
      store := { s.store with index := markRecords s.store.index b.records .stored }, uploader := u } := by
  rw [refuseBatch, h]
  rfl

theorem acknowledge_eq {s : State} {b : Batch} {u : Uploader} (h : withoutBatch s.uploader b.number = u) :
    acknowledge s b = { s with
      store :=
        let left := s.store.index.filter (fun r => decide (r.head.number ∉ b.records))
        { s.store with
          index := left
          classes :=
            if (left.countP (fun r => decide (r.head.cls = b.cls)) + underWrite s.store b.cls) * 8
                < s.store.classes[b.cls].quota * 7 then
              s.store.classes.set b.cls { s.store.classes[b.cls] with fullArmed := true }
            else s.store.classes }
      uploader := { u with streak := 0, released := min (u.released + b.records.length) 4294967295 } } := by
  rw [acknowledge, releaseRecords, rearmClass_eq, h]
  rfl

/-- An answer that ends a batch may end a draining upload with it (R167). -/
theorem finishIfDrained_after {t : State} {batches : List Batch} (hbatches : t.uploader.batches = batches) :
    (t.uploader.state ≠ .draining ∨ batches ≠ [] → finishIfDrained t = t)
    ∧ (t.uploader.state = .draining → batches = [] → finishIfDrained t =
      raiseEvent { t with uploader := { t.uploader with state := .idle, lastEnd := some .finished } }
        .uploadState t.uploader.released 1) := by
  subst hbatches
  exact ⟨finishIfDrained_of_open, finishIfDrained_of_drained⟩

/-- Both answers in one: the refusals, and the end of the waiting batch formed earliest. -/
theorem serve_answerBatch {s : State} {k : Link} {f : RequestFrame} {rest : List RequestFrame} {r : Request}
    {owner : State → Request → Option Answer} {number : Nat} {g : State → Batch → State} (hlow : number < 256)
    (htakes : Takes s k f rest r)
    (hasks : owner (withRequests s k rest) r = some (onDepot (withRequests s k rest) k (answerBatch number g))) :
    (k = .trunk →
      whenRunning s (serve k owner) = .next (replied k f .wrongLink [] (withRequests s k rest)))
    ∧ (k = .depot → (∀ b ∈ s.uploader.batches, b.number = number → b.stage ≠ .waiting) →
      whenRunning s (serve k owner) = .next (replied k f .noSuchBatch [] (withRequests s k rest)))
    ∧ (k = .depot → ∀ (b : Batch) (pre post : List Batch), s.uploader.batches = pre ++ b :: post →
      (∀ y ∈ pre, y.number = number → y.stage ≠ .waiting) → b.number = number → b.stage = .waiting →
      ∀ t, g (withRequests s k rest) b = t → t.uploader.batches = pre ++ post →
      (t.uploader.state ≠ .draining ∨ pre ++ post ≠ [] →
        whenRunning s (serve k owner) =
          .next (replied k f .ok (bigEndian 1 b.records.length) (settleStore t)))
      ∧ (t.uploader.state = .draining → pre ++ post = [] →
        whenRunning s (serve k owner) =
          .next (replied k f .ok (bigEndian 1 b.records.length) (settleStore (raiseEvent { t with
            uploader := { t.uploader with state := .idle, lastEnd := some .finished } }
            .uploadState t.uploader.released 1))))) := by
  have same_uploader : (withRequests s k rest).uploader = s.uploader := withRequests_uploader s k rest
  refine ⟨serve_onDepot_of_trunk htakes hasks, fun hlink hnone => ?_,
    fun hlink b pre post hbatches hpre hnumber hb t ht hleft => ?_⟩
  · exact serve_onDepot_of_depot htakes hasks hlink (answerBatch_of_none hlow (same_uploader ▸ hnone) g)
  · have answered := answerBatch_of_first hlow (same_uploader ▸ hbatches) hpre hnumber hb g
    rw [ht] at answered
    obtain ⟨goes_on, finishes⟩ := finishIfDrained_after hleft
    refine ⟨fun hopen => ?_, fun hdraining hempty => ?_⟩
    · exact serve_onDepot_of_depot htakes hasks hlink (goes_on hopen ▸ answered)
    · exact serve_onDepot_of_depot htakes hasks hlink (finishes hdraining hempty ▸ answered)

/-- Settles O43: the waiting batch of the number leaves the list, released or returned. -/
theorem batchAnswersReleaseOrReturn : Obligations.BatchAnswersReleaseOrReturn := by
  intro s k f rest number ack hlow htakes c u
  have same_uploader : u.uploader = s.uploader := withRequests_uploader s k rest
  have same_store : u.store = s.store := withRequests_store s k rest
  have without {b : Batch} {pre post : List Batch} (hbatches : s.uploader.batches = pre ++ b :: post)
      (hpre : ∀ y ∈ pre, y.number = number → y.stage ≠ .waiting) (hnumber : b.number = number) (hb : b.stage = .waiting) :
      withoutBatch u.uploader b.number = { s.uploader with batches := pre ++ post } := by
    rw [same_uploader]
    exact withoutBatch_of_first hbatches hpre hnumber hb
  cases ack with
  | true =>
    obtain ⟨trunk, absent, ends⟩ := serve_answerBatch (owner := ownBatchAck k) hlow htakes rfl
    refine ⟨trunk, absent, fun hlink b pre post hbatches hpre hnumber hb => ?_⟩
    intro n left full count answered
    refine ends hlink b pre post hbatches hpre hnumber hb answered ?_ rfl
    rw [acknowledge_eq (without hbatches hpre hnumber hb), same_store]
    rfl
  | false =>
    obtain ⟨trunk, absent, ends⟩ := serve_answerBatch (owner := ownBatchNak k) hlow htakes rfl
    refine ⟨trunk, absent, fun hlink b pre post hbatches hpre hnumber hb => ?_⟩
    intro n left full count answered
    refine ends hlink b pre post hbatches hpre hnumber hb answered ?_ rfl
    rw [refuseBatch_eq (without hbatches hpre hnumber hb), same_store]
    rfl

end Sys2Proof.Machine
end

