-- ==== Sys2Proof/Proofs/EventSteps.lean ====
section
/-! SUPPORT. Events and faults (R181 to R184), the trunk transmitter's choice (R180), and requests that reach no owning
block (R173). Settles O44, O47 and O49. -/

namespace Sys2Proof.Machine

/-! ## Events (R181, R182) -/

theorem maskBit_eq_some_iff (kind : EventKind) (n : Nat) : maskBit kind = some n ↔
    [EventKind.captureFull, .segmentClosed, .routeState, .classFull, .liveDrop, .uploadState, .fault,
      .eventOverflow][n]? = some kind := by
  by_cases hn : n < 8
  · interval_cases n <;> cases kind <;> decide
  · have outside : maskBit kind ≠ some n := by
      cases kind <;> simp [maskBit] <;> omega
    simp [outside, Nat.le_of_not_lt hn]

theorem eventEnabled_iff (u : EventUnit) (kind : EventKind) : eventEnabled u kind = true ↔
    kind = .restart ∨ ∃ n, [EventKind.captureFull, .segmentClosed, .routeState, .classFull, .liveDrop, .uploadState,
      .fault, .eventOverflow][n]? = some kind ∧ u.mask.getLsbD n = true := by
  simp only [← maskBit_eq_some_iff, eventEnabled]
  cases kind <;> simp [maskBit]

section
variable {u : EventUnit} {e : Event}

theorem postEvent_of_room (hon : eventEnabled u e.kind = true) (hroom : u.queue.length < 64) :
    postEvent u e = { u with queue := u.queue ++ [e] } := by
  rw [postEvent, if_pos hon]
  exact if_pos hroom

theorem postEvent_of_full (hon : eventEnabled u e.kind = true) (hfull : 64 ≤ u.queue.length) :
    postEvent u e = { u with lost := bump u.lost, pendingLost := bump u.pendingLost } := by
  rw [postEvent, if_pos hon]
  exact if_neg hfull.not_gt

theorem postEvent_of_masked (hoff : ¬ eventEnabled u e.kind = true) : postEvent u e = u := if_neg hoff

end

/-! ## Faults (R183, R184) -/

theorem faultSeverity_eq_attention_iff (kind : FaultKind) :
    faultSeverity kind = .attention ↔ kind = .clockLimit ∨ kind = .linkCrc ∨ kind = .requestDrop := by
  cases kind <;> decide

theorem faultSeverity_eq_halt_iff (kind : FaultKind) :
    faultSeverity kind = .halt ↔ kind = .recordNumberLimit ∨ kind = .storeHalt := by
  cases kind <;> decide

/-- A fault above ATTENTION is RECOVERABLE or HALT (R183). -/
theorem faultSeverity_of_captured {kind : FaultKind} (h : faultSeverity kind ≠ .attention) :
    faultSeverity kind = if kind = .recordNumberLimit ∨ kind = .storeHalt then .halt else .recoverable := by
  revert h
  cases kind <;> decide

section
variable (u : FaultUnit) {kind : FaultKind} (parameter tag : Nat)

theorem recordFault_of_attention (h : faultSeverity kind = .attention) :
    recordFault u kind parameter tag = { u with counts := bumpFault u.counts kind } := if_pos h

theorem recordFault_of_captured (h : faultSeverity kind ≠ .attention) :
    recordFault u kind parameter tag = captureFault { u with counts := bumpFault u.counts kind } kind parameter tag :=
  if_neg h

theorem counts_recordFault : (recordFault u kind parameter tag).counts = bumpFault u.counts kind := by
  by_cases h : faultSeverity kind = .attention
  · rw [recordFault_of_attention u parameter tag h]
  · rw [recordFault_of_captured u parameter tag h, captureFault]
    cases u.first <;> rfl

end

/-- Settles O44: the three ways of an event, and a fault by its severity and the record it meets. -/
theorem eventsAndFaultsAreRecorded : Obligations.EventsAndFaultsAreRecorded := by
  refine ⟨fun s kind parameter detail => ?events, fun s kind parameter => ?faults⟩
  case events =>
    intro e enabled
    have hon : enabled ↔ eventEnabled s.events kind = true := (eventEnabled_iff s.events kind).symm
    refine ⟨fun h hroom => ?_, fun h hfull => ?_, fun h => ?_⟩
    · rw [raiseEvent, postEvent_of_room (hon.1 h) hroom]
      rfl
    · rw [raiseEvent, postEvent_of_full (hon.1 h) hfull]
      rfl
    · rw [raiseEvent, postEvent_of_masked (mt hon.2 h)]
      rfl
  case faults =>
    intro attention halt t
    have hattention : attention ↔ faultSeverity kind = .attention := (faultSeverity_eq_attention_iff kind).symm
    have hhalt : decide halt = decide (faultSeverity kind = .halt) :=
      decide_eq_decide.2 (faultSeverity_eq_halt_iff kind).symm
    have recorded : t.faults = recordFault s.faults kind parameter s.clock.value := rfl
    have counted : t.faults.counts = bumpFault s.faults.counts kind :=
      recorded ▸ counts_recordFault s.faults parameter s.clock.value
    refine ⟨counted, rfl, rfl, fun h => ?_, fun h hempty => ?_, fun h x hfull => ?_⟩
    · rw [counted, recorded, recordFault_of_attention _ _ _ (hattention.1 h)]
    · have captured := mt hattention.2 h
      rw [counted, recorded, recordFault_of_captured _ _ _ captured, captureFault]
      simp only [hempty, faultSeverity_of_captured captured]
      rfl
    · rw [counted, recorded, recordFault_of_captured _ _ _ (mt hattention.2 h), captureFault]
      simp only [hfull, hhalt]
      rfl

/-! ## TRUNK_TX_FRAME_END (R180) -/

section
variable {s : State} (htx : s.trunk.tx = none)
include htx

theorem kickTrunk_of_reply {r : Reply} {rest : List Reply} (hreplies : s.trunk.replies = r :: rest) :
    kickTrunk s = s.setTrunk { s.trunk with replies := rest, tx := some (.reply r) } := by
  unfold kickTrunk
  simp only [htx, hreplies]

variable (hreplies : s.trunk.replies = [])
include hreplies

theorem kickTrunk_of_event {e : Event} {rest : List Event} (hevents : s.events.queue = e :: rest) :
    kickTrunk s = (s.setTrunk { s.trunk with tx := some (.event e) }).setEvents
      (takeEvent s.events rest s.clock.value) := by
  unfold kickTrunk
  simp only [htx, hreplies, hevents]

variable (hevents : s.events.queue = [])
include hevents

theorem kickTrunk_of_live {c : LiveCopy} {rest : List LiveCopy} (hlive : s.live.queue = c :: rest) :
    kickTrunk s = (s.setTrunk { s.trunk with tx := some (.record c.record) }).setLive (takeLive s.live rest) := by
  unfold kickTrunk
  simp only [htx, hreplies, hevents, hlive]

end

section
variable {u : EventUnit} {rest : List Event} (clock : Nat)

theorem takeEvent_of_quiet (h : rest ≠ [] ∨ u.pendingLost = 0) :
    takeEvent u rest clock = { u with queue := rest, sent := bump u.sent } := by
  rw [takeEvent]
  refine if_neg ?_
  rw [Bool.and_eq_true, List.isEmpty_iff, decide_eq_true_iff]
  exact fun ⟨hempty, hlost⟩ => h.elim (· hempty) (hlost.ne' ·)

theorem takeEvent_of_overflow (hlost : 0 < u.pendingLost) :
    takeEvent u [] clock = { u with
      sent := bump u.sent
      pendingLost := 0
      queue := if u.mask.getLsbD 7 then
          [{ kind := .eventOverflow, timeTag := clock, parameter := u.pendingLost, detail := 0 }]
        else [] } := by
  have emptied : takeEvent u [] clock = postEvent { u with queue := [], sent := bump u.sent, pendingLost := 0 }
      { kind := .eventOverflow, timeTag := clock, parameter := u.pendingLost, detail := 0 } := by
    rw [takeEvent]
    exact if_pos (by simpa using hlost)
  rw [emptied]
  by_cases hon : u.mask.getLsbD 7 = true
  · rw [if_pos hon]
    exact postEvent_of_room (u := { u with queue := [], sent := _, pendingLost := 0 }) hon (by simp)
  · rw [if_neg hon]
    exact postEvent_of_masked (u := { u with queue := [], sent := _, pendingLost := 0 }) hon

end

theorem isResetReply_eq_false_iff (x : TxFrame) :
    isResetReply x = false ↔ ∀ r, x = .reply r → r.code ≠ 8 ∨ r.status ≠ .ok := by
  cases x with
  | reply r =>
    rw [isResetReply, Bool.and_eq_false_iff, decide_eq_false_iff_not, decide_eq_false_iff_not]
    exact ⟨fun h _ hr => TxFrame.reply.inj hr ▸ h, fun h => h r rfl⟩
  | event _ | record _ | batch _ _ => exact iff_of_true rfl nofun

theorem exec_trunkTxFrameEnd {s : State} {x : TxFrame} (hrun : Running s) (htx : s.trunk.tx = some x)
    (hx : isResetReply x = false) :
    exec .trunkTxFrameEnd s = .next (kickTrunk (s.setTrunk { s.trunk with tx := none })) := by
  have ends : trunkFrameEnd s = kickTrunk (s.setTrunk { s.trunk with tx := none }) := by
    simp only [trunkFrameEnd, htx, hx, Bool.false_eq_true, if_false]
  rw [← ends]
  exact whenRunning_of_running hrun trunkFrameEnd

/-- Settles O47: the freed transmitter's choice in R180's order. -/
theorem trunkTransmitterChoosesInOrder : Obligations.TrunkTransmitterChoosesInOrder := by
  intro s x hrun htx hx
  have ends := exec_trunkTxFrameEnd hrun htx ((isResetReply_eq_false_iff x).2 hx)
  let t := s.setTrunk { s.trunk with tx := none }
  refine ⟨fun r rest hreplies => ?_, fun hreplies e rest hevents => ?_, fun hreplies hevents c rest hlive => ?_,
    fun hreplies hevents hlive => ?_⟩
  · rw [ends, kickTrunk_of_reply (s := t) rfl hreplies]
    rfl
  · intro v
    have takes := kickTrunk_of_event (s := t) rfl hreplies hevents
    refine ⟨fun hquiet => ?_, fun hlast hlost => ?_⟩
    · rw [ends, takes, takeEvent_of_quiet (u := t.events) _ hquiet]
      rfl
    · subst hlast
      rw [ends, takes, takeEvent_of_overflow (u := t.events) _ hlost]
      rfl
  · rw [ends, kickTrunk_of_live (s := t) rfl hreplies hevents hlive, takeLive]
    cases rest <;> simp <;> rfl
  · rw [ends, kickTrunk_of_idle (s := t) fun _ => ⟨hreplies, hevents, hlive⟩]
    rfl

/-! ## UNKNOWN_REQUEST (R173) -/

theorem takeArguments_of_unknown {code : Nat} (h : code = 0 ∨ 32 < code) (bytes : List Byte) :
    takeArguments code bytes = none := by
  rcases h with rfl | h
  · rfl
  · obtain ⟨m, rfl⟩ := Nat.exists_eq_add_of_lt h
    unfold takeArguments
    split
    case h_33 => rfl
    all_goals omega

theorem takeArguments_of_known {code : Nat} (hlow : 1 ≤ code) (hhigh : code ≤ 32) (bytes : List Byte) :
    takeArguments code bytes ≠ none := by
  interval_cases code <;> nofun

/-- Settles O49: what the dispatcher answers where the payload is no request. -/
theorem unknownRequestsAreAnswered : Obligations.UnknownRequestsAreAnswered := by
  intro s k f rest hrun hfree hroom hqueue code
  have answers {a : Answer} (ha : judgeUnknown (withRequests s k rest) (parseRequest f.payload) = some a) :
      exec (.unknownRequest k) s = .next (replied k f a.status a.results a.state) := by
    have served : serveUnknown k s = replied k f a.status a.results a.state := by
      simp only [serveUnknown, takable_some hfree hroom hqueue, popRequest_of_queue hqueue, ha]
      rfl
    rw [← served]
    exact whenRunning_of_running hrun (serveUnknown k)
  refine ⟨fun hunknown => ?_, fun hlow hhigh hnone => ?_⟩
  · have parsed : parseRequest f.payload = .unknownCode := by
      rw [parseRequest]
      simp only [show (requestCode f.payload).toNat = code from rfl, takeArguments_of_unknown hunknown]
    exact answers (a := refuse (withRequests s k rest) .unknownRequest) (by rw [parsed]; rfl)
  · have parsed : parseRequest f.payload = .wrongLength := by
      cases hp : parseRequest f.payload with
      | request r => exact absurd hp (hnone r)
      | wrongLength => rfl
      | unknownCode =>
        rw [parseRequest] at hp
        split at hp
        · cases hp
        · cases hp
        · exact absurd ‹_› (takeArguments_of_known hlow hhigh _)
    exact answers (a := refuse (withRequests s k rest) .badArgument) (by rw [parsed]; rfl)

end Sys2Proof.Machine
end

