-- ==== Sys2Proof/Proofs/ResetSteps.lean ====
section
/-! SUPPORT. The resets (section 10.8): the start of the part, the RESET request and line, and the DOCK line that takes
the depot link DOWN. Settles O48, O51 and O60. -/

namespace Sys2Proof.Machine

/-! ## The start of the part (R185, R186) -/

/-- A part that starts from reset values sends RESTART first. -/
theorem startPart_eq_started {s : State} {mask : BitVec 8} (htrunk : s.trunk = {}) (hclock : s.clock = {})
    (hevents : s.events = { mask := mask }) (x : ResetKind) : startPart s x = started s (resetKindCode x) := by
  obtain ⟨⟩ := s
  subst htrunk hclock hevents
  rfl

theorem warmResetRequest_eq_started (s : State) : warmResetRequest s = started (retained s) 2 :=
  startPart_eq_started (s := warmValues s) rfl rfl rfl .warmRequest

/-! ## RESET (R185) -/

theorem exec_reset_of_served {s : State} {k : Link} (h : k = .depot → s.depotUp = true) :
    exec (.reset k) s = whenRunning s (serve k (ownReset k)) := by
  cases k with
  | trunk => rfl
  | depot =>
    have served : serveReset .depot s = serve .depot (ownReset .depot) s := if_pos (h rfl)
    show whenRunning s (serveReset .depot) = whenRunning s (serve .depot (ownReset .depot))
    rw [whenRunning, whenRunning, served]

/-- Settles O51: the reply with the dispatcher held, the reset at once on a DOWN link, and the end of the reply's frame. -/
theorem resetRequestBringsAWarmReset : Obligations.ResetRequestBringsAWarmReset := by
  intro s k f rest
  refine ⟨fun htakes hup => ?_, fun htakes hdown => ?_, fun hrun r hcode hstatus => ⟨fun htx => ?_, fun htx => ?_⟩⟩
  · rw [exec_reset_of_served hup]
    refine (htakes.serve (owner := ownReset k) rfl).trans ?_
    cases k <;> rfl
  · have served : serveReset .depot s = warmResetRequest s := by
      simp only [serveReset, hdown, Bool.false_eq_true, if_false, serveResetDown, htakes.takable, htakes.parsed]
      rfl
    rw [← warmResetRequest_eq_started, ← served]
    exact whenRunning_of_running htakes.running (serveReset .depot)
  all_goals have brings : isResetReply (.reply r) = true := by simp [isResetReply, hcode, hstatus]
  · have ends : trunkFrameEnd s = warmResetRequest (s.setTrunk { s.trunk with tx := none }) := by
      simp only [trunkFrameEnd, htx, brings, if_true]
    exact (whenRunning_of_running hrun trunkFrameEnd).trans
      (congrArg _ (ends.trans (warmResetRequest_eq_started (s.setTrunk _))))
  · have ends : depotFrameEnd s = warmResetRequest (s.setDepot { s.depot with tx := none }) := by
      simp only [depotFrameEnd, htx, brings, if_true]
    exact (whenRunning_of_running hrun depotFrameEnd).trans
      (congrArg _ (ends.trans (warmResetRequest_eq_started (s.setDepot _))))

/-! ## The RESET line and the cold reset (R185, R186) -/

theorem exec_of_held {c : Instr} {s : State} (h : s.pins.resetLine = true) (hassert : c ≠ .dockAssert)
    (hdeassert : c ≠ .dockDeassert) (hrelease : ∀ x, c ≠ .resetLineRelease x) (hcold : ∀ x, c ≠ .coldReset x) :
    exec c s = .next s := by
  cases c
  case dockAssert => exact absurd rfl hassert
  case dockDeassert => exact absurd rfl hdeassert
  case resetLineRelease x => exact absurd rfl (hrelease x)
  case coldReset x => exact absurd rfl (hcold x)
  all_goals exact congrArg Host.Outcome.next (if_pos h)

theorem exec_coldReset_of_running {s : State} (hrun : Running s) (strap : TrunkRate) :
    exec (.coldReset strap) s =
      .next (started ((coldValues s).setPins { s.pins with strap := strap, trunkRate := strap }) 0) := by
  have starts := startPart_eq_started (s := (coldValues s).setPins { s.pins with strap := strap, trunkRate := strap })
    rfl rfl rfl .cold
  refine Eq.trans ?_ (congrArg _ starts)
  exact congrArg _ (if_neg (by rw [show s.pins.resetLine = false from hrun]; nofun))

theorem exec_resetLineRelease_of_held {s : State} (h : s.pins.resetLine = true) (hreset : retained s = s)
    (strap : TrunkRate) :
    exec (.resetLineRelease strap) s = .next (started
      ((s.setPins { s.pins with resetLine := false, strap := strap }).setFreeCounter (releaseCounter s))
      (resetKindCode (releaseKind s))) := by
  have trunk : s.trunk = {} := (congrArg State.trunk hreset).symm
  have clock : s.clock = {} := (congrArg State.clock hreset).symm
  have events : s.events = { mask := s.events.mask } := (congrArg State.events hreset).symm
  refine Eq.trans ?_ (congrArg _ (startPart_eq_started
    (s := (s.setPins { s.pins with resetLine := false, strap := strap }).setFreeCounter (releaseCounter s))
    trunk clock events (releaseKind s)))
  exact congrArg _ (if_pos h)

/-- Settles O60: the line's two edges, the cold reset and the part while it is held. -/
theorem resetLineHoldsAndStartsThePart : Obligations.ResetLineHoldsAndStartsThePart := by
  refine ⟨fun c s h => exec_of_held h, fun s strap => ?_⟩
  intro cold
  refine ⟨fun hrun => ?_, fun hheld => ⟨?_, ?_⟩, fun hheld hreset => ?_⟩
  · have off : ¬ s.pins.resetLine = true := by rw [show s.pins.resetLine = false from hrun]; nofun
    exact ⟨congrArg _ (if_neg off), congrArg _ (if_neg off), exec_coldReset_of_running hrun strap⟩
  · exact congrArg _ (if_pos hheld)
  · exact congrArg _ (if_pos hheld)
  · intro pins
    have release := exec_resetLineRelease_of_held hheld hreset strap
    refine ⟨fun hwarm => ?_, fun hcold => ?_⟩
    · rw [release, releaseKind, releaseCounter, hwarm]
      rfl
    · refine ⟨resetKindCode (releaseKind s), ?_, ?_⟩
      · unfold releaseKind
        split
        · exact .inl rfl
        · exact .inr rfl
      · rw [release, releaseCounter, if_pos hcold]
        rfl

/-! ## The DOCK line (R152, R168) -/

/-- A port that judges no record grants at most a read. -/
theorem grantPort_of_served {s : State}
    (h : s.store.port ≠ none ∨ s.store.appendQueue = [] ∨ s.store.state = .halted) :
    ∃ x, grantPort s = s.setStore { s.store with port := x } := by
  cases hp : s.store.port with
  | some => exact ⟨s.store.port, grantPort_of_busy (by simp [hp])⟩
  | none =>
    rw [grantPort_eq_grantRead hp (h.resolve_left (not_not.2 hp))]
    cases hread : waitingRead s.uploader with
    | none => exact ⟨s.store.port, grantRead_of_none hread⟩
    | some read => exact ⟨_, grantRead_of_some hread⟩

theorem tryForm_of_not_running {s : State} (h : s.uploader.state ≠ .running) : tryForm s = s :=
  if_neg (by simp [mayForm, h])

theorem settleStore_of_not_running {s : State} (h : s.uploader.state ≠ .running) :
    settleStore s = grantPort (tryForm (grantPort s)) := if_neg (by simp [selectMeetsJudging, canForm, mayForm, h])

/-- An uploader that runs no upload leaves the port alone to be settled. -/
theorem settleStore_of_served {s : State} (hidle : s.uploader.state = .idle) (hserves : PortServes s) :
    ∃ x, settleStore s = s.setStore { s.store with port := x } := by
  have stopped : s.uploader.state ≠ .running := by simp [hidle]
  have served : s.store.port ≠ none ∨ s.store.appendQueue = [] ∨ s.store.state = .halted := by
    by_cases hp : s.store.port = none
    · cases hstate : s.store.state with
      | normal => exact .inr (.inl (hserves hp hstate))
      | halted => exact .inr (.inr rfl)
    · exact .inl hp
  obtain ⟨x, hx⟩ := grantPort_of_served served
  rw [settleStore_of_not_running stopped, hx, tryForm_of_not_running (s := s.setStore { s.store with port := x }) stopped]
  by_cases hbusy : x = none
  · have still : s.store.appendQueue = [] ∨ s.store.state = .halted := by
      rcases served with h | h
      · rw [grantPort_of_busy h] at hx
        exact absurd ((congrArg (·.store.port) hx).trans hbusy) h
      · exact h
    obtain ⟨y, hy⟩ := grantPort_of_served (s := s.setStore { s.store with port := x }) (.inr still)
    exact ⟨y, hy⟩
  · exact ⟨x, grantPort_of_busy (s := s.setStore { s.store with port := x }) hbusy⟩

theorem loseUpload_of_idle {s : State} (h : s.uploader.state = .idle) : loseUpload s = s := if_pos h

theorem loseUpload_of_open {s : State} (h : s.uploader.state ≠ .idle) : loseUpload s = endUpload s .linkLost := if_neg h

/-- With no frame in transmission the end of the upload leaves the depot link alone. -/
theorem loseUpload_eq {s : State} (htx : s.depot.tx = none) : loseUpload s =
    if s.uploader.state = .idle then s
    else raiseEvent { s with
      store := { s.store with
        index := markRecords s.store.index (inFlightNumbers s.uploader) .stored
        port := orphanRead s.store.port }
      uploader := { s.uploader with batches := [], streak := 0, state := .idle, lastEnd := some .linkLost } }
      .uploadState s.uploader.released 2 := by
  have nothing_cut : { s.depot with tx := cutBatch s.depot.tx } = s.depot := by
    rw [htx]
    show { s.depot with tx := none } = s.depot
    rw [← htx]
  rw [loseUpload, endUpload_eq, nothing_cut]
  rfl

theorem loseLoad_eq (s : State) : loseLoad s =
    if s.route.state = .loading ∧ s.route.owner = some .depot then
      raiseEvent { s with book := [], segments := [], route := {} } .routeState 0 0
    else s := rfl

theorem store_loseLoad (s : State) : (loseLoad s).store = s.store := by
  obtain ⟨_, _, _, _, e⟩ := loseLoad_shape s
  rw [e]

theorem uploader_loseLoad (s : State) : (loseLoad s).uploader = s.uploader := by
  obtain ⟨_, _, _, _, e⟩ := loseLoad_shape s
  rw [e]

theorem route_loseUpload (s : State) : (loseUpload s).route = s.route := by
  obtain ⟨_, _, _, _, e⟩ := loseUpload_shape s
  rw [e]

theorem state_loseUpload (s : State) : (loseUpload s).uploader.state = .idle := by
  unfold loseUpload
  split
  · assumption
  · rfl

theorem portServes_loseUpload {s : State} (h : PortServes s) : PortServes (loseUpload s) := by
  unfold loseUpload
  split
  · exact h
  · refine h.of_eq ?_ rfl rfl
    show s.store.port = none ↔ orphanRead s.store.port = none
    cases s.store.port with
    | none => rfl
    | some x => cases x <;> simp [orphanRead]

/-! ## What a warm reset keeps of a link that went DOWN -/

theorem mask_postEvent (u : EventUnit) (e : Event) : (postEvent u e).mask = u.mask := by
  unfold postEvent
  split
  · split <;> rfl
  · rfl

theorem warmValues_raiseEvent (s : State) (x : EventKind) (p d : Nat) :
    warmValues (raiseEvent s x p d) = warmValues s := by
  show (warmValues s).setEvents { mask := (postEvent s.events _).mask } = warmValues s
  rw [mask_postEvent]
  rfl

theorem warmValues_loseLoad (s : State) : warmValues (loseLoad s) = warmValues s := by
  rw [loseLoad_eq]
  split
  · exact warmValues_raiseEvent { s with book := [], segments := [], route := {} } _ _ _
  · rfl

theorem warmStore_markRecords (st : Store) (numbers : List Nat) (x : StoredState) (y : Option PortAccess) :
    warmStore { st with index := markRecords st.index numbers x, port := y } = warmStore st := by
  have same : (markRecords st.index numbers x).map (fun r => { r with state := .stored }) =
      st.index.map (fun r => { r with state := .stored }) := by
    unfold markRecords
    rw [List.map_map]
    refine List.map_congr_left fun r _ => ?_
    by_cases h : r.head.number ∈ numbers <;> simp [h]
  unfold warmStore
  rw [same]

theorem warmUploader_of_open {u : Uploader} (h : u.state ≠ .idle) : warmUploader u = { lastEnd := some .reset } := by
  rw [warmUploader, if_neg h]

theorem warmValues_endUpload (s : State) (reason : EndReason) :
    warmValues (endUpload s reason) = { warmValues s with uploader := { lastEnd := some reason } } := by
  rw [endUpload_eq, warmValues_raiseEvent]
  show ((warmValues s).setStore (warmStore _)).setUploader { lastEnd := some reason } = _
  rw [warmStore_markRecords]
  rfl

theorem warmValues_linkDown {s : State} (hserves : PortServes s) : warmValues (linkDown s) =
    if s.uploader.state = .idle then warmValues s
    else { warmValues s with uploader := { lastEnd := some .linkLost } } := by
  let down := (s.setDepotUp false).setDepot { s.depot with tx := none }
  have served : PortServes (loseLoad (loseUpload down)) :=
    (portServes_loseUpload (s := down) hserves).of_eq (by rw [store_loseLoad]) (by rw [store_loseLoad])
      (by rw [store_loseLoad])
  have idle : (loseLoad (loseUpload down)).uploader.state = .idle := by
    rw [uploader_loseLoad]
    exact state_loseUpload down
  obtain ⟨x, hx⟩ := settleStore_of_served idle served
  have keeps : warmValues (linkDown s) = warmValues (loseUpload down) :=
    (congrArg warmValues hx).trans (warmValues_loseLoad (loseUpload down))
  by_cases hidle : s.uploader.state = .idle
  · rw [keeps, loseUpload_of_idle (s := down) hidle, if_pos hidle]
    rfl
  · rw [keeps, loseUpload_of_open (s := down) hidle, if_neg hidle, warmValues_endUpload]
    rfl

/-- Settles O48: the line's level, the link that was DOWN, the link that goes DOWN, and a RESET that was answered. -/
theorem dockLineTakesTheLinkDown : Obligations.DockLineTakesTheLinkDown := by
  intro s
  let t : State := { s with pins := { s.pins with dock := false }, depot := { s.depot with rx := [] } }
  have command (hrun : Running s) : exec .dockDeassert s = .next
      (if t.depotUp then (if t.depot.dispatcher = .resetting then resetOnDown t else kickBoth (linkDown t)) else t) :=
    congrArg _ (if_neg (by rw [show s.pins.resetLine = false from hrun]; nofun))
  refine ⟨rfl, fun hrun hdown => ?_, fun hrun hup hnot => ?_, fun hrun hup hresetting hordered => ?_⟩
  · exact (command hrun).trans (congrArg _ (if_neg (by rw [show t.depotUp = false from hdown]; nofun)))
  · intro down numbers ended lost
    have ends : loseUpload ((t.setDepotUp false).setDepot { t.depot with tx := none }) = ended := by
      rw [loseUpload_eq (s := (t.setDepotUp false).setDepot { t.depot with tx := none }) rfl]
      rfl
    have loses : loseLoad ended = lost := by
      have same_route : ended.route = s.route := by
        rw [← ends]
        exact route_loseUpload ((t.setDepotUp false).setDepot { t.depot with tx := none })
      rw [loseLoad_eq, same_route]
    rw [command hrun, if_pos (show t.depotUp = true from hup), if_neg hnot, linkDown, ends, loses]
  · intro after
    have served : PortServes s := ((recordsOrdered_iff s).1 hordered).2
    have resets : exec .dockDeassert s = .next (resetOnDown t) :=
      (command hrun).trans (congrArg _ ((if_pos (show t.depotUp = true from hup)).trans (if_pos hresetting)))
    refine ⟨fun hidle => ?_, fun hopen => ?_⟩
    · have keeps : warmValues (linkDown t) = warmValues t := (warmValues_linkDown (s := t) served).trans (if_pos hidle)
      rw [resets, resetOnDown, if_pos (show t.uploader.state = .idle from hidle), warmResetRequest, keeps]
      exact congrArg _ (warmResetRequest_eq_started t)
    · let drawn := t.setFreeCounter (s.freeCounter + 1)
      have picks : resetOnDown t = if Config.resetBeforeLinkLost s.freeCounter then warmResetRequest drawn
          else warmResetRequest (linkDown drawn) := if_neg hopen
      by_cases hfirst : Config.resetBeforeLinkLost s.freeCounter = true
      · refine ⟨.reset, .inr rfl, ?_⟩
        have kept : retained drawn =
            { after with uploader := { after.uploader with lastEnd := some .reset }, freeCounter := s.freeCounter + 1 } := by
          have splits : retained drawn = { retained drawn with uploader := warmUploader s.uploader } := rfl
          rw [splits, warmUploader_of_open hopen]
          rfl
        rw [resets, picks, if_pos hfirst, warmResetRequest_eq_started, kept]
      · refine ⟨.linkLost, .inl rfl, ?_⟩
        have keeps := (warmValues_linkDown (s := drawn) served).trans (if_neg hopen)
        rw [resets, picks, if_neg hfirst, warmResetRequest, keeps]
        exact congrArg _ (startPart_eq_started (s := (warmValues drawn).setUploader _) rfl rfl rfl .warmRequest)

end Sys2Proof.Machine
end

