-- ==== Sys2Proof/Proofs/ReadingRequests.lean ====
section
/-! SUPPORT. The requests that read the part, EVENT_MASK and FAULT_CLEAR (R175 to R181, R184). Settles O50. -/

namespace Sys2Proof.Machine

/-! ## STATUS and COUNTERS_READ (R176, R177) -/

theorem statusSection_of_section (s : State) {n : Nat} (h : n ≤ 8) : ∃ results, statusSection s n = some results := by
  interval_cases n <;> exact ⟨_, rfl⟩

theorem statusSection_of_outside (s : State) {n : Nat} (h : 8 < n) : statusSection s n = none := by
  unfold statusSection
  split
  case h_10 => rfl
  all_goals omega

theorem counterGroup_of_outside {n : Nat} (h : 6 < n) : counterGroup n = none := by
  unfold counterGroup
  split
  case h_8 => rfl
  all_goals omega

theorem readCounters_of_bad {n clear : Nat} (h : 6 < n ∨ 1 < clear) (s : State) :
    readCounters s n clear = refuse s .badArgument := by
  unfold readCounters
  rcases h with h | h
  · rw [counterGroup_of_outside h]
  · cases counterGroup n with
    | none => rfl
    | some g =>
      simp only
      split
      case h_3 => rfl
      all_goals omega

section
variable {s : State} {n : Nat} {g : CounterGroup} (h : counterGroup n = some g)
include h

theorem readCounters_of_keep : readCounters s n 1 = acceptWith s (counterBytes (groupCounts s g)) := by
  simp only [readCounters, h]

theorem readCounters_of_clear : readCounters s n 0 = acceptWith (clearGroup s g) (counterBytes (groupCounts s g)) := by
  simp only [readCounters, h]

end

theorem length_groupCounts_clearGroup (s : State) (g : CounterGroup) :
    (groupCounts (clearGroup s g) g).length = (groupCounts s g).length := by
  cases g with
  | lanes => simp [groupCounts, clearGroup, laneCounts, List.length_flatMap]
  | decoder => simp [groupCounts, clearGroup, decoderCounts]
  | store => simp [groupCounts, clearGroup, storeCounts, createdCounts]
  | pairing | matcher | screening | links => rfl

theorem groupCounts_clearGroup_eq_zero (s : State) (g : CounterGroup) : ∀ n ∈ groupCounts (clearGroup s g) g, n = 0 := by
  cases g with
  | lanes => simp [groupCounts, clearGroup, laneCounts]
  | decoder =>
    have places (e : Option ServiceEntry) : discardCount (e.map fun x => { x with discards := 0 }) = 0 := by
      cases e <;> rfl
    simp [groupCounts, clearGroup, decoderCounts, clearDiscards, places]
  | store =>
    intro n hn
    simp [groupCounts, clearGroup, storeCounts, createdCounts, clearClassCounts] at hn
    omega
  | pairing | matcher | screening | links =>
    simp [groupCounts, clearGroup, pairingCounts, matcherCounts, screeningCounts, portCounts, clearPortCounts,
      faultCounts]

theorem groupCounts_clearGroup (s : State) (g : CounterGroup) :
    groupCounts (clearGroup s g) g = List.replicate (groupCounts s g).length 0 :=
  List.eq_replicate_iff.2 ⟨length_groupCounts_clearGroup s g, groupCounts_clearGroup_eq_zero s g⟩

/-! ## ENTRY_READ and SEGMENT_READ (R178, R179) -/

theorem readEntryAt_of_empty {s : State} (h : s.route.state = .empty) (index : Option Nat) :
    readEntryAt s index = refuse s .wrongState := if_pos h

section
variable {s : State} (hroute : s.route.state ≠ .empty)
include hroute

theorem readEntryAt_of_none : readEntryAt s none = refuse s .notFound := if_neg hroute

theorem readEntryAt_of_entry {i : Nat} {e : Entry} (he : s.book[i]? = some e) :
    readEntryAt s (some i) = acceptWith s (entryResults s i e) := by
  simp only [readEntryAt, if_neg hroute, he]

theorem readEntryAt_of_outside {i : Nat} (hi : s.book.length ≤ i) : readEntryAt s (some i) = refuse s .notFound := by
  simp only [readEntryAt, if_neg hroute, List.getElem?_eq_none hi]

theorem readSegment_of_outside {n : Nat} (hn : s.segments.length ≤ n) : readSegment s n = refuse s .badArgument := by
  rw [readSegment, if_neg hroute, List.getElem?_eq_none hn]

theorem readSegment_of_record {n : Nat} {g : Segment} (hg : s.segments[n]? = some g) :
    readSegment s n = acceptWith s (segmentResults g) := by
  rw [readSegment, if_neg hroute, hg]

end

theorem findIdx?_of_first {book pre post : List Entry} {e : Entry} {meter : Nat} (hbook : book = pre ++ e :: post)
    (hmeter : e.meterId = meter) (hpre : ∀ x ∈ pre, x.meterId ≠ meter) :
    book.findIdx? (fun x => decide (x.meterId = meter)) = some pre.length := by
  have no_earlier : pre.findIdx? (fun x => decide (x.meterId = meter)) = none :=
    List.findIdx?_eq_none_iff.2 fun x hx => by simpa using hpre x hx
  rw [hbook, List.findIdx?_append, no_earlier]
  simp [List.findIdx?_cons, hmeter]

theorem identifyResults_eq (s : State) (k : Link) : identifyResults s k =
    [0x49, 0x54, 0x08, 0x16, 1, (match s.pins.trunkRate with | .baud921600 => 0 | .baud3000000 => 1),
     (match k with | .trunk => 0 | .depot => 1), 8, 128, 16, 16, 16, 0x10, 0x00, 64, 64, 4, 1, 0, 0, 32, 128, 64, 8] := by
  unfold identifyResults
  cases s.pins.trunkRate <;> cases k <;> rfl

/-- Settles O50: each request's answer, and the one group that a COUNTERS_READ clears. -/
theorem readingAndManagementRequests : Obligations.ReadingAndManagementRequests := by
  refine ⟨fun s k f rest => ?reading, fun s k f rest => ?management⟩
  case reading =>
    intro u read
    have same_route : u.route = s.route := withRequests_route s k rest
    have same_book : u.book = s.book := withRequests_book s k rest
    have same_segments : u.segments = s.segments := withRequests_segments s k rest
    have same_pins : u.pins = s.pins := withRequests_pins s k rest
    refine ⟨fun ht => ?_, fun n ht => ⟨fun hn => ?_, fun hn => ?_⟩, fun g n clear ht => ⟨fun hg hc => ?_,
      fun hg hc => ?_, fun hbad => ?_⟩, fun meter ht => ⟨fun hempty => ?_, fun hroute hnone => ?_,
      fun hroute pre e post hbook hmeter hpre => ?_⟩, fun i ht => ⟨fun hempty => ?_, fun hroute hout => ?_,
      fun hroute e he => ?_⟩, fun n ht => ⟨fun hempty => ?_, fun hroute hout => ?_, fun hroute g hg => ?_⟩⟩
    · have answered : read (.identify k) .ok (identifyResults u k) := ht.serve (owner := ownIdentify k) rfl
      rw [identifyResults_eq, same_pins] at answered
      exact answered
    · obtain ⟨results, hresults⟩ := statusSection_of_section u hn
      refine ⟨results, hresults, ht.serve (owner := ownStatus) (a := acceptWith u results) (congrArg some ?_)⟩
      rw [readStatus, hresults]
    · refine ht.serve (owner := ownStatus) (a := refuse u .badArgument) (congrArg some ?_)
      rw [readStatus, statusSection_of_outside u hn]
    · subst hc
      exact ht.serve (owner := ownCountersRead) (congrArg some (readCounters_of_keep hg))
    · intro port t
      have cleared : clearGroup u g = t := by cases k <;> cases g <;> rfl
      refine ⟨cleared ▸ groupCounts_clearGroup u g, ?_⟩
      subst hc
      rw [← cleared]
      exact ht.serve (owner := ownCountersRead) (congrArg some (readCounters_of_clear hg))
    · exact ht.serve (owner := ownCountersRead) (congrArg some (readCounters_of_bad hbad u))
    · exact ht.serve (owner := ownEntryRead) (congrArg some (readEntryAt_of_empty (same_route ▸ hempty) _))
    · have absent : u.book.findIdx? (fun e => decide (e.meterId = meter)) = none :=
        List.findIdx?_eq_none_iff.2 fun e he => by simpa using hnone e (same_book ▸ he)
      refine ht.serve (owner := ownEntryRead) (a := refuse u .notFound) (congrArg some ?_)
      rw [absent]
      exact readEntryAt_of_none (same_route ▸ hroute)
    · have found : u.book.findIdx? (fun e => decide (e.meterId = meter)) = some pre.length :=
        findIdx?_of_first (same_book ▸ hbook) hmeter hpre
      refine ht.serve (owner := ownEntryRead) (a := acceptWith u _) (congrArg some ?_)
      rw [found]
      exact readEntryAt_of_entry (same_route ▸ hroute) (by rw [same_book, hbook]; simp)
    · exact ht.serve (owner := ownEntryRead) (congrArg some (readEntryAt_of_empty (same_route ▸ hempty) _))
    · exact ht.serve (owner := ownEntryRead)
        (congrArg some (readEntryAt_of_outside (same_route ▸ hroute) (same_book ▸ hout)))
    · exact ht.serve (owner := ownEntryRead)
        (congrArg some (readEntryAt_of_entry (same_route ▸ hroute) (same_book ▸ he)))
    · exact ht.serve (owner := ownSegmentRead) (a := refuse u .wrongState) (congrArg some (if_pos (same_route ▸ hempty)))
    · exact ht.serve (owner := ownSegmentRead)
        (congrArg some (readSegment_of_outside (same_route ▸ hroute) (same_segments ▸ hout)))
    · exact ht.serve (owner := ownSegmentRead)
        (congrArg some (readSegment_of_record (same_route ▸ hroute) (same_segments ▸ hg)))
  case management =>
    intro u
    refine ⟨fun mask ht => ⟨fun hmask => ?_, fun hmask => ?_⟩, fun ht => ?_⟩
    · have writes : writeEventMask u mask = acceptWith (u.setEvents { u.events with mask := BitVec.ofNat 8 mask })
          (bigEndian 1 u.events.mask.toNat) := if_neg (by simpa [badEventSet] using hmask)
      refine (ht.serve (owner := ownEventMask) (congrArg some writes)).trans ?_
      cases k <;> rfl
    · exact ht.serve (owner := ownEventMask) (a := refuse u .badArgument)
        (congrArg some (if_pos (by simpa [badEventSet] using hmask)))
    · refine (ht.serve (owner := ownFaultClear) rfl).trans ?_
      cases k <;> rfl

end Sys2Proof.Machine
end

