-- ==== Sys2Proof/Proofs/FamilyRequests.lean ====
section
/-! SUPPORT. FAMILY_SET and FAMILY_CLEAR (R26, R27): what a profile must be, and the requests' refusals. Settles O52. -/

namespace Sys2Proof.Machine

/-! ## Fields as spans of bytes -/

/-- The fields that are present, each as its first byte and its width. -/
def fieldSpans (fields : List (Option Nat × Nat)) : List (Nat × Nat) :=
  fields.filterMap (fun x => x.1.map (fun o => (o, x.2)))

/-- Spans that end by byte 54 and share no byte (R27). -/
def SpansApart (spans : List (Nat × Nat)) : Prop :=
  (∀ x ∈ spans, x.1 + x.2 ≤ 54) ∧ spans.Pairwise (fun x y => x.1 + x.2 ≤ y.1 ∨ y.1 + y.2 ≤ x.1)

/-- The bytes of a span. -/
def spanBytes (x : Nat × Nat) : List Nat := (List.range x.2).map (x.1 + ·)

theorem mem_spanBytes {x : Nat × Nat} {b : Nat} : b ∈ spanBytes x ↔ x.1 ≤ b ∧ b < x.1 + x.2 := by
  rw [spanBytes, List.mem_map]
  constructor
  · rintro ⟨i, hi, rfl⟩
    have := List.mem_range.1 hi
    omega
  · rintro ⟨hlow, hhigh⟩
    exact ⟨b - x.1, List.mem_range.2 (by omega), by omega⟩

theorem nodup_spanBytes (x : Nat × Nat) : (spanBytes x).Nodup :=
  List.Nodup.map (fun _ _ h => Nat.add_left_cancel h) List.nodup_range

theorem disjoint_spanBytes {x y : Nat × Nat} (hx : 0 < x.2) (hy : 0 < y.2) :
    (spanBytes x).Disjoint (spanBytes y) ↔ x.1 + x.2 ≤ y.1 ∨ y.1 + y.2 ≤ x.1 := by
  constructor
  · intro h
    by_contra hmeet
    refine h (a := max x.1 y.1) (mem_spanBytes.2 ?_) (mem_spanBytes.2 ?_) <;> omega
  · intro h b hbx hby
    have := mem_spanBytes.1 hbx
    have := mem_spanBytes.1 hby
    omega

/-- Spans are apart exactly where their bytes are below 54 and none is named twice. -/
theorem spansApart_iff {spans : List (Nat × Nat)} (hpos : ∀ x ∈ spans, 0 < x.2) :
    SpansApart spans ↔ (∀ b ∈ spans.flatMap spanBytes, b < 54) ∧ (spans.flatMap spanBytes).Nodup := by
  refine and_congr ⟨fun h b hb => ?_, fun h x hx => ?_⟩ ?_
  · obtain ⟨x, hx, hb⟩ := List.mem_flatMap.1 hb
    have := h x hx
    have := mem_spanBytes.1 hb
    omega
  · have := hpos x hx
    have := h (x.1 + x.2 - 1) (List.mem_flatMap.2 ⟨x, hx, mem_spanBytes.2 (by omega)⟩)
    omega
  · rw [List.nodup_flatMap, and_iff_right fun x _ => nodup_spanBytes x]
    exact List.Pairwise.iff_of_mem fun hx hy => (disjoint_spanBytes (hpos _ hx) (hpos _ hy)).symm

theorem fieldBytes_append_flatMap (offset : Option Nat) (width : Nat) (fields : List (Option Nat × Nat)) :
    (fieldSpans ((offset, width) :: fields)).flatMap spanBytes =
      fieldBytes offset width ++ (fieldSpans fields).flatMap spanBytes := by
  cases offset <;> rfl

theorem width_pos_of_fieldSpans {fields : List (Option Nat × Nat)} (h : ∀ x ∈ fields, 0 < x.2) :
    ∀ x ∈ fieldSpans fields, 0 < x.2 := by
  intro x hx
  obtain ⟨y, hy, hxy⟩ := List.mem_filterMap.1 hx
  obtain ⟨o, -, rfl⟩ := Option.map_eq_some_iff.1 hxy
  exact h y hy

/-! ## What a profile must be (R26, R27) -/

theorem encodingOf_eq (n : Nat) : encodingOf n = [RegisterEncoding.binary3, .binary4, .bcd][n]? := by
  rcases n with _ | _ | _ | n <;> rfl

theorem modeOf_eq (n : Nat) : modeOf n = [PairingMode.none, .extended][n]? := by
  rcases n with _ | _ | n <;> rfl

theorem profileFrom_eq_some_iff (raw : RawProfile) (p : Profile) : profileFrom raw = some p ↔
    (p.familyCode = raw.familyCode ∧ p.digits = raw.digits ∧ p.registerOffset = raw.registerOffset
      ∧ p.flagOffset = raw.flagOffset ∧ p.flagMap = raw.flagMap ∧ p.serviceOffset = raw.serviceOffset
      ∧ p.window = raw.window ∧ p.extTamperOffset = raw.extTamperOffset ∧ p.extReverseOffset = raw.extReverseOffset
      ∧ p.highRate = raw.highRate ∧ p.reverseTolerance = raw.reverseTolerance
      ∧ p.stagnationHours = raw.stagnationHours ∧ p.revisionStep = raw.revisionStep)
    ∧ encodingOf raw.encoding = some p.encoding ∧ modeOf raw.mode = some p.mode := by
  obtain ⟨⟩ := p
  unfold profileFrom
  cases encodingOf raw.encoding with
  | none => simp
  | some e =>
    cases modeOf raw.mode with
    | none => simp
    | some m =>
      simp only [Option.some.injEq, Profile.mk.injEq]
      grind

theorem profileInRange_iff (p : Profile) : profileInRange p = true ↔
    p.familyCode ≤ 255 ∧ 4 ≤ p.digits ∧ p.digits ≤ 9 ∧ p.registerOffset ≤ 53
      ∧ (∀ o ∈ p.flagOffset, o ≤ 53) ∧ (∀ x ∈ flagPositions p.flagMap, ∀ o ∈ x, o ≤ 7)
      ∧ (∀ o ∈ p.serviceOffset, o ≤ 53) ∧ 10 ≤ p.window ∧ p.window ≤ 2000 ∧ (∀ o ∈ p.extTamperOffset, o ≤ 53)
      ∧ (∀ o ∈ p.extReverseOffset, o ≤ 52) ∧ 1 ≤ p.highRate ∧ p.highRate ≤ 16777215 ∧ p.reverseTolerance ≤ 65535
      ∧ p.stagnationHours ≤ 65535 ∧ 1 ≤ p.revisionStep ∧ p.revisionStep ≤ 65535 := by
  have at_most (limit : Nat) (x : Option Nat) : optionAtMost limit x = true ↔ ∀ o ∈ x, o ≤ limit := by
    cases x <;> simp [optionAtMost]
  simp only [profileInRange, Bool.and_eq_true, decide_eq_true_iff, at_most, List.all_eq_true, and_assoc]
  exact Iff.rfl

theorem profileConsistent_iff {p : Profile} (hdigits : 4 ≤ p.digits) : profileConsistent p = true ↔
    SpansApart (fieldSpans [(some p.registerOffset, registerWidth p), (p.flagOffset, 1), (p.serviceOffset, 1)])
      ∧ SpansApart (fieldSpans [(p.extTamperOffset, 1), (p.extReverseOffset, 2)])
      ∧ (usedPositions p.flagMap).Nodup ∧ (p.flagOffset = none → ∀ x ∈ flagPositions p.flagMap, x = none)
      ∧ (p.mode = .extended → p.extTamperOffset ≠ none ∧ p.extReverseOffset ≠ none)
      ∧ (p.mode = .none → p.extTamperOffset = none ∧ p.extReverseOffset = none) := by
  have width_pos : 0 < registerWidth p := by
    unfold registerWidth
    split <;> omega
  have reading : (fieldSpans [(some p.registerOffset, registerWidth p), (p.flagOffset, 1),
      (p.serviceOffset, 1)]).flatMap spanBytes = readingFieldBytes p := by
    simp only [fieldBytes_append_flatMap, readingFieldBytes, List.append_assoc]
    rw [show (fieldSpans []).flatMap spanBytes = [] from rfl, List.append_nil]
  have extension : (fieldSpans [(p.extTamperOffset, 1), (p.extReverseOffset, 2)]).flatMap spanBytes =
      extensionFieldBytes p := by
    simp only [fieldBytes_append_flatMap, extensionFieldBytes]
    rw [show (fieldSpans []).flatMap spanBytes = [] from rfl, List.append_nil]
  have flags : (p.flagOffset.isSome || (usedPositions p.flagMap).isEmpty) = true ↔
      (p.flagOffset = none → ∀ x ∈ flagPositions p.flagMap, x = none) := by
    rw [Bool.or_eq_true, List.isEmpty_iff, usedPositions, List.filterMap_eq_nil_iff]
    cases p.flagOffset <;> simp
  rw [spansApart_iff (width_pos_of_fieldSpans (by simp [width_pos])),
    spansApart_iff (width_pos_of_fieldSpans (by simp)), reading, extension, ← flags]
  simp only [profileConsistent, Bool.and_eq_true, List.all_eq_true, decide_eq_true_iff]
  cases p.mode <;> simp [Option.isSome_iff_ne_none] <;> tauto

theorem judgeProfile_eq_some_iff (raw : RawProfile) (p : Profile) :
    judgeProfile raw = some p ↔ profileFrom raw = some p ∧ profileInRange p = true ∧ profileConsistent p = true := by
  unfold judgeProfile
  cases profileFrom raw with
  | none => simp
  | some q =>
    simp only [Option.ite_none_right_eq_some, Option.some.injEq, Bool.and_eq_true]
    grind

/-! ## The two requests (R27) -/

theorem placeOf_val (i : Fin 16) : placeOf i.val = some i := dif_pos i.isLt

theorem placeOf_of_outside {n : Nat} (h : 15 < n) : placeOf n = none := dif_neg (by omega)

theorem codeElsewhere_iff (t : Vector (Option Profile) 16) (i : Fin 16) (code : Nat) :
    codeElsewhere t i code = true ↔ ∃ j, j ≠ i ∧ t[j].map (·.familyCode) = some code := by
  simp [codeElsewhere]

theorem familyBusy_iff (s : State) (i : Fin 16) : familyBusy s i = true ↔
    (∃ o, s.decoder.offer = some o ∧ o.frame.head.familyIndex = i)
      ∨ (∃ p ∈ s.pairing.table, p.head.familyIndex = i) ∨ (∃ h ∈ s.pairing.hearings, h.familyIndex = i) := by
  cases h : s.decoder.offer <;> simp [familyBusy, h, or_assoc]

section
variable {s : State} {n : Nat} {raw : RawProfile}

theorem setFamily_of_route (h : s.route.state ≠ .empty) : setFamily s n raw = refuse s .wrongState := if_neg h

theorem clearFamily_of_route (h : s.route.state ≠ .empty) : clearFamily s n = refuse s .wrongState := if_neg h

variable (hempty : s.route.state = .empty)
include hempty

theorem setFamily_of_bad (h : 15 < n ∨ judgeProfile raw = none) : setFamily s n raw = refuse s .badArgument := by
  rw [setFamily, if_pos hempty]
  rcases h with h | h
  · rw [placeOf_of_outside h]
  · rw [h]
    cases placeOf n <;> rfl

theorem setFamily_of_good {i : Fin 16} {p : Profile} (hn : n = i.val) (hp : judgeProfile raw = some p) :
    setFamily s n raw = writeFamily s i p := by
  rw [setFamily, if_pos hempty, hn, placeOf_val, hp]

theorem clearFamily_of_bad (h : 15 < n) : clearFamily s n = refuse s .badArgument := by
  rw [clearFamily, if_pos hempty, placeOf_of_outside h]

theorem clearFamily_of_place {i : Fin 16} (hn : n = i.val) : clearFamily s n =
    if s.families[i].isNone then refuse s .notFound
    else if familyBusy s i then refuse s .busy
    else accept (s.setFamilies (s.families.set i none)) := by
  subst hn
  rw [clearFamily, if_pos hempty, placeOf_val]

end

section
variable {s : State} {i : Fin 16} {p : Profile}

theorem writeFamily_of_duplicate (h : ∃ j, j ≠ i ∧ s.families[j].map (·.familyCode) = some p.familyCode) :
    writeFamily s i p = refuse s .duplicateId := if_pos ((codeElsewhere_iff _ i _).2 h)

variable (h : ∀ j, j ≠ i → s.families[j].map (·.familyCode) ≠ some p.familyCode)
include h

theorem writeFamily_of_unique : writeFamily s i p =
    if s.families[i].isSome && familyBusy s i then refuse s .busy
    else accept (s.setFamilies (s.families.set i (some p))) := by
  refine if_neg fun hc => ?_
  obtain ⟨j, hj, e⟩ := (codeElsewhere_iff _ i _).1 hc
  exact h j hj e

theorem writeFamily_of_busy (hplace : s.families[i] ≠ none) (hbusy : familyBusy s i = true) :
    writeFamily s i p = refuse s .busy := by
  rw [writeFamily_of_unique h, Option.isSome_iff_ne_none.2 hplace, hbusy]
  rfl

theorem writeFamily_of_free (hfree : s.families[i] = none ∨ ¬ familyBusy s i = true) :
    writeFamily s i p = accept (s.setFamilies (s.families.set i (some p))) := by
  rw [writeFamily_of_unique h, if_neg]
  rw [Bool.and_eq_true, Option.isSome_iff_ne_none]
  exact fun e => hfree.elim e.1 (· e.2)

end

/-- Settles O52: the checks of a profile, and the requests in the order of R27. -/
theorem familyTableRequests : Obligations.FamilyTableRequests := by
  refine ⟨fun raw p => ?profile, fun s k f rest n => ?requests⟩
  case profile =>
    intro spans apart bits width
    have consistent (hr : profileInRange p = true) := profileConsistent_iff ((profileInRange_iff p).1 hr).2.1
    rw [judgeProfile_eq_some_iff, and_congr_right consistent, profileFrom_eq_some_iff, encodingOf_eq, modeOf_eq,
      profileInRange_iff]
    simp only [and_assoc]
    exact Iff.rfl
  case requests =>
    intro u busy
    have same_route : u.route = s.route := withRequests_route s k rest
    have same_families : u.families = s.families := withRequests_families s k rest
    have hbusy (i : Fin 16) : busy i ↔ familyBusy u i = true := by
      rw [familyBusy_iff, show u.decoder = s.decoder from withRequests_decoder s k rest,
        show u.pairing = s.pairing from withRequests_pairing s k rest]
    refine ⟨fun raw ht => ⟨fun hroute => ?_, fun hempty hbad => ?_, fun hempty i p hn hp => ⟨fun hother => ?_,
      fun hfree => ⟨fun hplace hb => ?_, fun hwrite => ?_⟩⟩⟩, fun ht => ⟨fun hroute => ?_, fun hempty hbad => ?_,
      fun hempty i hn => ⟨fun hnone => ?_, fun hplace hb => ?_, fun hplace hb => ?_⟩⟩⟩
    · exact ht.serve (owner := ownFamilySet) (congrArg some (setFamily_of_route (same_route ▸ hroute)))
    · exact ht.serve (owner := ownFamilySet) (congrArg some (setFamily_of_bad (same_route ▸ hempty) hbad))
    · exact ht.serve (owner := ownFamilySet) (congrArg some ((setFamily_of_good (same_route ▸ hempty) hn hp).trans
        (writeFamily_of_duplicate (same_families ▸ hother))))
    · exact ht.serve (owner := ownFamilySet) (congrArg some ((setFamily_of_good (same_route ▸ hempty) hn hp).trans
        (writeFamily_of_busy (same_families ▸ hfree) (same_families ▸ hplace) ((hbusy i).1 hb))))
    · refine (ht.serve (owner := ownFamilySet) (congrArg some ((setFamily_of_good (same_route ▸ hempty) hn hp).trans
        (writeFamily_of_free (same_families ▸ hfree)
          (hwrite.imp (same_families ▸ ·) (mt (hbusy i).2)))))).trans ?_
      rw [same_families]
      rfl
    · exact ht.serve (owner := ownFamilyClear) (congrArg some (clearFamily_of_route (same_route ▸ hroute)))
    · exact ht.serve (owner := ownFamilyClear) (congrArg some (clearFamily_of_bad (same_route ▸ hempty) hbad))
    all_goals have clears := clearFamily_of_place (s := u) (same_route ▸ hempty) hn
    · exact ht.serve (owner := ownFamilyClear)
        (congrArg some (clears.trans (if_pos (Option.isNone_iff_eq_none.2 (same_families ▸ hnone)))))
    all_goals have filled : ¬ u.families[i].isNone = true := mt Option.isNone_iff_eq_none.1 (same_families ▸ hplace)
    · exact ht.serve (owner := ownFamilyClear)
        (congrArg some (clears.trans ((if_neg filled).trans (if_pos ((hbusy i).1 hb)))))
    · refine (ht.serve (owner := ownFamilyClear)
        (congrArg some (clears.trans ((if_neg filled).trans (if_neg (mt (hbusy i).2 hb)))))).trans ?_
      rw [same_families]
      rfl

end Sys2Proof.Machine
end

