-- ==== Sys2Proof/Proofs/TableRequests.lean ====
section
/-! SUPPORT. SERVICE_SET, RULES_SET, ROUTING_SET and CLASS_SET (R34, R113, R138, R140). Settles O53. -/

namespace Sys2Proof.Machine

/-! ## SERVICE_SET (R34) -/

theorem actionOf_of_outside {n : Nat} (h : 2 < n) : actionOf n = none := by
  unfold actionOf
  split
  case h_4 => rfl
  all_goals omega

theorem actionOf_of_code {n : Nat} (h : n ≤ 2) :
    actionOf n = some (if n = 0 then .discard else if n = 1 then .note else .weight) := by
  interval_cases n <;> rfl

theorem serviceElsewhere_iff (t : Vector (Option ServiceEntry) 16) (i : Fin 16) (code : Nat) :
    serviceElsewhere t i code = true ↔ ∃ j, j ≠ i ∧ t[j].map (·.code) = some code := by
  simp [serviceElsewhere]

theorem setService_of_bad {s : State} {place code action weight : Nat}
    (h : 15 < place ∨ code = 0 ∨ 255 < code ∨ 2 < action ∨ 255 < weight) :
    setService s place code action weight = refuse s .badArgument := by
  by_cases hplace : 15 < place
  · simp only [setService, placeOf_of_outside hplace]
  by_cases haction : 2 < action
  · simp only [setService, actionOf_of_outside haction]
    cases placeOf place <;> rfl
  · have hvalue : code = 0 ∨ 255 < code ∨ 255 < weight := by omega
    unfold setService
    split
    · exact if_pos hvalue
    · rfl

theorem setService_of_good {s : State} {i : Fin 16} {code action weight : Nat} {a : TableAction} (hlow : 0 < code)
    (hhigh : code ≤ 255) (hweight : weight ≤ 255) (ha : actionOf action = some a) :
    setService s i.val code action weight =
      if serviceElsewhere s.services i code then refuse s .duplicateId
      else accept (s.setServices (s.services.set i
        (some { code := code, action := a, weight := weight, discards := 0 }))) := by
  simp only [setService, placeOf_val, ha]
  exact if_neg (by omega)

/-! ## RULES_SET and ROUTING_SET (R113, R138) -/

section
variable {a b c d e g h i j l m n o p alert watch : Nat}

theorem rulesFrom_of_good (hall : ∀ w ∈ [a, b, c, d, e, g, h, i, j, l, m, n, o, p, alert, watch], w ≤ 255)
    (halert : 0 < alert) (hwatch : 0 < watch) :
    rulesFrom [a, b, c, d, e, g, h, i, j, l, m, n, o, p, alert, watch] =
      some ⟨a, b, c, d, e, g, h, i, j, l, m, n, o, p, alert, watch⟩ := by
  refine if_pos ?_
  rw [Bool.and_eq_true, Bool.and_eq_true, List.all_eq_true]
  exact ⟨⟨fun w hw => decide_eq_true (hall w hw), decide_eq_true halert⟩, decide_eq_true hwatch⟩

theorem rulesFrom_of_zero (hzero : alert = 0 ∨ watch = 0) :
    rulesFrom [a, b, c, d, e, g, h, i, j, l, m, n, o, p, alert, watch] = none := by
  refine if_neg ?_
  rw [Bool.and_eq_true, Bool.and_eq_true, decide_eq_true_iff, decide_eq_true_iff]
  omega

end

theorem setRuleSet_of_rules {s : State} {weights : List Nat} {r : RuleSet} (h : rulesFrom weights = some r) :
    setRuleSet s weights = accept (s.setRules r) := by
  simp only [setRuleSet, h]

theorem setRuleSet_of_none {s : State} {weights : List Nat} (h : rulesFrom weights = none) :
    setRuleSet s weights = refuse s .badArgument := by
  simp only [setRuleSet, h]

theorem kindOfCode_of_outside {n : Nat} (h : 6 < n) : kindOfCode n = none := by
  unfold kindOfCode
  split
  case h_8 => rfl
  all_goals omega

theorem kindOfCode_recordKindCode (x : RecordKind) : kindOfCode (recordKindCode x) = some x := by cases x <;> rfl

theorem classOf_val (c : Fin 4) : classOf c.val = some c := dif_pos c.isLt

theorem classOf_of_outside {n : Nat} (h : 3 < n) : classOf n = none := dif_neg (by omega)

theorem setRouteRow_of_bad {s : State} {kind cls live : Nat} (h : 6 < kind ∨ 3 < cls ∨ 1 < live) :
    setRouteRow s kind cls live = refuse s .badArgument := by
  by_cases hkind : 6 < kind
  · simp only [setRouteRow, kindOfCode_of_outside hkind]
  by_cases hcls : 3 < cls
  · simp only [setRouteRow, classOf_of_outside hcls]
    cases kindOfCode kind <;> rfl
  · unfold setRouteRow
    split
    · exact if_neg (by omega)
    · rfl

theorem setRouteRow_of_good {s : State} {x : RecordKind} {c : Fin 4} {live : Nat} (hlive : live ≤ 1) :
    setRouteRow s (recordKindCode x) c.val live =
      accept (s.setRouting (setRoutingRow s.routing { cls := c, live := decide (live = 1) } x)) := by
  simp only [setRouteRow, kindOfCode_recordKindCode, classOf_val]
  exact if_pos hlive

/-! ## CLASS_SET (R140) -/

theorem policyOf_of_outside {n : Nat} (h : 1 < n) : policyOf n = none := by
  unfold policyOf
  split
  case h_3 => rfl
  all_goals omega

theorem policyOf_of_code {n : Nat} (h : n ≤ 1) : policyOf n = some (if n = 0 then .linear else .ring) := by
  interval_cases n <;> rfl

theorem classCount_pos_iff (st : Store) (c : Fin 4) : 0 < classCount st c ↔
    (∃ r ∈ st.index, r.head.cls = c) ∨ ∃ r slot, st.port = some (.write r slot) ∧ r.head.cls = c := by
  have index : 0 < st.index.countP (fun r => decide (r.head.cls = c)) ↔ ∃ r ∈ st.index, r.head.cls = c := by
    simp [List.countP_pos_iff]
  have port : 0 < underWrite st c ↔ ∃ r slot, st.port = some (.write r slot) ∧ r.head.cls = c := by
    unfold underWrite
    split
    · rename_i r slot hp
      split <;> simp_all
    · rename_i hno
      simp only [Nat.lt_irrefl, false_iff]
      rintro ⟨r, slot, hp, -⟩
      exact hno r slot hp
  rw [classCount, Nat.add_pos_iff_pos_or_pos, index, port]

theorem otherQuotas_eq_sum (st : Store) (c : Fin 4) :
    otherQuotas st c = ∑ d : Fin 4, if d = c then 0 else st.classes[d].quota := by
  have others (d : Fin 4) : otherQuotas st d
      = (((List.finRange 4).filter (fun x => decide (x ≠ d))).map (fun x => st.classes[x].quota)).sum := rfl
  rw [others, Fin.sum_univ_four]
  match c with
  | 0 | 1 | 2 | 3 =>
    simp [List.finRange_succ]
    omega

theorem setClassSettings_of_bad {s : State} {cls quota policy priority : Nat}
    (h : 3 < cls ∨ 65536 < quota ∨ 1 < policy ∨ 3 < priority) :
    setClassSettings s cls quota policy priority = refuse s .badArgument := by
  by_cases hcls : 3 < cls
  · simp only [setClassSettings, classOf_of_outside hcls]
  by_cases hpolicy : 1 < policy
  · simp only [setClassSettings, policyOf_of_outside hpolicy]
    cases classOf cls <;> rfl
  · unfold setClassSettings
    split
    · exact if_neg (show ¬ (quota ≤ 65536 ∧ priority ≤ 3) by omega)
    · rfl

theorem setClassSettings_of_good {s : State} {c : Fin 4} {quota policy priority : Nat} (hquota : quota ≤ 65536)
    (hpolicy : policy ≤ 1) (hpriority : priority ≤ 3) :
    setClassSettings s c.val quota policy priority =
      writeClass s c quota (if policy = 0 then .linear else .ring) priority := by
  simp only [setClassSettings, classOf_val, policyOf_of_code hpolicy]
  exact if_pos ⟨hquota, hpriority⟩

/-- Settles O53: the four settings requests in their orders. -/
theorem tableSettingRequests : Obligations.TableSettingRequests := by
  refine ⟨fun s k f rest => ?tables, fun s k f rest cls quota policy priority ht => ?classes⟩
  case tables =>
    intro u
    have same_services : u.services = s.services := withRequests_services s k rest
    refine ⟨fun place code action weight ht => ⟨fun hbad => ?_, fun i a hplace hlow hhigh hweight ha haction =>
      ⟨fun hother => ?_, fun hfree => ?_⟩⟩, fun place ht => ⟨fun hbad => ?_, fun i hplace => ?_⟩, fun ht => ?_,
      fun a b c d e g h i j l m n o p alert watch ht hall => ⟨fun halert hwatch => ?_, fun hzero => ?_⟩, fun ht => ?_,
      fun kind cls live ht => ⟨fun hbad => ?_, fun x c hkind hcls hlive => ?_⟩⟩
    · exact ht.serve (owner := ownServiceSet) (congrArg some (setService_of_bad hbad))
    · subst hplace
      have sets := setService_of_good (s := u) (i := i) hlow hhigh hweight (ha ▸ actionOf_of_code haction)
      exact ht.serve (owner := ownServiceSet)
        (congrArg some (sets.trans (if_pos ((serviceElsewhere_iff _ i code).2 (same_services ▸ hother)))))
    · subst hplace
      have sets := setService_of_good (s := u) (i := i) hlow hhigh hweight (ha ▸ actionOf_of_code haction)
      have unique : ¬ serviceElsewhere u.services i code = true := by
        rw [serviceElsewhere_iff, same_services]
        exact fun ⟨j, hj, e⟩ => hfree j hj e
      refine (ht.serve (owner := ownServiceSet) (congrArg some (sets.trans (if_neg unique)))).trans ?_
      rw [same_services]
      rfl
    · refine ht.serve (owner := ownServiceSet) (a := refuse u .badArgument) (congrArg some ?_)
      rw [clearService, placeOf_of_outside hbad]
    · subst hplace
      have clears : clearService u i.val = accept (u.setServices (u.services.set i none)) := by
        rw [clearService, placeOf_val]
      refine (ht.serve (owner := ownServiceSet) (congrArg some clears)).trans ?_
      rw [same_services]
      rfl
    · exact ht.serve (owner := ownRulesSet) rfl
    · have passes : setRuleSet u [a, b, c, d, e, g, h, i, j, l, m, n, o, p, alert, watch] =
          accept (u.setRules ⟨a, b, c, d, e, g, h, i, j, l, m, n, o, p, alert, watch⟩) :=
        setRuleSet_of_rules (rulesFrom_of_good hall halert hwatch)
      exact ht.serve (owner := ownRulesSet) (congrArg some passes)
    · exact ht.serve (owner := ownRulesSet) (congrArg some (setRuleSet_of_none (rulesFrom_of_zero hzero)))
    · exact ht.serve (owner := ownRoutingSet) rfl
    · exact ht.serve (owner := ownRoutingSet) (congrArg some (setRouteRow_of_bad hbad))
    · subst hkind hcls
      refine (ht.serve (owner := ownRoutingSet) (congrArg some (setRouteRow_of_good hlive))).trans ?_
      rw [show u.routing = s.routing from withRequests_routing s k rest]
      rfl
  case classes =>
    intro u
    have same_store : u.store = s.store := withRequests_store s k rest
    refine ⟨fun hbad => ?_, fun c hcls hquota hpolicy hpriority => ?_⟩
    · exact ht.serve (owner := ownClassSet) (congrArg some (setClassSettings_of_bad hbad))
    · intro held sum
      subst hcls
      have sets : setClassSettings u c.val quota policy priority =
          if 0 < classCount u.store c then refuse u .wrongState
          else if 65536 < quota + otherQuotas u.store c then refuse u .badArgument
          else accept (u.setClass c { u.store.classes[c] with
            quota := quota, policy := if policy = 0 then .linear else .ring, priority := priority, fullArmed := true }) :=
        setClassSettings_of_good hquota hpolicy hpriority
      have hheld : held ↔ 0 < classCount u.store c := by
        rw [same_store]
        exact (classCount_pos_iff s.store c).symm
      have hsum : quota + otherQuotas u.store c = sum := by rw [same_store, otherQuotas_eq_sum]
      rw [hsum] at sets
      refine ⟨fun h => ?_, fun h hlarge => ?_, fun h hfits => ?_⟩
      · exact ht.serve (owner := ownClassSet) (congrArg some (sets.trans (if_pos (hheld.1 h))))
      · exact ht.serve (owner := ownClassSet)
          (congrArg some (sets.trans ((if_neg (mt hheld.2 h)).trans (if_pos hlarge))))
      · refine (ht.serve (owner := ownClassSet)
          (congrArg some (sets.trans ((if_neg (mt hheld.2 h)).trans (if_neg hfits.not_gt))))).trans ?_
        rw [State.setClass, same_store]
        rfl

end Sys2Proof.Machine
end

