-- ==== Sys2Proof/Proofs/BookOpening.lean ====
section
/-! SUPPORT. BOOK_OPEN (R61, R62): its arguments, its refusals and the load it starts. Settles O54. -/

namespace Sys2Proof.Machine

theorem foreignPolicyOf_of_outside {n : Nat} (h : 2 < n) : foreignPolicyOf n = none := by
  unfold foreignPolicyOf
  split
  case h_4 => rfl
  all_goals omega

theorem foreignPolicyOf_of_code {n : Nat} (h : n ≤ 2) :
    foreignPolicyOf n = some (if n = 0 then .ignore else if n = 1 then .first else .changes) := by
  interval_cases n <;> rfl

theorem segmentSettingsInRange_iff (autoClose quietTime minDwell : Nat) :
    segmentSettingsInRange autoClose quietTime minDwell = true ↔
      autoClose ≤ 1 ∧ 10 ≤ quietTime ∧ quietTime ≤ 3600 ∧ minDwell ≤ 3600 := by
  simp only [segmentSettingsInRange, Bool.and_eq_true, decide_eq_true_iff, and_assoc]

theorem routeFrom_of_wrong {id entries segments policy : Nat}
    (h : 65535 < id ∨ entries < 1 ∨ 4096 < entries ∨ segments < 1 ∨ 64 < segments ∨ 2 < policy) :
    routeFrom id entries segments policy = none := by
  by_cases hpolicy : 2 < policy
  · rw [routeFrom, foreignPolicyOf_of_outside hpolicy]
  · simp only [routeFrom, foreignPolicyOf_of_code (Nat.le_of_not_lt hpolicy)]
    exact if_neg (by omega)

theorem routeFrom_of_right {id entries segments policy : Nat} (hid : id ≤ 65535) (hentries : 1 ≤ entries ∧ entries ≤ 4096)
    (hsegments : 1 ≤ segments ∧ segments ≤ 64) (hpolicy : policy ≤ 2) :
    routeFrom id entries segments policy = some
      { id := id, policy := if policy = 0 then .ignore else if policy = 1 then .first else .changes,
        declaredEntries := entries, declaredSegments := segments } := by
  simp only [routeFrom, foreignPolicyOf_of_code hpolicy]
  exact if_pos ⟨hid, hentries.1, hentries.2, hsegments⟩

section
variable {s : State} {k : Link} {id entries segments autoClose quietTime minDwell policy : Nat}

theorem judgeBookOpen_of_route (h : s.route.state = .running ∨ s.route.state = .ending) :
    judgeBookOpen s k id entries segments autoClose quietTime minDwell policy = refuse s .wrongState := by
  obtain h | h := h <;> simp only [judgeBookOpen, h]

theorem judgeBookOpen_of_loading (h : s.route.state = .loading) :
    judgeBookOpen s k id entries segments autoClose quietTime minDwell policy =
      if s.route.owner = some k then refuse s .wrongState else refuse s .busy := by
  simp only [judgeBookOpen, h, ownsLoad, decide_eq_true_iff]

theorem judgeBookOpen_of_free (h : s.route.state = .empty ∨ s.route.state = .ready ∨ s.route.state = .ended) :
    judgeBookOpen s k id entries segments autoClose quietTime minDwell policy =
      match routeFrom id entries segments policy with
      | some r =>
        if segmentSettingsInRange autoClose quietTime minDwell then
          accept (openBook s k r (freshSegment autoClose quietTime minDwell))
        else refuse s .badArgument
      | none => refuse s .badArgument := by
  obtain h | h | h := h <;> simp only [judgeBookOpen, h] <;> rfl

theorem judgeBookOpen_of_wrong (h : s.route.state = .empty ∨ s.route.state = .ready ∨ s.route.state = .ended)
    (hwrong : 65535 < id ∨ entries < 1 ∨ 4096 < entries ∨ segments < 1 ∨ 64 < segments ∨ 1 < autoClose
      ∨ quietTime < 10 ∨ 3600 < quietTime ∨ 3600 < minDwell ∨ 2 < policy) :
    judgeBookOpen s k id entries segments autoClose quietTime minDwell policy = refuse s .badArgument := by
  rw [judgeBookOpen_of_free h]
  by_cases hroute : 65535 < id ∨ entries < 1 ∨ 4096 < entries ∨ segments < 1 ∨ 64 < segments ∨ 2 < policy
  · rw [routeFrom_of_wrong hroute]
  · split
    · refine if_neg (mt (segmentSettingsInRange_iff autoClose quietTime minDwell).1 ?_)
      omega
    · rfl

end

/-- Settles O54: the route state, then the ranges of the arguments. -/
theorem bookOpenStartsALoad : Obligations.BookOpenStartsALoad := by
  intro s k f rest id entries segments autoClose quietTime minDwell policy ht u wrong loads
  have same_route : u.route = s.route := withRequests_route s k rest
  have serves {a : Answer} (h : judgeBookOpen u k id entries segments autoClose quietTime minDwell policy = a) :
      exec (.bookOpen k) s = .next (replied k f a.status a.results a.state) :=
    ht.serve (owner := ownBookOpen k) (congrArg some h)
  refine ⟨fun h => serves (a := refuse u .wrongState) ?_, fun h howner => serves (a := refuse u .busy) ?_,
    fun hloads hwrong => serves (a := refuse u .badArgument) ?_, fun hloads hright => ?_⟩
  · rw [← same_route] at h
    obtain hrunning | hending | ⟨hloading, howner⟩ := h
    · exact judgeBookOpen_of_route (.inl hrunning)
    · exact judgeBookOpen_of_route (.inr hending)
    · exact (judgeBookOpen_of_loading hloading).trans (if_pos howner)
  · rw [← same_route] at h howner
    exact (judgeBookOpen_of_loading h).trans (if_neg howner)
  · exact judgeBookOpen_of_wrong (same_route ▸ hloads) hwrong
  · have routed := routeFrom_of_right (id := id) (entries := entries) (segments := segments) (policy := policy)
      (by omega) (by omega) (by omega) (by omega)
    have opened : judgeBookOpen u k id entries segments autoClose quietTime minDwell policy = accept (openBook u k
        { id := id, policy := if policy = 0 then .ignore else if policy = 1 then .first else .changes,
          declaredEntries := entries, declaredSegments := segments } (freshSegment autoClose quietTime minDwell)) := by
      rw [judgeBookOpen_of_free (same_route ▸ hloads), routed]
      exact if_pos ((segmentSettingsInRange_iff _ _ _).2 (by omega))
    refine (serves opened).trans ?_
    rw [← show u.matcher = s.matcher from withRequests_matcher s k rest]
    rfl

end Sys2Proof.Machine
end

