-- ==== Sys2Proof/Proofs/SegmentRequests.lean ====
section
/-! SUPPORT. ROUTE_END, SEGMENT_CLOSE, SEGMENT_REOPEN and SEGMENT_SET (R72, R129, R130, R132). Settles O59. -/

namespace Sys2Proof.Machine

theorem closeStart_eq (book : List Entry) (n : Nat) (reason : CloseReason) (g : Segment) :
    closeStart book n reason g = { g with
      state := .closing, closeReason := some reason, deadline := none, deadlineReason := none,
      walkPosition := book.findIdx? (fun e => decide (e.segment = n)), waiting := none } := by
  rw [closeStart, entryFrom_zero]
  simp

/-! ## ROUTE_END (R72) -/

theorem endRoute_of_running {s : State} (h : s.route.state = .running) :
    endRoute s = accept ((raiseEvent (s.setRoute { s.route with state := .ending }) .routeState s.route.id 4).setSegments
      (s.segments.mapIdx (fun n g =>
        if g.state = .pending ∨ g.state = .active then closeStart s.book n .routeEnd g else g))) := by
  rw [endRoute, if_neg (not_not.2 h), closeAllOpen]
  rfl

/-! ## SEGMENT_CLOSE (R129) -/

section
variable {s : State} {n : Nat} {g : Segment}

theorem judgeSegmentClose_of_routed (hstate : s.route.state = .running ∨ s.route.state = .ending)
    (hn : n < s.route.declaredSegments) (hg : s.segments[n]? = some g) :
    judgeSegmentClose s n = match g.state with
      | .closing => refuse s .busy
      | .closed => refuse s .wrongState
      | .pending | .active => accept (s.setSegment n (closeStart s.book n .request g)) := by
  have routed : ¬ (s.route.state ≠ .running ∧ s.route.state ≠ .ending) := by tauto
  rw [judgeSegmentClose, if_neg routed, if_neg hn.not_ge, startClose, notifySegment_of_record hg, hg]
  dsimp only
  cases g.state <;> rfl

/-! ## SEGMENT_REOPEN (R130) -/

theorem reopenEntry_eq (n : Nat) : reopenEntry n = fun e =>
    if e.options.getLsbD 1 = false ∧ e.segment = n ∧ e.hearing = .missed then { e with hearing := .unheard } else e := by
  funext e
  simp only [reopenEntry, isMember, hasHold, Bool.not_eq_true']

theorem reopenSegment_counts (now : Nat) (g : Segment) :
    (reopenSegment now g).pass = g.pass + 1 ∧ (reopenSegment now g).unheard = g.unheard + g.missed := by
  unfold reopenSegment
  obtain ⟨d, r, hd⟩ := recompute_eq { g with
    state := .active, pass := g.pass + 1, unheard := g.unheard + g.missed, missed := 0, activation := some now,
    lastHeard := some now }
  rw [hd]
  exact ⟨rfl, rfl⟩

theorem reopen_eq (s : State) (n : Nat) (g : Segment) : reopen s n g =
    acceptWith ((s.setBook (s.book.map (reopenEntry n))).setSegments (s.segments.set n (reopenSegment s.clock.value g)))
      (bigEndian 1 (g.pass + 1) ++ bigEndian 2 (g.unheard + g.missed)) := by
  obtain ⟨hpass, hunheard⟩ := reopenSegment_counts s.clock.value g
  rw [← hpass, ← hunheard]
  rfl

theorem judgeSegmentReopen_of_running (hstate : s.route.state = .running) (hn : n < s.route.declaredSegments)
    (hg : s.segments[n]? = some g) :
    judgeSegmentReopen s n = match g.state with
      | .pending | .active => refuse s .wrongState
      | .closing => refuse s .busy
      | .closed => if 3 ≤ g.pass then refuse s .wrongState else reopen s n g := by
  refine (if_neg (not_not.2 hstate)).trans ((if_neg hn.not_ge).trans ?_)
  cases hx : g.state <;> simp only [hg, hx]

/-! ## SEGMENT_SET (R132) -/

theorem segmentShut_iff_of_record (hg : s.segments[n]? = some g) :
    segmentShut s n = true ↔ g.state = .closing ∨ g.state = .closed := by
  simp only [segmentShut, hg, Bool.or_eq_true, decide_eq_true_iff]

end

section
variable {s : State} {k : Link} {n autoClose quietTime minDwell : Nat}

theorem judgeSegmentSet_of_no_table (h : s.route.state = .empty ∨ s.route.state = .ending ∨ s.route.state = .ended) :
    judgeSegmentSet s k n autoClose quietTime minDwell = refuse s .wrongState := by
  obtain h | h | h := h <;> simp only [judgeSegmentSet, h]

theorem judgeSegmentSet_of_other_link (hstate : s.route.state = .loading) (howner : s.route.owner ≠ some k) :
    judgeSegmentSet s k n autoClose quietTime minDwell = refuse s .busy := by
  simp only [judgeSegmentSet, hstate, ownsLoad, decide_eq_false_iff_not]
  exact if_pos ⟨trivial, howner⟩

theorem judgeSegmentSet_of_open
    (h : (s.route.state = .loading ∧ s.route.owner = some k) ∨ s.route.state = .ready ∨ s.route.state = .running) :
    judgeSegmentSet s k n autoClose quietTime minDwell =
      if s.route.declaredSegments ≤ n ∨ segmentSettingsInRange autoClose quietTime minDwell = false then
        refuse s .badArgument
      else if s.route.state = .running ∧ segmentShut s n = true then refuse s .wrongState
      else accept (writeSegment s n autoClose quietTime minDwell) := by
  have own : ¬ (s.route.state = .loading ∧ ownsLoad s k = false) := by
    rintro ⟨hstate, howner⟩
    simp_all [ownsLoad]
  unfold judgeSegmentSet
  rw [if_neg own]
  split
  case h_1 | h_2 | h_3 => simp_all
  all_goals rfl

end

theorem segmentSettings_wrong_iff (s : State) (n autoClose quietTime minDwell : Nat) :
    (s.route.declaredSegments ≤ n ∨ segmentSettingsInRange autoClose quietTime minDwell = false) ↔
      s.route.declaredSegments ≤ n ∨ 1 < autoClose ∨ quietTime < 10 ∨ 3600 < quietTime ∨ 3600 < minDwell := by
  rw [← Bool.not_eq_true, segmentSettingsInRange_iff]
  omega

/-- Settles O59: for each request the route state, the segment number and the state of its segment. -/
theorem routeEndAndSegmentRequests : Obligations.RouteEndAndSegmentRequests := by
  intro s k f rest u closing refused
  have same_route : u.route = s.route := withRequests_route s k rest
  have same_book : u.book = s.book := withRequests_book s k rest
  have same_segments : u.segments = s.segments := withRequests_segments s k rest
  have same_clock : u.clock = s.clock := withRequests_clock s k rest
  have closes (n : Nat) (reason : CloseReason) (g : Segment) : closeStart s.book n reason g = closing n reason g :=
    closeStart_eq s.book n reason g
  refine ⟨fun ht => ?ends, fun n ht => ?closes, fun n ht => ?reopens, fun n autoClose quietTime minDwell ht => ?sets⟩
  case ends =>
    have serves {a : Answer} (h : endRoute u = a) :
        exec (.routeEnd k) s = .next (replied k f a.status a.results a.state) :=
      ht.serve (owner := ownRouteEnd) (congrArg some h)
    refine ⟨fun h => serves (a := refuse u .wrongState) (if_pos (same_route ▸ h)), fun h => ?_⟩
    have table : u.segments.mapIdx (fun n g =>
        if g.state = .pending ∨ g.state = .active then closeStart u.book n .routeEnd g else g) =
        s.segments.mapIdx (fun n g =>
          if g.state = .pending ∨ g.state = .active then closing n .routeEnd g else g) := by
      rw [same_segments, same_book]
      simp only [closes]
    refine (serves (endRoute_of_running (same_route ▸ h))).trans ?_
    rw [table, same_route]
    rfl
  case closes =>
    have serves {a : Answer} (h : judgeSegmentClose u n = a) :
        exec (.segmentClose k) s = .next (replied k f a.status a.results a.state) :=
      ht.serve (owner := ownSegmentClose) (congrArg some h)
    refine ⟨fun h => serves (a := refuse u .wrongState) (if_pos ?_), fun h hn =>
      serves (a := refuse u .badArgument) ?_, fun h hn g hg => ?_⟩
    · rw [same_route]
      exact not_or.1 h
    · rw [← same_route] at h hn
      exact (if_neg (by tauto)).trans (if_pos hn)
    · rw [← same_route] at h hn
      rw [← same_segments] at hg
      have judged := judgeSegmentClose_of_routed h hn hg
      refine ⟨fun hstate => serves (a := refuse u .busy) ?_, fun hstate => serves (a := refuse u .wrongState) ?_,
        fun hstate => (serves (a := accept (u.setSegment n (closeStart u.book n .request g))) ?_).trans ?_⟩
      · rw [judged, hstate]
      · rw [judged, hstate]
      · rw [judged]
        obtain hstate | hstate := hstate <;> rw [hstate]
      · have start : closeStart u.book n .request g = closing n .request g := by rw [same_book, closes]
        rw [start, State.setSegment, same_segments]
        rfl
  case reopens =>
    have serves {a : Answer} (h : judgeSegmentReopen u n = a) :
        exec (.segmentReopen k) s = .next (replied k f a.status a.results a.state) :=
      ht.serve (owner := ownSegmentReopen) (congrArg some h)
    refine ⟨fun h => serves (a := refuse u .wrongState) (if_pos (same_route ▸ h)), fun h hn =>
      serves (a := refuse u .badArgument) ?_, fun h hn g hg => ?_⟩
    · rw [← same_route] at h hn
      exact (if_neg (not_not.2 h)).trans (if_pos hn)
    · rw [← same_route] at h hn
      rw [← same_segments] at hg
      have judged := judgeSegmentReopen_of_running h hn hg
      refine ⟨fun hstate => serves (a := refuse u .wrongState) ?_, fun hstate => serves (a := refuse u .busy) ?_,
        fun hstate hpass => serves (a := refuse u .wrongState) ?_, fun hstate hpass =>
        (serves (a := reopen u n g) ?_).trans ?_⟩
      · rw [judged]
        obtain hstate | hstate := hstate <;> rw [hstate]
      · rw [judged, hstate]
      · rw [judged, hstate]
        exact if_pos hpass
      · rw [judged, hstate]
        exact if_neg hpass.not_ge
      · have reopened := reopen_eq u n g
        rw [same_book, same_clock, same_segments, reopenEntry_eq] at reopened
        rw [reopened]
        rfl
  case sets =>
    have serves {a : Answer} (h : judgeSegmentSet u k n autoClose quietTime minDwell = a) :
        exec (.segmentSet k) s = .next (replied k f a.status a.results a.state) :=
      ht.serve (owner := ownSegmentSet k) (congrArg some h)
    intro open_ wrong
    have hwrong : (u.route.declaredSegments ≤ n ∨ segmentSettingsInRange autoClose quietTime minDwell = false) ↔ wrong := by
      rw [segmentSettings_wrong_iff, same_route]
    have opens (hopen : open_) := judgeSegmentSet_of_open (s := u) (k := k) (n := n) (autoClose := autoClose)
      (quietTime := quietTime) (minDwell := minDwell) (by rw [same_route]; exact hopen)
    refine ⟨fun h => serves (a := refuse u .wrongState) (judgeSegmentSet_of_no_table (same_route ▸ h)),
      fun h howner => serves (a := refuse u .busy) (judgeSegmentSet_of_other_link (same_route ▸ h) (same_route ▸ howner)),
      fun hopen hbad => serves (a := refuse u .badArgument) ?_, fun hopen hgood g hg => ?_⟩
    · exact (opens hopen).trans (if_pos (hwrong.2 hbad))
    · rw [← same_segments] at hg
      have judged := (opens hopen).trans (if_neg (mt hwrong.1 hgood))
      have shut := segmentShut_iff_of_record hg
      rw [← same_route]
      refine ⟨fun hrunning hstate => serves (a := refuse u .wrongState) ?_, fun hfree => ?_⟩
      · exact judged.trans (if_pos ⟨hrunning, shut.2 hstate⟩)
      · have not_shut : ¬ (u.route.state = .running ∧ segmentShut u n = true) := by
          rw [shut]
          rintro ⟨hrunning, hshut | hshut⟩ <;> simp_all
        refine (serves (judged.trans (if_neg not_shut))).trans ?_
        rw [writeSegment, notifySegment_of_record hg, same_segments]
        rfl

end Sys2Proof.Machine
end

