-- ==== Sys2Proof/Proofs/RouteStart.lean ====
section
/-! SUPPORT. ROUTE_START and its execution (R71, R136): carried out, refused, or held for the builder. Settles O58. -/

namespace Sys2Proof.Machine

/-! ## Judging a ROUTE_START (R71) -/

theorem judgeRouteStart_of_not_ready {s : State} {hour : Nat} (h : s.route.state ≠ .ready) :
    judgeRouteStart s hour = refuse s .wrongState := if_pos h

theorem judgeRouteStart_of_ready {s : State} {hour : Nat} (h : s.route.state = .ready) :
    judgeRouteStart s hour = if 16777215 < hour then refuse s .badArgument else accept (startRoute s hour) :=
  if_neg (not_not.2 h)

theorem startMustWait_iff (s : State) (hour : Nat) : startMustWait s hour = true ↔
    s.route.state = .ready ∧ hour ≤ 16777215 ∧ ¬ builderReady s = true := by
  simp only [startMustWait, Bool.and_eq_true, decide_eq_true_iff, and_assoc, Bool.not_eq_true', Bool.not_eq_true]
  rfl

/-- The part with steps 1 to 5 of R71 done but for the record: the route's hour, the cache, the clock and the segments. -/
def routePrepared (s : State) (hour : Nat) : State := { s with
  route := { s.route with startHour := hour, heldHearings := 0 }
  matcher := { s.matcher with cache := [] }
  clock := { value := 0, running := true }
  segments := s.segments.mapIdx (startSegment s.book) }

/-- The record of a ROUTE_START leaves the route as the earlier steps set it. -/
theorem startRoute_eq (s : State) (hour : Nat) : startRoute s hour =
    raiseEvent ((takeGroup (routePrepared s hour) [routeStartDraft]).setRoute
      { s.route with startHour := hour, heldHearings := 0, state := .running }) .routeState s.route.id 3 := by
  have same := route_takeGroup (routePrepared s hour) [routeStartDraft]
  have started : startRoute s hour = changeRoute (takeGroup (routePrepared s hour) [routeStartDraft])
      { (takeGroup (routePrepared s hour) [routeStartDraft]).route with state := .running } := rfl
  rw [started, same]
  rfl

/-! ## Taking and executing it (R136, R173) -/

section
variable {s : State} {k : Link} {f : RequestFrame} {rest : List RequestFrame} {hour : Nat}
  (ht : Takes s k f rest (.routeStart hour))
include ht

theorem exec_routeStart : exec (.routeStart k) s = .next
    (if startMustWait (withRequests s k rest) hour then
      (withRequests s k rest).setLink k
        { (withRequests s k rest).link k with dispatcher := .routeStart f.tag hour }
    else kickBoth (finishRequest k f (judgeRouteStart (withRequests s k rest) hour))) := by
  refine (whenRunning_of_running ht.running (fun t => serveRouteStart k t)).trans ?_
  simp only [serveRouteStart, ht.takable, ht.parsed, ht.popRequest]

theorem exec_routeStart_of_judged (h : ¬ startMustWait (withRequests s k rest) hour = true) {a : Answer}
    (ha : judgeRouteStart (withRequests s k rest) hour = a) :
    exec (.routeStart k) s = .next (replied k f a.status a.results a.state) := by
  rw [exec_routeStart ht, if_neg h, ha, kickBoth_finishRequest]

end

theorem exec_routeStartExecute {s : State} {k : Link} {tag : Byte} {hour : Nat} (hrun : Running s)
    (hheld : (s.link k).dispatcher = .routeStart tag hour) : exec (.routeStartExecute k) s = .next
      (if builderReady s then
        let a := judgeRouteStart (s.setLink k { s.link k with dispatcher := .idle }) hour
        replied k { tag := tag, payload := [19] } a.status a.results a.state
      else s) := by
  refine (whenRunning_of_running hrun (fun t => executeRouteStart k t)).trans ?_
  simp only [executeRouteStart, hheld]
  rfl

/-- Settles O58: a ROUTE_START is judged at once where it would be refused, and else when the builder is ready. -/
theorem routeStartsWhenTheBuilderIsReady : Obligations.RouteStartsWhenTheBuilderIsReady := by
  intro s k hour ready starts
  have started (w : State) (hroute : w.route = s.route) (hmatcher : w.matcher = s.matcher)
      (hsegments : w.segments = s.segments) (hbook : w.book = s.book) : startRoute w hour = starts w := by
    rw [startRoute_eq]
    simp only [starts]
    rw [← hroute, ← hmatcher, ← hsegments, ← hbook]
    rfl
  have ready_iff : builderReady s = true ↔ ready := builderReady_iff s
  refine ⟨fun f rest ht => ?takes, fun tag hrun hheld hhour => ?executes⟩
  case takes =>
    intro u
    have same_route : u.route = s.route := withRequests_route s k rest
    have waits : startMustWait u hour = true ↔ s.route.state = .ready ∧ hour ≤ 16777215 ∧ ¬ ready := by
      rw [startMustWait_iff, same_route, ← ready_iff, builderReady, builderReady, withRequests_builder]
    have judged {a : Answer} := exec_routeStart_of_judged ht (a := a)
    refine ⟨fun h => judged (a := refuse u .wrongState) ?_ ?_, fun h hhour => judged (a := refuse u .badArgument) ?_ ?_,
      fun h hhour hready => (judged (a := accept (startRoute u hour)) ?_ ?_).trans ?_, fun h hhour hbusy => ?_⟩
    · exact mt waits.1 fun hw => h hw.1
    · exact judgeRouteStart_of_not_ready (same_route ▸ h)
    · exact mt waits.1 fun hw => hhour.not_ge hw.2.1
    · exact (judgeRouteStart_of_ready (same_route ▸ h)).trans (if_pos hhour)
    · exact mt waits.1 fun hw => hw.2.2 hready
    · exact (judgeRouteStart_of_ready (same_route ▸ h)).trans (if_neg hhour.not_gt)
    · rw [started u same_route (withRequests_matcher s k rest) (withRequests_segments s k rest)
        (withRequests_book s k rest)]
      rfl
    · rw [exec_routeStart ht, if_pos (waits.2 ⟨h, hhour, hbusy⟩)]
      cases k <;> rfl
  case executes =>
    intro f u
    have same_route : u.route = s.route := by cases k <;> rfl
    have executed := exec_routeStartExecute hrun hheld
    refine ⟨fun h => ?_, fun h hstate => ?_, fun h hstate => ?_⟩
    · rw [executed, if_neg (mt ready_iff.1 h)]
    · rw [executed, if_pos (ready_iff.2 h), judgeRouteStart_of_ready (s := u) (same_route ▸ hstate), if_neg hhour.not_gt,
        started u same_route (by cases k <;> rfl) (by cases k <;> rfl) (by cases k <;> rfl)]
      rfl
    · rw [executed, if_pos (ready_iff.2 h), judgeRouteStart_of_not_ready (s := u) (same_route ▸ hstate)]
      rfl

end Sys2Proof.Machine
end

