-- ==== Sys2Proof/Proofs/OptionRequests.lean ====
section
/-! SUPPORT. ENTRY_MODIFY and SEGMENT_MODIFY (R67 to R69): options, and the notices to the segment. Settles O57. -/

namespace Sys2Proof.Machine

/-! ## Options and their notice -/

theorem admissionNotice_eq (before after : Options) (x : HearingState) (g : Segment) :
    admissionNotice before after x g =
      if before.getLsbD 1 = false ∧ after.getLsbD 1 = true then noteLeave g x
      else if before.getLsbD 1 = true ∧ after.getLsbD 1 = false then noteJoin g x
      else g := by
  unfold admissionNotice hasHold
  cases before.getLsbD 1 <;> cases after.getLsbD 1 <;> rfl

theorem changeOptions_eq (clear set : Nat) (t : State) (e : Entry) : changeOptions clear set t e = { t with
    book := t.book.map (fun x =>
      if x.meterId = e.meterId then { x with options := newOptions e.options clear set } else x)
    segments :=
      match t.segments[e.segment]? with
      | some g => t.segments.set e.segment (admissionNotice e.options (newOptions e.options clear set) e.hearing g)
      | none => t.segments } := by
  let w := updateEntry t e.meterId (fun x => { x with options := newOptions e.options clear set })
  let notice := admissionNotice e.options (newOptions e.options clear set) e.hearing
  have changed : changeOptions clear set t e = notifySegment w e.segment notice := rfl
  cases hg : t.segments[e.segment]? with
  | none =>
    have stays : notifySegment w e.segment notice = w := by
      rw [notifySegment, show w.segments[e.segment]? = none from hg]
    exact changed.trans stays
  | some g => exact changed.trans (notifySegment_of_record (s := w) hg notice)

theorem optionResults_eq (o : Options) : optionResults o =
    [BitVec.ofNat 8 o.toNat, if o.getLsbD 1 then 0 else if o.getLsbD 0 then 1 else 2] := by
  rw [optionResults, bigEndian_one, bigEndian_one, admissionOf, hasHold, hasWatch]
  cases o.getLsbD 1 <;> cases o.getLsbD 0 <;> rfl

/-! ## The checks of both requests -/

theorem entryOf_of_first {s : State} {meter : Nat} {pre post : List Entry} {e : Entry} (hbook : s.book = pre ++ e :: post)
    (hmeter : e.meterId = meter) (hpre : ∀ x ∈ pre, x.meterId ≠ meter) : entryOf s meter = some e := by
  have skipped : pre.find? (fun x => decide (x.meterId = meter)) = none := by
    rw [List.find?_eq_none]
    simpa using hpre
  rw [entryOf, hbook, List.find?_append, skipped, Option.none_or]
  exact List.find?_cons_of_pos (decide_eq_true hmeter)

theorem routeUnderWay_iff (s : State) : routeUnderWay s = true ↔
    s.route.state = .ready ∨ s.route.state = .running ∨ s.route.state = .ending := by
  simp only [routeUnderWay, Bool.or_eq_true, decide_eq_true_iff, or_assoc]

theorem segmentShut_iff (s : State) (n : Nat) : segmentShut s n = true ↔
    ∃ g, s.segments[n]? = some g ∧ (g.state = .closing ∨ g.state = .closed) := by
  cases hg : s.segments[n]? with
  | none => simp [segmentShut, hg]
  | some g => simp [segmentShut_iff_of_record hg]

theorem judgeEntryModify_of_under_way {s : State} {meter clear set : Nat} (h : routeUnderWay s = true)
    (hclear : clear ≤ 7) (hset : set ≤ 7) : judgeEntryModify s meter clear set =
      match entryOf s meter with
      | none => refuse s .notFound
      | some e =>
        if segmentShut s e.segment then refuse s .wrongState
        else acceptWith (changeOptions clear set s e) (optionResults (newOptions e.options clear set)) := by
  have range : ¬ (8 ≤ clear ∨ 8 ≤ set) := by omega
  refine (if_neg (by simp [h])).trans ((if_neg range).trans ?_)
  cases entryOf s meter <;> rfl

theorem judgeSegmentModify_of_under_way {s : State} {n clear set : Nat} (h : routeUnderWay s = true)
    (hn : n < s.route.declaredSegments) (hclear : clear ≤ 7) (hset : set ≤ 7) : judgeSegmentModify s n clear set =
      if segmentShut s n then
        { state := s, status := .wrongState, results := modifyResults 0 0 (entriesOf s n).length }
      else
        let changed := (entriesOf s n).countP (fun e => decide (newOptions e.options clear set ≠ e.options))
        acceptWith ((entriesOf s n).foldl (changeOptions clear set) s)
          (modifyResults changed ((entriesOf s n).length - changed) 0) := by
  have range : ¬ (s.route.declaredSegments ≤ n ∨ 8 ≤ clear ∨ 8 ≤ set) := by omega
  rw [judgeSegmentModify, if_neg (by simp [h]), if_neg range]

/-- Settles O57: the checks in their order, then the change of each entry with the notice to its segment. -/
theorem optionsChangeWithTheSegmentCounts : Obligations.OptionsChangeWithTheSegmentCounts := by
  intro s k f rest clear set u under formed counted moved change shut admission
  have same_route : u.route = s.route := withRequests_route s k rest
  have same_book : u.book = s.book := withRequests_book s k rest
  have same_segments : u.segments = s.segments := withRequests_segments s k rest
  have under_iff : routeUnderWay u = true ↔ under := by rw [routeUnderWay_iff, same_route]
  have shut_iff (n : Nat) : segmentShut u n = true ↔ shut n := by rw [segmentShut_iff, same_segments]
  have moves (g : Segment) (e : Entry) :
      admissionNotice e.options (newOptions e.options clear set) e.hearing g = moved g e := by
    rw [admissionNotice_eq]
    cases hx : e.hearing <;> simp only [moved, hx] <;> rfl
  have changes : changeOptions clear set = change := by
    funext t e
    rw [changeOptions_eq]
    simp only [moves]
    rfl
  refine ⟨fun meter ht => ?entry, fun n ht => ?segment⟩
  case entry =>
    have serves {a : Answer} (h : judgeEntryModify u meter clear set = a) :
        exec (.entryModify k) s = .next (replied k f a.status a.results a.state) :=
      ht.serve (owner := ownEntryModify) (congrArg some h)
    have judged (h : under) := judgeEntryModify_of_under_way (meter := meter) (clear := clear) (set := set) (under_iff.2 h)
    refine ⟨fun h => serves (a := refuse u .wrongState) (if_pos ?_), fun h hbad =>
      serves (a := refuse u .badArgument) ?_, fun h hclear hset hnone => serves (a := refuse u .notFound) ?_,
      fun h hclear hset pre e post hbook hmeter hpre => ?_⟩
    · rw [← Bool.not_eq_true, under_iff]
      exact h
    · exact (if_neg (by simp [under_iff.2 h])).trans (if_pos (by omega))
    · have none : entryOf u meter = none := by
        rw [entryOf, same_book, List.find?_eq_none]
        simpa using hnone
      rw [judged h hclear hset, none]
    · have found : entryOf u meter = some e := entryOf_of_first (same_book.trans hbook) hmeter hpre
      have judged := judged h hclear hset
      rw [found] at judged
      refine ⟨fun hshut => serves (a := refuse u .wrongState) (judged.trans (if_pos ((shut_iff _).2 hshut))),
        fun hopen => (serves (judged.trans (if_neg (mt (shut_iff _).1 hopen)))).trans ?_⟩
      rw [changes, optionResults_eq]
      rfl
  case segment =>
    have serves {a : Answer} (h : judgeSegmentModify u n clear set = a) :
        exec (.segmentModify k) s = .next (replied k f a.status a.results a.state) :=
      ht.serve (owner := ownSegmentModify) (congrArg some h)
    intro es changed
    have entries : entriesOf u n = es := by rw [entriesOf, same_book]
    refine ⟨fun h => (serves (if_pos ?_)).trans rfl, fun h hbad => (serves ((if_neg ?_).trans (if_pos ?_))).trans rfl,
      fun h hn hclear hset hshut => ?_, fun h hn hclear hset hopen => ?_⟩
    · rw [← Bool.not_eq_true, under_iff]
      exact h
    · simp [under_iff.2 h]
    · rw [same_route]
      omega
    · have judged := judgeSegmentModify_of_under_way (under_iff.2 h) (same_route ▸ hn) hclear hset
      refine (serves (judged.trans (if_pos ((shut_iff _).2 hshut)))).trans ?_
      rw [entries]
      rfl
    · have judged := judgeSegmentModify_of_under_way (under_iff.2 h) (same_route ▸ hn) hclear hset
      refine (serves (judged.trans (if_neg (mt (shut_iff _).1 hopen)))).trans ?_
      rw [entries, changes]
      rfl

end Sys2Proof.Machine
end

