-- ==== Sys2Proof/Proofs/RequestReading.lean ====
section
/-! SUPPORT. Every request is read back from the payload that spells it (section 10.3, R173, R189). Settles O45. -/

namespace Sys2Proof.Machine

theorem parseRequest_of_arguments {code : Byte} {bytes : List Byte} {r : Request}
    (h : takeArguments code.toNat bytes = some (some r)) : parseRequest (code :: bytes) = .request r := by
  have read : parseRequest (code :: bytes) = match takeArguments code.toNat bytes with
      | some (some r) => .request r
      | some none => .wrongLength
      | none => .unknownCode := rfl
  rw [read, h]

/-! ## Presence bytes (R189) -/

theorem takeNat_byte (b : Byte) (rest : List Byte) : takeNat 1 (b :: rest) = some (b.toNat, rest) := by
  simp [takeNat, fromBigEndian]

theorem presence_two (a b : Bool) : (presenceByte [a, b]).toNat.testBit 0 = a ∧ (presenceByte [a, b]).toNat.testBit 1 = b := by
  cases a <;> cases b <;> decide

theorem presence_four (a b c d : Bool) :
    (presenceByte [a, b, c, d]).toNat.testBit 0 = a ∧ (presenceByte [a, b, c, d]).toNat.testBit 1 = b
      ∧ (presenceByte [a, b, c, d]).toNat.testBit 2 = c ∧ (presenceByte [a, b, c, d]).toNat.testBit 3 = d := by
  revert a b c d
  decide

theorem presence_six (a b c d e f : Bool) :
    let p := (presenceByte [a, b, c, d, e, f]).toNat
    p.testBit 0 = a ∧ p.testBit 1 = b ∧ p.testBit 2 = c ∧ p.testBit 3 = d ∧ p.testBit 4 = e ∧ p.testBit 5 = f := by
  revert a b c d e f
  decide

/-! ## Requests of fixed length -/

theorem bind_of {α β : Type} {x : Option α} {a : α} {f : α → Option β} {y : Option β} (hx : x = some a) (hf : f a = y) :
    (x >>= f) = y := by
  rw [hx]
  exact hf

theorem fits_width {width n : Nat} (h : fitsIn width n = true) : n < 256 ^ width := of_decide_eq_true h

theorem takeAll_single {width n : Nat} (h : fitsIn width n = true) :
    takeAll [width] (writeAll [(width, n)]) = some [n] := takeAll_writeAll [(width, n)] (by simpa [allFit] using h)

theorem single_bigEndian {width n : Nat} (f : Nat → Request) (h : fitsIn width n = true) :
    single width f (bigEndian width n) = some (f n) := by
  have taken := takeAll_single h
  rw [show writeAll [(width, n)] = bigEndian width n from List.append_nil _] at taken
  rw [single, taken]

theorem takeNat_written {width n : Nat} {rest : List Byte} (h : fitsIn width n = true) :
    takeNat width (bigEndian width n ++ rest) = some (n, rest) := takeNat_bigEndian width n rest (fits_width h)

theorem takeOptional_written {present : Bool} {width : Nat} {x : Option Nat} {rest : List Byte}
    (hpresent : present = x.isSome) (h : optionFits width x = true) :
    takeOptional present width (optionalBytes width x ++ rest) = some (x, rest) := by
  rw [hpresent, takeOptional_optionalBytes width x rest h]

/-! ## FAMILY_SET, BOOK_ENTRIES and UPLOAD_OPEN -/

theorem takeFlagMap_writeFlagMap (m : FlagMap) (rest : List Byte)
    (h : [m.magnet, m.tilt, m.cover, m.meterReverse, m.leak, m.lowbat].all (optionFits 1) = true) :
    takeFlagMap (writeFlagMap m ++ rest) = some (m, rest) := by
  obtain ⟨b0, b1, b2, b3, b4, b5⟩ := presence_six m.magnet.isSome m.tilt.isSome m.cover.isSome m.meterReverse.isSome
    m.leak.isSome m.lowbat.isSome
  simp only [List.all_cons, List.all_nil, Bool.and_true, Bool.and_eq_true] at h
  obtain ⟨h0, h1, h2, h3, h4, h5⟩ := h
  simp only [takeFlagMap, writeFlagMap, List.append_assoc, List.cons_append, List.nil_append, takeNat_byte, b0, b1, b2, b3, b4, b5,
    takeOptional_optionalBytes, h0, h1, h2, h3, h4, h5, Option.bind_eq_bind, Option.bind_some]

theorem takeFamilySet_writeFamilySet {index : Nat} {r : RawProfile} (hindex : fitsIn 1 index = true)
    (h : profileFits r = true) : takeFamilySet (writeFamilySet index r) = some (.familySet index r) := by
  obtain ⟨b0, b1, b2, b3⟩ := presence_four r.flagOffset.isSome r.serviceOffset.isSome r.extTamperOffset.isSome
    r.extReverseOffset.isSome
  simp only [profileFits, allFit, List.all_cons, List.all_nil, Bool.and_true, Bool.and_eq_true] at h
  obtain ⟨⟨hcode, hdigits, hencoding, hregister, hmode, hwindow, hrate, htolerance, hhours, hstep⟩,
    hflag, hservice, htamper, hreverse, hmap⟩ := h
  have map := takeFlagMap_writeFlagMap r.flagMap (h := by simpa using hmap)
  simp only [writeFamilySet, writeAll, List.append_assoc, List.cons_append, List.nil_append]
  exact bind_of (takeNat_byte _ _) <| bind_of (takeNat_written hindex) <| bind_of (takeNat_written hcode) <|
    bind_of (takeNat_written hdigits) <| bind_of (takeNat_written hencoding) <| bind_of (takeNat_written hregister) <|
    bind_of (takeOptional_written b0 hflag) <| bind_of (map _) <| bind_of (takeOptional_written b1 hservice) <|
    bind_of (takeNat_written hmode) <| bind_of (takeNat_written hwindow) <|
    bind_of (takeOptional_written b2 htamper) <| bind_of (takeOptional_written b3 hreverse) <|
    bind_of (takeNat_written hrate) <| bind_of (takeNat_written htolerance) <| bind_of (takeNat_written hhours) <|
    bind_of (takeNat_written hstep) rfl

theorem takeEntry_writeEntry {e : RawEntry} (rest : List Byte) (h : entryFits e = true) :
    takeEntry (writeEntry e ++ rest) = some (e, rest) := by
  obtain ⟨b0, b1⟩ := presence_two e.referenceReading.isSome e.referenceHour.isSome
  simp only [entryFits, allFit, List.all_cons, List.all_nil, Bool.and_true, Bool.and_eq_true] at h
  obtain ⟨⟨⟨hmeter, hcode, hsegment, hoptions⟩, hreading⟩, hhour⟩ := h
  simp only [takeEntry, writeEntry, writeAll, List.append_assoc, List.cons_append, List.nil_append, takeNat_byte,
    takeNat_bigEndian _ _ _ (fits_width hmeter), takeNat_bigEndian _ _ _ (fits_width hcode),
    takeNat_bigEndian _ _ _ (fits_width hsegment), takeNat_bigEndian _ _ _ (fits_width hoptions), b0, b1,
    takeOptional_optionalBytes, hreading, hhour, Option.bind_eq_bind, Option.bind_some]

theorem takeEntries_writeEntries {entries : List RawEntry} (h : entries.all entryFits = true) :
    takeEntries entries.length (entries.flatMap writeEntry) = some (entries, []) := by
  induction entries with
  | nil => rfl
  | cons e rest ih =>
    simp only [List.all_cons, Bool.and_eq_true] at h
    simp only [List.length_cons, List.flatMap_cons, takeEntries, takeEntry_writeEntry _ h.1, ih h.2, Option.map_some]

theorem takeBookEntries_written {first : Nat} {entries : List RawEntry} (hfirst : fitsIn 2 first = true)
    (hcount : fitsIn 1 entries.length = true) (h : entries.all entryFits = true) :
    takeBookEntries (writeAll [(2, first), (1, entries.length)] ++ entries.flatMap writeEntry) =
      some (.bookEntries first entries) := by
  simp only [takeBookEntries, writeAll, List.append_assoc, List.nil_append, takeNat_bigEndian _ _ _ (fits_width hfirst),
    takeNat_bigEndian _ _ _ (fits_width hcount), takeEntries_writeEntries h, Option.bind_eq_bind, Option.bind_some]
  rfl

theorem takeUploadOpen_written {mask : Nat} {batchSize window ackTimeout pacing : Option Nat} (hmask : fitsIn 1 mask = true)
    (hsize : optionFits 1 batchSize = true) (hwindow : optionFits 1 window = true)
    (htimeout : optionFits 2 ackTimeout = true) (hpacing : optionFits 1 pacing = true) :
    takeUploadOpen ([presenceByte [batchSize.isSome, window.isSome, ackTimeout.isSome, pacing.isSome]] ++ bigEndian 1 mask
      ++ optionalBytes 1 batchSize ++ optionalBytes 1 window ++ optionalBytes 2 ackTimeout ++ optionalBytes 1 pacing) =
      some (.uploadOpen mask batchSize window ackTimeout pacing) := by
  obtain ⟨b0, b1, b2, b3⟩ := presence_four batchSize.isSome window.isSome ackTimeout.isSome pacing.isSome
  have last : takeOptional pacing.isSome 1 (optionalBytes 1 pacing) = some (pacing, []) := by
    simpa using takeOptional_optionalBytes 1 pacing [] hpacing
  simp only [takeUploadOpen, List.append_assoc, List.cons_append, List.nil_append, takeNat_byte,
    takeNat_bigEndian _ _ _ (fits_width hmask), b0, b1, b2, b3, takeOptional_optionalBytes, hsize, hwindow, htimeout, last,
    Option.bind_eq_bind, Option.bind_some]
  rfl

/-! ## The requests of two forms -/

theorem writeAll_cons (width n : Nat) (rest : List (Nat × Nat)) :
    writeAll ((width, n) :: rest) = bigEndian width n ++ writeAll rest := rfl

theorem takeEntryRead_byId {meterId : Nat} (h : fitsIn 4 meterId = true) :
    takeEntryRead (writeAll [(1, 0), (4, meterId)]) = some (.entryById meterId) := by
  have taken : takeAll [4] (writeAll [(4, meterId)]) = some [meterId] := takeAll_single h
  rw [takeEntryRead, writeAll_cons, takeNat_written (by decide)]
  simp only [taken]

theorem takeEntryRead_byIndex {index : Nat} (h : fitsIn 2 index = true) :
    takeEntryRead (writeAll [(1, 1), (2, index)]) = some (.entryByIndex index) := by
  have taken : takeAll [2] (writeAll [(2, index)]) = some [index] := takeAll_single h
  rw [takeEntryRead, writeAll_cons, takeNat_written (by decide)]
  simp only [taken]

theorem takeServiceSet_clear {place : Nat} (h : fitsIn 1 place = true) :
    takeServiceSet (writeAll [(1, 1), (1, place)]) = some (.serviceClear place) := by
  have taken : takeAll [1] (writeAll [(1, place)]) = some [place] := takeAll_single h
  rw [takeServiceSet, writeAll_cons, takeNat_written (by decide)]
  simp only [taken]
  rfl

theorem takeServiceSet_set {place code action weight : Nat}
    (h : allFit [(1, place), (1, code), (1, action), (1, weight)] = true) :
    takeServiceSet (writeAll [(1, 0), (1, place), (1, code), (1, action), (1, weight)]) =
      some (.serviceSet place code action weight) := by
  have taken : takeAll [1, 1, 1, 1] (writeAll [(1, place), (1, code), (1, action), (1, weight)]) =
    some [place, code, action, weight] := takeAll_writeAll _ h
  rw [takeServiceSet, writeAll_cons, takeNat_written (by decide)]
  simp only [taken]
  rfl

theorem takeRoutingSet_set {kind cls live : Nat} (h : allFit [(1, kind), (1, cls), (1, live)] = true) :
    takeRoutingSet (writeAll [(1, 0), (1, kind), (1, cls), (1, live)]) = some (.routingSet kind cls live) := by
  have taken : takeAll [1, 1, 1] (writeAll [(1, kind), (1, cls), (1, live)]) = some [kind, cls, live] := takeAll_writeAll _ h
  rw [takeRoutingSet, writeAll_cons, takeNat_written (by decide)]
  simp only [taken]
  rfl

theorem takeRulesSet_set {weights : List Nat} (hlength : weights.length = 16) (h : weights.all (fitsIn 1) = true) :
    takeRulesSet (writeAll ((1, 0) :: weights.map (fun w => (1, w)))) = some (.rulesSet weights) := by
  have taken := takeAll_writeAll (weights.map (fun w => (1, w))) (by simpa [allFit] using h)
  have widths : (weights.map (fun w => (1, w))).map (·.1) = List.replicate 16 1 := by
    rw [List.map_map, ← hlength]
    exact List.map_const'
  have values : (weights.map (fun w => (1, w))).map (·.2) = weights := by
    rw [List.map_map]
    exact List.map_id weights
  rw [widths, values] at taken
  rw [takeRulesSet, writeAll_cons, takeNat_written (by decide)]
  simp only [taken]
  rfl

/-- Settles O45: request by request, what its sender writes is what the dispatcher takes. -/
theorem requestsAreReadBackAsWritten : Obligations.RequestsAreReadBackAsWritten := by
  intro r h
  cases r with
  | identify | faultClear | reset | bookClose | bookAbort | routeEnd | rulesDefaults | routingDefaults | uploadStop
  | uploadFinish => rfl
  | status | segmentRead | familyClear | segmentClose | segmentReopen | uploadPace | batchAck | batchNak | eventMask
  | routeStart => exact parseRequest_of_arguments (congrArg some (single_bigEndian _ h))
  | entryById meterId => exact parseRequest_of_arguments (congrArg some (takeEntryRead_byId h))
  | entryByIndex index => exact parseRequest_of_arguments (congrArg some (takeEntryRead_byIndex h))
  | serviceClear place => exact parseRequest_of_arguments (congrArg some (takeServiceSet_clear h))
  | serviceSet place code action weight => exact parseRequest_of_arguments (congrArg some (takeServiceSet_set h))
  | routingSet kind cls live => exact parseRequest_of_arguments (congrArg some (takeRoutingSet_set h))
  | rulesSet weights =>
    obtain ⟨hlength, hall⟩ := Bool.and_eq_true_iff.1 h
    exact parseRequest_of_arguments (congrArg some (takeRulesSet_set (of_decide_eq_true hlength) hall))
  | familySet index profile =>
    obtain ⟨hindex, hprofile⟩ := Bool.and_eq_true_iff.1 h
    exact parseRequest_of_arguments (congrArg some (takeFamilySet_writeFamilySet hindex hprofile))
  | bookEntries first entries =>
    obtain ⟨hcounts, hall⟩ := Bool.and_eq_true_iff.1 h
    obtain ⟨hfirst, hcount⟩ := Bool.and_eq_true_iff.1 hcounts
    exact parseRequest_of_arguments (congrArg some (takeBookEntries_written hfirst hcount hall))
  | uploadOpen mask batchSize window ackTimeout pacing =>
    simp only [Request.fits, Bool.and_eq_true] at h
    obtain ⟨⟨⟨⟨hmask, hsize⟩, hwindow⟩, htimeout⟩, hpacing⟩ := h
    exact parseRequest_of_arguments (congrArg some (takeUploadOpen_written hmask hsize hwindow htimeout hpacing))
  | countersRead group clear =>
    have taken : takeAll [1, 1] _ = some [group, clear] := takeAll_writeAll _ h
    exact parseRequest_of_arguments (congrArg some (by rw [takeCountersRead, taken]))
  | laneSet mask enable minRssi maxLength gapLimit =>
    have taken : takeAll [1, 1, 1, 1, 1] _ = some [mask, enable, minRssi, maxLength, gapLimit] := takeAll_writeAll _ h
    exact parseRequest_of_arguments (congrArg some (by rw [takeLaneSet, taken]))
  | bookOpen routeId entries segments autoClose quietTime minDwell policy =>
    have taken : takeAll [2, 2, 1, 1, 2, 2, 1] _ =
      some [routeId, entries, segments, autoClose, quietTime, minDwell, policy] := takeAll_writeAll _ h
    exact parseRequest_of_arguments (congrArg some (by rw [takeBookOpen, taken]))
  | entryModify meterId clear set =>
    have taken : takeAll [4, 1, 1] _ = some [meterId, clear, set] := takeAll_writeAll _ h
    exact parseRequest_of_arguments (congrArg some (by rw [takeEntryModify, taken]))
  | segmentModify n clear set =>
    have taken : takeAll [1, 1, 1] _ = some [n, clear, set] := takeAll_writeAll _ h
    exact parseRequest_of_arguments (congrArg some (by rw [takeSegmentModify, taken]))
  | segmentSet n autoClose quietTime minDwell =>
    have taken : takeAll [1, 1, 2, 2] _ = some [n, autoClose, quietTime, minDwell] := takeAll_writeAll _ h
    exact parseRequest_of_arguments (congrArg some (by rw [takeSegmentSet, taken]))
  | classSet cls quota policy priority =>
    have taken : takeAll [1, 3, 1, 1] _ = some [cls, quota, policy, priority] := takeAll_writeAll _ h
    exact parseRequest_of_arguments (congrArg some (by rw [takeClassSet, taken]))

end Sys2Proof.Machine
end

