-- ==== Sys2Proof/Proofs/LinkFrames.lean ====
section
/-! SUPPORT. The link receivers (R152, R171, R172): hunting for a start mark, the verdict on the bytes after it, and a
turn of the receiver for each verdict. Settles O46. -/

namespace Sys2Proof.Machine

/-! ## Hunting (R171) -/

/-- What is kept of a last byte that may begin a start mark. -/
def keptByte (b : Byte) : List Byte := if b = 0xA5 then [b] else []

theorem findMark_of_mark (rest : List Byte) : findMark (0xA5 :: 0x5A :: rest) = 0xA5 :: 0x5A :: rest := if_pos ⟨rfl, rfl⟩

theorem findMark_last (b : Byte) : findMark [b] = keptByte b := rfl

theorem findMark_of_no_mark {b c : Byte} {rest : List Byte} (h : ¬ (b = 0xA5 ∧ c = 0x5A)) :
    findMark (b :: c :: rest) = findMark (c :: rest) := if_neg h

/-- Bytes without 0xA5 hold no beginning of a mark. -/
theorem findMark_append {before : List Byte} (h : (0xA5 : Byte) ∉ before) (rest : List Byte) :
    findMark (before ++ rest) = findMark rest := by
  induction before with
  | nil => rfl
  | cons x before ih =>
    obtain ⟨hx, hbefore⟩ : (0xA5 : Byte) ≠ x ∧ (0xA5 : Byte) ∉ before := by simpa using h
    have skips : findMark (x :: (before ++ rest)) = findMark (before ++ rest) := by
      match before ++ rest with
      | [] => exact if_neg (Ne.symm hx)
      | y :: tail => exact findMark_of_no_mark fun hm => hx hm.1.symm
    exact skips.trans (ih hbefore)

theorem keptByte_length_lt (b : Byte) : (keptByte b).length < 2 := by
  unfold keptByte
  split <;> simp

/-! ## The verdict on the bytes after a start mark (R171) -/

/-- Kind, tag, length and payload of a REQUEST frame. -/
def requestBody (tag : Byte) (payload : List Byte) : List Byte := 1 :: tag :: (bigEndian 2 payload.length ++ payload)

theorem requestBody_length (tag : Byte) (payload : List Byte) :
    (requestBody tag payload).length = 4 + payload.length := by
  simp [requestBody]
  omega

theorem numberAt_length (kind tag high low : Byte) (rest : List Byte) :
    numberAt (kind :: tag :: high :: low :: rest) 2 2 = high.toNat * 256 + low.toNat := by
  simp [numberAt, bytesAt, fromBigEndian, List.range_succ]

theorem judgeBody_of_kind {b : Byte} (h : b ≠ 1) (rest : List Byte) : judgeBody (b :: rest) = .discard .kind := if_pos h

theorem judgeBody_of_first {body : List Byte} (hbody : body ≠ []) (h : body.getD 0 0 ≠ 1) :
    judgeBody body = .discard .kind := by
  obtain ⟨b, rest, rfl⟩ := List.exists_cons_of_ne_nil hbody
  exact judgeBody_of_kind h rest

theorem judgeBody_of_request_kind (body : List Byte) : judgeBody (1 :: body) =
    if (1 :: body : List Byte).length < 4 then .wait
    else if 1400 < numberAt (1 :: body) 2 2 then .discard .length
    else judgeFrame (1 :: body) (numberAt (1 :: body) 2 2)  := by
  have same : ¬ (1 : Byte) ≠ 1 := not_not.2 rfl
  rw [judgeBody, if_neg same]
  rfl

theorem judgeBody_of_header (tag high low : Byte) (rest : List Byte) : judgeBody (1 :: tag :: high :: low :: rest) =
    if 1400 < high.toNat * 256 + low.toNat then .discard .length
    else judgeFrame (1 :: tag :: high :: low :: rest) (high.toNat * 256 + low.toNat) := by
  rw [judgeBody_of_request_kind, if_neg (by simp), numberAt_length]

/-- The four bytes of a header spell the payload's length. -/
theorem requestBody_header (tag : Byte) {payload : List Byte} (hfits : payload.length ≤ 1400) :
    ∃ high low, requestBody tag payload = 1 :: tag :: high :: low :: payload
      ∧ high.toNat * 256 + low.toNat = payload.length := by
  obtain ⟨high, low, hbytes⟩ : ∃ high low, bigEndian 2 payload.length = [high, low] := ⟨_, _, rfl⟩
  have read := fromBigEndian_bigEndian 2 payload.length (by omega)
  refine ⟨high, low, by simp [requestBody, hbytes], ?_⟩
  rw [← read, hbytes]
  simp [fromBigEndian]

theorem judgeBody_of_request {tag : Byte} {payload : List Byte} (hfits : payload.length ≤ 1400) (rest : List Byte) :
    judgeBody (requestBody tag payload ++ rest) = judgeFrame (requestBody tag payload ++ rest) payload.length := by
  obtain ⟨high, low, hbody, hlength⟩ := requestBody_header tag hfits
  rw [hbody]
  refine (judgeBody_of_header tag high low (payload ++ rest)).trans ?_
  rw [hlength, if_neg hfits.not_gt]
  rfl

/-- With the two bytes of the CRC the frame is judged by it, and what follows is left. -/
theorem judgeBody_of_whole {tag : Byte} {payload check : List Byte} (hfits : payload.length ≤ 1400)
    (hcheck : check.length = 2) (rest : List Byte) : judgeBody (requestBody tag payload ++ (check ++ rest)) =
      if check = bigEndian 2 (crc16 (requestBody tag payload)).toNat then
        .accept { tag := tag, payload := payload } rest
      else .discard .crc := by
  have hlength := requestBody_length tag payload
  have long : ¬ (requestBody tag payload ++ (check ++ rest)).length < payload.length + 6 := by
    simp only [List.length_append]
    omega
  have body : (requestBody tag payload ++ (check ++ rest)).take (4 + payload.length) = requestBody tag payload := by
    rw [← hlength, List.take_left]
  have crc : ((requestBody tag payload ++ (check ++ rest)).drop (4 + payload.length)).take 2 = check := by
    rw [← hlength, List.drop_left, ← hcheck, List.take_left]
  have left : (requestBody tag payload ++ (check ++ rest)).drop (payload.length + 6) = rest := by
    rw [← List.append_assoc, List.drop_left' (by rw [List.length_append]; omega)]
  have content : ((requestBody tag payload ++ (check ++ rest)).drop 4).take payload.length = payload := by
    obtain ⟨high, low, hbody, -⟩ := requestBody_header tag hfits
    rw [hbody]
    exact List.take_left
  rw [judgeBody_of_request hfits, judgeFrame, if_neg long, body, crc, left, content]
  rfl

theorem judgeBody_of_right_crc {tag : Byte} {payload : List Byte} (hfits : payload.length ≤ 1400) :
    judgeBody (requestBody tag payload ++ bigEndian 2 (crc16 (requestBody tag payload)).toNat) =
      .accept { tag := tag, payload := payload } [] := by
  have judged := judgeBody_of_whole (tag := tag) hfits (bigEndian_length 2 (crc16 (requestBody tag payload)).toNat) []
  rwa [List.append_nil, if_pos rfl] at judged

theorem judgeBody_of_wrong_crc {tag c b : Byte} {payload : List Byte} (hfits : payload.length ≤ 1400)
    (hcrc : [c, b] ≠ bigEndian 2 (crc16 (requestBody tag payload)).toNat) :
    judgeBody (requestBody tag payload ++ [c, b]) = .discard .crc := by
  have judged := judgeBody_of_whole (tag := tag) (check := [c, b]) hfits rfl []
  rwa [List.append_nil, if_neg hcrc] at judged

/-- The beginning of a whole frame waits for more. -/
theorem judgeBody_of_part {tag : Byte} {payload check held rest : List Byte} (hfits : payload.length ≤ 1400)
    (hcheck : check.length = 2) (hrest : rest ≠ []) (h : held ++ rest = requestBody tag payload ++ check) :
    judgeBody held = .wait := by
  obtain ⟨high, low, hbody, hlength⟩ := requestBody_header tag hfits
  have lengths := congrArg List.length h
  rw [List.length_append, List.length_append, requestBody_length, hcheck] at lengths
  have := List.length_pos_iff.2 hrest
  rw [hbody] at h
  match held with
  | [] => rfl
  | [x] | [x, _] | [x, _, _] =>
    obtain ⟨rfl, -⟩ := List.cons_eq_cons.1 h
    rw [judgeBody_of_request_kind]
    rfl
  | x :: a :: b :: c :: tail =>
    simp only [List.cons_append, List.cons_eq_cons] at h
    obtain ⟨rfl, rfl, rfl, rfl, -⟩ := h
    rw [judgeBody_of_header, hlength, if_neg hfits.not_gt, judgeFrame, if_pos (by omega)]

/-! ## A turn of the receiver (R171, R172) -/

theorem setLink_setLink (s : State) (k : Link) (p q : LinkPort) : (s.setLink k p).setLink k q = s.setLink k q := by
  cases k <;> rfl

theorem raiseFault_setLink (s : State) (k : Link) (p : LinkPort) (x : FaultKind) (n : Nat) :
    raiseFault (s.setLink k p) x n = (raiseFault s x n).setLink k p := by
  cases k <;> rfl

theorem acceptOn_setLink (s : State) (k : Link) (p : LinkPort) :
    acceptOn (s.setLink k p) k = (acceptOn s k).setLink k p := by
  cases k <;> rfl

theorem acceptOn_eq (s : State) (k : Link) : acceptOn s k = { s with depotUp := s.depotUp || decide (k = .depot) } := by
  cases k with
  | trunk =>
    rw [show decide (Link.trunk = Link.depot) = false from rfl, Bool.or_false]
    rfl
  | depot =>
    rw [show decide (Link.depot = Link.depot) = true from rfl, Bool.or_true]
    rfl

theorem linkNumber_eq (k : Link) : linkNumber k = if k = .depot then 1 else 0 := by cases k <;> rfl

theorem queueRequest_of_room {s : State} {k : Link} {p : LinkPort} (h : p.requests.length < 8) (f : RequestFrame)
    (rest : List Byte) : queueRequest (s.setLink k p) k f rest =
      s.setLink k { p with rx := rest, requests := p.requests ++ [f], taken := bump p.taken } := by
  simp only [queueRequest, setLink_link, setLink_setLink]
  exact if_pos h

theorem queueRequest_of_full {s : State} {k : Link} {p : LinkPort} (h : 8 ≤ p.requests.length) (f : RequestFrame)
    (rest : List Byte) : queueRequest (s.setLink k p) k f rest =
      (raiseFault s .requestDrop (linkNumber k)).setLink k { p with rx := rest, dropped := bump p.dropped } := by
  simp only [queueRequest, setLink_link, setLink_setLink, raiseFault_setLink]
  exact if_neg h.not_gt

section
variable {s : State} {k : Link} {p : LinkPort} {rx : List Byte} {fuel : Nat} (hfuel : 0 < fuel)
include hfuel

theorem receive_of_short (h : (findMark rx).length < 2) :
    receive k fuel (s.setLink k { p with rx := rx }) = s.setLink k { p with rx := findMark rx } := by
  obtain ⟨n, rfl⟩ := Nat.exists_eq_add_one_of_ne_zero hfuel.ne'
  rw [receive]
  simp only [setLink_link, setLink_setLink]
  exact if_pos h

theorem receive_of_mark {body : List Byte} (h : findMark rx = 0xA5 :: 0x5A :: body) :
    receive k fuel (s.setLink k { p with rx := rx }) = match judgeBody body with
      | .wait => s.setLink k { p with rx := 0xA5 :: 0x5A :: body }
      | .discard cause => receive k (fuel - 1)
        ((raiseFault s .linkCrc (linkNumber k)).setLink k { countLinkDiscard p cause with rx := body })
      | .accept f rest => receive k (fuel - 1) (queueRequest ((acceptOn s k).setLink k { p with rx := rx }) k f rest) := by
  obtain ⟨n, rfl⟩ := Nat.exists_eq_add_one_of_ne_zero hfuel.ne'
  rw [receive]
  simp only [setLink_link, setLink_setLink, h, discardFrame, raiseFault_setLink, acceptOn_setLink]
  refine (if_neg (by simp)).trans ?_
  rw [show (0xA5 :: 0x5A :: body : List Byte).drop 2 = body from rfl]
  cases judgeBody body with
  | wait => rfl
  | discard cause => cases cause <;> rfl
  | accept f rest => rfl

theorem receive_of_wait {body : List Byte} (h : findMark rx = 0xA5 :: 0x5A :: body) (hbody : judgeBody body = .wait) :
    receive k fuel (s.setLink k { p with rx := rx }) = s.setLink k { p with rx := 0xA5 :: 0x5A :: body } := by
  rw [receive_of_mark hfuel h, hbody]

theorem receive_of_discard {body : List Byte} {cause : DiscardCause} (h : findMark rx = 0xA5 :: 0x5A :: body)
    (hbody : judgeBody body = .discard cause) : receive k fuel (s.setLink k { p with rx := rx }) = receive k (fuel - 1)
      ((raiseFault s .linkCrc (linkNumber k)).setLink k { countLinkDiscard p cause with rx := body }) := by
  rw [receive_of_mark hfuel h, hbody]

theorem receive_of_accept {body rest : List Byte} {f : RequestFrame} (h : findMark rx = 0xA5 :: 0x5A :: body)
    (hbody : judgeBody body = .accept f rest) : receive k fuel (s.setLink k { p with rx := rx }) =
      receive k (fuel - 1) (queueRequest ((acceptOn s k).setLink k { p with rx := rx }) k f rest) := by
  rw [receive_of_mark hfuel h, hbody]

end

section
variable {s : State} {k : Link} {p : LinkPort} {rx : List Byte} {fuel : Nat} {body : List Byte} (hfuel : 1 < fuel)
  (hmark : findMark rx = 0xA5 :: 0x5A :: body)
include hfuel hmark

/-- A frame that fails its check, with no further mark in its bytes. -/
theorem receive_of_last_discard {cause : DiscardCause} (hbody : judgeBody body = .discard cause)
    (hshort : (findMark body).length < 2) : receive k fuel (s.setLink k { p with rx := rx }) =
      (raiseFault s .linkCrc (linkNumber k)).setLink k { countLinkDiscard p cause with rx := findMark body } := by
  rw [receive_of_discard (by omega) hmark hbody]
  exact receive_of_short (by omega) hshort

/-- A whole frame that is the last of the bytes held, with a place in the request queue. -/
theorem receive_of_last_accept {f : RequestFrame} (hbody : judgeBody body = .accept f [])
    (hroom : p.requests.length < 8) : receive k fuel (s.setLink k { p with rx := rx }) =
      (acceptOn s k).setLink k { p with rx := [], requests := p.requests ++ [f], taken := bump p.taken } := by
  rw [receive_of_accept (by omega) hmark hbody, queueRequest_of_room (p := { p with rx := rx }) hroom]
  exact receive_of_short (rx := []) (p := { p with requests := p.requests ++ [f], taken := bump p.taken })
    (fuel := fuel - 1) (by omega) (by decide)

theorem receive_of_last_drop {f : RequestFrame} (hbody : judgeBody body = .accept f [])
    (hfull : 8 ≤ p.requests.length) : receive k fuel (s.setLink k { p with rx := rx }) =
      (raiseFault (acceptOn s k) .requestDrop (linkNumber k)).setLink k
        { p with rx := [], dropped := bump p.dropped } := by
  rw [receive_of_accept (by omega) hmark hbody, queueRequest_of_full (p := { p with rx := rx }) hfull]
  exact receive_of_short (rx := []) (p := { p with dropped := bump p.dropped }) (fuel := fuel - 1) (by omega) (by decide)

end

/-! ## LINK_BYTE (R152, R171) -/

theorem exec_linkByte {s : State} {k : Link} {b : Byte} (hrun : Running s) (hlistens : k = .depot → s.pins.dock = true)
    {rx : List Byte} (hrx : (s.link k).rx = rx) : exec (.linkByte k b) s = .next (kickBoth
      (receive k (rx.length + 2) (s.setLink k { s.link k with rx := rx ++ [b] }))) := by
  have listens : listening s k = true := by
    cases k with
    | trunk => rfl
    | depot => exact hlistens rfl
  refine (whenRunning_of_running hrun (fun t => kickBoth (linkByte t k b))).trans ?_
  subst hrx
  rw [linkByte, if_pos listens]
  simp only [List.length_append, List.length_singleton]

/-- Bytes held or dropped touch nothing that a transmitter chooses by. -/
theorem kickBoth_held {s : State} (hs : Settled s) (k : Link) (rx : List Byte) :
    kickBoth (s.setLink k { s.link k with rx := rx }) = s.setLink k { s.link k with rx := rx } := by
  refine (settled_iff _).1 ?_
  cases k <;> exact hs

theorem setLink_link_self (s : State) (k : Link) : s.setLink k (s.link k) = s := by cases k <;> rfl

/-- The bytes of a frame from its start mark on. -/
def requestFrame (tag : Byte) (payload : List Byte) : List Byte :=
  0xA5 :: 0x5A :: (requestBody tag payload ++ bigEndian 2 (crc16 (requestBody tag payload)).toNat)

section
variable {s : State} {k : Link} {b tag : Byte} {payload : List Byte} (hrun : Running s)
  (hlistens : k = .depot → s.pins.dock = true)
include hrun hlistens

theorem exec_linkByte_of_part (hs : Settled s) (hfits : payload.length ≤ 1400) {pre post : List Byte}
    (hframe : requestFrame tag payload = pre ++ b :: post) (hpost : post ≠ []) (hrx : (s.link k).rx = pre) :
    exec (.linkByte k b) s = .next (s.setLink k { s.link k with rx := pre ++ [b] }) := by
  refine (exec_linkByte hrun hlistens hrx).trans (congrArg _ ((congrArg kickBoth ?_).trans (kickBoth_held hs k (pre ++ [b]))))
  match pre with
  | [] =>
    obtain ⟨rfl, -⟩ := List.cons_eq_cons.1 hframe
    exact receive_of_short (rx := [0xA5]) (Nat.succ_pos _) (by decide)
  | [x] =>
    simp only [requestFrame, List.cons_append, List.nil_append, List.cons_eq_cons] at hframe
    obtain ⟨rfl, rfl, -⟩ := hframe
    exact receive_of_wait (Nat.succ_pos _) (findMark_of_mark []) rfl
  | x :: y :: pre =>
    simp only [requestFrame, List.cons_append, List.cons_eq_cons] at hframe
    obtain ⟨rfl, rfl, hbody⟩ := hframe
    refine receive_of_wait (Nat.succ_pos _) (findMark_of_mark (pre ++ [b])) ?_
    exact judgeBody_of_part hfits (bigEndian_length _ _) hpost (by rw [hbody]; simp)

theorem exec_linkByte_of_last (hfits : payload.length ≤ 1400) {pre : List Byte}
    (hframe : requestFrame tag payload = pre ++ [b]) (hrx : (s.link k).rx = pre) :
    ((s.link k).requests.length < 8 → exec (.linkByte k b) s = .next (kickBoth ((acceptOn s k).setLink k
      { s.link k with
        rx := [], requests := (s.link k).requests ++ [{ tag := tag, payload := payload }]
        taken := bump (s.link k).taken })))
    ∧ (8 ≤ (s.link k).requests.length → exec (.linkByte k b) s = .next (kickBoth
      ((raiseFault (acceptOn s k) .requestDrop (linkNumber k)).setLink k
        { s.link k with rx := [], dropped := bump (s.link k).dropped }))) := by
  have taken := exec_linkByte (b := b) hrun hlistens hrx
  rw [← hframe] at taken
  have mark : findMark (requestFrame tag payload) = requestFrame tag payload := findMark_of_mark _
  have judged := judgeBody_of_right_crc (tag := tag) hfits
  refine ⟨fun hroom => ?_, fun hfull => ?_⟩
  · rw [taken, receive_of_last_accept (by omega) mark judged hroom]
  · rw [taken, receive_of_last_drop (by omega) mark judged hfull]

/-- Without a start mark the receiver goes on hunting. -/
theorem exec_linkByte_of_hunting (hs : Settled s) {rx : List Byte} (hrx : (s.link k).rx = rx)
    (h : (findMark (rx ++ [b])).length < 2) :
    exec (.linkByte k b) s = .next (s.setLink k { s.link k with rx := findMark (rx ++ [b]) }) := by
  rw [exec_linkByte hrun hlistens hrx, receive_of_short (Nat.succ_pos _) h, kickBoth_held hs]

/-- The bytes after a start mark fail a check, and hold no further mark. -/
theorem exec_linkByte_of_discard {body : List Byte} {cause : DiscardCause} (hrx : (s.link k).rx ++ [b] = 0xA5 :: 0x5A :: body)
    (hbody : judgeBody body = .discard cause) (hmark : findMark body = keptByte b) :
    exec (.linkByte k b) s = .next (kickBoth ((raiseFault s .linkCrc (linkNumber k)).setLink k
      { countLinkDiscard (s.link k) cause with rx := keptByte b })) := by
  rw [exec_linkByte hrun hlistens rfl, hrx, receive_of_last_discard (by omega) (findMark_of_mark body) hbody
    (hmark ▸ keptByte_length_lt b), hmark]

/-- The bytes after a start mark fail a check, and hold a further mark. -/
theorem exec_linkByte_of_inner {body inner : List Byte} {cause : DiscardCause}
    (hrx : (s.link k).rx ++ [b] = 0xA5 :: 0x5A :: body) (hbody : judgeBody body = .discard cause)
    (hmark : findMark body = 0xA5 :: 0x5A :: inner) {p : LinkPort} (hp : countLinkDiscard (s.link k) cause = p) :
    (judgeBody inner = .wait → exec (.linkByte k b) s = .next (kickBoth
      ((raiseFault s .linkCrc (linkNumber k)).setLink k { p with rx := 0xA5 :: 0x5A :: inner })))
    ∧ (∀ f, judgeBody inner = .accept f [] → (s.link k).requests.length < 8 → exec (.linkByte k b) s = .next (kickBoth
      ((acceptOn (raiseFault s .linkCrc (linkNumber k)) k).setLink k
        { p with rx := [], requests := p.requests ++ [f], taken := bump p.taken })))
    ∧ (∀ second, judgeBody inner = .discard second → findMark inner = keptByte b →
      exec (.linkByte k b) s = .next (kickBoth
        ((raiseFault (raiseFault s .linkCrc (linkNumber k)) .linkCrc (linkNumber k)).setLink k
          { countLinkDiscard p second with rx := keptByte b }))) := by
  subst hp
  have fuel : 2 < (s.link k).rx.length + 2 := by
    have := congrArg List.length hrx
    simp only [List.length_append, List.length_cons, List.length_nil] at this
    omega
  have taken : exec (.linkByte k b) s = .next (kickBoth (receive k ((s.link k).rx.length + 2 - 1)
      ((raiseFault s .linkCrc (linkNumber k)).setLink k { countLinkDiscard (s.link k) cause with rx := body }))) := by
    rw [exec_linkByte hrun hlistens rfl, hrx, receive_of_discard (by omega) (findMark_of_mark body) hbody]
  refine ⟨fun hwait => ?_, fun f haccept hroom => ?_, fun second hsecond hlast => ?_⟩
  · rw [taken, receive_of_wait (by omega) hmark hwait]
  · have same : (countLinkDiscard (s.link k) cause).requests = (s.link k).requests := by cases cause <;> rfl
    rw [taken, receive_of_last_accept (by omega) hmark haccept (same ▸ hroom)]
  · rw [taken, receive_of_last_discard (by omega) hmark hsecond (hlast ▸ keptByte_length_lt b), hlast]

end

/-- Settles O46: the bytes held decide the verdict, and each verdict is a turn of the receiver. -/
theorem linkFramesAreAcceptedOrDiscarded : Obligations.LinkFramesAreAcceptedOrDiscarded := by
  refine ⟨fun s k tag payload hrun hs hfits hlistens => ?whole, fun s k b hrun hlistens => ?discards,
    fun s k b hrun hlistens => ?inner, fun s k b hrun hs => ⟨fun hk hdock => ?_, fun hlistens => ?hunts⟩⟩
  case whole =>
    intro body frame p up
    have ups (q : LinkPort) : up (s.setLink k q) = (acceptOn s k).setLink k q := by
      rw [← acceptOn_setLink, acceptOn_eq]
    refine ⟨fun pre b post hframe hpost hrx => exec_linkByte_of_part hrun hlistens hs hfits hframe hpost hrx,
      fun pre b hframe hrx => ?_⟩
    obtain ⟨accepted, dropped⟩ := exec_linkByte_of_last hrun hlistens hfits hframe hrx
    refine ⟨fun hroom => ?_, fun hfull => ?_⟩
    · rw [accepted hroom, ups]
    · rw [dropped hfull, ups, raiseFault_setLink, linkNumber_eq]
  case discards =>
    intro p number kept
    have faults (q : LinkPort) : raiseFault (s.setLink k q) .linkCrc number =
        (raiseFault s .linkCrc (linkNumber k)).setLink k q := by
      rw [raiseFault_setLink, linkNumber_eq]
    refine ⟨fun hrx hb => ?_, fun tag high hrx hlong hfirst hsecond => ?_, fun tag c payload hfits => ?_⟩
    · rw [faults]
      exact exec_linkByte_of_discard (cause := .kind) (body := [b]) hrun hlistens (by rw [hrx]; rfl)
        (judgeBody_of_kind hb []) rfl
    · rw [faults]
      refine exec_linkByte_of_discard (cause := .length) (body := [1, tag, high, b]) hrun hlistens (by rw [hrx]; rfl) ?_ ?_
      · rw [judgeBody_of_header, if_pos hlong]
      · rw [findMark_of_no_mark (by simp), findMark_of_no_mark hfirst, findMark_of_no_mark hsecond, findMark_last]
    · intro body hrx hbody hc hcrc
      rw [faults]
      refine exec_linkByte_of_discard (cause := .crc) (body := body ++ [c, b]) hrun hlistens ?_
        (judgeBody_of_wrong_crc hfits hcrc) ?_
      · rw [hrx]
        simp
      · rw [findMark_append hbody, findMark_of_no_mark (fun h => hc h.1), findMark_last]
  case inner =>
    intro p number up kept
    have same_number : number = linkNumber k := (linkNumber_eq k).symm
    have ups (t : State) : up t = acceptOn t k := (acceptOn_eq t k).symm
    refine ⟨fun tag high hrx hlong => ?length, fun tag c payload before inner hfits => ?crc⟩
    case length =>
      intro long
      have longs (rx : List Byte) : long rx = (raiseFault s .linkCrc (linkNumber k)).setLink k
          { p with rx := rx, discardLength := bump p.discardLength } := by
        rw [← raiseFault_setLink, ← same_number]
      have held : (s.link k).rx ++ [b] = 0xA5 :: 0x5A :: [1, tag, high, b] := by
        rw [show (s.link k).rx = _ from hrx]
        rfl
      have judged : judgeBody [1, tag, high, b] = .discard .length := by rw [judgeBody_of_header, if_pos hlong]
      have turn {inner : List Byte} (hmark : findMark [1, tag, high, b] = 0xA5 :: 0x5A :: inner) :=
        exec_linkByte_of_inner hrun hlistens held judged hmark rfl
      refine ⟨fun hhigh hb => ?_, fun htag hhigh hb => ?_, fun htag hhigh hb => ?_⟩
      · subst hhigh hb
        obtain ⟨waits, -, -⟩ := turn (inner := [])
          ((findMark_of_no_mark (by simp)).trans ((findMark_of_no_mark (by simp)).trans (findMark_of_mark [])))
        rw [longs]
        exact waits rfl
      · subst htag hhigh hb
        obtain ⟨waits, -, -⟩ := turn (inner := [1]) ((findMark_of_no_mark (by simp)).trans (findMark_of_mark [1]))
        rw [longs]
        exact waits rfl
      · subst htag hhigh
        obtain ⟨-, -, fails⟩ := turn (inner := [b]) ((findMark_of_no_mark (by simp)).trans (findMark_of_mark [b]))
        rw [longs, setLink_setLink, raiseFault_setLink, same_number]
        exact fails .kind (judgeBody_of_kind hb []) rfl
    case crc =>
      intro body hbody hbefore hrx hcrc failed found
      have fails (rx : List Byte) : failed rx = (raiseFault s .linkCrc (linkNumber k)).setLink k
          { p with rx := rx, discardCrc := bump p.discardCrc } := by
        rw [← raiseFault_setLink, ← same_number]
      have held : (s.link k).rx ++ [b] = 0xA5 :: 0x5A :: (body ++ [c, b]) := by
        rw [show (s.link k).rx = _ from hrx]
        simp
      have marked : findMark (body ++ [c, b]) = 0xA5 :: 0x5A :: found := by
        rw [hbody, List.append_assoc, findMark_append hbefore]
        exact findMark_of_mark _
      obtain ⟨waits, accepts, discards⟩ :=
        exec_linkByte_of_inner hrun hlistens held (judgeBody_of_wrong_crc hfits hcrc) marked rfl
      refine ⟨fun mark content hcontent => ⟨fun hfound hroom => ?_, fun check rest hcheck hrest hfound => ?_⟩,
        fun hkind hinner hc => ?_⟩
      · rw [ups, fails, setLink_setLink, acceptOn_setLink]
        refine accepts { tag := mark, payload := content } ?_ hroom
        rw [hfound]
        exact judgeBody_of_right_crc hcontent
      · rw [fails]
        exact waits (judgeBody_of_part hcontent hcheck hrest hfound)
      · rw [fails, setLink_setLink, raiseFault_setLink, same_number]
        refine discards .kind (judgeBody_of_first (by simp [found]) hkind) ?_
        rw [findMark_append hinner, findMark_of_no_mark (fun h => hc h.1), findMark_last]
  case hunts =>
    intro p
    refine ⟨fun hrx hb => ?_, fun hrx hb => ?_⟩
    · have dropped : findMark ([] ++ [b]) = (s.link k).rx := (if_neg hb).trans hrx.symm
      rw [exec_linkByte_of_hunting hrun hlistens hs hrx (by rw [dropped, show (s.link k).rx = [] from hrx]; decide), dropped]
      exact congrArg _ (setLink_link_self s k)
    · have last : findMark ([0xA5] ++ [b]) = keptByte b := findMark_of_no_mark fun h => hb h.2
      rw [exec_linkByte_of_hunting hrun hlistens hs hrx (last ▸ keptByte_length_lt b), last]
      rfl
  · have deaf : linkByte s k b = s := by
      subst hk
      exact if_neg (by simp [listening, hdock])
    refine (whenRunning_of_running hrun (fun t => kickBoth (linkByte t k b))).trans ?_
    rw [deaf, (settled_iff s).1 hs]

end Sys2Proof.Machine
end
